-- ==== Sys2Proof/Word.lean ====
section
/-! DEFINITION. The block's word types and nothing else: the byte of a frame or a packet, and the two whole
frames (00_scope.md R6: `LEN_SHORT` is 56 bits, `LEN_LONG` is 112 bits). -/

namespace Sys2Proof

/-- One byte of a packet, a frame or the input buffer. -/
abbrev Byte := BitVec 8

/-- A short frame, seven bytes; position 0 is the most significant bit (00_scope.md R9). -/
abbrev Short := BitVec 56

/-- A long frame, fourteen bytes; position 0 is the most significant bit (00_scope.md R9). -/
abbrev Long := BitVec 112

end Sys2Proof
end

