-- ==== Sys2Proof/Config.lean ====
section
/-! DEFINITION. The configuration: the constants of 00_scope.md R6, the decided sizes of R7, and the type of its open
parameters. A block's parameters stand in the read-only field `params` of its state, through which `exec` and `step` take
them; their default, `Config.params`, stands in Machine/Layout.lean (log 8). The spec leaves no result value open, so no
opaque constant is needed (INVENTORY.md, What the manual leaves open). -/

namespace Sys2Proof.Config

/-! ### Constants -/

/-- `NBITS_W`, bits of `NBITS` (00_scope.md R7, D23). -/
abbrev nbitsW : Nat := 5

/-- `BUF_BYTES`, bytes the input buffer holds (00_scope.md R7, D4). -/
abbrev bufBytes : Nat := 14

/-- `CRC_MIN_LEN`, the shortest buffer the CRC commands accept (00_scope.md R7, D15). -/
abbrev crcMinLen : Nat := 3

/-- `GEN`, the 25-bit generator (00_scope.md R6, 40_crc.md R120). -/
abbrev gen : BitVec 25 := 0x1FFF409

/-- `NZ`, the number of latitude zones (00_scope.md R6, 42_cpr.md R170). -/
abbrev nz : Nat := 15

/-! ### `LAYOUT`: the tables of 30_encoding.md R89 to R103 -/

/-- A field of `w` bits in a frame: its first position, position 0 the top bit of byte 0. -/
structure Span (w : Nat) where
  /-- The first position. -/
  first : Nat
  deriving DecidableEq, Repr

/-- DF 0 (30_encoding.md R89). -/
structure LayoutDf0 where
  vs : Span 1
  cc : Span 1
  x0 : Span 6
  ri : Span 4
  x1 : Span 2
  ac : Span 13
  deriving DecidableEq, Repr

/-- DF 4 and 5, and the same fields of DF 20 and 21 (30_encoding.md R90, R97). -/
structure LayoutSurveillance where
  fs : Span 3
  dr : Span 5
  um : Span 6
  /-- `ac` of DF 4 and 20, `id` of DF 5 and 21. -/
  code : Span 13
  deriving DecidableEq, Repr

/-- DF 11 (30_encoding.md R91). -/
structure LayoutDf11 where
  ca : Span 3
  aa : Span 24
  deriving DecidableEq, Repr

/-- DF 16 (30_encoding.md R92). -/
structure LayoutDf16 where
  vs : Span 1
  x0 : Span 7
  ri : Span 4
  x1 : Span 2
  ac : Span 13
  mv : Span 56
  deriving DecidableEq, Repr

/-- The resolution advisory inside `mv`, by positions in the frame (30_encoding.md R93). -/
structure LayoutAdvisory where
  /-- `mv[0]`. -/
  head : Span 8
  ara : Span 14
  rac : Span 4
  rat : Span 1
  mti : Span 1
  tti : Span 2
  tid : Span 26
  tida : Span 13
  tidr : Span 7
  tidb : Span 6
  deriving DecidableEq, Repr

/-- DF 17 (30_encoding.md R94). -/
structure LayoutDf17 where
  aa : Span 24
  tc : Span 5
  deriving DecidableEq, Repr

/-- DF 19 (30_encoding.md R96). -/
structure LayoutDf19 where
  af : Span 3
  aa : Span 24
  me : Span 56
  pi : Span 24
  deriving DecidableEq, Repr

/-- The message field of DF 20 and 21 (30_encoding.md R97). -/
structure LayoutCommB where
  mb : Span 56
  bds : Span 8
  deriving DecidableEq, Repr

/-- DF 24 to 31 (30_encoding.md R98). -/
structure LayoutCommD where
  x0 : Span 1
  ke : Span 1
  nd : Span 4
  md : Span 80
  deriving DecidableEq, Repr

/-- An airborne position (30_encoding.md R100). -/
structure LayoutPosition where
  ss : Span 2
  nicsb : Span 1
  alt : Span 12
  t : Span 1
  cprOdd : Span 1
  latCpr : Span 17
  lonCpr : Span 17
  deriving DecidableEq, Repr

/-- An airborne velocity (30_encoding.md R101). -/
structure LayoutVelocity where
  st : Span 3
  ic : Span 1
  ifr : Span 1
  nac : Span 3
  weSign : Span 1
  we : Span 10
  nsSign : Span 1
  ns : Span 10
  vrSrc : Span 1
  vrSign : Span 1
  vr : Span 9
  difSign : Span 1
  dif : Span 7
  deriving DecidableEq, Repr

/-- The names of the bits of a 13-bit `id` that `squawk` is made of, by bit number, bit 12 the first in the frame
(30_encoding.md R103). Its bit `X` is read by no rule (44_parser.md R225). -/
structure LayoutIdentity where
  a1 : Fin 13
  a2 : Fin 13
  a4 : Fin 13
  b1 : Fin 13
  b2 : Fin 13
  b4 : Fin 13
  c1 : Fin 13
  c2 : Fin 13
  c4 : Fin 13
  d1 : Fin 13
  d2 : Fin 13
  d4 : Fin 13
  deriving DecidableEq, Repr

/-- `LAYOUT` (00_scope.md R7, D10). It holds what the source omits; two tables are no part of it, because the
source itself gives them: the place of `df` (30_encoding.md R88) and the interleave of `ac` (R103). -/
structure Layout where
  df0 : LayoutDf0
  surveillance : LayoutSurveillance
  df11 : LayoutDf11
  df16 : LayoutDf16
  advisory : LayoutAdvisory
  df17 : LayoutDf17
  df19 : LayoutDf19
  commB : LayoutCommB
  commD : LayoutCommD
  /-- The callsign payload of an identification (30_encoding.md R99). -/
  callsign : Span 48
  position : LayoutPosition
  velocity : LayoutVelocity
  /-- `me` of an undecoded type code (30_encoding.md R102). -/
  opaqueMe : Span 56
  /-- The interleave of `id` (30_encoding.md R103). -/
  identity : LayoutIdentity
  deriving DecidableEq, Repr

/-! ### The parameters -/

/-- The parameters of a block (00_scope.md R7; 92_eei_decisions.md, Open parameters). -/
structure Params where
  /-- `TS_WIDTH`, bits of the timestamp (D29). -/
  tsWidth : Nat
  /-- `ANGLE_WIDTH`, bits of `LAT` and `LON` (D19). -/
  angleWidth : Nat
  /-- `ANGLE_FRAC`, fraction bits of `LAT` and `LON` (D19). -/
  angleFrac : Nat
  /-- `LAYOUT` (D10). -/
  layout : Layout
  /-- `CLIMB_VALID_ST`, the velocity subtypes with a climb rate (D26). -/
  climbValidSt : List (BitVec 3)
  deriving DecidableEq, Repr

/-- The bytes of a timestamp in a packet (30_encoding.md R82). -/
def Params.tsBytes (p : Params) : Nat := p.tsWidth / 8

/-- The bytes of an angle in a packet (30_encoding.md R82). -/
def Params.angleBytes (p : Params) : Nat := p.angleWidth / 8

end Sys2Proof.Config
end

