-- ==== Sys2Proof/Machine/Bits.lean ====
section
/-! DEFINITION. Bit fields and byte order: how a position of a bit string is read (00_scope.md R9, R10) and how bytes
make an integer, most significant byte first (20_memory.md R51, R53). -/

namespace Sys2Proof.Bits

/-- `Field(B, p, w)` of 00_scope.md R10 for a bit string of `n` bits: the `w` bits from position `p` on, most
significant first; position 0 is the top bit. Meaningful when `p + w ≤ n`. -/
def field {n : Nat} (b : BitVec n) (p w : Nat) : BitVec w := b.extractLsb' (n - (p + w)) w

/-- Bit `i` of an integer, bit 0 the least significant (`v[i]` of 00_scope.md R11), as a one-bit value. -/
def bit {n : Nat} (b : BitVec n) (i : Nat) : BitVec 1 := b.extractLsb' i 1

/-- A byte sequence read as one integer, first byte most significant (20_memory.md R51). -/
def bytesNat : List Byte → Nat
  | [] => 0
  | b :: bs => b.toNat * 256 ^ bs.length + bytesNat bs

/-- The last `n` bytes of an integer, most significant first (20_memory.md R53): the inverse of `bytesNat`. -/
def natBytes : Nat → Nat → List Byte
  | 0, _ => []
  | n + 1, v => BitVec.ofNat 8 (v / 256 ^ n) :: natBytes n v

/-- A byte sequence as a bit string of `w` bits (20_memory.md R51). -/
def bytesBits (w : Nat) (bs : List Byte) : BitVec w := BitVec.ofNat w (bytesNat bs)

/-- The number that `w` bits stand for in two's complement (30_encoding.md R105: `LAT` and `LON` of a command). -/
def signed (w v : Nat) : Int := if v < 2 ^ (w - 1) then v else (v : Int) - 2 ^ w

/-- The `w` bits of a number in two's complement: the inverse of `signed`. -/
def unsigned (w : Nat) (x : Int) : Nat := (x % 2 ^ w).toNat

/-- Does a number fit `w` bits in two's complement? -/
def fitsSigned (w : Nat) (x : Int) : Bool := decide (-2 ^ (w - 1) ≤ x) && decide (x < 2 ^ (w - 1))

end Sys2Proof.Bits
end

