-- ==== Sys2Proof/Machine/Layout.lean ====
section
/-! DEFINITION. Reading a field of a layout; the default parameters of 00_scope.md R7 with `LAYOUT` as the tables of
30_encoding.md R89 to R103 give it (log 8); and what the spec requires of any parameters (30_encoding.md R104,
92_eei_decisions.md, Open parameters). Most positions are, by the spec's own marks, from general knowledge of Mode S and
not from its source. -/

namespace Sys2Proof

/-- `Field(BUF, p, w)` for a field's position and width (30_encoding.md R105). -/
def Config.Span.get {n w : Nat} (sp : Config.Span w) (f : BitVec n) : BitVec w := Bits.field f sp.first w

/-! ### The defaults -/

/-- `LAYOUT` at its default (30_encoding.md R89 to R103). -/
def Config.layout : Config.Layout where
  df0 := { vs := ⟨5⟩, cc := ⟨6⟩, x0 := ⟨7⟩, ri := ⟨13⟩, x1 := ⟨17⟩, ac := ⟨19⟩ }
  surveillance := { fs := ⟨5⟩, dr := ⟨8⟩, um := ⟨13⟩, code := ⟨19⟩ }
  df11 := { ca := ⟨5⟩, aa := ⟨8⟩ }
  df16 := { vs := ⟨5⟩, x0 := ⟨6⟩, ri := ⟨13⟩, x1 := ⟨17⟩, ac := ⟨19⟩, mv := ⟨32⟩ }
  advisory :=
    { head := ⟨32⟩, ara := ⟨40⟩, rac := ⟨54⟩, rat := ⟨58⟩, mti := ⟨59⟩, tti := ⟨60⟩, tid := ⟨62⟩, tida := ⟨62⟩,
      tidr := ⟨75⟩, tidb := ⟨82⟩ }
  df17 := { aa := ⟨8⟩, tc := ⟨32⟩ }
  df19 := { af := ⟨5⟩, aa := ⟨8⟩, me := ⟨32⟩, pi := ⟨88⟩ }
  commB := { mb := ⟨32⟩, bds := ⟨32⟩ }
  commD := { x0 := ⟨2⟩, ke := ⟨3⟩, nd := ⟨4⟩, md := ⟨8⟩ }
  callsign := ⟨40⟩
  position :=
    { ss := ⟨37⟩, nicsb := ⟨39⟩, alt := ⟨40⟩, t := ⟨52⟩, cprOdd := ⟨53⟩, latCpr := ⟨54⟩, lonCpr := ⟨71⟩ }
  velocity :=
    { st := ⟨37⟩, ic := ⟨40⟩, ifr := ⟨41⟩, nac := ⟨42⟩, weSign := ⟨45⟩, we := ⟨46⟩, nsSign := ⟨56⟩, ns := ⟨57⟩,
      vrSrc := ⟨67⟩, vrSign := ⟨68⟩, vr := ⟨69⟩, difSign := ⟨80⟩, dif := ⟨81⟩ }
  opaqueMe := ⟨32⟩
  identity :=
    { c1 := 12, a1 := 11, c2 := 10, a2 := 9, c4 := 8, a4 := 7, b1 := 5, d1 := 4, b2 := 3, d2 := 2, b4 := 1, d4 := 0 }

/-- The parameters at their defaults (00_scope.md R7; log 8). -/
def Config.params : Config.Params where
  tsWidth := 64
  angleWidth := 32
  angleFrac := 22
  layout := Config.layout
  climbValidSt := [1, 3]

/-! ### What the spec requires of parameters -/

/-- A field as its first position and its width. -/
abbrev Config.Span.pair {w : Nat} (sp : Config.Span w) : Nat × Nat := (sp.first, w)

/-- The fields lie in the given order without overlap, the first not before `lo`, the last not beyond `hi`. -/
def spansOrdered : Nat → Nat → List (Nat × Nat) → Bool
  | lo, hi, [] => decide (lo ≤ hi)
  | lo, hi, (p, w) :: rest => decide (lo ≤ p) && spansOrdered (p + w) hi rest

/-- How many of the fields cover a position. -/
def spansOver (spans : List (Nat × Nat)) (p : Nat) : Nat :=
  spans.countP fun e => decide (e.1 ≤ p) && decide (p < e.1 + e.2)

/-- The fields fill the positions from `lo` up to `hi`: none lies outside, and each position belongs to exactly one. -/
def spansFill (lo hi : Nat) (spans : List (Nat × Nat)) : Bool :=
  (spans.all fun e => decide (lo ≤ e.1) && decide (e.1 + e.2 ≤ hi)) &&
    (List.range hi).all fun p => decide (p < lo) || spansOver spans p == 1

/-- Fields that fill their room, in the order in which the source lists them. -/
def spansTile (lo hi : Nat) (spans : List (Nat × Nat)) : Bool := spansFill lo hi spans && spansOrdered lo hi spans

/-- DF 0 (30_encoding.md R89, R104). DESIGN CHOICE, unsafe (log 22): the default layout itself breaks the order clause of
R104 for the reserved bits `x0` and `x1`, which the source lists after `ac`; of their order only `x0` before `x1` is
required. -/
def Config.LayoutDf0.consistent (l : Config.LayoutDf0) : Bool :=
  spansFill 5 32 [l.vs.pair, l.cc.pair, l.x0.pair, l.ri.pair, l.x1.pair, l.ac.pair] &&
    spansOrdered 5 32 [l.vs.pair, l.cc.pair, l.ri.pair, l.ac.pair] && spansOrdered 5 32 [l.x0.pair, l.x1.pair]

/-- DF 4, 5, 20 and 21 (30_encoding.md R90, R97, R104). -/
def Config.LayoutSurveillance.consistent (l : Config.LayoutSurveillance) : Bool :=
  spansTile 5 32 [l.fs.pair, l.dr.pair, l.um.pair, l.code.pair]

/-- DF 11 (30_encoding.md R91, R104). -/
def Config.LayoutDf11.consistent (l : Config.LayoutDf11) : Bool :=
  spansTile 5 32 [l.ca.pair, l.aa.pair] && l.aa.first == 8

/-- DF 16 (30_encoding.md R92, R104). DESIGN CHOICE, unsafe (log 22): the default layout itself breaks the order clause of
R104 for the reserved bits `x1`, which the source lists before `ri`; of its order only `x0` before `x1` is
required. -/
def Config.LayoutDf16.consistent (l : Config.LayoutDf16) : Bool :=
  spansFill 5 88 [l.vs.pair, l.x0.pair, l.ri.pair, l.x1.pair, l.ac.pair, l.mv.pair] &&
    spansOrdered 5 88 [l.vs.pair, l.x0.pair, l.ri.pair, l.ac.pair, l.mv.pair] &&
    spansOrdered 5 88 [l.x0.pair, l.x1.pair] && l.mv.first == 32

/-- The resolution advisory; `tida`, `tidr`, `tidb` are a second reading of `tid` (30_encoding.md R93, R104). -/
def Config.LayoutAdvisory.consistent (l : Config.LayoutAdvisory) : Bool :=
  l.head.first == 32 &&
    spansTile 40 88 [l.ara.pair, l.rac.pair, l.rat.pair, l.mti.pair, l.tti.pair, l.tid.pair] &&
    spansTile l.tid.first (l.tid.first + 26) [l.tida.pair, l.tidr.pair, l.tidb.pair]

/-- DF 17 (30_encoding.md R94, R104). -/
def Config.LayoutDf17.consistent (l : Config.LayoutDf17) : Bool := l.aa.first == 8 && spansOrdered 32 88 [l.tc.pair]

/-- DF 19 (30_encoding.md R96, R104). -/
def Config.LayoutDf19.consistent (l : Config.LayoutDf19) : Bool :=
  spansTile 5 112 [l.af.pair, l.aa.pair, l.me.pair, l.pi.pair] && l.aa.first == 8 && l.me.first == 32 && l.pi.first == 88

/-- The message field of DF 20 and 21; `bds` is a second reading of its first byte (30_encoding.md R97, R104). -/
def Config.LayoutCommB.consistent (l : Config.LayoutCommB) : Bool := l.mb.first == 32 && l.bds.first == 32

/-- DF 24 to 31, after the two constant bits (30_encoding.md R98, R104). -/
def Config.LayoutCommD.consistent (l : Config.LayoutCommD) : Bool :=
  spansTile 2 88 [l.x0.pair, l.ke.pair, l.nd.pair, l.md.pair] && l.md.first == 8

/-- An airborne position, after the type code, which ends before `lo` (30_encoding.md R100, R104). -/
def Config.LayoutPosition.consistent (lo : Nat) (l : Config.LayoutPosition) : Bool :=
  spansTile lo 88
      [l.ss.pair, l.nicsb.pair, l.alt.pair, l.t.pair, l.cprOdd.pair, l.latCpr.pair, l.lonCpr.pair] &&
    spansOrdered 40 56 [l.alt.pair] && spansOrdered 48 88 [l.latCpr.pair, l.lonCpr.pair]

/-- An airborne velocity, after the type code, which ends before `lo` (30_encoding.md R101, R104). Two bits of the room are
not extracted. -/
def Config.LayoutVelocity.consistent (lo : Nat) (l : Config.LayoutVelocity) : Bool :=
  spansOrdered lo 88
    [l.st.pair, l.ic.pair, l.ifr.pair, l.nac.pair, l.weSign.pair, l.we.pair, l.nsSign.pair, l.ns.pair, l.vrSrc.pair,
      l.vrSign.pair, l.vr.pair, l.difSign.pair, l.dif.pair]

/-- The requirements of 30_encoding.md R104 on a layout: the places the source gives; the fields of each format fill it with
no overlap but the declared re-readings; and they lie in the order in which the source lists them, the reserved bits `x0` and
`x1` as far as the defaults keep it (log 22). The widths are those of the types. -/
def Config.Layout.consistent (l : Config.Layout) : Bool :=
  l.df0.consistent && l.surveillance.consistent && l.df11.consistent && l.df16.consistent && l.advisory.consistent &&
    l.df17.consistent && l.df19.consistent && l.commB.consistent && l.commD.consistent && l.callsign.first == 40 &&
    l.position.consistent (l.df17.tc.first + 5) && l.velocity.consistent (l.df17.tc.first + 5) && l.opaqueMe.first == 32

/-- The constraints on the parameters (92_eei_decisions.md, Open parameters): whole bytes, an angle that holds ±360 degrees,
a consistent layout. `CLIMB_VALID_ST` is a subset of 0 to 7 by its type. -/
def Config.Params.legal (p : Config.Params) : Bool :=
  decide (0 < p.tsWidth) && p.tsWidth % 8 == 0 && p.angleWidth % 8 == 0 &&
    decide (p.angleFrac + 10 ≤ p.angleWidth) && p.layout.consistent

namespace Machine

/-- The `tti` value of an altitude, range and bearing threat (30_encoding.md R93; log 8). -/
def ttiThreat : BitVec 2 := 2

/-- The first byte of `mv` that selects the resolution-advisory fields (44_parser.md R212). -/
def bds30 : BitVec 8 := 0x30

end Machine

end Sys2Proof
end

