-- ==== Sys2Proof/Syntax.lean ====
section
/-! DEFINITION. The instructions: one constructor per row of spec/opcode_table.json. Ten commands, read from the
command packet (30_encoding.md R80 to R87); thirty-two frame rows, what the FSM does with the frame in `BUF` in state
`S_DF<n>` (44_parser.md R205); thirty-two type-code rows, what it does in the sub-states `S_ES_*`
(45_ext_squitter.md R251). A timestamp and an angle are numbers of the widths that the parameters `TS_WIDTH` and
`ANGLE_WIDTH` give (00_scope.md R7); WellFormed.lean says that they fit. The rows' mnemonics stand in LAWS.json. -/

namespace Sys2Proof

/-- A frame as the parser holds it: seven or fourteen bytes (00_scope.md R15, RawFrame). -/
inductive Frame where
  /-- Seven bytes. -/
  | short (f : Short)
  /-- Fourteen bytes. -/
  | long (f : Long)
  deriving DecidableEq, Repr

/-- Where an instruction is read from: the host's command packet, the frame in `BUF`, or the extended-squitter frame
in `BUF` (30_encoding.md R115: the three kinds of rows of the opcode table). -/
inductive Port where
  /-- The command packet. -/
  | packet
  /-- The frame in `BUF`, selected by `df`. -/
  | frame
  /-- The frame in `BUF` with `df = 17`, selected by `tc`. -/
  | squitter
  deriving DecidableEq, Repr

/-- The instructions, in the opcode table's order. -/
inductive Instr where
  /-- `CRC`, format B: the buffer, at most fifteen bytes (40_crc.md R121). -/
  | crc (bytes : List Byte)
  /-- `CRC.ENC`, format B (40_crc.md R122). -/
  | crcEnc (bytes : List Byte)
  /-- `ALT.ISM`, format A (41_altitude.md R141). -/
  | altIsm (ac : BitVec 13)
  /-- `ALT.ISQ`, format A (41_altitude.md R142). -/
  | altIsq (ac : BitVec 13)
  /-- `ALT.FT`, format A (41_altitude.md R151). -/
  | altFt (ac : BitVec 13)
  /-- `ALT.M`, format A (41_altitude.md R152). -/
  | altM (ac : BitVec 13)
  /-- `CPR.NL`, format N (42_cpr.md R175). -/
  | cprNl (lat : Int)
  /-- `CPR.ENC`, format C (42_cpr.md R178). -/
  | cprEnc (odd : BitVec 1) (nbits : BitVec Config.nbitsW) (lat lon : Int)
  /-- `CS.DEC`, format B (43_callsign.md R192). -/
  | csDec (bytes : List Byte)
  /-- `PARSE`, format P: the timestamp and the buffer (44_parser.md R200). -/
  | parse (ts : Nat) (bytes : List Byte)
  /-- Row `DF0` (44_parser.md R207). -/
  | df0 (f : Short)
  /-- Row `DF1`, unassigned (44_parser.md R221). -/
  | df1 (f : Frame)
  /-- Row `DF2`, unassigned (44_parser.md R221). -/
  | df2 (f : Frame)
  /-- Row `DF3`, unassigned (44_parser.md R221). -/
  | df3 (f : Frame)
  /-- Row `DF4` (44_parser.md R208). -/
  | df4 (f : Short)
  /-- Row `DF5` (44_parser.md R209). -/
  | df5 (f : Short)
  /-- Row `DF6`, unassigned (44_parser.md R221). -/
  | df6 (f : Frame)
  /-- Row `DF7`, unassigned (44_parser.md R221). -/
  | df7 (f : Frame)
  /-- Row `DF8`, unassigned (44_parser.md R221). -/
  | df8 (f : Frame)
  /-- Row `DF9`, unassigned (44_parser.md R221). -/
  | df9 (f : Frame)
  /-- Row `DF10`, unassigned (44_parser.md R221). -/
  | df10 (f : Frame)
  /-- Row `DF11` (44_parser.md R210). -/
  | df11 (f : Short)
  /-- Row `DF12`, unassigned (44_parser.md R221). -/
  | df12 (f : Frame)
  /-- Row `DF13`, unassigned (44_parser.md R221). -/
  | df13 (f : Frame)
  /-- Row `DF14`, unassigned (44_parser.md R221). -/
  | df14 (f : Frame)
  /-- Row `DF15`, unassigned (44_parser.md R221). -/
  | df15 (f : Frame)
  /-- Row `DF16` (44_parser.md R211). -/
  | df16 (f : Long)
  /-- Row `DF17` (44_parser.md R214). -/
  | df17 (f : Long)
  /-- Row `DF18` (44_parser.md R215). -/
  | df18 (f : Long)
  /-- Row `DF19` (44_parser.md R216). -/
  | df19 (f : Long)
  /-- Row `DF20` (44_parser.md R217). -/
  | df20 (f : Long)
  /-- Row `DF21` (44_parser.md R218). -/
  | df21 (f : Long)
  /-- Row `DF22` (44_parser.md R219). -/
  | df22 (f : Long)
  /-- Row `DF23`, unassigned (44_parser.md R221). -/
  | df23 (f : Frame)
  /-- Row `DF24` (44_parser.md R220). -/
  | df24 (f : Long)
  /-- Row `DF25` (44_parser.md R220). -/
  | df25 (f : Long)
  /-- Row `DF26` (44_parser.md R220). -/
  | df26 (f : Long)
  /-- Row `DF27` (44_parser.md R220). -/
  | df27 (f : Long)
  /-- Row `DF28` (44_parser.md R220). -/
  | df28 (f : Long)
  /-- Row `DF29` (44_parser.md R220). -/
  | df29 (f : Long)
  /-- Row `DF30` (44_parser.md R220). -/
  | df30 (f : Long)
  /-- Row `DF31` (44_parser.md R220). -/
  | df31 (f : Long)
  /-- Row `ES.TC0` (45_ext_squitter.md R257). -/
  | esTc0 (f : Long)
  /-- Row `ES.TC1` (45_ext_squitter.md R252). -/
  | esTc1 (f : Long)
  /-- Row `ES.TC2` (45_ext_squitter.md R252). -/
  | esTc2 (f : Long)
  /-- Row `ES.TC3` (45_ext_squitter.md R252). -/
  | esTc3 (f : Long)
  /-- Row `ES.TC4` (45_ext_squitter.md R252). -/
  | esTc4 (f : Long)
  /-- Row `ES.TC5` (45_ext_squitter.md R257). -/
  | esTc5 (f : Long)
  /-- Row `ES.TC6` (45_ext_squitter.md R257). -/
  | esTc6 (f : Long)
  /-- Row `ES.TC7` (45_ext_squitter.md R257). -/
  | esTc7 (f : Long)
  /-- Row `ES.TC8` (45_ext_squitter.md R257). -/
  | esTc8 (f : Long)
  /-- Row `ES.TC9` (45_ext_squitter.md R253). -/
  | esTc9 (f : Long)
  /-- Row `ES.TC10` (45_ext_squitter.md R253). -/
  | esTc10 (f : Long)
  /-- Row `ES.TC11` (45_ext_squitter.md R253). -/
  | esTc11 (f : Long)
  /-- Row `ES.TC12` (45_ext_squitter.md R253). -/
  | esTc12 (f : Long)
  /-- Row `ES.TC13` (45_ext_squitter.md R253). -/
  | esTc13 (f : Long)
  /-- Row `ES.TC14` (45_ext_squitter.md R253). -/
  | esTc14 (f : Long)
  /-- Row `ES.TC15` (45_ext_squitter.md R253). -/
  | esTc15 (f : Long)
  /-- Row `ES.TC16` (45_ext_squitter.md R253). -/
  | esTc16 (f : Long)
  /-- Row `ES.TC17` (45_ext_squitter.md R253). -/
  | esTc17 (f : Long)
  /-- Row `ES.TC18` (45_ext_squitter.md R253). -/
  | esTc18 (f : Long)
  /-- Row `ES.TC19` (45_ext_squitter.md R254). -/
  | esTc19 (f : Long)
  /-- Row `ES.TC20` (45_ext_squitter.md R257). -/
  | esTc20 (f : Long)
  /-- Row `ES.TC21` (45_ext_squitter.md R257). -/
  | esTc21 (f : Long)
  /-- Row `ES.TC22` (45_ext_squitter.md R257). -/
  | esTc22 (f : Long)
  /-- Row `ES.TC23` (45_ext_squitter.md R257). -/
  | esTc23 (f : Long)
  /-- Row `ES.TC24` (45_ext_squitter.md R257). -/
  | esTc24 (f : Long)
  /-- Row `ES.TC25` (45_ext_squitter.md R257). -/
  | esTc25 (f : Long)
  /-- Row `ES.TC26` (45_ext_squitter.md R257). -/
  | esTc26 (f : Long)
  /-- Row `ES.TC27` (45_ext_squitter.md R257). -/
  | esTc27 (f : Long)
  /-- Row `ES.TC28` (45_ext_squitter.md R257). -/
  | esTc28 (f : Long)
  /-- Row `ES.TC29` (45_ext_squitter.md R257). -/
  | esTc29 (f : Long)
  /-- Row `ES.TC30` (45_ext_squitter.md R257). -/
  | esTc30 (f : Long)
  /-- Row `ES.TC31` (45_ext_squitter.md R257). -/
  | esTc31 (f : Long)
  deriving DecidableEq, Repr

end Sys2Proof
end

