-- ==== Sys2Proof/WellFormed.lean ====
section
/-! DEFINITION. Which terms of `Instr` are instructions: a buffer operand has a length the 4-bit `LEN` can hold
(30_encoding.md R82), a timestamp and an angle fit their widths (00_scope.md R7), a frame row's frame carries that row's `df`,
and a type-code row's frame carries `df = 17` and that row's `tc` (30_encoding.md R115: the rows' match and mask). -/

namespace Sys2Proof

/-- `LEN` has four bits (30_encoding.md R82), so a buffer operand has at most fifteen bytes. -/
def bufferWf (bytes : List Byte) : Bool := decide (bytes.length ≤ 15)

/-- The `df` of a short frame (30_encoding.md R88). -/
def shortDf (f : Short) : BitVec 5 := Bits.field f 0 5

/-- The `df` of a long frame (30_encoding.md R88). -/
def longDf (f : Long) : BitVec 5 := Bits.field f 0 5

/-- The `df` of a frame of either length (30_encoding.md R88). -/
def Frame.df : Frame → BitVec 5
  | .short f => shortDf f
  | .long f => longDf f

/-- The `tc` of a long frame, at its place in `LAYOUT` (30_encoding.md R94, 45_ext_squitter.md R250). -/
def longTc (p : Config.Params) (f : Long) : BitVec 5 := p.layout.df17.tc.get f

/-- A type-code row's frame: `df = 17` and the row's `tc` (30_encoding.md R115). -/
def squitterWf (p : Config.Params) (tc : BitVec 5) (f : Long) : Bool := longDf f == 17 && longTc p f == tc

/-- Well-formedness of an instruction of a block with the given parameters. -/
def Instr.wf (p : Config.Params) : Instr → Bool
  | .crc bytes => bufferWf bytes
  | .crcEnc bytes => bufferWf bytes
  | .altIsm _ => true
  | .altIsq _ => true
  | .altFt _ => true
  | .altM _ => true
  | .cprNl lat => Bits.fitsSigned p.angleWidth lat
  | .cprEnc _ _ lat lon => Bits.fitsSigned p.angleWidth lat && Bits.fitsSigned p.angleWidth lon
  | .csDec bytes => bufferWf bytes
  | .parse ts bytes => decide (ts < 2 ^ p.tsWidth) && bufferWf bytes
  | .df0 f => shortDf f == 0
  | .df1 f => f.df == 1
  | .df2 f => f.df == 2
  | .df3 f => f.df == 3
  | .df4 f => shortDf f == 4
  | .df5 f => shortDf f == 5
  | .df6 f => f.df == 6
  | .df7 f => f.df == 7
  | .df8 f => f.df == 8
  | .df9 f => f.df == 9
  | .df10 f => f.df == 10
  | .df11 f => shortDf f == 11
  | .df12 f => f.df == 12
  | .df13 f => f.df == 13
  | .df14 f => f.df == 14
  | .df15 f => f.df == 15
  | .df16 f => longDf f == 16
  | .df17 f => longDf f == 17
  | .df18 f => longDf f == 18
  | .df19 f => longDf f == 19
  | .df20 f => longDf f == 20
  | .df21 f => longDf f == 21
  | .df22 f => longDf f == 22
  | .df23 f => f.df == 23
  | .df24 f => longDf f == 24
  | .df25 f => longDf f == 25
  | .df26 f => longDf f == 26
  | .df27 f => longDf f == 27
  | .df28 f => longDf f == 28
  | .df29 f => longDf f == 29
  | .df30 f => longDf f == 30
  | .df31 f => longDf f == 31
  | .esTc0 f => squitterWf p 0 f
  | .esTc1 f => squitterWf p 1 f
  | .esTc2 f => squitterWf p 2 f
  | .esTc3 f => squitterWf p 3 f
  | .esTc4 f => squitterWf p 4 f
  | .esTc5 f => squitterWf p 5 f
  | .esTc6 f => squitterWf p 6 f
  | .esTc7 f => squitterWf p 7 f
  | .esTc8 f => squitterWf p 8 f
  | .esTc9 f => squitterWf p 9 f
  | .esTc10 f => squitterWf p 10 f
  | .esTc11 f => squitterWf p 11 f
  | .esTc12 f => squitterWf p 12 f
  | .esTc13 f => squitterWf p 13 f
  | .esTc14 f => squitterWf p 14 f
  | .esTc15 f => squitterWf p 15 f
  | .esTc16 f => squitterWf p 16 f
  | .esTc17 f => squitterWf p 17 f
  | .esTc18 f => squitterWf p 18 f
  | .esTc19 f => squitterWf p 19 f
  | .esTc20 f => squitterWf p 20 f
  | .esTc21 f => squitterWf p 21 f
  | .esTc22 f => squitterWf p 22 f
  | .esTc23 f => squitterWf p 23 f
  | .esTc24 f => squitterWf p 24 f
  | .esTc25 f => squitterWf p 25 f
  | .esTc26 f => squitterWf p 26 f
  | .esTc27 f => squitterWf p 27 f
  | .esTc28 f => squitterWf p 28 f
  | .esTc29 f => squitterWf p 29 f
  | .esTc30 f => squitterWf p 30 f
  | .esTc31 f => squitterWf p 31 f

/-- The port an instruction is read from. -/
def Instr.port : Instr → Port
  | .crc _ => .packet
  | .crcEnc _ => .packet
  | .altIsm _ => .packet
  | .altIsq _ => .packet
  | .altFt _ => .packet
  | .altM _ => .packet
  | .cprNl _ => .packet
  | .cprEnc _ _ _ _ => .packet
  | .csDec _ => .packet
  | .parse _ _ => .packet
  | .df0 _ => .frame
  | .df1 _ => .frame
  | .df2 _ => .frame
  | .df3 _ => .frame
  | .df4 _ => .frame
  | .df5 _ => .frame
  | .df6 _ => .frame
  | .df7 _ => .frame
  | .df8 _ => .frame
  | .df9 _ => .frame
  | .df10 _ => .frame
  | .df11 _ => .frame
  | .df12 _ => .frame
  | .df13 _ => .frame
  | .df14 _ => .frame
  | .df15 _ => .frame
  | .df16 _ => .frame
  | .df17 _ => .frame
  | .df18 _ => .frame
  | .df19 _ => .frame
  | .df20 _ => .frame
  | .df21 _ => .frame
  | .df22 _ => .frame
  | .df23 _ => .frame
  | .df24 _ => .frame
  | .df25 _ => .frame
  | .df26 _ => .frame
  | .df27 _ => .frame
  | .df28 _ => .frame
  | .df29 _ => .frame
  | .df30 _ => .frame
  | .df31 _ => .frame
  | .esTc0 _ => .squitter
  | .esTc1 _ => .squitter
  | .esTc2 _ => .squitter
  | .esTc3 _ => .squitter
  | .esTc4 _ => .squitter
  | .esTc5 _ => .squitter
  | .esTc6 _ => .squitter
  | .esTc7 _ => .squitter
  | .esTc8 _ => .squitter
  | .esTc9 _ => .squitter
  | .esTc10 _ => .squitter
  | .esTc11 _ => .squitter
  | .esTc12 _ => .squitter
  | .esTc13 _ => .squitter
  | .esTc14 _ => .squitter
  | .esTc15 _ => .squitter
  | .esTc16 _ => .squitter
  | .esTc17 _ => .squitter
  | .esTc18 _ => .squitter
  | .esTc19 _ => .squitter
  | .esTc20 _ => .squitter
  | .esTc21 _ => .squitter
  | .esTc22 _ => .squitter
  | .esTc23 _ => .squitter
  | .esTc24 _ => .squitter
  | .esTc25 _ => .squitter
  | .esTc26 _ => .squitter
  | .esTc27 _ => .squitter
  | .esTc28 _ => .squitter
  | .esTc29 _ => .squitter
  | .esTc30 _ => .squitter
  | .esTc31 _ => .squitter

end Sys2Proof
end

