-- ==== Sys2Proof/Decode.lean ====
section
/-! DEFINITION. The decoders, total on any bytes and rejecting by name: command packets (30_encoding.md R81 to R87),
frames by `df` (R88, R115) and extended squitters by `tc` (45_ext_squitter.md R251); then the encoder, from the same
tables; then the opcode-table word (log 7). -/

namespace Sys2Proof

/-- Why bytes are no instruction. -/
inductive DecodeError where
  /-- No byte at all. -/
  | noBytes
  /-- `OP` is `0x0` or `0xB` to `0xF` (30_encoding.md R81). -/
  | badOpcode
  /-- A reserved bit of a packet is 1 (30_encoding.md R110). -/
  | reservedBits
  /-- Not as many bytes as byte 0 announces (30_encoding.md R82). -/
  | packetLength
  /-- Neither seven nor fourteen bytes (44_parser.md R201). -/
  | frameLength
  /-- The frame's length is not the one its `df` implies (44_parser.md R203). -/
  | lengthMismatch
  /-- Not a frame of fourteen bytes with `df = 17`. -/
  | notSquitter
  deriving DecidableEq, Repr

/-! ### Families and classes -/

/-- The length families of `df` (44_parser.md R203). -/
inductive Family where
  /-- `df` in 0, 4, 5, 11: seven bytes. -/
  | short
  /-- `df` in 16 to 22: fourteen bytes. -/
  | long
  /-- `df` in 24 to 31: fourteen bytes. -/
  | commD
  /-- The thirteen other values: either length. -/
  | none
  deriving DecidableEq, Repr

/-- `Family(d)` of 44_parser.md R203. -/
def family (d : BitVec 5) : Family :=
  let n := d.toNat
  if n = 0 ∨ n = 4 ∨ n = 5 ∨ n = 11 then .short
  else if 16 ≤ n ∧ n ≤ 22 then .long
  else if 24 ≤ n then .commD
  else .none

/-- The length check of 44_parser.md R203: does the frame's length agree with its family? -/
def Frame.lengthOk (fr : Frame) : Bool :=
  match fr, family fr.df with
  | .short _, .short => true
  | .short _, .none => true
  | .short _, .long => false
  | .short _, .commD => false
  | .long _, .short => false
  | .long _, .none => true
  | .long _, .long => true
  | .long _, .commD => true

/-- The type-code classes of 45_ext_squitter.md R251. -/
inductive EsClass where
  /-- `tc` in 1 to 4: identification. -/
  | ident
  /-- `tc` in 9 to 18: airborne position. -/
  | position
  /-- `tc = 19`: airborne velocity. -/
  | velocity
  /-- Any other `tc`: opaque payload. -/
  | other
  deriving DecidableEq, Repr

/-- The class a type code selects (45_ext_squitter.md R251). -/
def esClass (tc : BitVec 5) : EsClass :=
  let n := tc.toNat
  if 1 ≤ n ∧ n ≤ 4 then .ident
  else if 9 ≤ n ∧ n ≤ 18 then .position
  else if n = 19 then .velocity
  else .other

/-! ### Command packets -/

/-- `OP`, the high nibble of packet byte 0 (30_encoding.md R82). -/
def packetOp (b0 : Byte) : BitVec 4 := Bits.field b0 0 4

/-- The low nibble of packet byte 0: `LEN` in formats B and P, reserved in formats A, N and C. -/
def packetLow (b0 : Byte) : BitVec 4 := Bits.field b0 4 4

/-- The length of a packet in bytes, told from byte 0 and the widths of the parameters (30_encoding.md R82). -/
def packetLength (p : Config.Params) (b0 : Byte) : Nat :=
  match (packetOp b0).toNat with
  | 1 => 1 + (packetLow b0).toNat
  | 2 => 1 + (packetLow b0).toNat
  | 3 => 3
  | 4 => 3
  | 5 => 3
  | 6 => 3
  | 7 => 1 + p.angleBytes
  | 8 => 2 + 2 * p.angleBytes
  | 9 => 1 + (packetLow b0).toNat
  | 10 => 1 + p.tsBytes + (packetLow b0).toNat
  | _ => 1

/-- Format B (30_encoding.md R83): `LEN` buffer bytes. -/
def formatB (mk : List Byte → Instr) (low : BitVec 4) (body : List Byte) : Except DecodeError Instr :=
  if body.length = low.toNat then .ok (mk body) else .error .packetLength

/-- Format P (30_encoding.md R84): the timestamp's bytes, then `LEN` buffer bytes. -/
def formatP (p : Config.Params) (low : BitVec 4) (body : List Byte) : Except DecodeError Instr :=
  if body.length = p.tsBytes + low.toNat then
    .ok (.parse (Bits.bytesNat (body.take p.tsBytes)) (body.drop p.tsBytes))
  else .error .packetLength

/-- Format A (30_encoding.md R85): three reserved bits, then `AC`. -/
def formatA (mk : BitVec 13 → Instr) (low : BitVec 4) (body : List Byte) : Except DecodeError Instr :=
  match body with
  | [b1, b2] =>
    if low = 0 ∧ Bits.field b1 0 3 = 0 then .ok (mk (Bits.field b1 3 5 ++ b2)) else .error .reservedBits
  | _ => .error .packetLength

/-- Format N (30_encoding.md R86): `LAT`. -/
def formatN (p : Config.Params) (low : BitVec 4) (body : List Byte) : Except DecodeError Instr :=
  if body.length = p.angleBytes then
    if low = 0 then .ok (.cprNl (Bits.signed p.angleWidth (Bits.bytesNat body))) else .error .reservedBits
  else .error .packetLength

/-- Format C (30_encoding.md R87): `ODD`, two reserved bits, `NBITS`, `LAT`, `LON`. -/
def formatC (p : Config.Params) (low : BitVec 4) (body : List Byte) : Except DecodeError Instr :=
  match body with
  | b1 :: angles =>
    if angles.length = 2 * p.angleBytes then
      if low = 0 ∧ Bits.field b1 1 (7 - Config.nbitsW) = 0 then
        .ok (.cprEnc (Bits.field b1 0 1) (Bits.field b1 (8 - Config.nbitsW) Config.nbitsW)
          (Bits.signed p.angleWidth (Bits.bytesNat (angles.take p.angleBytes)))
          (Bits.signed p.angleWidth (Bits.bytesNat (angles.drop p.angleBytes))))
      else .error .reservedBits
    else .error .packetLength
  | [] => .error .packetLength

/-- The command a packet holds (30_encoding.md R80, R81). `OP` is looked at first (60_exceptions.md R288). -/
def decodePacket (p : Config.Params) : List Byte → Except DecodeError Instr
  | [] => .error .noBytes
  | b0 :: body =>
    match (packetOp b0).toNat with
    | 1 => formatB .crc (packetLow b0) body
    | 2 => formatB .crcEnc (packetLow b0) body
    | 3 => formatA .altIsm (packetLow b0) body
    | 4 => formatA .altIsq (packetLow b0) body
    | 5 => formatA .altFt (packetLow b0) body
    | 6 => formatA .altM (packetLow b0) body
    | 7 => formatN p (packetLow b0) body
    | 8 => formatC p (packetLow b0) body
    | 9 => formatB .csDec (packetLow b0) body
    | 10 => formatP p (packetLow b0) body
    | _ => .error .badOpcode

/-! ### Frames -/

/-- Seven or fourteen bytes as a frame (00_scope.md R9); other lengths are no frame. -/
def Frame.ofBytes (bs : List Byte) : Option Frame :=
  if bs.length = 7 then some (.short (Bits.bytesBits 56 bs))
  else if bs.length = 14 then some (.long (Bits.bytesBits 112 bs))
  else none

/-- The row a short frame selects, where its `df` allows seven bytes (30_encoding.md R88, R108). -/
def shortInstr (f : Short) : Option Instr :=
  match (shortDf f).toNat with
  | 0 => some (.df0 f)
  | 1 => some (.df1 (.short f))
  | 2 => some (.df2 (.short f))
  | 3 => some (.df3 (.short f))
  | 4 => some (.df4 f)
  | 5 => some (.df5 f)
  | 6 => some (.df6 (.short f))
  | 7 => some (.df7 (.short f))
  | 8 => some (.df8 (.short f))
  | 9 => some (.df9 (.short f))
  | 10 => some (.df10 (.short f))
  | 11 => some (.df11 f)
  | 12 => some (.df12 (.short f))
  | 13 => some (.df13 (.short f))
  | 14 => some (.df14 (.short f))
  | 15 => some (.df15 (.short f))
  | 23 => some (.df23 (.short f))
  | _ => none

/-- The row a long frame selects, where its `df` allows fourteen bytes (30_encoding.md R88, R108). -/
def longInstr (f : Long) : Option Instr :=
  match (longDf f).toNat with
  | 1 => some (.df1 (.long f))
  | 2 => some (.df2 (.long f))
  | 3 => some (.df3 (.long f))
  | 6 => some (.df6 (.long f))
  | 7 => some (.df7 (.long f))
  | 8 => some (.df8 (.long f))
  | 9 => some (.df9 (.long f))
  | 10 => some (.df10 (.long f))
  | 12 => some (.df12 (.long f))
  | 13 => some (.df13 (.long f))
  | 14 => some (.df14 (.long f))
  | 15 => some (.df15 (.long f))
  | 16 => some (.df16 f)
  | 17 => some (.df17 f)
  | 18 => some (.df18 f)
  | 19 => some (.df19 f)
  | 20 => some (.df20 f)
  | 21 => some (.df21 f)
  | 22 => some (.df22 f)
  | 23 => some (.df23 (.long f))
  | 24 => some (.df24 f)
  | 25 => some (.df25 f)
  | 26 => some (.df26 f)
  | 27 => some (.df27 f)
  | 28 => some (.df28 f)
  | 29 => some (.df29 f)
  | 30 => some (.df30 f)
  | 31 => some (.df31 f)
  | _ => none

/-- The row a frame selects; none where its length is not the one its `df` implies. -/
def Frame.instr : Frame → Option Instr
  | .short f => shortInstr f
  | .long f => longInstr f

/-- The frame row that bytes select (30_encoding.md R115). -/
def decodeFrame (bs : List Byte) : Except DecodeError Instr :=
  match Frame.ofBytes bs with
  | none => .error .frameLength
  | some fr =>
    match fr.instr with
    | none => .error .lengthMismatch
    | some i => .ok i

/-- The type-code row that `tc` of an extended squitter selects (45_ext_squitter.md R251). -/
def squitterInstr (p : Config.Params) (f : Long) : Instr :=
  match (longTc p f).toNat with
  | 0 => .esTc0 f
  | 1 => .esTc1 f
  | 2 => .esTc2 f
  | 3 => .esTc3 f
  | 4 => .esTc4 f
  | 5 => .esTc5 f
  | 6 => .esTc6 f
  | 7 => .esTc7 f
  | 8 => .esTc8 f
  | 9 => .esTc9 f
  | 10 => .esTc10 f
  | 11 => .esTc11 f
  | 12 => .esTc12 f
  | 13 => .esTc13 f
  | 14 => .esTc14 f
  | 15 => .esTc15 f
  | 16 => .esTc16 f
  | 17 => .esTc17 f
  | 18 => .esTc18 f
  | 19 => .esTc19 f
  | 20 => .esTc20 f
  | 21 => .esTc21 f
  | 22 => .esTc22 f
  | 23 => .esTc23 f
  | 24 => .esTc24 f
  | 25 => .esTc25 f
  | 26 => .esTc26 f
  | 27 => .esTc27 f
  | 28 => .esTc28 f
  | 29 => .esTc29 f
  | 30 => .esTc30 f
  | _ => .esTc31 f

/-- The type-code row that bytes select: fourteen bytes with `df = 17` (30_encoding.md R115). -/
def decodeSquitter (p : Config.Params) (bs : List Byte) : Except DecodeError Instr :=
  match Frame.ofBytes bs with
  | some (.long f) => if longDf f = 17 then .ok (squitterInstr p f) else .error .notSquitter
  | _ => .error .notSquitter

/-- The decoder of each port of a block with the given parameters. -/
def decode (p : Config.Params) : Port → List Byte → Except DecodeError Instr
  | .packet => decodePacket p
  | .frame => decodeFrame
  | .squitter => decodeSquitter p

/-! ### The encoder -/

/-- Packet byte 0 (30_encoding.md R82). -/
def opByte (op low : Nat) : Byte := BitVec.ofNat 4 op ++ BitVec.ofNat 4 low

/-- A packet of format B (30_encoding.md R83). -/
def encodeB (op : Nat) (bytes : List Byte) : List Byte := opByte op bytes.length :: bytes

/-- A packet of format A (30_encoding.md R85), reserved bits 0. -/
def encodeA (op : Nat) (ac : BitVec 13) : List Byte :=
  [opByte op 0, (0 : BitVec 3) ++ Bits.field ac 0 5, Bits.field ac 5 8]

/-- The bytes of a short frame, first byte first. -/
def shortBytes (f : Short) : List Byte := Bits.natBytes 7 f.toNat

/-- The bytes of a long frame, first byte first. -/
def longBytes (f : Long) : List Byte := Bits.natBytes 14 f.toNat

/-- The bytes of a frame, first byte first. -/
def Frame.bytes : Frame → List Byte
  | .short f => shortBytes f
  | .long f => longBytes f

/-- The bytes of an instruction: a command's packet (30_encoding.md R82 to R87), a frame row's or a type-code row's
frame. -/
def encode (p : Config.Params) : Instr → List Byte
  | .crc bytes => encodeB 1 bytes
  | .crcEnc bytes => encodeB 2 bytes
  | .altIsm ac => encodeA 3 ac
  | .altIsq ac => encodeA 4 ac
  | .altFt ac => encodeA 5 ac
  | .altM ac => encodeA 6 ac
  | .cprNl lat => opByte 7 0 :: Bits.natBytes p.angleBytes (Bits.unsigned p.angleWidth lat)
  | .cprEnc odd nbits lat lon =>
    opByte 8 0 :: (odd ++ (0 : BitVec (7 - Config.nbitsW)) ++ nbits) ::
      (Bits.natBytes p.angleBytes (Bits.unsigned p.angleWidth lat) ++
        Bits.natBytes p.angleBytes (Bits.unsigned p.angleWidth lon))
  | .csDec bytes => encodeB 9 bytes
  | .parse ts bytes => opByte 10 bytes.length :: (Bits.natBytes p.tsBytes ts ++ bytes)
  | .df0 f => shortBytes f
  | .df1 f => f.bytes
  | .df2 f => f.bytes
  | .df3 f => f.bytes
  | .df4 f => shortBytes f
  | .df5 f => shortBytes f
  | .df6 f => f.bytes
  | .df7 f => f.bytes
  | .df8 f => f.bytes
  | .df9 f => f.bytes
  | .df10 f => f.bytes
  | .df11 f => shortBytes f
  | .df12 f => f.bytes
  | .df13 f => f.bytes
  | .df14 f => f.bytes
  | .df15 f => f.bytes
  | .df16 f => longBytes f
  | .df17 f => longBytes f
  | .df18 f => longBytes f
  | .df19 f => longBytes f
  | .df20 f => longBytes f
  | .df21 f => longBytes f
  | .df22 f => longBytes f
  | .df23 f => f.bytes
  | .df24 f => longBytes f
  | .df25 f => longBytes f
  | .df26 f => longBytes f
  | .df27 f => longBytes f
  | .df28 f => longBytes f
  | .df29 f => longBytes f
  | .df30 f => longBytes f
  | .df31 f => longBytes f
  | .esTc0 f => longBytes f
  | .esTc1 f => longBytes f
  | .esTc2 f => longBytes f
  | .esTc3 f => longBytes f
  | .esTc4 f => longBytes f
  | .esTc5 f => longBytes f
  | .esTc6 f => longBytes f
  | .esTc7 f => longBytes f
  | .esTc8 f => longBytes f
  | .esTc9 f => longBytes f
  | .esTc10 f => longBytes f
  | .esTc11 f => longBytes f
  | .esTc12 f => longBytes f
  | .esTc13 f => longBytes f
  | .esTc14 f => longBytes f
  | .esTc15 f => longBytes f
  | .esTc16 f => longBytes f
  | .esTc17 f => longBytes f
  | .esTc18 f => longBytes f
  | .esTc19 f => longBytes f
  | .esTc20 f => longBytes f
  | .esTc21 f => longBytes f
  | .esTc22 f => longBytes f
  | .esTc23 f => longBytes f
  | .esTc24 f => longBytes f
  | .esTc25 f => longBytes f
  | .esTc26 f => longBytes f
  | .esTc27 f => longBytes f
  | .esTc28 f => longBytes f
  | .esTc29 f => longBytes f
  | .esTc30 f => longBytes f
  | .esTc31 f => longBytes f

/-! ### The opcode-table word -/

/-- A word of forty bits that is the integer `Bytes(BUF,0,5)` of an extended squitter (30_encoding.md R115). -/
def isSquitterWord (nbits w : Nat) : Bool := nbits == 40 && w / 2 ^ 35 % 32 == 17

/-- Can the byte be byte 0 of a packet? In formats B and P a length below eight, in formats A, N and C reserved bits 0
(30_encoding.md R110). -/
def isPacketHead (b0 : Nat) : Bool :=
  let op := b0 / 16
  (op == 1 || op == 2 || op == 9 || op == 10) && b0 % 16 < 8 || (3 ≤ op && op ≤ 8 && b0 % 16 == 0)

/-- Which decoder a table word goes to (log 7): forty bits of a type-code row; a whole frame; else the byte 0 of a packet
where it can be one, and byte 0 of a frame where it cannot. -/
def tablePort (nbits w : Nat) : Port :=
  if isSquitterWord nbits w then .squitter
  else if nbits = 56 ∨ nbits = 112 then .frame
  else if isPacketHead (w % 256) then .packet
  else .frame

/-- The first bytes of a table word: a type-code row's as the big-endian integer the table gives (30_encoding.md R115),
any other's with the first byte in the lowest bits. -/
def tableHead (nbits w : Nat) : List Byte :=
  if isSquitterWord nbits w then Bits.natBytes 5 w
  else (List.range ((nbits + 7) / 8)).map fun k => BitVec.ofNat 8 (w / 256 ^ k)

/-- The length of the frame of a table word: the one its `df` implies; fourteen bytes for an unassigned `df`, unless the
word has the fifty-six bits of a short frame. -/
def tableFrameLength (nbits : Nat) (b0 : Byte) : Nat :=
  match family (Bits.field b0 0 5) with
  | .short => 7
  | .long => 14
  | .commD => 14
  | .none => if nbits = 56 then 7 else 14

/-- How many bytes the instruction of a table word has. -/
def tableLength (p : Config.Params) (nbits w : Nat) : Nat :=
  let b0 : Byte := (tableHead nbits w).headD 0
  match tablePort nbits w with
  | .packet => packetLength p b0
  | .squitter => 14
  | .frame => tableFrameLength nbits b0

/-- All bytes of the instruction of a table word: its own bytes, then zeros. -/
def tableBytes (p : Config.Params) (nbits w : Nat) : List Byte :=
  (tableHead nbits w ++ List.replicate 24 0).take (tableLength p nbits w)

/-- The instruction the decoder reads from a table word, at the default parameters. -/
def decodeTableWord (nbits w : Nat) : Option Instr :=
  match decode Config.params (tablePort nbits w) (tableBytes Config.params nbits w) with
  | .ok i => some i
  | .error _ => none

end Sys2Proof
end

