-- ==== Sys2Proof/Machine/State.lean ====
section
/-! DEFINITION. The state of one CORE instance, as plain data: everything 10_state.md R20 lists, the block's
parameters (log 8) and the host's pending input (log 1). A register whose width is a parameter holds a number; the
invariant says that it fits. Absent result fields are `none`: the presence bit of R25 is the `Option` (log 10). -/

namespace Sys2Proof.Machine

/-- Why the machine stops. No run from reset and no state of the invariant reaches either. -/
inductive Fault where
  /-- `step`, in a state whose FSM stands inside a `PARSE` (`S_DF<n>` or `S_ES_*`) while `LEN` and `BUF` hold no frame of
  that state: an out-of-bounds read has no meaning (20_memory.md R56). Safe (log 9). -/
  | noFrame
  /-- `step`, when the fetched bytes are no whole packet; the fetch takes exactly the bytes byte 0 announces
  (30_encoding.md R82), so it never happens. Safe (log 9). -/
  | noPacket
  deriving DecidableEq, Repr

/-- Why the model gives an instruction no meaning. -/
inductive Refusal where
  /-- Raised by `exec`'s arm of an instruction that has no meaning in this model; safe. No arm does: every row of the
  opcode table is modelled. -/
  | notModelled (mnemonic : String)
  deriving DecidableEq, Repr

/-- The status codes a command ends with (60_exceptions.md R280). -/
inductive Status where
  /-- The command completed. -/
  | ok
  /-- `LEN` is not a length the command accepts (R281). -/
  | badLength
  /-- `PARSE`: the length is not the one `df` implies (R282). -/
  | lengthMismatch
  /-- `ALT.FT`, `ALT.M`: the metric flag is set (R283). -/
  | unsupportedEncoding
  /-- `ALT.FT`, `ALT.M`: Gillham 100s value 0, 5 or 6 (R285). -/
  | invalidEncoding
  /-- The packet's opcode is reserved (R286). -/
  | badOpcode
  /-- A reserved packet bit is set, or the latitude is out of range (R287). -/
  | badOperand
  deriving DecidableEq, Repr

/-- The variants of a decoded message (10_state.md R30). -/
inductive Kind where
  /-- df = 0. -/
  | df0
  /-- df = 4. -/
  | df4
  /-- df = 5. -/
  | df5
  /-- df = 11. -/
  | df11
  /-- df = 16. -/
  | df16
  /-- df = 17, tc in 1 to 4. -/
  | esId
  /-- df = 17, tc in 9 to 18. -/
  | esPos
  /-- df = 17, tc = 19. -/
  | esVel
  /-- df = 17, any other tc. -/
  | esOpaque
  /-- df = 18. -/
  | df18
  /-- df = 19. -/
  | df19
  /-- df = 20. -/
  | df20
  /-- df = 21. -/
  | df21
  /-- df = 22. -/
  | df22
  /-- df in 24 to 31. -/
  | commD
  /-- the thirteen values of df without a format. -/
  | unassigned
  deriving DecidableEq, Repr

/-- The sequencing register `FSM` (10_state.md R26). -/
inductive Fsm where
  /-- No command in progress. -/
  | idle
  /-- `PARSE` has latched its operands and checked nothing yet. -/
  | check
  /-- `S_DF<d>`. -/
  | df (d : BitVec 5)
  /-- `S_ES_ID`. -/
  | esId
  /-- `S_ES_POS`. -/
  | esPos
  /-- `S_ES_VEL`. -/
  | esVel
  /-- `S_ES_OPAQUE`. -/
  | esOpaque
  deriving DecidableEq, Repr

/-- Eight character codes, `cs[0]` to `cs[7]` (10_state.md R24). -/
structure Callsign where
  c0 : BitVec 8
  c1 : BitVec 8
  c2 : BitVec 8
  c3 : BitVec 8
  c4 : BitVec 8
  c5 : BitVec 8
  c6 : BitVec 8
  c7 : BitVec 8
  deriving DecidableEq, Repr

/-- The names of the result fields, one per row of the table of 10_state.md R24: the bits of `PRESENT` (R25). -/
inductive FieldId where
  | ts
  | df
  | crc
  | kind
  | aa
  | ap
  | vs
  | cc
  | ri
  | x0
  | x1
  | ac
  | altFt
  | altSt
  | fs
  | dr
  | um
  | idCode
  | squawk
  | ca
  | af
  | mv
  | ara
  | rac
  | rat
  | mti
  | tti
  | tid
  | tida
  | tidr
  | tidb
  | bds
  | mb
  | me
  | pi
  | ke
  | nd
  | md
  | tc
  | cs
  | ss
  | nicsb
  | alt
  | t
  | cprOdd
  | latCpr
  | lonCpr
  | st
  | ic
  | ifr
  | nac
  | weSign
  | we
  | nsSign
  | ns
  | vrSrc
  | vrSign
  | vr
  | difSign
  | dif
  | climb
  | climbSt
  | flag
  | altMNum
  | nl
  | encLat
  | encLon
  deriving DecidableEq, Repr

/-- The result record (10_state.md R24). Signed fields hold two's complement. -/
structure Result where
  /-- `ts` (44_parser.md R222). -/
  ts : Option Nat
  /-- `df` (44_parser.md R202). -/
  df : Option (BitVec 5)
  /-- `crc` (40_crc.md R121, R122; 44_parser.md R204). -/
  crc : Option (BitVec 24)
  /-- `kind` (44_parser.md R205). -/
  kind : Option (BitVec 5)
  /-- `aa` (44_parser.md R206). -/
  aa : Option (BitVec 24)
  /-- `ap` (44_parser.md R206). -/
  ap : Option (BitVec 24)
  /-- `vs` (44_parser.md R207, R211). -/
  vs : Option (BitVec 1)
  /-- `cc` (44_parser.md R207). -/
  cc : Option (BitVec 1)
  /-- `ri` (44_parser.md R207, R211). -/
  ri : Option (BitVec 4)
  /-- `x0` (44_parser.md R207, R211, R220). -/
  x0 : Option (BitVec 7)
  /-- `x1` (44_parser.md R207, R211). -/
  x1 : Option (BitVec 2)
  /-- `ac` (44_parser.md R207, R208, R211, R217). -/
  ac : Option (BitVec 13)
  /-- `alt_ft`, signed (41_altitude.md R151; 44_parser.md R224). -/
  altFt : Option (BitVec 18)
  /-- `alt_st` (44_parser.md R224). -/
  altSt : Option (BitVec 2)
  /-- `fs` (44_parser.md R208, R209, R217, R218). -/
  fs : Option (BitVec 3)
  /-- `dr` (44_parser.md R208, R209, R217, R218). -/
  dr : Option (BitVec 5)
  /-- `um` (44_parser.md R208, R209, R217, R218). -/
  um : Option (BitVec 6)
  /-- `id` (44_parser.md R209, R218). -/
  idCode : Option (BitVec 13)
  /-- `squawk` (44_parser.md R225). -/
  squawk : Option (BitVec 12)
  /-- `ca` (44_parser.md R210). -/
  ca : Option (BitVec 3)
  /-- `af` (44_parser.md R216). -/
  af : Option (BitVec 3)
  /-- `mv` (44_parser.md R211). -/
  mv : Option (BitVec 56)
  /-- `ara` (44_parser.md R212). -/
  ara : Option (BitVec 14)
  /-- `rac` (44_parser.md R212). -/
  rac : Option (BitVec 4)
  /-- `rat` (44_parser.md R212). -/
  rat : Option (BitVec 1)
  /-- `mti` (44_parser.md R212). -/
  mti : Option (BitVec 1)
  /-- `tti` (44_parser.md R212). -/
  tti : Option (BitVec 2)
  /-- `tid` (44_parser.md R212). -/
  tid : Option (BitVec 26)
  /-- `tida` (44_parser.md R213). -/
  tida : Option (BitVec 13)
  /-- `tidr` (44_parser.md R213). -/
  tidr : Option (BitVec 7)
  /-- `tidb` (44_parser.md R213). -/
  tidb : Option (BitVec 6)
  /-- `bds` (44_parser.md R217, R218). -/
  bds : Option (BitVec 8)
  /-- `mb` (44_parser.md R217, R218). -/
  mb : Option (BitVec 56)
  /-- `me` (44_parser.md R216; 45_ext_squitter.md R257). -/
  me : Option (BitVec 56)
  /-- `pi` (44_parser.md R216). -/
  pi : Option (BitVec 24)
  /-- `ke` (44_parser.md R220). -/
  ke : Option (BitVec 1)
  /-- `nd` (44_parser.md R220). -/
  nd : Option (BitVec 4)
  /-- `md` (44_parser.md R220). -/
  md : Option (BitVec 80)
  /-- `tc` (45_ext_squitter.md R250). -/
  tc : Option (BitVec 5)
  /-- `cs[0..7]` (43_callsign.md R192; 45_ext_squitter.md R252). -/
  cs : Option Callsign
  /-- `ss` (45_ext_squitter.md R253). -/
  ss : Option (BitVec 2)
  /-- `nicsb` (45_ext_squitter.md R253). -/
  nicsb : Option (BitVec 1)
  /-- `alt` (45_ext_squitter.md R253). -/
  alt : Option (BitVec 12)
  /-- `t` (45_ext_squitter.md R253). -/
  t : Option (BitVec 1)
  /-- `cpr_odd` (45_ext_squitter.md R253). -/
  cprOdd : Option (BitVec 1)
  /-- `lat_cpr` (45_ext_squitter.md R253). -/
  latCpr : Option (BitVec 17)
  /-- `lon_cpr` (45_ext_squitter.md R253). -/
  lonCpr : Option (BitVec 17)
  /-- `st` (45_ext_squitter.md R254). -/
  st : Option (BitVec 3)
  /-- `ic` (45_ext_squitter.md R254). -/
  ic : Option (BitVec 1)
  /-- `ifr` (45_ext_squitter.md R254). -/
  ifr : Option (BitVec 1)
  /-- `nac` (45_ext_squitter.md R254). -/
  nac : Option (BitVec 3)
  /-- `we_sign` (45_ext_squitter.md R254). -/
  weSign : Option (BitVec 1)
  /-- `we` (45_ext_squitter.md R254). -/
  we : Option (BitVec 10)
  /-- `ns_sign` (45_ext_squitter.md R254). -/
  nsSign : Option (BitVec 1)
  /-- `ns` (45_ext_squitter.md R254). -/
  ns : Option (BitVec 10)
  /-- `vr_src` (45_ext_squitter.md R254). -/
  vrSrc : Option (BitVec 1)
  /-- `vr_sign` (45_ext_squitter.md R254). -/
  vrSign : Option (BitVec 1)
  /-- `vr` (45_ext_squitter.md R254). -/
  vr : Option (BitVec 9)
  /-- `dif_sign` (45_ext_squitter.md R254). -/
  difSign : Option (BitVec 1)
  /-- `dif` (45_ext_squitter.md R254). -/
  dif : Option (BitVec 7)
  /-- `climb`, signed (45_ext_squitter.md R255). -/
  climb : Option (BitVec 16)
  /-- `climb_st` (45_ext_squitter.md R255). -/
  climbSt : Option (BitVec 2)
  /-- `flag` (41_altitude.md R141, R142). -/
  flag : Option (BitVec 1)
  /-- `alt_m_num`, signed (41_altitude.md R152). -/
  altMNum : Option (BitVec 27)
  /-- `nl` (42_cpr.md R175). -/
  nl : Option (BitVec 6)
  /-- `enc_lat` (42_cpr.md R178). -/
  encLat : Option (BitVec 32)
  /-- `enc_lon` (42_cpr.md R178). -/
  encLon : Option (BitVec 32)
  deriving DecidableEq, Repr

/-- The record with every presence bit 0 (10_state.md R25, R36). -/
def Result.empty : Result where
  ts := none
  df := none
  crc := none
  kind := none
  aa := none
  ap := none
  vs := none
  cc := none
  ri := none
  x0 := none
  x1 := none
  ac := none
  altFt := none
  altSt := none
  fs := none
  dr := none
  um := none
  idCode := none
  squawk := none
  ca := none
  af := none
  mv := none
  ara := none
  rac := none
  rat := none
  mti := none
  tti := none
  tid := none
  tida := none
  tidr := none
  tidb := none
  bds := none
  mb := none
  me := none
  pi := none
  ke := none
  nd := none
  md := none
  tc := none
  cs := none
  ss := none
  nicsb := none
  alt := none
  t := none
  cprOdd := none
  latCpr := none
  lonCpr := none
  st := none
  ic := none
  ifr := none
  nac := none
  weSign := none
  we := none
  nsSign := none
  ns := none
  vrSrc := none
  vrSign := none
  vr := none
  difSign := none
  dif := none
  climb := none
  climbSt := none
  flag := none
  altMNum := none
  nl := none
  encLat := none
  encLon := none

/-- What the host sends: a byte of a command packet, or a reset (70_reset_and_hazards.md R310; log 1). -/
inductive HostEvent where
  /-- The next byte of the packet stream (30_encoding.md R82). -/
  | byte (b : Byte)
  /-- The reset input is raised. -/
  | reset
  deriving DecidableEq, Repr

/-- The input buffer's contents: cells in rising order of address, none of them 0 (log 4). -/
abbrev Memory := List Host.Cell

/-- The whole state (10_state.md R20). -/
structure State where
  /-- The parameters of the block: read-only, written by no command, no reset and no step (00_scope.md R7, 10_state.md R29;
  log 8). -/
  params : Config.Params
  /-- `OP` (10_state.md R21). -/
  op : BitVec 4
  /-- `LEN` (10_state.md R21). -/
  len : BitVec 4
  /-- `BUF` (10_state.md R21, R23). -/
  buf : Memory
  /-- `TS`, a number of `TS_WIDTH` bits (10_state.md R21). -/
  ts : Nat
  /-- `AC` (10_state.md R21). -/
  ac : BitVec 13
  /-- `LAT`, a two's complement number of `ANGLE_WIDTH` bits (10_state.md R21). -/
  lat : Int
  /-- `LON`, a two's complement number of `ANGLE_WIDTH` bits (10_state.md R21). -/
  lon : Int
  /-- `ODD` (10_state.md R21). -/
  odd : BitVec 1
  /-- `NBITS` (10_state.md R21). -/
  nbits : BitVec Config.nbitsW
  /-- `W`, the CRC unit's working copy; position 0 is its most significant bit (10_state.md R31). -/
  w : BitVec 112
  /-- The result record with its presence bits (10_state.md R24, R25). -/
  result : Result
  /-- `STATUS` (10_state.md R27). -/
  status : BitVec 4
  /-- `FSM` (10_state.md R26). -/
  fsm : Fsm
  /-- The model's own field: what the host has still to send, first event first (log 1). -/
  host : List HostEvent
  deriving DecidableEq, Repr

/-- The machine right after reset (10_state.md R36), with the default parameters: `STATUS` is `OK`, `FSM` is `IDLE`, no
result field is present. The operand registers and `W`, to which the spec gives no value, are 0 (log 2). -/
def State.reset : State where
  params := Config.params
  op := 0
  len := 0
  buf := []
  ts := 0
  ac := 0
  lat := 0
  lon := 0
  odd := 0
  nbits := 0
  w := 0
  result := Result.empty
  status := 0
  fsm := .idle
  host := []

end Sys2Proof.Machine
end

