-- ==== Sys2Proof/Machine/Flags.lean ====
section
/-! DEFINITION. The codes and flags: the numbers of `STATUS` and `kind`, the per-field statuses, and the two predicates
on the altitude code. The block has no condition codes (10_state.md R27), so no operation computes a carry, a zero, a
sign or an overflow. -/

namespace Sys2Proof.Machine

/-- The number of a status code (60_exceptions.md R280). -/
def Status.code : Status → BitVec 4
  | .ok => 0
  | .badLength => 1
  | .lengthMismatch => 2
  | .unsupportedEncoding => 3
  | .invalidEncoding => 4
  | .badOpcode => 5
  | .badOperand => 6

/-- The number of a message variant (10_state.md R30). -/
def Kind.code : Kind → BitVec 5
  | .df0 => 1
  | .df4 => 2
  | .df5 => 3
  | .df11 => 4
  | .df16 => 5
  | .esId => 6
  | .esPos => 7
  | .esVel => 8
  | .esOpaque => 9
  | .df18 => 10
  | .df19 => 11
  | .df20 => 12
  | .df21 => 13
  | .df22 => 14
  | .commD => 15
  | .unassigned => 16

/-- `ALT_OK` (10_state.md R28). -/
def altOk : BitVec 2 := 1

/-- `ALT_UNSUPPORTED` (10_state.md R28). -/
def altUnsupported : BitVec 2 := 2

/-- `ALT_INVALID` (10_state.md R28). -/
def altInvalid : BitVec 2 := 3

/-- `CLIMB_OK` (10_state.md R28). -/
def climbOk : BitVec 2 := 1

/-- `CLIMB_UNSUPPORTED` (10_state.md R28). -/
def climbUnsupported : BitVec 2 := 2

/-- `M_MASK` (00_scope.md R6). -/
def mMask : BitVec 13 := 0x0040

/-- `Q_MASK` (00_scope.md R6). -/
def qMask : BitVec 13 := 0x0010

/-- `IsMetric(ac)`: the metric flag is set (41_altitude.md R141). -/
def isMetric (ac : BitVec 13) : Bool := ac &&& mMask != 0

/-- `IsSimpleFormat(ac)`: the Q-bit is set (41_altitude.md R142). -/
def isSimple (ac : BitVec 13) : Bool := ac &&& qMask != 0

/-- A predicate as the one-bit result `flag` (10_state.md R24). -/
def flagBit (b : Bool) : BitVec 1 := if b then 1 else 0

end Sys2Proof.Machine
end

