-- ==== Sys2Proof/Machine/Ops.lean ====
section
/-! DEFINITION. The named operations over the buffer and the registers, and the block's one failure operation `raise`
(60_exceptions.md R284). Nothing returns from a failure: there is no handler (R291, R292). -/

namespace Sys2Proof.Machine

/-- The outcome of an instruction. -/
abbrev Out := Host.Outcome State Fault Refusal

/-! ### The input buffer -/

/-- What a byte of `BUF` that no command has written reads as; the spec gives it no value (log 4). -/
def unlistedByte : Byte := 0

/-- The byte at address `a`. -/
def memRead : Memory → Nat → Byte
  | [], _ => unlistedByte
  | (b, v) :: m, a => if b = a then v else memRead m a

/-- `m` without what it holds at address `a`. -/
def memErase (m : Memory) (a : Nat) : Memory := m.filter fun c => c.1 != a

/-- `m` with a cell put before the first higher address. -/
def memInsert : Memory → Nat → Byte → Memory
  | [], a, v => [(a, v)]
  | (b, u) :: m, a, v => if a < b then (a, v) :: (b, u) :: m else (b, u) :: memInsert m a v

/-- Write one byte, keeping the canonical form: writing what an unlisted address reads as leaves no cell. -/
def memWrite (m : Memory) (a : Nat) (v : Byte) : Memory :=
  if v = unlistedByte then memErase m a else memInsert (memErase m a) a v

/-- Write bytes at rising addresses from `a` on. -/
def memWriteAll : Memory → Nat → List Byte → Memory
  | m, _, [] => m
  | m, a, v :: vs => memWriteAll (memWrite m a v) (a + 1) vs

/-- `Bytes(BUF, 0, n)` as a sequence (00_scope.md R10). -/
def memRange (m : Memory) (n : Nat) : List Byte := (List.range n).map (memRead m)

/-- Every address of `m` is at least `lo` and inside the buffer, addresses rise, and no cell holds the unlisted value. -/
def memWfFrom : Nat → Memory → Bool
  | _, [] => true
  | lo, (a, v) :: m => decide (lo ≤ a) && decide (a < Config.bufBytes) && v != unlistedByte && memWfFrom (a + 1) m

/-- The buffer's canonical form: equal contents are equal lists (log 4). -/
def Memory.wf (m : Memory) : Bool := memWfFrom 0 m

/-- The bytes `BUF[0] .. BUF[LEN-1]` (10_state.md R23). -/
def bufBytes (s : State) : List Byte := memRange s.buf s.len.toNat

/-! ### Ending a command -/

/-- A command ends with status `OK` and the record `r`; `FSM` returns to `IDLE` (10_state.md R26, R27). -/
def finish (r : Result) (s : State) : State := { s with result := r, status := Status.ok.code, fsm := .idle }

/-- `raise E`: every result field absent, `STATUS` the code, `FSM` back to `IDLE`, nothing else changed
(60_exceptions.md R284). -/
def raise (e : Status) (s : State) : State :=
  { s with result := Result.empty, status := e.code, fsm := .idle }

/-! ### Reset and the host's input -/

/-- The reset event (70_reset_and_hazards.md R310): the state of 10_state.md R36 with the block's parameters, which reset does
not change (R29); what the host sends afterwards is still to come (log 11). -/
def resetBlock (p : Config.Params) (later : List HostEvent) : State := { State.reset with params := p, host := later }

/-- The state with what the host has still to send replaced. -/
def setHost (h : List HostEvent) (s : State) : State := { s with host := h }

/-! ### The presence register -/

/-- The bits of `PRESENT` (10_state.md R25): is the field present? (log 10) -/
def Result.present (r : Result) : FieldId → Bool
  | .ts => r.ts.isSome
  | .df => r.df.isSome
  | .crc => r.crc.isSome
  | .kind => r.kind.isSome
  | .aa => r.aa.isSome
  | .ap => r.ap.isSome
  | .vs => r.vs.isSome
  | .cc => r.cc.isSome
  | .ri => r.ri.isSome
  | .x0 => r.x0.isSome
  | .x1 => r.x1.isSome
  | .ac => r.ac.isSome
  | .altFt => r.altFt.isSome
  | .altSt => r.altSt.isSome
  | .fs => r.fs.isSome
  | .dr => r.dr.isSome
  | .um => r.um.isSome
  | .idCode => r.idCode.isSome
  | .squawk => r.squawk.isSome
  | .ca => r.ca.isSome
  | .af => r.af.isSome
  | .mv => r.mv.isSome
  | .ara => r.ara.isSome
  | .rac => r.rac.isSome
  | .rat => r.rat.isSome
  | .mti => r.mti.isSome
  | .tti => r.tti.isSome
  | .tid => r.tid.isSome
  | .tida => r.tida.isSome
  | .tidr => r.tidr.isSome
  | .tidb => r.tidb.isSome
  | .bds => r.bds.isSome
  | .mb => r.mb.isSome
  | .me => r.me.isSome
  | .pi => r.pi.isSome
  | .ke => r.ke.isSome
  | .nd => r.nd.isSome
  | .md => r.md.isSome
  | .tc => r.tc.isSome
  | .cs => r.cs.isSome
  | .ss => r.ss.isSome
  | .nicsb => r.nicsb.isSome
  | .alt => r.alt.isSome
  | .t => r.t.isSome
  | .cprOdd => r.cprOdd.isSome
  | .latCpr => r.latCpr.isSome
  | .lonCpr => r.lonCpr.isSome
  | .st => r.st.isSome
  | .ic => r.ic.isSome
  | .ifr => r.ifr.isSome
  | .nac => r.nac.isSome
  | .weSign => r.weSign.isSome
  | .we => r.we.isSome
  | .nsSign => r.nsSign.isSome
  | .ns => r.ns.isSome
  | .vrSrc => r.vrSrc.isSome
  | .vrSign => r.vrSign.isSome
  | .vr => r.vr.isSome
  | .difSign => r.difSign.isSome
  | .dif => r.dif.isSome
  | .climb => r.climb.isSome
  | .climbSt => r.climbSt.isSome
  | .flag => r.flag.isSome
  | .altMNum => r.altMNum.isSome
  | .nl => r.nl.isSome
  | .encLat => r.encLat.isSome
  | .encLon => r.encLon.isSome

end Sys2Proof.Machine
end

