-- ==== Sys2Proof/Machine/Operands.lean ====
section
/-! DEFINITION. The operand forms: what accepting a command of each format writes to the operand registers, all at once
(10_state.md R21), and the frame that `LEN` and `BUF` hold. A register the format does not name keeps its value
(log 3). -/

namespace Sys2Proof.Machine

/-- Write `LEN` and the buffer. Fifteen bytes do not fit: `LEN` becomes 15 and the block keeps none of them
(30_encoding.md R83). -/
def latchBuf (bytes : List Byte) (s : State) : State :=
  { s with
    len := BitVec.ofNat 4 bytes.length
    buf := if bytes.length ≤ Config.bufBytes then memWriteAll s.buf 0 bytes else s.buf }

/-- Accept a command of format B (30_encoding.md R83). -/
def acceptB (op : BitVec 4) (bytes : List Byte) (s : State) : State := { latchBuf bytes s with op := op }

/-- Accept a command of format P (30_encoding.md R84). -/
def acceptP (ts : Nat) (bytes : List Byte) (s : State) : State :=
  { latchBuf bytes s with op := 10, ts := ts }

/-- Accept a command of format A (30_encoding.md R85). -/
def acceptA (op : BitVec 4) (ac : BitVec 13) (s : State) : State := { s with op := op, ac := ac }

/-- Accept a command of format N (30_encoding.md R86). -/
def acceptN (lat : Int) (s : State) : State := { s with op := 7, lat := lat }

/-- Accept a command of format C (30_encoding.md R87). -/
def acceptC (odd : BitVec 1) (nbits : BitVec Config.nbitsW) (lat lon : Int) (s : State) : State :=
  { s with op := 8, odd := odd, nbits := nbits, lat := lat, lon := lon }

/-- A packet the decoder refuses: `OP` is taken from byte 0 and no other operand (30_encoding.md R81; log 5), then the
failure is raised. -/
def rejectPacket (e : Status) (b0 : Byte) (s : State) : State := raise e { s with op := packetOp b0 }

/-- The frame that `LEN` and `BUF` hold, if the length is a frame's (44_parser.md R201). -/
def latchedFrame (s : State) : Option Frame := Frame.ofBytes (bufBytes s)

end Sys2Proof.Machine
end

