-- ==== Sys2Proof/Machine/Zones.lean ====
section
/-! DEFINITION. The zone thresholds `TQ(n) = floor(T(n) * 2^ANGLE_FRAC)` of 42_cpr.md R173, exact for every `ANGLE_FRAC`. For
22 fraction bits they are the spec's table; coarser ones drop bits of it; finer ones add bits, each by deciding
`m * 2^-ANGLE_FRAC <= T(n)`. Since `T(n) = (180/π) * acos(sin(π/60) / sin(π/n))`, that is
`cos(π m 2^-ANGLE_FRAC / 180) * sin(π/n) >= sin(π/60)`, and it is decided by cosines in integers scaled by a power of two,
whose precision is doubled until the error cannot matter (log 18). Laws/Zones.lean, `zoneTable_eq`, proves that the result is
the floor. -/

namespace Sys2Proof.Machine

/-! ### Cosines in scaled integers -/

/-- The terms from the `j`-th on of `arctan(1/k) = 1/k - 1/(3k^3) + 1/(5k^5) - ...`, scaled; `power` is the scaled
`1/k^(2j+1)`. -/
def arctanSum (k : Nat) : Nat → Nat → Nat → Int
  | 0, _, _ => 0
  | fuel + 1, j, power =>
    if power = 0 then 0
    else ((power / (2 * j + 1) : Nat) : Int) - arctanSum k fuel (j + 1) (power / (k * k))

/-- `π * 2^w`, by `π = 16 arctan(1/5) - 4 arctan(1/239)`. -/
def piScaled (w : Nat) : Nat :=
  (16 * arctanSum 5 w 0 (2 ^ w / 5) - 4 * arctanSum 239 w 0 (2 ^ w / 239)).toNat

/-- The terms from the `k`-th on of `cos x = 1 - x^2/2! + x^4/4! - ...`, scaled by `2^w`; `y` is the scaled `x^2` and `term`
the scaled `x^(2k)/(2k)!`. -/
def cosSum (w y : Nat) : Nat → Nat → Nat → Int
  | 0, _, _ => 0
  | fuel + 1, k, term =>
    if term = 0 then 0
    else (term : Int) - cosSum w y fuel (k + 1) (term * y / 2 ^ w / ((2 * k + 1) * (2 * k + 2)))

/-- `cos(π * num / den) * 2^w`, for an angle up to `π/2`. -/
def cosPi (w num den : Nat) : Int :=
  let x := piScaled w * num / den
  cosSum w (x * x / 2 ^ w) w 0 (2 ^ w)

/-! ### Comparing an angle with `T(n)` -/

/-- `cos(π m 2^-f / 180) * sin(π/n) - sin(π/60)`, scaled by `2^(2w)`: not negative exactly if `m * 2^-f <= T(n)` (42_cpr.md
R173), where the errors allow to tell. The sines are cosines of the complements. -/
def zoneGap (w n m f : Nat) : Int :=
  cosPi w m (180 * 2 ^ f) * cosPi w (n - 2) (2 * n) - cosPi w 29 60 * 2 ^ w

/-- Is the gap not negative? Decided at precision `p` if it exceeds every error there can be, else at twice the precision. A
gap that is still open after the last round is zero. -/
def gapNonneg (n m f : Nat) : Nat → Nat → Bool
  | 0, _ => true
  | rounds + 1, p =>
    if 2 ^ (3 * p) ≤ zoneGap (2 * p) n m f then true
    else if zoneGap (2 * p) n m f ≤ -2 ^ (3 * p) then false
    else gapNonneg n m f rounds (2 * p)

/-- `m * 2^-f <= T(n)`, for an angle up to 90 degrees (42_cpr.md R173). A gap other than zero is at least
`2^-(2^(f+18))`, so `f + 16` rounds decide it. The thresholds ask it for odd `m`, of which none is 87 degrees, `T(2)`. -/
def angleWithin (n m f : Nat) : Bool := gapNonneg n m f (f + 16) (f + 64)

/-! ### The thresholds -/

/-- `(n, TQ(n))` for 22 fraction bits, `n` from 59 down to 2: the table of 42_cpr.md R173. -/
def zoneTable22 : List (Nat × Nat) :=
  [(59, 43916339), (58, 62193871), (57, 76278718), (56, 88203675)] ++
  [(55, 98755075), (54, 108335714), (53, 117184605), (52, 125457323)] ++
  [(51, 133261833), (50, 140676680), (49, 147761118), (48, 154561155)] ++
  [(47, 161113362), (46, 167447381), (45, 173587639), (44, 179554547)] ++
  [(43, 185365375), (42, 191034890), (41, 196575840), (40, 201999321)] ++
  [(39, 207315069), (38, 212531682), (37, 217656798), (36, 222697248)] ++
  [(35, 227659165), (34, 232548086), (33, 237369032), (32, 242126573)] ++
  [(31, 246824882), (30, 251467788), (29, 256058810), (28, 260601194)] ++
  [(27, 265097942), (26, 269551833), (25, 273965449), (24, 278341186)] ++
  [(23, 282681274), (22, 286987786), (21, 291262646), (20, 295507636)] ++
  [(19, 299724396), (18, 303914425), (17, 308079071), (16, 312219519)] ++
  [(15, 316336767), (14, 320431587), (13, 324504469), (12, 328555522)] ++
  [(11, 332584325), (10, 336589675), (9, 340569152), (8, 344518326)] ++
  [(7, 348429198), (6, 352286872), (5, 356061437), (4, 359684285)] ++
  [(3, 362955648), (2, 364904448)]

/-- A threshold with `k` fraction bits more than the 22 of `q`, one bit after the other. -/
def zoneBits (n q : Nat) : Nat → Nat
  | 0 => q
  | k + 1 => if angleWithin n (2 * zoneBits n q k + 1) (23 + k) then 2 * zoneBits n q k + 1 else 2 * zoneBits n q k

/-- The thresholds `(n, TQ(n))` for a number of fraction bits: `TQ(n) = floor(T(n) * 2^ANGLE_FRAC)` (42_cpr.md R173). -/
def zoneTable (frac : Nat) : List (Nat × Nat) :=
  zoneTable22.map fun e => (e.1, zoneBits e.1 e.2 (frac - 22) / 2 ^ (22 - frac))

end Sys2Proof.Machine
end

