-- ==== Sys2Proof/Machine/Cpr.lean ====
section
/-! DEFINITION. The CPR encoder (42_cpr.md): the longitude zone count by the thresholds of R173, the coordinate in
the integer form of R178, and the two commands, for the block's `ANGLE_FRAC`. -/

namespace Sys2Proof.Machine

/-- The zone count of an absolute latitude in register units: the largest `n` whose threshold is not passed, 1 if there
is none (42_cpr.md R173). -/
def zoneCount (frac a : Nat) : Nat :=
  match (zoneTable frac).find? fun e => decide (a ≤ e.2) with
  | some e => e.1
  | none => 1

/-- `NL` of a latitude register (42_cpr.md R172, R173). -/
def nlOf (frac : Nat) (lat : Int) : Nat := zoneCount frac lat.natAbs

/-- `2^ANGLE_FRAC`, the register value of one degree (42_cpr.md R171). -/
def oneDegree (frac : Nat) : Nat := 2 ^ frac

/-- The latitude domain, -90 to +90 degrees (42_cpr.md R179). -/
def latOk (frac : Nat) (lat : Int) : Bool := decide (lat.natAbs ≤ 90 * oneDegree frac)

/-- `i` of 42_cpr.md R176: 1 for the odd format. -/
def oddOffset (odd : BitVec 1) : Nat := odd.toNat

/-- `m` of 42_cpr.md R176: the number of longitude zones. -/
def lonZones (frac : Nat) (lat : Int) (odd : BitVec 1) : Nat :=
  max 1 (nlOf frac lat - oddOffset odd)

/-- `CprCoord` in integers (42_cpr.md R178): the value over the zone width is `num / period`. The inner and the outer
modulo are the floored ones (R177, D21). -/
def cprCoord (num : Int) (period : Nat) (nbits : Nat) : Nat :=
  ((2 ^ (nbits + 1) * (num % (period : Int)).toNat + period) / (2 * period)) % 2 ^ nbits

/-- `enc_lat` (42_cpr.md R178). -/
def encLat (frac : Nat) (lat : Int) (odd : BitVec 1) (nbits : BitVec Config.nbitsW) : BitVec 32 :=
  BitVec.ofNat 32
    (cprCoord (lat * ((Config.nz - oddOffset odd : Nat) : Int)) (90 * oneDegree frac) nbits.toNat)

/-- `enc_lon` (42_cpr.md R178). -/
def encLon (frac : Nat) (lat lon : Int) (odd : BitVec 1) (nbits : BitVec Config.nbitsW) :
    BitVec 32 :=
  BitVec.ofNat 32 (cprCoord (lon * (lonZones frac lat odd : Int)) (360 * oneDegree frac) nbits.toNat)

/-- `CPR.NL` (42_cpr.md R175). -/
def execCprNl (lat : Int) (s : State) : Out :=
  let s1 := acceptN lat s
  if latOk s1.params.angleFrac s1.lat then
    .next (finish { Result.empty with nl := some (BitVec.ofNat 6 (nlOf s1.params.angleFrac s1.lat)) } s1)
  else .next (raise .badOperand s1)

/-- `CPR.ENC` (42_cpr.md R178). -/
def execCprEnc (odd : BitVec 1) (nbits : BitVec Config.nbitsW) (lat lon : Int) (s : State) : Out :=
  let s1 := acceptC odd nbits lat lon s
  if latOk s1.params.angleFrac s1.lat then
    .next (finish
      { Result.empty with
        encLat := some (encLat s1.params.angleFrac s1.lat s1.odd s1.nbits)
        encLon := some (encLon s1.params.angleFrac s1.lat s1.lon s1.odd s1.nbits) } s1)
  else .next (raise .badOperand s1)

end Sys2Proof.Machine
end

