-- ==== Sys2Proof/Machine/Altitude.lean ====
section
/-! DEFINITION. The altitude decoder (41_altitude.md): simple and Gillham formats, and the four commands. -/

namespace Sys2Proof.Machine

/-- What decoding an altitude code gives (41_altitude.md R150). -/
inductive Altitude where
  /-- An altitude in feet. -/
  | feet (v : Int)
  /-- `UNSUPPORTED_ENCODING`: the metric flag is set. -/
  | unsupported
  /-- `INVALID_ENCODING`: the Gillham 100s value is 0, 5 or 6. -/
  | invalid
  deriving DecidableEq, Repr

/-- The 11-bit number of a simple-format code (41_altitude.md R144, 30_encoding.md R106). -/
def simpleNumber (ac : BitVec 13) : BitVec 13 :=
  (ac &&& 0x000F) ||| ((ac &&& 0x0020) >>> 1) ||| ((ac &&& 0x1F80) >>> 2)

/-- `SimpleFt` (41_altitude.md R144). -/
def simpleFt (ac : BitVec 13) : Int := 25 * ((simpleNumber ac).toNat : Int) - 1000

/-- The 500s group `D2 D4 A1 A2 A4 B1 B2 B4` (41_altitude.md R145). -/
def g500 (ac : BitVec 13) : BitVec 8 :=
  Bits.bit ac 2 ++ Bits.bit ac 0 ++ Bits.bit ac 11 ++ Bits.bit ac 9 ++ Bits.bit ac 7 ++ Bits.bit ac 5 ++ Bits.bit ac 3 ++ Bits.bit ac 1

/-- The 100s group `C1 C2 C4` (41_altitude.md R145). -/
def g100 (ac : BitVec 13) : BitVec 3 := Bits.bit ac 12 ++ Bits.bit ac 10 ++ Bits.bit ac 8

/-- `DeGray`: self-XOR with right shifts by 8, 4, 2, 1 (41_altitude.md R146). -/
def deGray (x : BitVec 16) : BitVec 16 :=
  let x8 := x ^^^ (x >>> 8)
  let x4 := x8 ^^^ (x8 >>> 4)
  let x2 := x4 ^^^ (x4 >>> 2)
  x2 ^^^ (x2 >>> 1)

/-- The 500s value of a code (41_altitude.md R146). -/
def n500 (ac : BitVec 13) : Nat := (deGray ((g500 ac).setWidth 16)).toNat

/-- The 100s value of a code, before validity and inversion (41_altitude.md R146). -/
def v100 (ac : BitVec 13) : Nat := (deGray ((g100 ac).setWidth 16)).toNat

/-- The 100s value after the mapping of 7 to 5 and the inversion on odd bands (41_altitude.md R147, R148). -/
def units100 (ac : BitVec 13) : Int :=
  let v : Int := if v100 ac = 7 then 5 else v100 ac
  if n500 ac % 2 = 1 then 6 - v else v

/-- `GillhamFt` (41_altitude.md R147 to R149). -/
def gillhamFt (ac : BitVec 13) : Altitude :=
  if v100 ac = 0 ∨ v100 ac = 5 ∨ v100 ac = 6 then .invalid
  else .feet (100 * (5 * (n500 ac : Int) + units100 ac) - 1300)

/-- `AltFt`: metric first, then simple, then Gillham (41_altitude.md R143, R150). -/
def altFt (ac : BitVec 13) : Altitude :=
  if isMetric ac then .unsupported
  else if isSimple ac then .feet (simpleFt ac)
  else gillhamFt ac

/-- The altitude of `ac` inside `PARSE`: the raw code, the feet where it decodes, and the outcome in `alt_st`
(44_parser.md R224). -/
def withAltitude (ac : BitVec 13) (r : Result) : Result :=
  match altFt ac with
  | .feet v => { r with ac := some ac, altFt := some (BitVec.ofInt 18 v), altSt := some altOk }
  | .unsupported => { r with ac := some ac, altFt := none, altSt := some altUnsupported }
  | .invalid => { r with ac := some ac, altFt := none, altSt := some altInvalid }

/-- `ALT.ISM` (41_altitude.md R141). -/
def execAltIsm (ac : BitVec 13) (s : State) : Out :=
  let s1 := acceptA 3 ac s
  .next (finish { Result.empty with flag := some (flagBit (isMetric s1.ac)) } s1)

/-- `ALT.ISQ` (41_altitude.md R142). -/
def execAltIsq (ac : BitVec 13) (s : State) : Out :=
  let s1 := acceptA 4 ac s
  .next (finish { Result.empty with flag := some (flagBit (isSimple s1.ac)) } s1)

/-- `ALT.FT` (41_altitude.md R151). -/
def execAltFt (ac : BitVec 13) (s : State) : Out :=
  let s1 := acceptA 5 ac s
  match altFt s1.ac with
  | .feet v => .next (finish { Result.empty with altFt := some (BitVec.ofInt 18 v) } s1)
  | .unsupported => .next (raise .unsupportedEncoding s1)
  | .invalid => .next (raise .invalidEncoding s1)

/-- `ALT.M`: the exact numerator over 1250 (41_altitude.md R152). -/
def execAltM (ac : BitVec 13) (s : State) : Out :=
  let s1 := acceptA 6 ac s
  match altFt s1.ac with
  | .feet v => .next (finish { Result.empty with altMNum := some (BitVec.ofInt 27 (381 * v)) } s1)
  | .unsupported => .next (raise .unsupportedEncoding s1)
  | .invalid => .next (raise .invalidEncoding s1)

end Sys2Proof.Machine
end

