-- ==== Sys2Proof/Machine/Crc.lean ====
section
/-! DEFINITION. The CRC engine (40_crc.md): the bit loop of R121 on the working copy `W`, and the two commands. -/

namespace Sys2Proof.Machine

/-- `W<p>`: position 0 is the most significant bit of `W` (10_state.md R31). -/
def wBit (w : BitVec 112) (p : Nat) : Bool := w.getMsbD p

/-- Copy the `8n` bits of the buffer into positions `0 .. 8n-1` of `W` (40_crc.md R121); the other positions keep their
bits. -/
def wLoad (bytes : List Byte) (w : BitVec 112) : BitVec 112 :=
  (Bits.bytesBits 112 bytes <<< (112 - 8 * bytes.length)) ||| (w &&& (BitVec.allOnes 112 >>> (8 * bytes.length)))

/-- Zero the positions `8n-24 .. 8n-1` of `W` (40_crc.md R122). -/
def wZeroTail (n : Nat) (w : BitVec 112) : BitVec 112 := w &&& ~~~((0xFFFFFF : BitVec 112) <<< (112 - 8 * n))

/-- `GEN` with its most significant bit at position `i` of `W`. -/
def genAt (i : Nat) : BitVec 112 := (Config.gen.setWidth 112) <<< (87 - i)

/-- One step of the division: if the bit at position `i` is set, the generator is XORed in from there on. -/
def wStep (w : BitVec 112) (i : Nat) : BitVec 112 := if wBit w i then w ^^^ genAt i else w

/-- The steps at positions `0, 1, …, m-1`, in ascending order, each seeing what the earlier ones left. -/
def wLoop (m : Nat) (w : BitVec 112) : BitVec 112 := (List.range m).foldl wStep w

/-- `CrcCore(B, n, encode)` up to the reading of the remainder (40_crc.md R121): what it leaves in `W`. -/
def crcWork (encode : Bool) (bytes : List Byte) (w : BitVec 112) : BitVec 112 :=
  let loaded := wLoad bytes w
  wLoop (8 * bytes.length - 24) (if encode then wZeroTail bytes.length loaded else loaded)

/-- The remainder: the last 24 of the `8n` positions of `W` (40_crc.md R121). -/
def crcRead (n : Nat) (w : BitVec 112) : BitVec 24 := Bits.field w (8 * n - 24) 24

/-- Both commands: check the length, then divide (40_crc.md R121, R122, R126). -/
def crcCommand (op : BitVec 4) (encode : Bool) (bytes : List Byte) (s : State) : Out :=
  let s1 := acceptB op bytes s
  if s1.len.toNat < Config.crcMinLen ∨ Config.bufBytes < s1.len.toNat then .next (raise .badLength s1)
  else
    let w1 := crcWork encode (bufBytes s1) s1.w
    .next (finish { Result.empty with crc := some (crcRead s1.len.toNat w1) } { s1 with w := w1 })

/-- `CRC` (40_crc.md R121). -/
def execCrc (bytes : List Byte) (s : State) : Out := crcCommand 1 false bytes s

/-- `CRC.ENC` (40_crc.md R122). -/
def execCrcEnc (bytes : List Byte) (s : State) : Out := crcCommand 2 true bytes s

end Sys2Proof.Machine
end

