-- ==== Sys2Proof/Machine/Callsign.lean ====
section
/-! DEFINITION. The callsign unpacker (43_callsign.md): the character table, one character, eight characters, and the
command. -/

namespace Sys2Proof.Machine

/-- `CHARSET` as character codes: `@`, the letters, `[` to `_`; the space, `!` to `/`, the digits, `:` to `?`
(43_callsign.md R190). -/
def charset : List (BitVec 8) :=
  [0x40, 0x41, 0x42, 0x43, 0x44, 0x45, 0x46, 0x47, 0x48, 0x49, 0x4A, 0x4B, 0x4C, 0x4D, 0x4E, 0x4F] ++
  [0x50, 0x51, 0x52, 0x53, 0x54, 0x55, 0x56, 0x57, 0x58, 0x59, 0x5A, 0x5B, 0x5C, 0x5D, 0x5E, 0x5F] ++
  [0x20, 0x21, 0x22, 0x23, 0x24, 0x25, 0x26, 0x27, 0x28, 0x29, 0x2A, 0x2B, 0x2C, 0x2D, 0x2E, 0x2F] ++
  [0x30, 0x31, 0x32, 0x33, 0x34, 0x35, 0x36, 0x37, 0x38, 0x39, 0x3A, 0x3B, 0x3C, 0x3D, 0x3E, 0x3F]

/-- `CharCode(k)`: the code of the character at index `k` (43_callsign.md R190). -/
def charCode (k : BitVec 6) : BitVec 8 := charset.getD k.toNat 0

/-- `CsChar(P, i)` (43_callsign.md R191): the six bits at offset `6 * i`, through the table. -/
def csChar (p : BitVec 48) (i : Nat) : BitVec 8 := charCode (Bits.field p (6 * i) 6)

/-- The eight characters of a payload (43_callsign.md R192). -/
def callsign (p : BitVec 48) : Callsign :=
  ⟨csChar p 0, csChar p 1, csChar p 2, csChar p 3, csChar p 4, csChar p 5, csChar p 6, csChar p 7⟩

/-- `CS.DEC` (43_callsign.md R192, R193). -/
def execCsDec (bytes : List Byte) (s : State) : Out :=
  let s1 := acceptB 9 bytes s
  if s1.len = 6 then
    .next (finish { Result.empty with cs := some (callsign (Bits.bytesBits 48 (bufBytes s1))) } s1)
  else .next (raise .badLength s1)

end Sys2Proof.Machine
end

