-- ==== Sys2Proof/Machine/ExtSquitter.lean ====
section
/-! DEFINITION. The extended-squitter sub-states (45_ext_squitter.md R250 to R257): one shared operation per class and
one meaning per type-code row, at the places that the block's `LAYOUT` gives. Each ends the `PARSE` command it is part of. -/

namespace Sys2Proof.Machine

/-- The state a type code selects (45_ext_squitter.md R251). -/
def esFsm : EsClass → Fsm
  | .ident => .esId
  | .position => .esPos
  | .velocity => .esVel
  | .other => .esOpaque

/-- `S_ES_ID` (45_ext_squitter.md R252). -/
def esIdent (f : Long) (s : State) : Out :=
  .next (finish { s.result with kind := some Kind.esId.code, cs := some (callsign (s.params.layout.callsign.get f)) } s)

/-- `S_ES_POS` (45_ext_squitter.md R253). -/
def esPosition (f : Long) (s : State) : Out :=
  .next (finish
    { s.result with
      kind := some Kind.esPos.code
      ss := some (s.params.layout.position.ss.get f)
      nicsb := some (s.params.layout.position.nicsb.get f)
      alt := some (s.params.layout.position.alt.get f)
      t := some (s.params.layout.position.t.get f)
      cprOdd := some (s.params.layout.position.cprOdd.get f)
      latCpr := some (s.params.layout.position.latCpr.get f)
      lonCpr := some (s.params.layout.position.lonCpr.get f) } s)

/-- `ClimbRate` in feet per minute: `(vr - 1) * 64`, negative when descending (45_ext_squitter.md R255). -/
def climbRate (vrSign : BitVec 1) (vr : BitVec 9) : Int :=
  ((vr.toNat : Int) - 1) * 64 * (if vrSign = 0 then 1 else -1)

/-- The derived climb rate: present for the subtypes of `CLIMB_VALID_ST` (45_ext_squitter.md R255). -/
def withClimb (p : Config.Params) (f : Long) (r : Result) : Result :=
  if p.climbValidSt.contains (p.layout.velocity.st.get f) then
    { r with
      climb := some (BitVec.ofInt 16 (climbRate (p.layout.velocity.vrSign.get f) (p.layout.velocity.vr.get f)))
      climbSt := some climbOk }
  else { r with climb := none, climbSt := some climbUnsupported }

/-- `S_ES_VEL` (45_ext_squitter.md R254). -/
def esVelocity (f : Long) (s : State) : Out :=
  .next (finish
    (withClimb s.params f
      { s.result with
        kind := some Kind.esVel.code
        st := some (s.params.layout.velocity.st.get f)
        ic := some (s.params.layout.velocity.ic.get f)
        ifr := some (s.params.layout.velocity.ifr.get f)
        nac := some (s.params.layout.velocity.nac.get f)
        weSign := some (s.params.layout.velocity.weSign.get f)
        we := some (s.params.layout.velocity.we.get f)
        nsSign := some (s.params.layout.velocity.nsSign.get f)
        ns := some (s.params.layout.velocity.ns.get f)
        vrSrc := some (s.params.layout.velocity.vrSrc.get f)
        vrSign := some (s.params.layout.velocity.vrSign.get f)
        vr := some (s.params.layout.velocity.vr.get f)
        difSign := some (s.params.layout.velocity.difSign.get f)
        dif := some (s.params.layout.velocity.dif.get f) }) s)

/-- `S_ES_OPAQUE` (45_ext_squitter.md R257). -/
def esOther (f : Long) (s : State) : Out :=
  .next (finish { s.result with kind := some Kind.esOpaque.code, me := some (s.params.layout.opaqueMe.get f) } s)

/-- Row `ES.TC0` (45_ext_squitter.md R257). -/
def execEsTc0 (f : Long) (s : State) : Out := esOther f s

/-- Row `ES.TC1` (45_ext_squitter.md R252). -/
def execEsTc1 (f : Long) (s : State) : Out := esIdent f s

/-- Row `ES.TC2` (45_ext_squitter.md R252). -/
def execEsTc2 (f : Long) (s : State) : Out := esIdent f s

/-- Row `ES.TC3` (45_ext_squitter.md R252). -/
def execEsTc3 (f : Long) (s : State) : Out := esIdent f s

/-- Row `ES.TC4` (45_ext_squitter.md R252). -/
def execEsTc4 (f : Long) (s : State) : Out := esIdent f s

/-- Row `ES.TC5` (45_ext_squitter.md R257). -/
def execEsTc5 (f : Long) (s : State) : Out := esOther f s

/-- Row `ES.TC6` (45_ext_squitter.md R257). -/
def execEsTc6 (f : Long) (s : State) : Out := esOther f s

/-- Row `ES.TC7` (45_ext_squitter.md R257). -/
def execEsTc7 (f : Long) (s : State) : Out := esOther f s

/-- Row `ES.TC8` (45_ext_squitter.md R257). -/
def execEsTc8 (f : Long) (s : State) : Out := esOther f s

/-- Row `ES.TC9` (45_ext_squitter.md R253). -/
def execEsTc9 (f : Long) (s : State) : Out := esPosition f s

/-- Row `ES.TC10` (45_ext_squitter.md R253). -/
def execEsTc10 (f : Long) (s : State) : Out := esPosition f s

/-- Row `ES.TC11` (45_ext_squitter.md R253). -/
def execEsTc11 (f : Long) (s : State) : Out := esPosition f s

/-- Row `ES.TC12` (45_ext_squitter.md R253). -/
def execEsTc12 (f : Long) (s : State) : Out := esPosition f s

/-- Row `ES.TC13` (45_ext_squitter.md R253). -/
def execEsTc13 (f : Long) (s : State) : Out := esPosition f s

/-- Row `ES.TC14` (45_ext_squitter.md R253). -/
def execEsTc14 (f : Long) (s : State) : Out := esPosition f s

/-- Row `ES.TC15` (45_ext_squitter.md R253). -/
def execEsTc15 (f : Long) (s : State) : Out := esPosition f s

/-- Row `ES.TC16` (45_ext_squitter.md R253). -/
def execEsTc16 (f : Long) (s : State) : Out := esPosition f s

/-- Row `ES.TC17` (45_ext_squitter.md R253). -/
def execEsTc17 (f : Long) (s : State) : Out := esPosition f s

/-- Row `ES.TC18` (45_ext_squitter.md R253). -/
def execEsTc18 (f : Long) (s : State) : Out := esPosition f s

/-- Row `ES.TC19` (45_ext_squitter.md R254). -/
def execEsTc19 (f : Long) (s : State) : Out := esVelocity f s

/-- Row `ES.TC20` (45_ext_squitter.md R257). -/
def execEsTc20 (f : Long) (s : State) : Out := esOther f s

/-- Row `ES.TC21` (45_ext_squitter.md R257). -/
def execEsTc21 (f : Long) (s : State) : Out := esOther f s

/-- Row `ES.TC22` (45_ext_squitter.md R257). -/
def execEsTc22 (f : Long) (s : State) : Out := esOther f s

/-- Row `ES.TC23` (45_ext_squitter.md R257). -/
def execEsTc23 (f : Long) (s : State) : Out := esOther f s

/-- Row `ES.TC24` (45_ext_squitter.md R257). -/
def execEsTc24 (f : Long) (s : State) : Out := esOther f s

/-- Row `ES.TC25` (45_ext_squitter.md R257). -/
def execEsTc25 (f : Long) (s : State) : Out := esOther f s

/-- Row `ES.TC26` (45_ext_squitter.md R257). -/
def execEsTc26 (f : Long) (s : State) : Out := esOther f s

/-- Row `ES.TC27` (45_ext_squitter.md R257). -/
def execEsTc27 (f : Long) (s : State) : Out := esOther f s

/-- Row `ES.TC28` (45_ext_squitter.md R257). -/
def execEsTc28 (f : Long) (s : State) : Out := esOther f s

/-- Row `ES.TC29` (45_ext_squitter.md R257). -/
def execEsTc29 (f : Long) (s : State) : Out := esOther f s

/-- Row `ES.TC30` (45_ext_squitter.md R257). -/
def execEsTc30 (f : Long) (s : State) : Out := esOther f s

/-- Row `ES.TC31` (45_ext_squitter.md R257). -/
def execEsTc31 (f : Long) (s : State) : Out := esOther f s

end Sys2Proof.Machine
end

