-- ==== Sys2Proof/Machine/Parser.lean ====
section
/-! DEFINITION. The parser (44_parser.md): the checks of `PARSE`, the meaning of each state `S_DF<n>`, the routing of a
frame to its state, and the command, for the block's parameters. A frame row's meaning runs with the frame as its operand
(log 6) and ends the command. -/

namespace Sys2Proof.Machine

/-! ### Shared operations of the states -/

/-- The address rule, case (a): `ap <- crc ; aa <- crc`, the record's own `crc` (44_parser.md R206; log 21). -/
def withCrcAddress (r : Result) : Result := { r with aa := r.crc, ap := r.crc }

/-- The address rule, case (b): `aa` is bytes 1 to 3 and `ap` is `aa` (44_parser.md R206). -/
def withPlainAddress {n : Nat} (aa : Config.Span 24) (f : BitVec n) (r : Result) : Result :=
  { r with aa := some (aa.get f), ap := some (aa.get f) }

/-- `fs`, `dr` and `um` of DF 4, 5, 20 and 21 (44_parser.md R208, R209, R217, R218). -/
def withSurveillance {n : Nat} (l : Config.LayoutSurveillance) (f : BitVec n) (r : Result) : Result :=
  { r with fs := some (l.fs.get f), dr := some (l.dr.get f), um := some (l.um.get f) }

/-- `Squawk(id)` (44_parser.md R225): the four octal digits, `A` most significant, from the bits by their names. -/
def squawkOf (l : Config.LayoutIdentity) (c : BitVec 13) : BitVec 12 :=
  (Bits.bit c l.a4 ++ Bits.bit c l.a2 ++ Bits.bit c l.a1) ++
    (Bits.bit c l.b4 ++ Bits.bit c l.b2 ++ Bits.bit c l.b1) ++
    (Bits.bit c l.c4 ++ Bits.bit c l.c2 ++ Bits.bit c l.c1) ++
    (Bits.bit c l.d4 ++ Bits.bit c l.d2 ++ Bits.bit c l.d1)

/-- `id` and the squawk beside it (44_parser.md R209, R218, R225). -/
def withIdentity (l : Config.LayoutIdentity) (c : BitVec 13) (r : Result) : Result :=
  { r with idCode := some c, squawk := some (squawkOf l c) }

/-- `mb` and `bds` of DF 20 and 21 (44_parser.md R217, R218). -/
def withCommB (l : Config.LayoutCommB) (f : Long) (r : Result) : Result :=
  { r with mb := some (l.mb.get f), bds := some (l.bds.get f) }

/-- The threat fields, when `tti` names an altitude, range and bearing threat (44_parser.md R213). -/
def withThreat (l : Config.LayoutAdvisory) (f : Long) (r : Result) : Result :=
  if l.tti.get f = ttiThreat then
    { r with tida := some (l.tida.get f), tidr := some (l.tidr.get f), tidb := some (l.tidb.get f) }
  else r

/-- The resolution-advisory fields, when `mv[0] = 0x30` (44_parser.md R212). -/
def withAdvisory (l : Config.LayoutAdvisory) (f : Long) (r : Result) : Result :=
  if l.head.get f = bds30 then
    withThreat l f
      { r with
        ara := some (l.ara.get f)
        rac := some (l.rac.get f)
        rat := some (l.rat.get f)
        mti := some (l.mti.get f)
        tti := some (l.tti.get f)
        tid := some (l.tid.get f) }
  else r

/-- The states that only classify: `df` 18, 22 and the thirteen values without a format (44_parser.md R215, R219,
R221). -/
def classifyOnly (k : Kind) (s : State) : Out := .next (finish { s.result with kind := some k.code } s)

/-- The eight Comm-D states (44_parser.md R220). -/
def commD (f : Long) (s : State) : Out :=
  .next (finish
    (withCrcAddress
      { s.result with
        kind := some Kind.commD.code
        x0 := some ((s.params.layout.commD.x0.get f).setWidth 7)
        ke := some (s.params.layout.commD.ke.get f)
        nd := some (s.params.layout.commD.nd.get f)
        md := some (s.params.layout.commD.md.get f) }) s)

/-! ### The frame rows -/

/-- Row `DF0` (44_parser.md R207). -/
def execDf0 (f : Short) (s : State) : Out :=
  .next (finish
    (withAltitude (s.params.layout.df0.ac.get f)
      (withCrcAddress
        { s.result with
          kind := some Kind.df0.code
          vs := some (s.params.layout.df0.vs.get f)
          cc := some (s.params.layout.df0.cc.get f)
          x0 := some ((s.params.layout.df0.x0.get f).setWidth 7)
          ri := some (s.params.layout.df0.ri.get f)
          x1 := some (s.params.layout.df0.x1.get f) })) s)

/-- Row `DF4` (44_parser.md R208). -/
def execDf4 (f : Short) (s : State) : Out :=
  .next (finish
    (withAltitude (s.params.layout.surveillance.code.get f)
      (withCrcAddress (withSurveillance s.params.layout.surveillance f { s.result with kind := some Kind.df4.code }))) s)

/-- Row `DF5` (44_parser.md R209). -/
def execDf5 (f : Short) (s : State) : Out :=
  .next (finish
    (withIdentity s.params.layout.identity (s.params.layout.surveillance.code.get f)
      (withCrcAddress (withSurveillance s.params.layout.surveillance f { s.result with kind := some Kind.df5.code }))) s)

/-- Row `DF11` (44_parser.md R210). -/
def execDf11 (f : Short) (s : State) : Out :=
  .next (finish
    (withPlainAddress s.params.layout.df11.aa f
      { s.result with kind := some Kind.df11.code, ca := some (s.params.layout.df11.ca.get f) }) s)

/-- Row `DF16` (44_parser.md R211 to R213). -/
def execDf16 (f : Long) (s : State) : Out :=
  .next (finish
    (withAdvisory s.params.layout.advisory f
      (withAltitude (s.params.layout.df16.ac.get f)
        (withCrcAddress
          { s.result with
            kind := some Kind.df16.code
            vs := some (s.params.layout.df16.vs.get f)
            x0 := some (s.params.layout.df16.x0.get f)
            ri := some (s.params.layout.df16.ri.get f)
            x1 := some (s.params.layout.df16.x1.get f)
            mv := some (s.params.layout.df16.mv.get f) }))) s)

/-- What `S_DF17` writes before the sub-state: the plain address and `tc`; `FSM` moves to the sub-state of `tc`
(44_parser.md R214, 45_ext_squitter.md R251). -/
def enterSquitter (f : Long) (s : State) : State :=
  { s with
    result := withPlainAddress s.params.layout.df17.aa f { s.result with tc := some (longTc s.params f) }
    fsm := esFsm (esClass (longTc s.params f)) }

/-- The sub-dispatch on `tc` (45_ext_squitter.md R251). -/
def routeSquitter (f : Long) (s : State) : Out :=
  match (longTc s.params f).toNat with
  | 0 => execEsTc0 f s
  | 1 => execEsTc1 f s
  | 2 => execEsTc2 f s
  | 3 => execEsTc3 f s
  | 4 => execEsTc4 f s
  | 5 => execEsTc5 f s
  | 6 => execEsTc6 f s
  | 7 => execEsTc7 f s
  | 8 => execEsTc8 f s
  | 9 => execEsTc9 f s
  | 10 => execEsTc10 f s
  | 11 => execEsTc11 f s
  | 12 => execEsTc12 f s
  | 13 => execEsTc13 f s
  | 14 => execEsTc14 f s
  | 15 => execEsTc15 f s
  | 16 => execEsTc16 f s
  | 17 => execEsTc17 f s
  | 18 => execEsTc18 f s
  | 19 => execEsTc19 f s
  | 20 => execEsTc20 f s
  | 21 => execEsTc21 f s
  | 22 => execEsTc22 f s
  | 23 => execEsTc23 f s
  | 24 => execEsTc24 f s
  | 25 => execEsTc25 f s
  | 26 => execEsTc26 f s
  | 27 => execEsTc27 f s
  | 28 => execEsTc28 f s
  | 29 => execEsTc29 f s
  | 30 => execEsTc30 f s
  | _ => execEsTc31 f s

/-- Row `DF17` (44_parser.md R214). -/
def execDf17 (f : Long) (s : State) : Out :=
  routeSquitter f (enterSquitter f s)

/-- Row `DF18` (44_parser.md R215). -/
def execDf18 (_f : Long) (s : State) : Out := classifyOnly .df18 s

/-- Row `DF19` (44_parser.md R216). -/
def execDf19 (f : Long) (s : State) : Out :=
  let r := { s.result with kind := some Kind.df19.code, af := some (s.params.layout.df19.af.get f) }
  if s.params.layout.df19.af.get f = 0 then
    .next (finish
      (withPlainAddress s.params.layout.df19.aa f
        { r with me := some (s.params.layout.df19.me.get f), pi := some (s.params.layout.df19.pi.get f) }) s)
  else .next (finish r s)

/-- Row `DF20` (44_parser.md R217). -/
def execDf20 (f : Long) (s : State) : Out :=
  .next (finish
    (withAltitude (s.params.layout.surveillance.code.get f)
      (withCrcAddress
        (withCommB s.params.layout.commB f
          (withSurveillance s.params.layout.surveillance f { s.result with kind := some Kind.df20.code })))) s)

/-- Row `DF21` (44_parser.md R218). -/
def execDf21 (f : Long) (s : State) : Out :=
  .next (finish
    (withIdentity s.params.layout.identity (s.params.layout.surveillance.code.get f)
      (withCrcAddress
        (withCommB s.params.layout.commB f
          (withSurveillance s.params.layout.surveillance f { s.result with kind := some Kind.df21.code })))) s)

/-- Row `DF22` (44_parser.md R219). -/
def execDf22 (_f : Long) (s : State) : Out := classifyOnly .df22 s

/-- Row `DF24` (44_parser.md R220). -/
def execDf24 (f : Long) (s : State) : Out := commD f s

/-- Row `DF25` (44_parser.md R220). -/
def execDf25 (f : Long) (s : State) : Out := commD f s

/-- Row `DF26` (44_parser.md R220). -/
def execDf26 (f : Long) (s : State) : Out := commD f s

/-- Row `DF27` (44_parser.md R220). -/
def execDf27 (f : Long) (s : State) : Out := commD f s

/-- Row `DF28` (44_parser.md R220). -/
def execDf28 (f : Long) (s : State) : Out := commD f s

/-- Row `DF29` (44_parser.md R220). -/
def execDf29 (f : Long) (s : State) : Out := commD f s

/-- Row `DF30` (44_parser.md R220). -/
def execDf30 (f : Long) (s : State) : Out := commD f s

/-- Row `DF31` (44_parser.md R220). -/
def execDf31 (f : Long) (s : State) : Out := commD f s

/-- Row `DF1`, without a format (44_parser.md R221). -/
def execDf1 (_f : Frame) (s : State) : Out := classifyOnly .unassigned s

/-- Row `DF2`, without a format (44_parser.md R221). -/
def execDf2 (_f : Frame) (s : State) : Out := classifyOnly .unassigned s

/-- Row `DF3`, without a format (44_parser.md R221). -/
def execDf3 (_f : Frame) (s : State) : Out := classifyOnly .unassigned s

/-- Row `DF6`, without a format (44_parser.md R221). -/
def execDf6 (_f : Frame) (s : State) : Out := classifyOnly .unassigned s

/-- Row `DF7`, without a format (44_parser.md R221). -/
def execDf7 (_f : Frame) (s : State) : Out := classifyOnly .unassigned s

/-- Row `DF8`, without a format (44_parser.md R221). -/
def execDf8 (_f : Frame) (s : State) : Out := classifyOnly .unassigned s

/-- Row `DF9`, without a format (44_parser.md R221). -/
def execDf9 (_f : Frame) (s : State) : Out := classifyOnly .unassigned s

/-- Row `DF10`, without a format (44_parser.md R221). -/
def execDf10 (_f : Frame) (s : State) : Out := classifyOnly .unassigned s

/-- Row `DF12`, without a format (44_parser.md R221). -/
def execDf12 (_f : Frame) (s : State) : Out := classifyOnly .unassigned s

/-- Row `DF13`, without a format (44_parser.md R221). -/
def execDf13 (_f : Frame) (s : State) : Out := classifyOnly .unassigned s

/-- Row `DF14`, without a format (44_parser.md R221). -/
def execDf14 (_f : Frame) (s : State) : Out := classifyOnly .unassigned s

/-- Row `DF15`, without a format (44_parser.md R221). -/
def execDf15 (_f : Frame) (s : State) : Out := classifyOnly .unassigned s

/-- Row `DF23`, without a format (44_parser.md R221). -/
def execDf23 (_f : Frame) (s : State) : Out := classifyOnly .unassigned s

/-! ### The command -/

/-- A long frame to its state; the values of `df` that a long frame cannot have were refused before (R203). -/
def routeLong (f : Long) (s : State) : Out :=
  match (longDf f).toNat with
  | 1 => execDf1 (.long f) s
  | 2 => execDf2 (.long f) s
  | 3 => execDf3 (.long f) s
  | 6 => execDf6 (.long f) s
  | 7 => execDf7 (.long f) s
  | 8 => execDf8 (.long f) s
  | 9 => execDf9 (.long f) s
  | 10 => execDf10 (.long f) s
  | 12 => execDf12 (.long f) s
  | 13 => execDf13 (.long f) s
  | 14 => execDf14 (.long f) s
  | 15 => execDf15 (.long f) s
  | 16 => execDf16 f s
  | 17 => execDf17 f s
  | 18 => execDf18 f s
  | 19 => execDf19 f s
  | 20 => execDf20 f s
  | 21 => execDf21 f s
  | 22 => execDf22 f s
  | 23 => execDf23 (.long f) s
  | 24 => execDf24 f s
  | 25 => execDf25 f s
  | 26 => execDf26 f s
  | 27 => execDf27 f s
  | 28 => execDf28 f s
  | 29 => execDf29 f s
  | 30 => execDf30 f s
  | 31 => execDf31 f s
  | _ => .next (raise .lengthMismatch s)

/-- A short frame to its state; the values of `df` that a short frame cannot have were refused before (R203). -/
def routeShort (f : Short) (s : State) : Out :=
  match (shortDf f).toNat with
  | 0 => execDf0 f s
  | 1 => execDf1 (.short f) s
  | 2 => execDf2 (.short f) s
  | 3 => execDf3 (.short f) s
  | 4 => execDf4 f s
  | 5 => execDf5 f s
  | 6 => execDf6 (.short f) s
  | 7 => execDf7 (.short f) s
  | 8 => execDf8 (.short f) s
  | 9 => execDf9 (.short f) s
  | 10 => execDf10 (.short f) s
  | 11 => execDf11 f s
  | 12 => execDf12 (.short f) s
  | 13 => execDf13 (.short f) s
  | 14 => execDf14 (.short f) s
  | 15 => execDf15 (.short f) s
  | 23 => execDf23 (.short f) s
  | _ => .next (raise .lengthMismatch s)

/-- The dispatch on `df` (44_parser.md R205). -/
def routeFrame (fr : Frame) (s : State) : Out :=
  match fr with
  | .short f => routeShort f s
  | .long f => routeLong f s

/-- What `PARSE` writes once both length checks have passed, before the state's own rule: `ts`, `df`, `crc` over the
whole frame, and `FSM` at `S_DF<d>` (44_parser.md R200, R204, R222). -/
def enterFrame (fr : Frame) (s : State) : State :=
  { s with
    w := crcWork false (bufBytes s) s.w
    result :=
      { Result.empty with
        ts := some s.ts
        df := some fr.df
        crc := some (crcRead s.len.toNat (crcWork false (bufBytes s) s.w)) }
    fsm := .df fr.df }

/-- `PARSE` once its operands are latched (44_parser.md R200): the boundary check on `LEN` (R201), the family check
(R203), then the state of `df`. -/
def parseLatched (s : State) : Out :=
  let s1 := { s with result := Result.empty, fsm := .check }
  match latchedFrame s1 with
  | none => .next (raise .badLength s1)
  | some fr => if fr.lengthOk then routeFrame fr (enterFrame fr s1) else .next (raise .lengthMismatch s1)

/-- `PARSE` (44_parser.md R200). -/
def execParse (ts : Nat) (bytes : List Byte) (s : State) : Out :=
  parseLatched (acceptP ts bytes s)

end Sys2Proof.Machine
end

