-- ==== Sys2Proof/Machine/Dispatch.lean ====
section
/-! DEFINITION. The dispatch: one arm per row of the opcode table. -/

namespace Sys2Proof.Machine

def exec (i : Instr) (s : State) : Host.Outcome State Fault Refusal :=
  match i with
  | .crc bytes => Sys2Proof.Machine.execCrc bytes s
  | .crcEnc bytes => Sys2Proof.Machine.execCrcEnc bytes s
  | .altIsm ac => Sys2Proof.Machine.execAltIsm ac s
  | .altIsq ac => Sys2Proof.Machine.execAltIsq ac s
  | .altFt ac => Sys2Proof.Machine.execAltFt ac s
  | .altM ac => Sys2Proof.Machine.execAltM ac s
  | .cprNl lat => Sys2Proof.Machine.execCprNl lat s
  | .cprEnc odd nbits lat lon => Sys2Proof.Machine.execCprEnc odd nbits lat lon s
  | .csDec bytes => Sys2Proof.Machine.execCsDec bytes s
  | .parse ts bytes => Sys2Proof.Machine.execParse ts bytes s
  | .df0 f => Sys2Proof.Machine.execDf0 f s
  | .df1 f => Sys2Proof.Machine.execDf1 f s
  | .df2 f => Sys2Proof.Machine.execDf2 f s
  | .df3 f => Sys2Proof.Machine.execDf3 f s
  | .df4 f => Sys2Proof.Machine.execDf4 f s
  | .df5 f => Sys2Proof.Machine.execDf5 f s
  | .df6 f => Sys2Proof.Machine.execDf6 f s
  | .df7 f => Sys2Proof.Machine.execDf7 f s
  | .df8 f => Sys2Proof.Machine.execDf8 f s
  | .df9 f => Sys2Proof.Machine.execDf9 f s
  | .df10 f => Sys2Proof.Machine.execDf10 f s
  | .df11 f => Sys2Proof.Machine.execDf11 f s
  | .df12 f => Sys2Proof.Machine.execDf12 f s
  | .df13 f => Sys2Proof.Machine.execDf13 f s
  | .df14 f => Sys2Proof.Machine.execDf14 f s
  | .df15 f => Sys2Proof.Machine.execDf15 f s
  | .df16 f => Sys2Proof.Machine.execDf16 f s
  | .df17 f => Sys2Proof.Machine.execDf17 f s
  | .df18 f => Sys2Proof.Machine.execDf18 f s
  | .df19 f => Sys2Proof.Machine.execDf19 f s
  | .df20 f => Sys2Proof.Machine.execDf20 f s
  | .df21 f => Sys2Proof.Machine.execDf21 f s
  | .df22 f => Sys2Proof.Machine.execDf22 f s
  | .df23 f => Sys2Proof.Machine.execDf23 f s
  | .df24 f => Sys2Proof.Machine.execDf24 f s
  | .df25 f => Sys2Proof.Machine.execDf25 f s
  | .df26 f => Sys2Proof.Machine.execDf26 f s
  | .df27 f => Sys2Proof.Machine.execDf27 f s
  | .df28 f => Sys2Proof.Machine.execDf28 f s
  | .df29 f => Sys2Proof.Machine.execDf29 f s
  | .df30 f => Sys2Proof.Machine.execDf30 f s
  | .df31 f => Sys2Proof.Machine.execDf31 f s
  | .esTc0 f => Sys2Proof.Machine.execEsTc0 f s
  | .esTc1 f => Sys2Proof.Machine.execEsTc1 f s
  | .esTc2 f => Sys2Proof.Machine.execEsTc2 f s
  | .esTc3 f => Sys2Proof.Machine.execEsTc3 f s
  | .esTc4 f => Sys2Proof.Machine.execEsTc4 f s
  | .esTc5 f => Sys2Proof.Machine.execEsTc5 f s
  | .esTc6 f => Sys2Proof.Machine.execEsTc6 f s
  | .esTc7 f => Sys2Proof.Machine.execEsTc7 f s
  | .esTc8 f => Sys2Proof.Machine.execEsTc8 f s
  | .esTc9 f => Sys2Proof.Machine.execEsTc9 f s
  | .esTc10 f => Sys2Proof.Machine.execEsTc10 f s
  | .esTc11 f => Sys2Proof.Machine.execEsTc11 f s
  | .esTc12 f => Sys2Proof.Machine.execEsTc12 f s
  | .esTc13 f => Sys2Proof.Machine.execEsTc13 f s
  | .esTc14 f => Sys2Proof.Machine.execEsTc14 f s
  | .esTc15 f => Sys2Proof.Machine.execEsTc15 f s
  | .esTc16 f => Sys2Proof.Machine.execEsTc16 f s
  | .esTc17 f => Sys2Proof.Machine.execEsTc17 f s
  | .esTc18 f => Sys2Proof.Machine.execEsTc18 f s
  | .esTc19 f => Sys2Proof.Machine.execEsTc19 f s
  | .esTc20 f => Sys2Proof.Machine.execEsTc20 f s
  | .esTc21 f => Sys2Proof.Machine.execEsTc21 f s
  | .esTc22 f => Sys2Proof.Machine.execEsTc22 f s
  | .esTc23 f => Sys2Proof.Machine.execEsTc23 f s
  | .esTc24 f => Sys2Proof.Machine.execEsTc24 f s
  | .esTc25 f => Sys2Proof.Machine.execEsTc25 f s
  | .esTc26 f => Sys2Proof.Machine.execEsTc26 f s
  | .esTc27 f => Sys2Proof.Machine.execEsTc27 f s
  | .esTc28 f => Sys2Proof.Machine.execEsTc28 f s
  | .esTc29 f => Sys2Proof.Machine.execEsTc29 f s
  | .esTc30 f => Sys2Proof.Machine.execEsTc30 f s
  | .esTc31 f => Sys2Proof.Machine.execEsTc31 f s

end Sys2Proof.Machine
end

