-- ==== Sys2Proof/Machine/Fetch.lean ====
section
/-! DEFINITION. Fetching: a whole packet from what the host has sent, the frame row or type-code row that `FSM`, `LEN`
and `BUF` stand at in the middle of a `PARSE`, and where an opcode-table word is put so that it runs next. -/

namespace Sys2Proof.Machine

/-- What the host has delivered. -/
inductive Fetched where
  /-- No whole packet yet: the block idles (60_exceptions.md R301; log 13). -/
  | waiting
  /-- A reset, before a packet was whole (70_reset_and_hazards.md R310; log 11). -/
  | aborted (later : List HostEvent)
  /-- A whole packet. -/
  | packet (bytes : List Byte) (later : List HostEvent)
  deriving DecidableEq, Repr

/-- Take `n` bytes of a packet. -/
def takePacket : Nat → List HostEvent → Fetched
  | 0, later => .packet [] later
  | _ + 1, [] => .waiting
  | _ + 1, .reset :: later => .aborted later
  | n + 1, .byte b :: later =>
    match takePacket n later with
    | .packet bytes rest => .packet (b :: bytes) rest
    | .waiting => .waiting
    | .aborted rest => .aborted rest

/-- Take the next packet; byte 0 tells its length (30_encoding.md R82). -/
def fetchPacket (p : Config.Params) : List HostEvent → Fetched
  | [] => .waiting
  | .reset :: later => .aborted later
  | .byte b :: later => takePacket (packetLength p b) (.byte b :: later)

/-- The state of the FSM in which a frame row or type-code row runs (44_parser.md R205, 45_ext_squitter.md R251); a
command runs from `IDLE`. -/
def instrFsm : Instr → Fsm
  | .crc _ => .idle
  | .crcEnc _ => .idle
  | .altIsm _ => .idle
  | .altIsq _ => .idle
  | .altFt _ => .idle
  | .altM _ => .idle
  | .cprNl _ => .idle
  | .cprEnc _ _ _ _ => .idle
  | .csDec _ => .idle
  | .parse _ _ => .idle
  | .df0 _ => .df 0
  | .df1 _ => .df 1
  | .df2 _ => .df 2
  | .df3 _ => .df 3
  | .df4 _ => .df 4
  | .df5 _ => .df 5
  | .df6 _ => .df 6
  | .df7 _ => .df 7
  | .df8 _ => .df 8
  | .df9 _ => .df 9
  | .df10 _ => .df 10
  | .df11 _ => .df 11
  | .df12 _ => .df 12
  | .df13 _ => .df 13
  | .df14 _ => .df 14
  | .df15 _ => .df 15
  | .df16 _ => .df 16
  | .df17 _ => .df 17
  | .df18 _ => .df 18
  | .df19 _ => .df 19
  | .df20 _ => .df 20
  | .df21 _ => .df 21
  | .df22 _ => .df 22
  | .df23 _ => .df 23
  | .df24 _ => .df 24
  | .df25 _ => .df 25
  | .df26 _ => .df 26
  | .df27 _ => .df 27
  | .df28 _ => .df 28
  | .df29 _ => .df 29
  | .df30 _ => .df 30
  | .df31 _ => .df 31
  | .esTc0 _ => .esOpaque
  | .esTc1 _ => .esId
  | .esTc2 _ => .esId
  | .esTc3 _ => .esId
  | .esTc4 _ => .esId
  | .esTc5 _ => .esOpaque
  | .esTc6 _ => .esOpaque
  | .esTc7 _ => .esOpaque
  | .esTc8 _ => .esOpaque
  | .esTc9 _ => .esPos
  | .esTc10 _ => .esPos
  | .esTc11 _ => .esPos
  | .esTc12 _ => .esPos
  | .esTc13 _ => .esPos
  | .esTc14 _ => .esPos
  | .esTc15 _ => .esPos
  | .esTc16 _ => .esPos
  | .esTc17 _ => .esPos
  | .esTc18 _ => .esPos
  | .esTc19 _ => .esVel
  | .esTc20 _ => .esOpaque
  | .esTc21 _ => .esOpaque
  | .esTc22 _ => .esOpaque
  | .esTc23 _ => .esOpaque
  | .esTc24 _ => .esOpaque
  | .esTc25 _ => .esOpaque
  | .esTc26 _ => .esOpaque
  | .esTc27 _ => .esOpaque
  | .esTc28 _ => .esOpaque
  | .esTc29 _ => .esOpaque
  | .esTc30 _ => .esOpaque
  | .esTc31 _ => .esOpaque

/-- Which rows the FSM's state reads `BUF` by. -/
def fsmPort : Fsm → Port
  | .idle => .packet
  | .check => .packet
  | .df _ => .frame
  | .esId => .squitter
  | .esPos => .squitter
  | .esVel => .squitter
  | .esOpaque => .squitter

/-- The instruction at which a `PARSE` in progress stands: in `CHECK` the command itself, with the operands it latched
(log 14); in `S_DF<n>` and `S_ES_*` the row of that state that the frame in `BUF` selects. None where `BUF` holds no such
frame. -/
def pendingInstr (s : State) : Option Instr :=
  match s.fsm with
  | .check => some (.parse s.ts (bufBytes s))
  | fsm =>
    match decode s.params (fsmPort fsm) (bufBytes s) with
    | .ok i => if instrFsm i = fsm then some i else none
    | .error _ => none

/-- Bytes as the host sends them. -/
def hostBytes (bytes : List Byte) : List HostEvent := bytes.map .byte

/-- The state that a `PARSE` of a frame reaches when it enters `S_DF<n>`: the frame latched, `ts`, `df` and `crc` written
(44_parser.md R200). -/
def placeFrame (bytes : List Byte) (s : State) : State :=
  let s1 := latchBuf bytes s
  match latchedFrame s1 with
  | some fr => enterFrame fr s1
  | none => s1

/-- The state that a `PARSE` of an extended squitter reaches when it enters `S_ES_*` (44_parser.md R214). -/
def placeSquitter (bytes : List Byte) (s : State) : State :=
  let s1 := placeFrame bytes s
  match latchedFrame s1 with
  | some (.long f) => enterSquitter f s1
  | some (.short _) => s1
  | none => s1

/-- Pending resets taken away, so that the next event is a packet byte or nothing. -/
def dropResets : List HostEvent → List HostEvent
  | .reset :: later => dropResets later
  | later => later

/-- An opcode-table word where `step` fetches next (log 7): a command's packet at the head of what the host sends, with
`FSM` at `IDLE`; a frame in `BUF` with the FSM in the state of its row. -/
def placeWord (s : State) (nbits w : Nat) : State :=
  let bytes := tableBytes s.params nbits w
  match tablePort nbits w with
  | .packet => { s with fsm := .idle, host := hostBytes bytes ++ s.host }
  | .frame => placeFrame bytes { s with host := dropResets s.host }
  | .squitter => placeSquitter bytes { s with host := dropResets s.host }

end Sys2Proof.Machine
end

