-- ==== Sys2Proof/Machine/Run.lean ====
section
/-! DEFINITION. Running what was fetched: a whole command, from "accepted" to "ended" (70_reset_and_hazards.md R318); a
reset; or, from a state in the middle of a `PARSE`, the rest of that command (log 6). -/

namespace Sys2Proof.Machine

/-- Run a packet the host has delivered (30_encoding.md R81, R110; 60_exceptions.md R286, R287). -/
def runPacket (bytes : List Byte) (s : State) : Out :=
  match decodePacket s.params bytes with
  | .ok i => exec i s
  | .error .badOpcode => .next (rejectPacket .badOpcode (bytes.headD 0) s)
  | .error .reservedBits => .next (rejectPacket .badOperand (bytes.headD 0) s)
  | .error _ => .fault .noPacket

/-- A step from `IDLE`. -/
def stepIdle (s : State) : Out :=
  match fetchPacket s.params s.host with
  | .waiting => .next s
  | .aborted later => .next (resetBlock s.params later)
  | .packet bytes later => runPacket bytes (setHost later s)

/-- A step in the middle of a `PARSE`: a reset abandons the command (70_reset_and_hazards.md R310), else it goes on to its
end. -/
def stepBusy (s : State) : Out :=
  match s.host with
  | .reset :: later => .next (resetBlock s.params later)
  | _ =>
    match pendingInstr s with
    | some i => exec i s
    | none => .fault .noFrame

/-- A step, from `IDLE` or from the middle of a `PARSE`. -/
def stepAny (s : State) : Out := if s.fsm = .idle then stepIdle s else stepBusy s

end Sys2Proof.Machine
end

