-- ==== Sys2Proof/Machine/Step.lean ====
section
/-! DEFINITION. The step function and the place an opcode-table word is put (Machine/Run.lean, Machine/Fetch.lean). -/

namespace Sys2Proof.Machine

/-- One step of the block. -/
def step (s : State) : Host.Outcome State Fault Refusal := stepAny s

/-- The state in which the next step runs the instruction of an opcode-table word (log 7). -/
def State.withFetchWord (s : State) (nbits w : Nat) : State := placeWord s nbits w

end Sys2Proof.Machine
end

