-- ==== Sys2Proof/Safety.lean ====
section
/-! DEFINITION. What a good state is, in the terms the statements use: the legal values and the presence rules of the
result record, and the invariant of the machine. -/

namespace Sys2Proof.Machine

/-- The record that `PARSE` has written when it enters `S_DF<d>` (44_parser.md R200). -/
def enteredRecord (ts : Nat) (d : BitVec 5) (c : BitVec 24) : Result :=
  { Result.empty with ts := some ts, df := some d, crc := some c }

/-- The record that `PARSE` has written when it enters `S_ES_*` (44_parser.md R214). -/
def squitterRecord (ts : Nat) (c a : BitVec 24) (tc : BitVec 5) : Result :=
  { enteredRecord ts 17 c with aa := some a, ap := some a, tc := some tc }

/-- A legal result record between commands: reserved values do not occur (93_implementation_defined.md U5), fields that
belong together are present together, and derived values lie in their ranges. -/
structure RecordLegal (r : Result) : Prop where
  /-- `kind` is 1 to 16 (10_state.md R30). -/
  kindLegal : ∀ k, r.kind = some k → 1 ≤ k.toNat ∧ k.toNat ≤ 16
  /-- `kind`, `df` and `ts` are present together (44_parser.md R200). -/
  kindWithDf : r.kind.isSome = r.df.isSome
  /-- `ts` is present exactly with `df` (44_parser.md R222). -/
  tsWithDf : r.ts.isSome = r.df.isSome
  /-- `crc` is present whenever `df` is (44_parser.md R204). -/
  crcWithDf : r.df.isSome → r.crc.isSome
  /-- `aa = ap`, present or absent together (44_parser.md R206). -/
  address : r.aa = r.ap
  /-- `alt_st` is 1, 2 or 3 (10_state.md R28). -/
  altStLegal : ∀ a, r.altSt = some a → a = altOk ∨ a = altUnsupported ∨ a = altInvalid
  /-- `alt_st` is present exactly when `ac` is (44_parser.md R224). -/
  altStWithAc : r.altSt.isSome = r.ac.isSome
  /-- In a decoded message `alt_ft` is present exactly when `alt_st = ALT_OK` (44_parser.md R224). -/
  altFtWithAltSt : r.kind.isSome → (r.altFt.isSome ↔ r.altSt = some altOk)
  /-- `climb_st` is 1 or 2 (10_state.md R28). -/
  climbStLegal : ∀ c, r.climbSt = some c → c = climbOk ∨ c = climbUnsupported
  /-- `climb_st` is present exactly when `vr` is (45_ext_squitter.md R255). -/
  climbStWithVr : r.climbSt.isSome = r.vr.isSome
  /-- `climb` is present exactly when `climb_st = CLIMB_OK` (45_ext_squitter.md R255). -/
  climbWithClimbSt : r.climb.isSome ↔ r.climbSt = some climbOk
  /-- The range of `alt_ft` (41_altitude.md R153). -/
  altFtRange : ∀ v, r.altFt = some v → -1200 ≤ v.toInt ∧ v.toInt ≤ 126700
  /-- The range of `alt_m_num` (41_altitude.md R153). -/
  altMNumRange : ∀ v, r.altMNum = some v → -457200 ≤ v.toInt ∧ v.toInt ≤ 48272700
  /-- The range of `climb`, a multiple of 64 (45_ext_squitter.md R258). -/
  climbRange : ∀ v, r.climb = some v → -32640 ≤ v.toInt ∧ v.toInt ≤ 32640 ∧ v.toInt % 64 = 0
  /-- The range of `nl` (42_cpr.md R174). -/
  nlRange : ∀ v, r.nl = some v → 1 ≤ v.toNat ∧ v.toNat ≤ 59

/-- The machine stands in `S_DF<d>` of a `PARSE`: `BUF` holds a frame of that state and the record what `PARSE` has
written so far. -/
def FrameReady (d : BitVec 5) (s : State) : Prop :=
  ∃ fr c, latchedFrame s = some fr ∧ fr.df = d ∧ fr.lengthOk = true ∧ s.result = enteredRecord s.ts d c

/-- The machine stands in `S_ES_*` of a `PARSE`: `BUF` holds an extended squitter of that class. -/
def SquitterReady (s : State) : Prop :=
  ∃ f c, latchedFrame s = some (.long f) ∧ longDf f = 17 ∧ s.fsm = esFsm (esClass (longTc s.params f)) ∧
    s.result = squitterRecord s.ts c (s.params.layout.df17.aa.get f) (longTc s.params f)

/-- The invariant. -/
structure Inv (s : State) : Prop where
  /-- The parameters meet the spec's constraints (92_eei_decisions.md, Open parameters). -/
  paramsLegal : s.params.legal = true
  /-- `TS` fits `TS_WIDTH` bits (00_scope.md R7). -/
  tsFits : s.ts < 2 ^ s.params.tsWidth
  /-- `LAT` fits `ANGLE_WIDTH` bits (00_scope.md R7). -/
  latFits : Bits.fitsSigned s.params.angleWidth s.lat = true
  /-- `LON` fits `ANGLE_WIDTH` bits (00_scope.md R7). -/
  lonFits : Bits.fitsSigned s.params.angleWidth s.lon = true
  /-- The timestamp of the record fits `TS_WIDTH` bits (44_parser.md R222). -/
  resultTsFits : ∀ v, s.result.ts = some v → v < 2 ^ s.params.tsWidth
  /-- `BUF` is in canonical form (log 4). -/
  bufCanonical : s.buf.wf = true
  /-- `STATUS` is 0 to 6 (60_exceptions.md R280). -/
  statusLegal : s.status.toNat ≤ 6
  /-- After a failed command no result field is present (60_exceptions.md R284). -/
  failureEmpty : s.fsm = .idle → s.status ≠ Status.ok.code → s.result = Result.empty
  /-- Between commands the record is legal. -/
  recordLegal : s.fsm = .idle → RecordLegal s.result
  /-- In `S_DF<d>` the frame and the record are those of that state. -/
  frameReady : ∀ d, s.fsm = .df d → FrameReady d s
  /-- In `S_ES_*` the frame and the record are those of that state. -/
  squitterReady : fsmPort s.fsm = .squitter → SquitterReady s

end Sys2Proof.Machine
end

