-- ==== Sys2Proof/Certificates/Slice0/Obligations.lean ====
section
/-! DEFINITION. The statements for the provers. The definitions of `Sys2Proof.Claims` say in the spec's own formulas
(sums of bits, polynomials, rationals, tables) what the model computes by its operations. -/

namespace Sys2Proof.Claims
open Sys2Proof Sys2Proof.Machine

/-! ### Bits, fields, bytes -/

/-- The bit at position `p` of a byte sequence: bit `7 - (p mod 8)` of byte `p div 8` (00_scope.md R9). -/
def byteBit (bytes : List Byte) (p : Nat) : Bool := (bytes.getD (p / 8) 0).getLsbD (7 - p % 8)

/-- `Field(B, p, w)` of a byte sequence: the sum of 00_scope.md R10. -/
def bytesField (bytes : List Byte) (p w : Nat) : Nat :=
  ∑ k ∈ Finset.range w, (byteBit bytes (p + k)).toNat * 2 ^ (w - 1 - k)

/-- `Field(F, p, w)` of a whole frame: the sum of 00_scope.md R10 over the frame's positions. -/
def fieldOf {n : Nat} (f : BitVec n) (p w : Nat) : BitVec w :=
  BitVec.ofNat w (∑ k ∈ Finset.range w, (f.getMsbD (p + k)).toNat * 2 ^ (w - 1 - k))

/-- The field of a whole frame at a place of a layout. -/
def fieldAt {n w : Nat} (f : BitVec n) (place : Config.Span w) : BitVec w := fieldOf f place.first w

/-- No result field is present: `PRESENT` is all zero (10_state.md R25). -/
def Absent (t : State) : Prop := ∀ f : FieldId, t.result.present f = false

/-- `exec i s` ends the command with failure `e`: no field present, the code in `STATUS`, `FSM` at `IDLE`
(60_exceptions.md R284). -/
def FailsWith (i : Instr) (s : State) (e : BitVec 4) : Prop :=
  ∃ t, exec i s = .next t ∧ t.status = e ∧ t.fsm = .idle ∧ Absent t

/-! ### The CRC as a remainder -/

/-- The bits of a value as a polynomial over GF(2): bit `k` is the coefficient of `x^k` (40_crc.md R120, R123). -/
noncomputable def bitsPoly {n : Nat} (b : BitVec n) : Polynomial (ZMod 2) :=
  ∑ k ∈ Finset.range n, if b.getLsbD k then Polynomial.X ^ k else 0

/-- A buffer as a polynomial: the bit at position `p` of `n` bytes is the coefficient of `x^(8n-1-p)` (40_crc.md
R123). -/
noncomputable def bytesPoly (bytes : List Byte) : Polynomial (ZMod 2) :=
  ∑ p ∈ Finset.range (8 * bytes.length),
    if byteBit bytes p then Polynomial.X ^ (8 * bytes.length - 1 - p) else 0

/-- `GEN` as a polynomial, its exponents as 40_crc.md R120 lists them. -/
noncomputable def genPoly : Polynomial (ZMod 2) :=
  (([24, 23, 22, 21, 20, 19, 18, 17, 16, 15, 14, 13, 12, 10, 3, 0] : List Nat).map
    fun k => (Polynomial.X : Polynomial (ZMod 2)) ^ k).sum

/-- `CRC` of a buffer gives `c`, from every state. -/
def CrcGives (bytes : List Byte) (c : BitVec 24) : Prop :=
  ∀ s, ∃ t, exec (.crc bytes) s = .next t ∧ t.status = 0 ∧ t.result = { Result.empty with crc := some c }

/-- `CRC.ENC` of a buffer gives `c`, from every state. -/
def CrcEncGives (bytes : List Byte) (c : BitVec 24) : Prop :=
  ∀ s, ∃ t, exec (.crcEnc bytes) s = .next t ∧ t.status = 0 ∧ t.result = { Result.empty with crc := some c }

/-- The three bytes of a trailing field, most significant first. -/
def tailBytes (v : BitVec 24) : List Byte := [fieldOf v 0 8, fieldOf v 8 8, fieldOf v 16 8]

/-- A buffer with the bit at position `p` flipped. -/
def flipAt (bytes : List Byte) (p : Nat) : List Byte :=
  bytes.set (p / 8) (bytes.getD (p / 8) 0 ^^^ (0x80 : Byte) >>> (p % 8))

/-! ### What a buffer command leaves -/

/-- A command of format B or P was accepted with these bytes (10_state.md R21, R23, 30_encoding.md R83): `OP`, `LEN` and
the buffer written (fifteen bytes are not kept), every other operand register, the parameters and the host's input as
before. The clauses on what is not written are the model's reading (log 3). -/
structure Latched (op : BitVec 4) (bytes : List Byte) (s t : State) : Prop where
  op : t.op = op
  len : t.len = BitVec.ofNat 4 bytes.length
  buf : ∀ a, memRead t.buf a =
    if a < bytes.length ∧ bytes.length ≤ 14 then bytes.getD a 0 else memRead s.buf a
  params : t.params = s.params
  ac : t.ac = s.ac
  lat : t.lat = s.lat
  lon : t.lon = s.lon
  odd : t.odd = s.odd
  nbits : t.nbits = s.nbits
  host : t.host = s.host

/-! ### The altitude code -/

/-- The binary value of a Gray code, most significant bit first: each bit is the parity of the code's bits from the top
down to it (41_altitude.md R146). -/
def grayValue (bits : List Bool) : Nat :=
  (bits.foldl (fun (a : Nat × Bool) b => (2 * a.1 + (xor a.2 b).toNat, xor a.2 b)) (0, false)).1

/-- A number from its bits, most significant first. -/
def bitsNat (bits : List Bool) : Nat := bits.foldl (fun a b => 2 * a + b.toNat) 0

/-- The 500-ft count of a Gillham code, from `D2 D4 A1 A2 A4 B1 B2 B4` (41_altitude.md R145, R146; the bits of each name:
30_encoding.md R103). -/
def gillham500 (ac : BitVec 13) : Nat :=
  grayValue [ac.getLsbD 2, ac.getLsbD 0, ac.getLsbD 11, ac.getLsbD 9, ac.getLsbD 7, ac.getLsbD 5, ac.getLsbD 3,
    ac.getLsbD 1]

/-- The 100-ft units of a Gillham code, by the table of 41_altitude.md R149 on `C1 C2 C4` and the parity of the 500-ft
count; none where the code fails. -/
def gillhamUnits (c1 c2 c4 odd : Bool) : Option Int :=
  match c1, c2, c4, odd with
  | false, false, true, false => some 1
  | false, true, true, false => some 2
  | false, true, false, false => some 3
  | true, true, false, false => some 4
  | true, false, false, false => some 5
  | false, false, true, true => some 5
  | false, true, true, true => some 4
  | false, true, false, true => some 3
  | true, true, false, true => some 2
  | true, false, false, true => some 1
  | _, _, _, _ => none

/-- `AltFt` of 41_altitude.md R150, by the closed-up bits of R144 and the table of R149. -/
def specAlt (ac : BitVec 13) : Except Status Int :=
  if ac.getLsbD 6 then .error .unsupportedEncoding
  else if ac.getLsbD 4 then
    .ok (25 * (bitsNat [ac.getLsbD 12, ac.getLsbD 11, ac.getLsbD 10, ac.getLsbD 9, ac.getLsbD 8, ac.getLsbD 7,
      ac.getLsbD 5, ac.getLsbD 3, ac.getLsbD 2, ac.getLsbD 1, ac.getLsbD 0] : Int) - 1000)
  else
    match gillhamUnits (ac.getLsbD 12) (ac.getLsbD 10) (ac.getLsbD 8) (decide (gillham500 ac % 2 = 1)) with
    | some u => .ok (100 * (5 * (gillham500 ac : Int) + u) - 1300)
    | none => .error .invalidEncoding

/-- What a frame row writes for its altitude code (44_parser.md R224; the codes of `alt_st`: 10_state.md R28). -/
def withAlt (ac : BitVec 13) (r : Result) : Result :=
  match specAlt ac with
  | .ok v => { r with ac := some ac, altFt := some (BitVec.ofInt 18 v), altSt := some 1 }
  | .error .unsupportedEncoding => { r with ac := some ac, altFt := none, altSt := some 2 }
  | .error _ => { r with ac := some ac, altFt := none, altSt := some 3 }

/-- `ALT.FT` of a code gives `v` feet, from every state. -/
def FeetOf (ac : BitVec 13) (v : Int) : Prop :=
  ∀ s, ∃ t x, exec (.altFt ac) s = .next t ∧ t.status = 0 ∧ t.result = { Result.empty with altFt := some x } ∧
    x.toInt = v

/-! ### CPR -/

/-- The table `TQ(n)` as 42_cpr.md R173 prints it for 22 fraction bits, `n` from 59 down to 2. -/
def tqTable : List (Nat × Nat) :=
  [(59, 43916339), (58, 62193871), (57, 76278718), (56, 88203675)] ++
  [(55, 98755075), (54, 108335714), (53, 117184605), (52, 125457323)] ++
  [(51, 133261833), (50, 140676680), (49, 147761118), (48, 154561155)] ++
  [(47, 161113362), (46, 167447381), (45, 173587639), (44, 179554547)] ++
  [(43, 185365375), (42, 191034890), (41, 196575840), (40, 201999321)] ++
  [(39, 207315069), (38, 212531682), (37, 217656798), (36, 222697248)] ++
  [(35, 227659165), (34, 232548086), (33, 237369032), (32, 242126573)] ++
  [(31, 246824882), (30, 251467788), (29, 256058810), (28, 260601194)] ++
  [(27, 265097942), (26, 269551833), (25, 273965449), (24, 278341186)] ++
  [(23, 282681274), (22, 286987786), (21, 291262646), (20, 295507636)] ++
  [(19, 299724396), (18, 303914425), (17, 308079071), (16, 312219519)] ++
  [(15, 316336767), (14, 320431587), (13, 324504469), (12, 328555522)] ++
  [(11, 332584325), (10, 336589675), (9, 340569152), (8, 344518326)] ++
  [(7, 348429198), (6, 352286872), (5, 356061437), (4, 359684285)] ++
  [(3, 362955648), (2, 364904448)]

/-- The latitude domain of 42_cpr.md R179 for a number of fraction bits: `|LAT| <= 90 * 2^ANGLE_FRAC`, which is 377487360 for
22. -/
def InDomain (frac : Nat) (lat : Int) : Prop := lat.natAbs ≤ 90 * 2 ^ frac

/-- `n` is the zone count of the absolute latitude `a` by a table of thresholds: the largest `n` in 2..59 with `a <= TQ(n)`,
1 if there is none (42_cpr.md R173). -/
def IsZoneCount (table : List (Nat × Nat)) (a n : Nat) : Prop :=
  1 ≤ n ∧ n ≤ 59 ∧ (n = 1 ∨ ∃ q, (n, q) ∈ table ∧ a ≤ q) ∧ ∀ m q, (m, q) ∈ table → a ≤ q → m ≤ n

/-- `CPR.NL` of a latitude gives `n`, from every state of a block with the default `ANGLE_FRAC`, 22. -/
def NlGives (lat : Int) (n : Nat) : Prop :=
  ∀ s : State, s.params.angleFrac = 22 → ∃ t, exec (.cprNl lat) s = .next t ∧ t.status = 0 ∧
    t.result = { Result.empty with nl := some (BitVec.ofNat 6 n) }

/-- `NL(lat)` over the reals (42_cpr.md R172); its two not-a-number branches give 1. -/
noncomputable def realNl (lat : ℝ) : ℕ :=
  let c2 := Real.cos (Real.pi * |lat| / 180) ^ 2
  let a := 1 - (1 - Real.cos (Real.pi / 30)) / c2
  if c2 = 0 then 1
  else if a < -1 then 1
  else min 59 (max 1 ⌊2 * Real.pi / Real.arccos a⌋₊)

/-- `CprCoord(v, zw, b)` over the rationals, with the floored modulo (42_cpr.md R177, 00_scope.md R13). -/
def coord (v zw : ℚ) (b : Nat) : Nat :=
  (⌊1 / 2 + 2 ^ b * ((v - zw * ⌊v / zw⌋) / zw)⌋ % 2 ^ b).toNat

/-- An angle register in degrees, for a number of fraction bits (42_cpr.md R171). -/
def degrees (frac : Nat) (x : Int) : ℚ := x / 2 ^ frac

/-! ### Callsign -/

/-- `CharCode(k)` (43_callsign.md R190). -/
def asciiOf (k : BitVec 8) : BitVec 8 := if k < 32 then 64 + k else k

/-! ### The parser -/

/-- The `df` of a buffer (44_parser.md R202). -/
def dfOf (bytes : List Byte) : Nat := bytesField bytes 0 5

/-- The values of `df` that a frame of `n` bytes may have (44_parser.md R201, R203). -/
def LengthFits (n d : Nat) : Prop :=
  (n = 7 ∧ ¬ (16 ≤ d ∧ d ≤ 22) ∧ ¬ (24 ≤ d ∧ d ≤ 31)) ∨ (n = 14 ∧ d ∉ [0, 4, 5, 11])

/-- `kind` from `df` and `tc` (10_state.md R30). -/
def kindOf (d tc : Nat) : Nat :=
  if d = 0 then 1
  else if d = 4 then 2
  else if d = 5 then 3
  else if d = 11 then 4
  else if d = 16 then 5
  else if d = 17 then
    if 1 ≤ tc ∧ tc ≤ 4 then 6 else if 9 ≤ tc ∧ tc ≤ 18 then 7 else if tc = 19 then 8 else 9
  else if d = 18 then 10
  else if d = 19 then 11
  else if d = 20 then 12
  else if d = 21 then 13
  else if d = 22 then 14
  else if 24 ≤ d ∧ d ≤ 31 then 15
  else 16

/-- The four octal digits of an identity code, from its bits by their names (44_parser.md R225). -/
def squawkNat (l : Config.LayoutIdentity) (c : BitVec 13) : Nat :=
  512 * bitsNat [c.getLsbD l.a4, c.getLsbD l.a2, c.getLsbD l.a1] +
    64 * bitsNat [c.getLsbD l.b4, c.getLsbD l.b2, c.getLsbD l.b1] +
    8 * bitsNat [c.getLsbD l.c4, c.getLsbD l.c2, c.getLsbD l.c1] +
    bitsNat [c.getLsbD l.d4, c.getLsbD l.d2, c.getLsbD l.d1]

/-- The first position of `ac` in a frame of format `d` (30_encoding.md R89, R90, R92, R97). -/
def acFirst (l : Config.Layout) (d : Nat) : Nat :=
  if d = 0 then l.df0.ac.first else if d = 16 then l.df16.ac.first else l.surveillance.code.first

/-! ### The rows at the positions of the tables (30_encoding.md R89 to R103) -/

/-- The squawk of an identity code whose bits are named as 30_encoding.md R103 names them (44_parser.md R225). -/
def tableSquawk (c : BitVec 13) : BitVec 12 :=
  BitVec.ofNat 12
    (512 * bitsNat [c.getLsbD 7, c.getLsbD 9, c.getLsbD 11] + 64 * bitsNat [c.getLsbD 1, c.getLsbD 3, c.getLsbD 5] +
      8 * bitsNat [c.getLsbD 8, c.getLsbD 10, c.getLsbD 12] + bitsNat [c.getLsbD 0, c.getLsbD 2, c.getLsbD 4])

/-- DF 0 (30_encoding.md R89). -/
def tableDf0 (f : Short) (c : BitVec 24) (r : Result) : Result :=
  withAlt (fieldOf f 19 13)
    { r with
      kind := some 1
      vs := some (fieldOf f 5 1)
      cc := some (fieldOf f 6 1)
      x0 := some ((fieldOf f 7 6).setWidth 7)
      ri := some (fieldOf f 13 4)
      x1 := some (fieldOf f 17 2)
      aa := some c
      ap := some c }

/-- `fs`, `dr`, `um` of DF 4, 5, 20 and 21, with the overlaid address (30_encoding.md R90, R97). -/
def tableSurveillance {n : Nat} (f : BitVec n) (c : BitVec 24) (kind : BitVec 5) (r : Result) : Result :=
  { r with
    kind := some kind
    fs := some (fieldOf f 5 3)
    dr := some (fieldOf f 8 5)
    um := some (fieldOf f 13 6)
    aa := some c
    ap := some c }

/-- `id` of DF 5 and 21 and its squawk (30_encoding.md R90, R97, R103). -/
def tableIdentity {n : Nat} (f : BitVec n) (r : Result) : Result :=
  { r with idCode := some (fieldOf f 19 13), squawk := some (tableSquawk (fieldOf f 19 13)) }

/-- `mb` and `bds` of DF 20 and 21 (30_encoding.md R97). -/
def tableCommB (f : Long) (r : Result) : Result :=
  { r with mb := some (fieldOf f 32 56), bds := some (fieldOf f 32 8) }

/-- DF 4 (30_encoding.md R90). -/
def tableDf4 (f : Short) (c : BitVec 24) (r : Result) : Result := withAlt (fieldOf f 19 13) (tableSurveillance f c 2 r)

/-- DF 5 (30_encoding.md R90). -/
def tableDf5 (f : Short) (c : BitVec 24) (r : Result) : Result := tableIdentity f (tableSurveillance f c 3 r)

/-- DF 20 (30_encoding.md R97). -/
def tableDf20 (f : Long) (c : BitVec 24) (r : Result) : Result :=
  withAlt (fieldOf f 19 13) (tableCommB f (tableSurveillance f c 12 r))

/-- DF 21 (30_encoding.md R97). -/
def tableDf21 (f : Long) (c : BitVec 24) (r : Result) : Result :=
  tableIdentity f (tableCommB f (tableSurveillance f c 13 r))

/-- DF 11 (30_encoding.md R91). -/
def tableDf11 (f : Short) (r : Result) : Result :=
  { r with
    kind := some 4
    ca := some (fieldOf f 5 3)
    aa := some (fieldOf f 8 24)
    ap := some (fieldOf f 8 24) }

/-- DF 16 with its resolution advisory and its threat fields (30_encoding.md R92, R93). -/
def tableDf16 (f : Long) (c : BitVec 24) (r : Result) : Result :=
  let base := withAlt (fieldOf f 19 13)
    { r with
      kind := some 5
      vs := some (fieldOf f 5 1)
      x0 := some (fieldOf f 6 7)
      ri := some (fieldOf f 13 4)
      x1 := some (fieldOf f 17 2)
      mv := some (fieldOf f 32 56)
      aa := some c
      ap := some c }
  let advisory := { base with
    ara := some (fieldOf f 40 14)
    rac := some (fieldOf f 54 4)
    rat := some (fieldOf f 58 1)
    mti := some (fieldOf f 59 1)
    tti := some (fieldOf f 60 2)
    tid := some (fieldOf f 62 26) }
  if fieldOf f 32 8 = 0x30 then
    if fieldOf f 60 2 = 2 then
      { advisory with tida := some (fieldOf f 62 13), tidr := some (fieldOf f 75 7), tidb := some (fieldOf f 82 6) }
    else advisory
  else base

/-- DF 19, with the plain fields for `af = 0` (30_encoding.md R96). -/
def tableDf19 (f : Long) (r : Result) : Result :=
  if fieldOf f 5 3 = 0 then
    { r with
      kind := some 11
      af := some 0
      aa := some (fieldOf f 8 24)
      ap := some (fieldOf f 8 24)
      me := some (fieldOf f 32 56)
      pi := some (fieldOf f 88 24) }
  else { r with kind := some 11, af := some (fieldOf f 5 3) }

/-- DF 24 to 31 (30_encoding.md R98). -/
def tableCommD (f : Long) (c : BitVec 24) (r : Result) : Result :=
  { r with
    kind := some 15
    x0 := some ((fieldOf f 2 1).setWidth 7)
    ke := some (fieldOf f 3 1)
    nd := some (fieldOf f 4 4)
    md := some (fieldOf f 8 80)
    aa := some c
    ap := some c }

/-- An airborne position (30_encoding.md R100). -/
def tablePosition (f : Long) (r : Result) : Result :=
  { r with
    kind := some 7
    ss := some (fieldOf f 37 2)
    nicsb := some (fieldOf f 39 1)
    alt := some (fieldOf f 40 12)
    t := some (fieldOf f 52 1)
    cprOdd := some (fieldOf f 53 1)
    latCpr := some (fieldOf f 54 17)
    lonCpr := some (fieldOf f 71 17) }

/-- An airborne velocity, with the climb rate of the subtypes 1 and 3 (30_encoding.md R101, 45_ext_squitter.md R255). -/
def tableVelocity (f : Long) (r : Result) : Result :=
  let derived := fieldOf f 37 3 = 1 ∨ fieldOf f 37 3 = 3
  { r with
    kind := some 8
    st := some (fieldOf f 37 3)
    ic := some (fieldOf f 40 1)
    ifr := some (fieldOf f 41 1)
    nac := some (fieldOf f 42 3)
    weSign := some (fieldOf f 45 1)
    we := some (fieldOf f 46 10)
    nsSign := some (fieldOf f 56 1)
    ns := some (fieldOf f 57 10)
    vrSrc := some (fieldOf f 67 1)
    vrSign := some (fieldOf f 68 1)
    vr := some (fieldOf f 69 9)
    difSign := some (fieldOf f 80 1)
    dif := some (fieldOf f 81 7)
    climb :=
      if derived then
        some (BitVec.ofInt 16
          ((((fieldOf f 69 9).toNat : Int) - 1) * 64 * (if fieldOf f 68 1 = 0 then 1 else -1)))
      else none
    climbSt := some (if derived then 1 else 2) }

/-- A state ended by a row: the record `r`, `STATUS` `OK`, `FSM` at `IDLE`, everything else as before (44_parser.md
R200). -/
def ended (s : State) (r : Result) : State := { s with result := r, status := 0, fsm := .idle }

/-- The statuses an instruction can end with (60_exceptions.md R303; a row ends the `PARSE` it is part of with `OK`,
44_parser.md R200). -/
def statuses : Instr → List (BitVec 4)
  | .crc _ => [0, 1]
  | .crcEnc _ => [0, 1]
  | .altIsm _ => [0]
  | .altIsq _ => [0]
  | .altFt _ => [0, 3, 4]
  | .altM _ => [0, 3, 4]
  | .cprNl _ => [0, 6]
  | .cprEnc _ _ _ _ => [0, 6]
  | .csDec _ => [0, 1]
  | .parse _ _ => [0, 1, 2]
  | _ => [0]

end Sys2Proof.Claims

open Sys2Proof Sys2Proof.Machine Sys2Proof.Claims

/-! ### Encoding -/

/-- Decoding an encoded well-formed instruction gives it back, with every operand, whatever the parameters of the block
(30_encoding.md R80 to R87, R115). -/
def Obligations.DecodeEncodeRoundTrip : Prop :=
  ∀ (p : Config.Params) (i : Instr), p.legal = true → i.wf p = true → decode p i.port (encode p i) = .ok i

/-- What decodes is well formed, belongs to the port it was read at, and encodes to the very bytes: no two byte sequences
of a port are one instruction. -/
def Obligations.EncodeDecodeRoundTrip : Prop :=
  ∀ (p : Config.Params) (port : Port) (bytes : List Byte) (i : Instr), p.legal = true →
    decode p port bytes = .ok i → i.wf p = true ∧ i.port = port ∧ encode p i = bytes

/-- Words written out from the encodings of 30_encoding.md R82 to R94 decode to what they stand for, at the default
parameters. -/
def Obligations.SpecWordsDecode : Prop :=
  decode Config.params .packet [0x13, 0xAA, 0xBB, 0xCC] = .ok (.crc [0xAA, 0xBB, 0xCC]) ∧
  decode Config.params .packet [0x50, 0x06, 0xB8] = .ok (.altFt 0x6B8) ∧
  decode Config.params .packet [0x70, 0xFF, 0xFF, 0xFF, 0xFE] = .ok (.cprNl (-2)) ∧
  decode Config.params .packet [0x80, 0x91, 0, 0, 0, 1, 0x80, 0, 0, 2] = .ok (.cprEnc 1 17 1 (-2147483646)) ∧
  decode Config.params .packet [0xA1, 0, 0, 0, 0, 0, 0, 0, 9, 0x5D] = .ok (.parse 9 [0x5D]) ∧
  decode Config.params .frame [0x59, 0xA0, 0x57, 0xB9, 0x2B, 0xB9, 0x85] = .ok (.df11 0x59A057B92BB985) ∧
  decode Config.params .squitter [0x8D, 0x40, 0x62, 0x1D, 0x58, 0xC3, 0x82, 0xD6, 0x90, 0xC8, 0xAC, 0x28, 0x63, 0xA7] =
    .ok (.esTc11 0x8D40621D58C382D690C8AC2863A7)

/-- A field of a buffer is the sum of its bits, position 0 being the top bit of byte 0; a run of bytes is the field at
eight times its address; a shift and a mask of the whole buffer give the same (00_scope.md R9, R10, 20_memory.md R52). -/
def Obligations.FieldIsBitSum : Prop :=
  ∀ (bytes : List Byte) (p w a k : Nat),
    (p + w ≤ 8 * bytes.length →
      (Bits.field (Bits.bytesBits (8 * bytes.length) bytes) p w).toNat = bytesField bytes p w ∧
      bytesField bytes p w = Bits.bytesNat bytes / 2 ^ (8 * bytes.length - p - w) % 2 ^ w) ∧
    (a + k ≤ bytes.length → Bits.bytesNat ((bytes.drop a).take k) = bytesField bytes (8 * a) (8 * k)) ∧
    (p < 8 * bytes.length → (Bits.bytesBits (8 * bytes.length) bytes).getMsbD p = byteBit bytes p)

/-- A packet with a reserved opcode ends with `BAD_OPCODE` from byte 0 alone, with no result field (30_encoding.md R81,
60_exceptions.md R286). That no operand register but `OP` is written is the model's choice (log 5). -/
def Obligations.ReservedOpcodeRefused : Prop :=
  ∀ (s : State) (b : Byte) (later : List HostEvent),
    s.fsm = .idle → s.host = .byte b :: later → (b.toNat / 16 = 0 ∨ 11 ≤ b.toNat / 16) →
    step s = .next
      { s with op := BitVec.ofNat 4 (b.toNat / 16), host := later, result := Result.empty, status := 5 }

/-- A packet of format A, N or C with a reserved bit set ends with `BAD_OPERAND` and no result field (30_encoding.md
R110). That no operand register but `OP` is written is the model's choice (log 5). -/
def Obligations.ReservedBitsRefused : Prop :=
  ∀ (s : State) (b0 b1 : Byte) (rest : List Byte) (later : List HostEvent),
    s.fsm = .idle → s.host = hostBytes (b0 :: b1 :: rest) ++ later →
    ((3 ≤ b0.toNat / 16 ∧ b0.toNat / 16 ≤ 6 ∧ rest.length = 1 ∧ (b0.toNat % 16 ≠ 0 ∨ b1.toNat / 32 ≠ 0)) ∨
      (b0.toNat / 16 = 7 ∧ rest.length + 1 = s.params.angleBytes ∧ b0.toNat % 16 ≠ 0) ∨
      (b0.toNat / 16 = 8 ∧ rest.length = 2 * s.params.angleBytes ∧
        (b0.toNat % 16 ≠ 0 ∨ b1.toNat / 32 % 4 ≠ 0))) →
    step s = .next
      { s with op := BitVec.ofNat 4 (b0.toNat / 16), host := later, result := Result.empty, status := 6 }

/-! ### The step -/

/-- When the host has delivered a packet that decodes to an instruction, a step from `IDLE` takes the packet off the input
and runs that instruction (log 1 says where packets come from). -/
def Obligations.StepRunsPacket : Prop :=
  ∀ (s : State) (bytes : List Byte) (later : List HostEvent) (i : Instr),
    s.fsm = .idle → s.host = hostBytes bytes ++ later → decode s.params .packet bytes = .ok i →
    step s = exec i (setHost later s)

/-- In the middle of a `PARSE`, with no reset pending, a step runs the row of the FSM's state that the frame in `BUF`
selects; in `CHECK` it runs the command with the operands it latched (logs 6 and 14: the model's choice). -/
def Obligations.StepRunsPendingRow : Prop :=
  (∀ (s : State) (i : Instr), i.port ≠ .packet → s.fsm = instrFsm i → decode s.params i.port (bufBytes s) = .ok i →
    s.host.head? ≠ some .reset → step s = exec i s) ∧
  ∀ s : State, s.fsm = .check → s.host.head? ≠ some .reset → step s = exec (.parse s.ts (bufBytes s)) s

/-- Until a whole packet has come, the block keeps its state: the result record, `PRESENT` and `STATUS` hold (10_state.md
R33, 60_exceptions.md R301; log 13). -/
def Obligations.StepWaitsForPacket : Prop :=
  ∀ (s : State) (bytes : List Byte), s.fsm = .idle → s.host = hostBytes bytes →
    (bytes = [] ∨ bytes.length < packetLength s.params (bytes.headD 0)) → step s = .next s

/-- A reset, also one in the middle of a packet or of a `PARSE`, leaves `FSM` at `IDLE`, `STATUS` `OK` and no field present,
what the host sends afterwards is still to come, and the parameters stay (70_reset_and_hazards.md R310; log 11; log 8). -/
def Obligations.ResetEventClears : Prop :=
  ∀ (s : State) (bytes : List Byte) (later : List HostEvent),
    ((s.fsm = .idle ∧ s.host = hostBytes bytes ++ .reset :: later ∧
        (bytes = [] ∨ bytes.length < packetLength s.params (bytes.headD 0))) ∨
      (s.fsm ≠ .idle ∧ s.host = .reset :: later)) →
    ∃ t, step s = .next t ∧ t.fsm = .idle ∧ t.status = 0 ∧ Absent t ∧ t.host = later ∧ t.params = s.params

/-- After reset `FSM` is `IDLE`, `STATUS` is `OK` and no result field is present (10_state.md R36). -/
def Obligations.ResetState : Prop :=
  State.reset.fsm = .idle ∧ State.reset.status = 0 ∧ Absent State.reset ∧ State.reset.result = Result.empty

/-- The invariant holds after reset. -/
def Obligations.InvAtReset : Prop := Inv State.reset

/-- Every step keeps the invariant: the buffer's canonical form, the legal values of `STATUS`, `kind`, `alt_st` and
`climb_st`, the presence rules of the record, the ranges of the derived values, what a `PARSE` in progress has
written, and numbers that fit their widths; and it leaves the parameters as they are. -/
def Obligations.StepKeepsInv : Prop :=
  ∀ s t : State, Inv s → step s = .next t → Inv t ∧ t.params = s.params

/-- From every state of the invariant the step answers a next state: no fault, no refusal, no state that needs a reset
(60_exceptions.md R284, 70_reset_and_hazards.md R317). -/
def Obligations.StepAlwaysNext : Prop :=
  ∀ s : State, Inv s → ∃ t, step s = .next t

/-- Every instruction ends, from every state, with `FSM` at `IDLE`, a legal `STATUS`, and no result field present unless
`STATUS` is `OK`; it changes neither the host's input nor the parameters (10_state.md R26, R27, 60_exceptions.md R280, R284). -/
def Obligations.InstructionsEnd : Prop :=
  ∀ (i : Instr) (s : State), ∃ t, exec i s = .next t ∧ t.fsm = .idle ∧ t.status.toNat ≤ 6 ∧
    (t.status ≠ 0 → Absent t) ∧ t.host = s.host ∧ t.params = s.params

/-- Each command ends with one of the statuses of the table of 60_exceptions.md R303; reserved packet bits and reserved
opcodes do not reach `exec`. -/
def Obligations.StatusesOfCommands : Prop :=
  ∀ (i : Instr) (s t : State), exec i s = .next t → t.status ∈ statuses i

/-- What a command leaves in the result record and in `STATUS` depends on its packet alone: two states that hold the same
whole packet next agree afterwards, whatever else they hold but for the parameters of the block (10_state.md R32; log 1 says
where packets come from). -/
def Obligations.ResultDependsOnPacketOnly : Prop :=
  ∀ (s s' : State) (bytes : List Byte) (later later' : List HostEvent), s.params = s'.params →
    s.fsm = .idle → s'.fsm = .idle → s.host = hostBytes bytes ++ later → s'.host = hostBytes bytes ++ later' →
    bytes ≠ [] → bytes.length = packetLength s.params (bytes.headD 0) →
    ∃ t t', step s = .next t ∧ step s' = .next t' ∧ t.result = t'.result ∧ t.status = t'.status ∧
      (∀ f, t.result.present f = t'.result.present f) ∧ t.fsm = .idle ∧ t'.fsm = .idle ∧
      t.host = later ∧ t'.host = later'

/-! ### The buffer commands: frame and failure -/

/-- What the commands that name the buffer write besides the result record: `OP`, `LEN`, `BUF` and, for `PARSE`, `TS`;
nothing else but the working copy `W` of the CRC commands and of `PARSE`, in which the positions before the remainder are 0
after a division (10_state.md R21, 40_crc.md R121, R127; what is not written: log 3, for fifteen bytes log 12, in `W`
log 15). -/
def Obligations.BufferCommandFrame : Prop :=
  ∀ (bytes : List Byte) (ts : Nat) (s : State), bytes.length ≤ 15 →
    (∃ t, exec (.crc bytes) s = .next t ∧ Latched 1 bytes s t ∧ t.ts = s.ts ∧
      (t.status ≠ 0 → t.w = s.w) ∧ (t.status = 0 → ∀ p, p + 24 < 8 * bytes.length → t.w.getMsbD p = false)) ∧
    (∃ t, exec (.crcEnc bytes) s = .next t ∧ Latched 2 bytes s t ∧ t.ts = s.ts ∧
      (t.status ≠ 0 → t.w = s.w) ∧ (t.status = 0 → ∀ p, p + 24 < 8 * bytes.length → t.w.getMsbD p = false)) ∧
    (∃ t, exec (.csDec bytes) s = .next t ∧ Latched 9 bytes s t ∧ t.ts = s.ts ∧ t.w = s.w) ∧
    ∃ t, exec (.parse ts bytes) s = .next t ∧ Latched 10 bytes s t ∧ t.ts = ts ∧
      (t.status ≠ 0 → t.w = s.w) ∧ (t.status = 0 → ∀ p, p + 24 < 8 * bytes.length → t.w.getMsbD p = false)

/-- `BAD_LENGTH`: which lengths each command refuses, and that it refuses no other (60_exceptions.md R281). -/
def Obligations.BadLengthRefused : Prop :=
  ∀ (bytes : List Byte) (ts : Nat) (s : State), bytes.length ≤ 15 →
    (FailsWith (.crc bytes) s 1 ↔ bytes.length < 3 ∨ bytes.length = 15) ∧
    (FailsWith (.crcEnc bytes) s 1 ↔ bytes.length < 3 ∨ bytes.length = 15) ∧
    (FailsWith (.csDec bytes) s 1 ↔ bytes.length ≠ 6) ∧
    (FailsWith (.parse ts bytes) s 1 ↔ bytes.length ≠ 7 ∧ bytes.length ≠ 14)

/-! ### CRC -/

/-- `CRC` is the remainder of the buffer's polynomial by the generator, for each length from 3 to 14 (40_crc.md R121,
R123). -/
def Obligations.CrcIsPolynomialRemainder : Prop :=
  ∀ (bytes : List Byte), 3 ≤ bytes.length → bytes.length ≤ 14 →
    ∃ c : BitVec 24, CrcGives bytes c ∧ bitsPoly c = bytesPoly bytes %ₘ genPoly

/-- `CRC.ENC` is the remainder of the buffer with its last three bytes zeroed; with that value in their place `CRC` gives 0;
a buffer of three bytes gives 0 (40_crc.md R122). -/
def Obligations.CrcEncIgnoresTail : Prop :=
  ∀ (body : List Byte) (a b d : Byte), body.length ≤ 11 →
    ∃ c : BitVec 24, CrcEncGives (body ++ [a, b, d]) c ∧
      bitsPoly c = bytesPoly (body ++ [0, 0, 0]) %ₘ genPoly ∧ CrcGives (body ++ tailBytes c) 0 ∧ (body = [] → c = 0)

/-- The CRC is linear (40_crc.md R124 (a)). -/
def Obligations.CrcIsLinear : Prop :=
  ∀ (x y : List Byte) (c d : BitVec 24), x.length = y.length → 3 ≤ x.length → x.length ≤ 14 →
    CrcGives x c → CrcGives y d → CrcGives (List.zipWith (· ^^^ ·) x y) (c ^^^ d)

/-- The trailing field: the CRC is the parity of the rest XOR the trailing field, it is 0 exactly when that field is the
parity, and it is the address when the field holds the address XOR the parity (40_crc.md R124 (b), (c), (d)). -/
def Obligations.CrcRecoversAddress : Prop :=
  ∀ (body : List Byte), body.length ≤ 11 → ∃ p : BitVec 24, ∀ v a : BitVec 24,
    CrcEncGives (body ++ tailBytes v) p ∧ CrcGives (body ++ tailBytes v) (p ^^^ v) ∧
    (CrcGives (body ++ tailBytes v) 0 ↔ v = p) ∧ CrcGives (body ++ tailBytes (p ^^^ a)) a

/-- Flipping the bit at position `p` changes the CRC by the remainder of `x^(8n-1-p)`, whatever the rest of the buffer is
(40_crc.md R124 (e)). -/
def Obligations.CrcSyndromeOfOneBit : Prop :=
  ∀ (n p : Nat), 3 ≤ n → n ≤ 14 → p < 8 * n →
    ∃ d : BitVec 24, bitsPoly d = Polynomial.X ^ (8 * n - 1 - p) %ₘ genPoly ∧
      ∀ (bytes : List Byte) (c : BitVec 24), bytes.length = n → CrcGives bytes c →
        CrcGives (flipAt bytes p) (c ^^^ d)

/-! ### Altitude -/

/-- `ALT.ISM` and `ALT.ISQ`: the flag is bit 6, bit 4, of the code; total on all codes; nothing but `OP`, `AC`, the record
and `STATUS` is written (41_altitude.md R141, R142; what is not written: log 3). -/
def Obligations.AltPredicates : Prop :=
  ∀ (ac : BitVec 13) (s : State),
    exec (.altIsm ac) s = .next (ended { s with op := 3, ac := ac }
      { Result.empty with flag := some (BitVec.ofBool (ac.getLsbD 6)) }) ∧
    exec (.altIsq ac) s = .next (ended { s with op := 4, ac := ac }
      { Result.empty with flag := some (BitVec.ofBool (ac.getLsbD 4)) })

/-- `ALT.FT`: the feet of the simple and of the Gillham format, and the two failures, for every code; nothing but `OP`,
`AC`, the record and `STATUS` is written (41_altitude.md R150, R151, 60_exceptions.md R284; what is not written: log 3). -/
def Obligations.AltFtDecodes : Prop :=
  ∀ (ac : BitVec 13) (s : State),
    exec (.altFt ac) s = .next
      (match specAlt ac with
      | .ok v => ended { s with op := 5, ac := ac } { Result.empty with altFt := some (BitVec.ofInt 18 v) }
      | .error .unsupportedEncoding =>
        { s with op := 5, ac := ac, result := Result.empty, status := 3, fsm := .idle }
      | .error _ => { s with op := 5, ac := ac, result := Result.empty, status := 4, fsm := .idle })

/-- `ALT.M`: exactly 381 times the feet that `ALT.FT` gives, the same failures, nothing else written but `OP` and `AC`
(41_altitude.md R152; what is not written: log 3). -/
def Obligations.AltMetresExact : Prop :=
  ∀ (ac : BitVec 13) (s : State), ∃ t t', exec (.altFt ac) s = .next t ∧ exec (.altM ac) s = .next t' ∧
    t' = { s with op := 6, ac := ac, result := t'.result, status := t.status, fsm := .idle } ∧
    (∀ x, t.result.altFt = some x →
      ∃ y, t'.result = { Result.empty with altMNum := some y } ∧ y.toInt = 381 * x.toInt) ∧
    (t.result.altFt = none → t'.result = Result.empty)

/-- The ranges of 41_altitude.md R153: simple codes give multiples of 25 from -1000 to 50175, Gillham codes multiples of 100
from -1200 to 126700, and both ends of each range occur. -/
def Obligations.AltitudeRanges : Prop :=
  (∀ (ac : BitVec 13) (v : Int), FeetOf ac v →
    ac.getLsbD 6 = false ∧
    (ac.getLsbD 4 = true → -1000 ≤ v ∧ v ≤ 50175 ∧ v % 25 = 0) ∧
    (ac.getLsbD 4 = false → -1200 ≤ v ∧ v ≤ 126700 ∧ v % 100 = 0)) ∧
  FeetOf 0x0010 (-1000) ∧ FeetOf 0x1FBF 50175 ∧ FeetOf 0x0100 (-1200) ∧ FeetOf 0x0104 126700

/-- How many of the 8192 codes each interpretation takes (41_altitude.md R143, R150, 60_exceptions.md R285). -/
def Obligations.AltitudeCodeCounts : Prop :=
  let ends (e : BitVec 4) (q : Bool) (n : Nat) : Bool :=
    match exec (.altFt (BitVec.ofNat 13 n)) State.reset with
    | .next t => t.status == e && (BitVec.ofNat 13 n).getLsbD 4 == q
    | _ => false
  (List.range 8192).countP (ends 3 false) + (List.range 8192).countP (ends 3 true) = 4096 ∧
  (List.range 8192).countP (ends 0 true) = 2048 ∧ (List.range 8192).countP (ends 0 false) = 1280 ∧
  (List.range 8192).countP (ends 4 false) = 768 ∧ (List.range 8192).countP (ends 4 true) = 0

/-- Gillham codes are a Gray code of the altitude: two codes of one altitude are equal, and codes of altitudes 100 ft apart
differ in exactly one bit (41_altitude.md R153). -/
def Obligations.GillhamIsGrayCode : Prop :=
  ∀ (ac ac' : BitVec 13) (v v' : Int), ac.getLsbD 4 = false → ac'.getLsbD 4 = false → FeetOf ac v → FeetOf ac' v' →
    (v = v' → ac = ac') ∧ (v' = v + 100 → ∃ k, k < 13 ∧ ac' = ac ^^^ (1#13 <<< k))

/-! ### CPR -/

/-- `CPR.NL` at the default `ANGLE_FRAC`: the zone count by the spec's table of thresholds, which is the model's, runs from
59 down to 2 and rises; nothing but `OP`, `LAT`, the record and `STATUS` is written (42_cpr.md R173, R175; the table:
log 18; what is not written: log 3). -/
def Obligations.CprNlCountsZones : Prop :=
  zoneTable 22 = tqTable ∧
  tqTable.map Prod.fst = (List.range 58).map (fun k => 59 - k) ∧
  (tqTable.map Prod.snd).Pairwise (· < ·) ∧
  ∀ (lat : Int) (s : State), s.params.angleFrac = 22 → InDomain 22 lat → ∃ n, IsZoneCount tqTable lat.natAbs n ∧
    exec (.cprNl lat) s = .next (ended { s with op := 7, lat := lat }
      { Result.empty with nl := some (BitVec.ofNat 6 n) })

/-- The corner cases of 42_cpr.md R175, by their register values at the default `ANGLE_FRAC`, and the example `CPR.NL 52.2572`. -/
def Obligations.CprNlCorners : Prop :=
  NlGives 0 59 ∧ NlGives 43916339 59 ∧ NlGives 43916340 58 ∧ NlGives 364904448 2 ∧ NlGives 364904449 1 ∧
  NlGives 377487360 1 ∧ NlGives (-364904448) 2 ∧ NlGives (-364904449) 1 ∧ NlGives (-377487360) 1 ∧
  NlGives 219182583 36

/-- The zone count depends on the absolute latitude only, never rises with it, and takes every value from 59 down to 1; it
is 59 at 0, 2 at 87 degrees and 1 beyond; at the default `ANGLE_FRAC` (42_cpr.md R174). -/
def Obligations.CprNlProperties : Prop :=
  (∀ (lat lat' : Int) (n n' : Nat), InDomain 22 lat → InDomain 22 lat' → n ≤ 59 → n' ≤ 59 → NlGives lat n →
    NlGives lat' n' → lat.natAbs ≤ lat'.natAbs → n' ≤ n) ∧
  (∀ n, 1 ≤ n → n ≤ 59 → ∃ lat, InDomain 22 lat ∧ NlGives lat n) ∧
  NlGives 0 59 ∧ (∀ lat : Int, lat.natAbs = 364904448 → NlGives lat 2) ∧
  ∀ lat : Int, InDomain 22 lat → 364904448 < lat.natAbs → NlGives lat 1

/-- `CPR.NL` is the real-number formula of 42_cpr.md R172, with its clamps and its two not-a-number branches, for every
`ANGLE_FRAC` and every latitude of the domain; nothing but `OP`, `LAT`, the record and `STATUS` is written (R175; how the
count is computed: log 18; what is not written: log 3). -/
def Obligations.CprNlIsRealFormula : Prop :=
  ∀ (lat : Int) (s : State), InDomain s.params.angleFrac lat →
    exec (.cprNl lat) s = .next (ended { s with op := 7, lat := lat }
      { Result.empty with nl := some (BitVec.ofNat 6 (realNl (lat / 2 ^ s.params.angleFrac))) })

/-- A latitude outside -90 to 90 degrees is refused with `BAD_OPERAND` by both commands, no other latitude is, and no result
field is written (42_cpr.md R179; what is not written: log 3). -/
def Obligations.LatitudeDomain : Prop :=
  ∀ (lat lon : Int) (odd : BitVec 1) (nbits : BitVec Config.nbitsW) (s : State),
    (InDomain s.params.angleFrac lat →
      ¬ FailsWith (.cprNl lat) s 6 ∧ ¬ FailsWith (.cprEnc odd nbits lat lon) s 6) ∧
    (¬ InDomain s.params.angleFrac lat →
      exec (.cprNl lat) s =
        .next { s with op := 7, lat := lat, result := Result.empty, status := 6, fsm := .idle } ∧
      exec (.cprEnc odd nbits lat lon) s =
        .next { s with
          op := 8, odd := odd, nbits := nbits, lat := lat, lon := lon, result := Result.empty, status := 6
          fsm := .idle })

/-- `CPR.ENC` is the rational formula: zone height `90 / (15 - i)`, zone width `360 / max(1, NL - i)`, and the rounded
fraction of the zone on each axis; nothing but its operand registers, the record and `STATUS` is written (42_cpr.md R176,
R177, R178; what is not written: log 3; the zone count by the thresholds: log 18). -/
def Obligations.CprEncIsRationalFormula : Prop :=
  ∀ (odd : BitVec 1) (nbits : BitVec Config.nbitsW) (lat lon : Int) (s : State) (n : Nat),
    InDomain s.params.angleFrac lat → IsZoneCount (zoneTable s.params.angleFrac) lat.natAbs n →
    exec (.cprEnc odd nbits lat lon) s = .next (ended { s with op := 8, odd := odd, nbits := nbits, lat := lat, lon := lon }
      { Result.empty with
        encLat := some (BitVec.ofNat 32
          (coord (degrees s.params.angleFrac lat) (90 / (15 - (odd.toNat : ℚ))) nbits.toNat))
        encLon := some (BitVec.ofNat 32
          (coord (degrees s.params.angleFrac lon) (360 / ((max 1 (n - odd.toNat) : Nat) : ℚ)) nbits.toNat)) })

/-- Laws of the encoder: both coordinates lie below `2^NBITS`; the longitude's depends on the latitude only through its zone
count, and not on whole turns of the longitude (42_cpr.md R178, R181). -/
def Obligations.CprEncLaws : Prop :=
  ∀ (odd : BitVec 1) (nbits : BitVec Config.nbitsW) (lat lat' lon lon' : Int) (n : Nat) (s : State),
    InDomain s.params.angleFrac lat → InDomain s.params.angleFrac lat' →
    IsZoneCount (zoneTable s.params.angleFrac) lat.natAbs n → IsZoneCount (zoneTable s.params.angleFrac) lat'.natAbs n →
    lon % (360 * 2 ^ s.params.angleFrac) = lon' % (360 * 2 ^ s.params.angleFrac) →
    ∃ t t' x x' y, exec (.cprEnc odd nbits lat lon) s = .next t ∧ exec (.cprEnc odd nbits lat' lon') s = .next t' ∧
      t.result = { Result.empty with encLat := some x, encLon := some y } ∧
      t'.result = { Result.empty with encLat := some x', encLon := some y } ∧
      x.toNat < 2 ^ nbits.toNat ∧ y.toNat < 2 ^ nbits.toNat

/-! ### Callsign -/

/-- `CS.DEC` byte by byte: the eight six-bit indices of the payload, each through the character table (43_callsign.md R190,
R191, R192). -/
def Obligations.CsDecCharacters : Prop :=
  ∀ (p0 p1 p2 p3 p4 p5 : Byte) (s : State), ∃ t,
    exec (.csDec [p0, p1, p2, p3, p4, p5]) s = .next t ∧ t.status = 0 ∧ t.fsm = .idle ∧
    t.result = { Result.empty with
      cs := some
        ⟨asciiOf (p0 >>> 2), asciiOf ((p0 &&& 3) <<< 4 ||| p1 >>> 4), asciiOf ((p1 &&& 15) <<< 2 ||| p2 >>> 6),
          asciiOf (p2 &&& 63), asciiOf (p3 >>> 2), asciiOf ((p3 &&& 3) <<< 4 ||| p4 >>> 4),
          asciiOf ((p4 &&& 15) <<< 2 ||| p5 >>> 6), asciiOf (p5 &&& 63)⟩ }

/-- Two payloads with the same callsign are equal (43_callsign.md R192). -/
def Obligations.CsDecInjective : Prop :=
  ∀ (x y : List Byte) (s t u : State), x.length = 6 → y.length = 6 →
    exec (.csDec x) s = .next t → exec (.csDec y) s = .next u → t.result = u.result → x = y

/-! ### The parser -/

/-- `LENGTH_MISMATCH`: exactly when the length is 7 or 14 and is not the one `df` implies (60_exceptions.md R282). -/
def Obligations.LengthMismatchRefused : Prop :=
  ∀ (ts : Nat) (bytes : List Byte) (s : State), bytes.length ≤ 15 →
    (FailsWith (.parse ts bytes) s 2 ↔
      (bytes.length = 14 ∧ dfOf bytes ∈ [0, 4, 5, 11]) ∨
      (bytes.length = 7 ∧ ((16 ≤ dfOf bytes ∧ dfOf bytes ≤ 22) ∨ (24 ≤ dfOf bytes ∧ dfOf bytes ≤ 31))))

/-- The fields every successful `PARSE` presents: `ts` as given, `df` the top five bits of byte 0, `crc` the value that `CRC`
gives for the whole buffer (44_parser.md R202, R204, R222). -/
def Obligations.ParseCommonFields : Prop :=
  ∀ (ts : Nat) (bytes : List Byte) (s : State), LengthFits bytes.length (dfOf bytes) →
    ∃ t c, exec (.parse ts bytes) s = .next t ∧ t.status = 0 ∧ t.fsm = .idle ∧ CrcGives bytes c ∧
      t.result.ts = some ts ∧ t.result.df = some (BitVec.ofNat 5 (dfOf bytes)) ∧ t.result.crc = some c

/-- The table of `kind`: which variant every successful `PARSE` reports (10_state.md R30, 44_parser.md R205,
45_ext_squitter.md R251). -/
def Obligations.ParseKindTable : Prop :=
  ∀ (ts : Nat) (bytes : List Byte) (s : State), LengthFits bytes.length (dfOf bytes) →
    s.params.legal = true → ∃ t, exec (.parse ts bytes) s = .next t ∧ t.status = 0 ∧
      t.result.kind =
        some (BitVec.ofNat 5 (kindOf (dfOf bytes) (bytesField bytes s.params.layout.df17.tc.first 5)))

/-- A `PARSE` of a frame is its row's instruction, run on the state that `PARSE` has written when it enters the row's state:
the operands latched, `ts`, `df` and `crc` in the record (44_parser.md R200, R205; log 6: one step). -/
def Obligations.ParseRunsRow : Prop :=
  ∀ (ts : Nat) (bytes : List Byte) (s : State) (i : Instr), decode s.params .frame bytes = .ok i →
    ∃ s1 c, CrcGives bytes c ∧ exec (.parse ts bytes) s = exec i s1 ∧ Latched 10 bytes s s1 ∧ s1.ts = ts ∧
      bufBytes s1 = bytes ∧ s1.fsm = instrFsm i ∧ instrFsm i = .df (BitVec.ofNat 5 (dfOf bytes)) ∧
      s1.result = enteredRecord ts (BitVec.ofNat 5 (dfOf bytes)) c

/-- Row `DF17`: the plain address and the type code, then the instruction of that type code's row, which ends the command
(44_parser.md R214). -/
def Obligations.RowDf17 : Prop :=
  ∀ (f : Long) (s : State), longDf f = 17 → s.params.legal = true → ∃ i t,
    decode s.params .squitter (encode s.params (.df17 f)) = .ok i ∧ i.wf s.params = true ∧
    exec (.df17 f) s = exec i
      { s with
        fsm := instrFsm i
        result := { s.result with
          aa := some (fieldAt f s.params.layout.df17.aa)
          ap := some (fieldAt f s.params.layout.df17.aa)
          tc := some (fieldAt f s.params.layout.df17.tc) } } ∧
    exec (.df17 f) s = .next t ∧ t = ended s t.result ∧ t.result.aa = some (fieldAt f s.params.layout.df17.aa) ∧
    t.result.ap = some (fieldAt f s.params.layout.df17.aa) ∧ t.result.tc = some (fieldAt f s.params.layout.df17.tc)

/-- The address rule: `aa` and `ap` are one value, the remainder or the plain bytes 1 to 3 by format, absent for the rest
(44_parser.md R206). -/
def Obligations.AddressRule : Prop :=
  ∀ (ts : Nat) (bytes : List Byte) (s : State), LengthFits bytes.length (dfOf bytes) →
    s.params.legal = true →
    ∃ t, exec (.parse ts bytes) s = .next t ∧ t.status = 0 ∧ t.result.ap = t.result.aa ∧
      t.result.aa =
        if dfOf bytes ∈ [0, 4, 5, 16, 20, 21, 24, 25, 26, 27, 28, 29, 30, 31] then t.result.crc
        else if dfOf bytes = 11 ∨ dfOf bytes = 17 ∨
            (dfOf bytes = 19 ∧ bytesField bytes s.params.layout.df19.af.first 3 = 0) then
          some (BitVec.ofNat 24 (bytesField bytes 8 24))
        else none

/-- Every format that extracts `ac` decodes it as `ALT.FT` does and records the outcome; a failure stays in the field
(44_parser.md R224). -/
def Obligations.ParseAltitude : Prop :=
  ∀ (ts : Nat) (bytes : List Byte) (s : State), LengthFits bytes.length (dfOf bytes) →
    dfOf bytes ∈ [0, 4, 16, 20] → s.params.legal = true →
    ∃ t t' ac, ac = BitVec.ofNat 13 (bytesField bytes (acFirst s.params.layout (dfOf bytes)) 13) ∧
      exec (.parse ts bytes) s = .next t ∧ exec (.altFt ac) s = .next t' ∧ t.status = 0 ∧
      t.result.ac = some ac ∧ t.result.altFt = t'.result.altFt ∧
      t.result.altSt = some (if t'.status = 0 then 1 else if t'.status = 3 then 2 else 3)

/-! ### The frame rows: the fields each writes, where the block's `LAYOUT` places them, and that it writes no others -/

/-- Row `DF0` (44_parser.md R207, R206, R224). -/
def Obligations.RowDf0 : Prop :=
  ∀ (f : Short) (s : State) (c : BitVec 24), s.params.legal = true → s.result = enteredRecord s.ts 0 c →
    exec (.df0 f) s = .next (ended s (withAlt (fieldAt f s.params.layout.df0.ac)
      { enteredRecord s.ts 0 c with
        kind := some 1
        vs := some (fieldAt f s.params.layout.df0.vs)
        cc := some (fieldAt f s.params.layout.df0.cc)
        x0 := some ((fieldAt f s.params.layout.df0.x0).setWidth 7)
        ri := some (fieldAt f s.params.layout.df0.ri)
        x1 := some (fieldAt f s.params.layout.df0.x1)
        aa := some c
        ap := some c }))

/-- Rows `DF4` and `DF5` (44_parser.md R208, R209, R206, R224, R225). -/
def Obligations.RowsDf4Df5 : Prop :=
  ∀ (f : Short) (s : State) (c : BitVec 24), s.params.legal = true →
    (s.result = enteredRecord s.ts 4 c →
      exec (.df4 f) s = .next (ended s (withAlt (fieldAt f s.params.layout.surveillance.code)
        { enteredRecord s.ts 4 c with
          kind := some 2
          fs := some (fieldAt f s.params.layout.surveillance.fs)
          dr := some (fieldAt f s.params.layout.surveillance.dr)
          um := some (fieldAt f s.params.layout.surveillance.um)
          aa := some c
          ap := some c }))) ∧
    (s.result = enteredRecord s.ts 5 c →
      exec (.df5 f) s = .next (ended s
        { enteredRecord s.ts 5 c with
          kind := some 3
          fs := some (fieldAt f s.params.layout.surveillance.fs)
          dr := some (fieldAt f s.params.layout.surveillance.dr)
          um := some (fieldAt f s.params.layout.surveillance.um)
          idCode := some (fieldAt f s.params.layout.surveillance.code)
          squawk := some (BitVec.ofNat 12
            (squawkNat s.params.layout.identity (fieldAt f s.params.layout.surveillance.code)))
          aa := some c
          ap := some c }))

/-- Row `DF11` (44_parser.md R210). -/
def Obligations.RowDf11 : Prop :=
  ∀ (f : Short) (s : State) (c : BitVec 24), s.params.legal = true → s.result = enteredRecord s.ts 11 c →
    exec (.df11 f) s = .next (ended s
      { enteredRecord s.ts 11 c with
        kind := some 4
        ca := some (fieldAt f s.params.layout.df11.ca)
        aa := some (fieldAt f s.params.layout.df11.aa)
        ap := some (fieldAt f s.params.layout.df11.aa) })

/-- Row `DF16`, its resolution advisory and its threat fields (44_parser.md R211, R212, R213). -/
def Obligations.RowDf16 : Prop :=
  ∀ (f : Long) (s : State) (c : BitVec 24), s.params.legal = true → s.result = enteredRecord s.ts 16 c →
    exec (.df16 f) s = .next (ended s
      (let base := withAlt (fieldAt f s.params.layout.df16.ac)
          { enteredRecord s.ts 16 c with
            kind := some 5
            vs := some (fieldAt f s.params.layout.df16.vs)
            x0 := some (fieldAt f s.params.layout.df16.x0)
            ri := some (fieldAt f s.params.layout.df16.ri)
            x1 := some (fieldAt f s.params.layout.df16.x1)
            mv := some (fieldAt f s.params.layout.df16.mv)
            aa := some c
            ap := some c }
        let advisory := { base with
          ara := some (fieldAt f s.params.layout.advisory.ara)
          rac := some (fieldAt f s.params.layout.advisory.rac)
          rat := some (fieldAt f s.params.layout.advisory.rat)
          mti := some (fieldAt f s.params.layout.advisory.mti)
          tti := some (fieldAt f s.params.layout.advisory.tti)
          tid := some (fieldAt f s.params.layout.advisory.tid) }
        if fieldAt f s.params.layout.advisory.head = 0x30 then
          if fieldAt f s.params.layout.advisory.tti = 2 then
            { advisory with
              tida := some (fieldAt f s.params.layout.advisory.tida)
              tidr := some (fieldAt f s.params.layout.advisory.tidr)
              tidb := some (fieldAt f s.params.layout.advisory.tidb) }
          else advisory
        else base))

/-- The rows that only classify: `kind` and nothing else (44_parser.md R215, R219, R221). -/
def Obligations.RowsClassifyOnly : Prop :=
  ∀ (f : Long) (fr : Frame) (s : State) (d : BitVec 5) (c : BitVec 24), s.result = enteredRecord s.ts d c →
    exec (.df18 f) s = .next (ended s { enteredRecord s.ts d c with kind := some 10 }) ∧
    exec (.df22 f) s = .next (ended s { enteredRecord s.ts d c with kind := some 14 }) ∧
    ∀ i ∈ [Instr.df1 fr, .df2 fr, .df3 fr, .df6 fr, .df7 fr, .df8 fr, .df9 fr, .df10 fr, .df12 fr, .df13 fr, .df14 fr,
        .df15 fr, .df23 fr],
      exec i s = .next (ended s { enteredRecord s.ts d c with kind := some 16 })

/-- Row `DF19`, with and without the plain fields (44_parser.md R216). -/
def Obligations.RowDf19 : Prop :=
  ∀ (f : Long) (s : State) (c : BitVec 24), s.params.legal = true → s.result = enteredRecord s.ts 19 c →
    exec (.df19 f) s = .next (ended s
      (if fieldAt f s.params.layout.df19.af = 0 then
        { enteredRecord s.ts 19 c with
          kind := some 11
          af := some 0
          aa := some (fieldAt f s.params.layout.df19.aa)
          ap := some (fieldAt f s.params.layout.df19.aa)
          me := some (fieldAt f s.params.layout.df19.me)
          pi := some (fieldAt f s.params.layout.df19.pi) }
      else { enteredRecord s.ts 19 c with kind := some 11, af := some (fieldAt f s.params.layout.df19.af) }))

/-- Rows `DF20` and `DF21` (44_parser.md R217, R218). -/
def Obligations.RowsDf20Df21 : Prop :=
  ∀ (f : Long) (s : State) (c : BitVec 24), s.params.legal = true →
    (s.result = enteredRecord s.ts 20 c →
      exec (.df20 f) s = .next (ended s (withAlt (fieldAt f s.params.layout.surveillance.code)
        { enteredRecord s.ts 20 c with
          kind := some 12
          fs := some (fieldAt f s.params.layout.surveillance.fs)
          dr := some (fieldAt f s.params.layout.surveillance.dr)
          um := some (fieldAt f s.params.layout.surveillance.um)
          mb := some (fieldAt f s.params.layout.commB.mb)
          bds := some (fieldAt f s.params.layout.commB.bds)
          aa := some c
          ap := some c }))) ∧
    (s.result = enteredRecord s.ts 21 c →
      exec (.df21 f) s = .next (ended s
        { enteredRecord s.ts 21 c with
          kind := some 13
          fs := some (fieldAt f s.params.layout.surveillance.fs)
          dr := some (fieldAt f s.params.layout.surveillance.dr)
          um := some (fieldAt f s.params.layout.surveillance.um)
          idCode := some (fieldAt f s.params.layout.surveillance.code)
          squawk := some (BitVec.ofNat 12
            (squawkNat s.params.layout.identity (fieldAt f s.params.layout.surveillance.code)))
          mb := some (fieldAt f s.params.layout.commB.mb)
          bds := some (fieldAt f s.params.layout.commB.bds)
          aa := some c
          ap := some c }))

/-- The eight Comm-D rows (44_parser.md R220). -/
def Obligations.RowsCommD : Prop :=
  ∀ (f : Long) (s : State) (d : BitVec 5) (c : BitVec 24), s.params.legal = true → s.result = enteredRecord s.ts d c →
    ∀ i ∈ [Instr.df24 f, .df25 f, .df26 f, .df27 f, .df28 f, .df29 f, .df30 f, .df31 f],
      exec i s = .next (ended s
        { enteredRecord s.ts d c with
          kind := some 15
          x0 := some ((fieldAt f s.params.layout.commD.x0).setWidth 7)
          ke := some (fieldAt f s.params.layout.commD.ke)
          nd := some (fieldAt f s.params.layout.commD.nd)
          md := some (fieldAt f s.params.layout.commD.md)
          aa := some c
          ap := some c })

/-! ### The type-code rows -/

/-- The identification rows: eight characters, each its six bits through the table (45_ext_squitter.md R252). -/
def Obligations.RowsIdentification : Prop :=
  ∀ (f : Long) (s : State) (c a : BitVec 24) (tc : BitVec 5), s.params.legal = true →
    s.result = squitterRecord s.ts c a tc →
    ∀ i ∈ [Instr.esTc1 f, .esTc2 f, .esTc3 f, .esTc4 f],
      exec i s = .next (ended s
        { squitterRecord s.ts c a tc with
          kind := some 6
          cs := some
            ⟨asciiOf ((fieldOf f 40 6).setWidth 8), asciiOf ((fieldOf f 46 6).setWidth 8),
              asciiOf ((fieldOf f 52 6).setWidth 8), asciiOf ((fieldOf f 58 6).setWidth 8),
              asciiOf ((fieldOf f 64 6).setWidth 8), asciiOf ((fieldOf f 70 6).setWidth 8),
              asciiOf ((fieldOf f 76 6).setWidth 8), asciiOf ((fieldOf f 82 6).setWidth 8)⟩ })

/-- The airborne-position rows: seven raw fields (45_ext_squitter.md R253). -/
def Obligations.RowsPosition : Prop :=
  ∀ (f : Long) (s : State) (c a : BitVec 24) (tc : BitVec 5), s.params.legal = true →
    s.result = squitterRecord s.ts c a tc →
    ∀ i ∈ [Instr.esTc9 f, .esTc10 f, .esTc11 f, .esTc12 f, .esTc13 f, .esTc14 f, .esTc15 f, .esTc16 f, .esTc17 f,
        .esTc18 f],
      exec i s = .next (ended s
        { squitterRecord s.ts c a tc with
          kind := some 7
          ss := some (fieldAt f s.params.layout.position.ss)
          nicsb := some (fieldAt f s.params.layout.position.nicsb)
          alt := some (fieldAt f s.params.layout.position.alt)
          t := some (fieldAt f s.params.layout.position.t)
          cprOdd := some (fieldAt f s.params.layout.position.cprOdd)
          latCpr := some (fieldAt f s.params.layout.position.latCpr)
          lonCpr := some (fieldAt f s.params.layout.position.lonCpr) })

/-- The airborne-velocity row: thirteen raw fields, and the climb rate for the subtypes of `CLIMB_VALID_ST`; `climb` is the
exact number of feet per minute, with no wrap (45_ext_squitter.md R254, R255, R258). -/
def Obligations.RowVelocity : Prop :=
  ∀ (f : Long) (s : State) (c a : BitVec 24) (tc : BitVec 5), s.params.legal = true →
    s.result = squitterRecord s.ts c a tc →
    ∃ v : BitVec 16,
      v.toInt = (((fieldAt f s.params.layout.velocity.vr).toNat : Int) - 1) * 64 *
        (if fieldAt f s.params.layout.velocity.vrSign = 0 then 1 else -1) ∧
      exec (.esTc19 f) s = .next (ended s
        { squitterRecord s.ts c a tc with
          kind := some 8
          st := some (fieldAt f s.params.layout.velocity.st)
          ic := some (fieldAt f s.params.layout.velocity.ic)
          ifr := some (fieldAt f s.params.layout.velocity.ifr)
          nac := some (fieldAt f s.params.layout.velocity.nac)
          weSign := some (fieldAt f s.params.layout.velocity.weSign)
          we := some (fieldAt f s.params.layout.velocity.we)
          nsSign := some (fieldAt f s.params.layout.velocity.nsSign)
          ns := some (fieldAt f s.params.layout.velocity.ns)
          vrSrc := some (fieldAt f s.params.layout.velocity.vrSrc)
          vrSign := some (fieldAt f s.params.layout.velocity.vrSign)
          vr := some (fieldAt f s.params.layout.velocity.vr)
          difSign := some (fieldAt f s.params.layout.velocity.difSign)
          dif := some (fieldAt f s.params.layout.velocity.dif)
          climb := if fieldAt f s.params.layout.velocity.st ∈ s.params.climbValidSt then some v else none
          climbSt := some (if fieldAt f s.params.layout.velocity.st ∈ s.params.climbValidSt then 1 else 2) })

/-- The seventeen type codes without a layout: the whole payload retained (45_ext_squitter.md R257). -/
def Obligations.RowsOpaque : Prop :=
  ∀ (f : Long) (s : State) (c a : BitVec 24) (tc : BitVec 5), s.params.legal = true →
    s.result = squitterRecord s.ts c a tc →
    ∀ i ∈ [Instr.esTc0 f, .esTc5 f, .esTc6 f, .esTc7 f, .esTc8 f, .esTc20 f, .esTc21 f, .esTc22 f, .esTc23 f, .esTc24 f,
        .esTc25 f, .esTc26 f, .esTc27 f, .esTc28 f, .esTc29 f, .esTc30 f, .esTc31 f],
      exec i s = .next (ended s
        { squitterRecord s.ts c a tc with kind := some 9, me := some (fieldAt f s.params.layout.opaqueMe) })

/-! ### The parameters -/

/-- `ANGLE_FRAC` is a parameter: for every number of fraction bits `CPR.NL` accepts the latitudes up to `90 * 2^ANGLE_FRAC`,
refuses the others, and counts zones by thresholds that are those of any finer scale with the extra bits dropped
(00_scope.md R7, 42_cpr.md R171, R173, R179; how thresholds are computed: log 18; what is not written: log 3). -/
def Obligations.AngleFracIsParameter : Prop :=
  (∀ f g : Nat, f ≤ g → zoneTable f = (zoneTable g).map fun e => (e.1, e.2 / 2 ^ (g - f))) ∧
  ∀ (lat : Int) (s : State),
    (InDomain s.params.angleFrac lat → ∃ n, IsZoneCount (zoneTable s.params.angleFrac) lat.natAbs n ∧
      exec (.cprNl lat) s = .next (ended { s with op := 7, lat := lat }
        { Result.empty with nl := some (BitVec.ofNat 6 n) })) ∧
    (¬ InDomain s.params.angleFrac lat →
      exec (.cprNl lat) s =
        .next { s with op := 7, lat := lat, result := Result.empty, status := 6, fsm := .idle })

/-- At their defaults the parameters are those of the tables: the block has them after reset, they meet the constraints the
spec puts on them, packets have the lengths of 30_encoding.md R82, and every row that reads fields reads them at the
positions of the tables R89 to R102, with the bits of `id` as R103 names them and a climb rate for the subtypes 1 and 3
(00_scope.md R7, 30_encoding.md R104, 44_parser.md R225, 45_ext_squitter.md R256; the identification rows are in
`RowsIdentification`; the defaults: log 8; the order clause: log 22). -/
def Obligations.DefaultRowsReadTables : Prop :=
  State.reset.params = Config.params ∧ Config.params.legal = true ∧
  [0x70, 0x80, 0xA0].map (packetLength Config.params) = [5, 10, 9] ∧
  ∀ (sf : Short) (f : Long) (s : State) (d : BitVec 5) (c a : BitVec 24) (tc : BitVec 5), s.params = Config.params →
    (s.result = enteredRecord s.ts d c →
      exec (.df0 sf) s = .next (ended s (tableDf0 sf c s.result)) ∧
      exec (.df4 sf) s = .next (ended s (tableDf4 sf c s.result)) ∧
      exec (.df5 sf) s = .next (ended s (tableDf5 sf c s.result)) ∧
      exec (.df11 sf) s = .next (ended s (tableDf11 sf s.result)) ∧
      exec (.df16 f) s = .next (ended s (tableDf16 f c s.result)) ∧
      (longDf f = 17 → ∃ t, exec (.df17 f) s = .next t ∧ t.result.aa = some (fieldOf f 8 24) ∧
        t.result.tc = some (fieldOf f 32 5)) ∧
      exec (.df19 f) s = .next (ended s (tableDf19 f s.result)) ∧
      exec (.df20 f) s = .next (ended s (tableDf20 f c s.result)) ∧
      exec (.df21 f) s = .next (ended s (tableDf21 f c s.result)) ∧
      ∀ i ∈ [Instr.df24 f, .df25 f, .df26 f, .df27 f, .df28 f, .df29 f, .df30 f, .df31 f],
        exec i s = .next (ended s (tableCommD f c s.result))) ∧
    (s.result = squitterRecord s.ts c a tc →
      (∀ i ∈ [Instr.esTc9 f, .esTc10 f, .esTc11 f, .esTc12 f, .esTc13 f, .esTc14 f, .esTc15 f, .esTc16 f, .esTc17 f,
          .esTc18 f], exec i s = .next (ended s (tablePosition f s.result))) ∧
      exec (.esTc19 f) s = .next (ended s (tableVelocity f s.result)) ∧
      ∀ i ∈ [Instr.esTc0 f, .esTc5 f, .esTc6 f, .esTc7 f, .esTc8 f, .esTc20 f, .esTc21 f, .esTc22 f, .esTc23 f,
          .esTc24 f, .esTc25 f, .esTc26 f, .esTc27 f, .esTc28 f, .esTc29 f, .esTc30 f, .esTc31 f],
        exec i s = .next (ended s { s.result with kind := some 9, me := some (fieldOf f 32 56) }))
end

