-- ==== Sys2Proof/Laws/Bits.lean ====
section
/-! SUPPORT. Bytes and integers: `bytesNat` and `natBytes` are each other's inverse, and what a field's bits are. -/

namespace Sys2Proof.Bits

@[simp] theorem bytesNat_nil : bytesNat [] = 0 := rfl

theorem bytesNat_cons (b : Byte) (bs : List Byte) : bytesNat (b :: bs) = b.toNat * 256 ^ bs.length + bytesNat bs := rfl

@[simp] theorem natBytes_length (n v : Nat) : (natBytes n v).length = n := by
  induction n with
  | zero => rfl
  | succ n ih => simp [natBytes, ih]

theorem bytesNat_lt (bs : List Byte) : bytesNat bs < 256 ^ bs.length := by
  induction bs with
  | nil => simp
  | cons b bs ih =>
    have hb : b.toNat < 256 := b.isLt
    rw [bytesNat_cons, List.length_cons, pow_succ]
    nlinarith [Nat.mul_le_mul_right (256 ^ bs.length) (Nat.le_of_lt_succ hb)]

theorem bytesNat_append (xs ys : List Byte) : bytesNat (xs ++ ys) = bytesNat xs * 256 ^ ys.length + bytesNat ys := by
  induction xs with
  | nil => simp
  | cons x xs ih =>
    rw [List.cons_append, bytesNat_cons, ih, bytesNat_cons, List.length_append, pow_add]
    ring

/-- The integer of the last `n` bytes of `v`. -/
theorem bytesNat_natBytes (n v : Nat) : bytesNat (natBytes n v) = v % 256 ^ n := by
  induction n with
  | zero => simp [natBytes, Nat.mod_one]
  | succ n ih =>
    rw [natBytes, bytesNat_cons, natBytes_length, ih, BitVec.toNat_ofNat, pow_succ 256 n]
    have h := Nat.mod_mul (x := v) (a := 256 ^ n) (b := 256)
    rw [h, show (2 : Nat) ^ 8 = 256 from rfl]
    ring

/-- The bytes of an integer below the top byte of a sequence. -/
theorem natBytes_mod (n v : Nat) : natBytes n (v % 256 ^ n) = natBytes n v := by
  suffices h : ∀ k, n ≤ k → natBytes n (v % 256 ^ k) = natBytes n v from h n le_rfl
  induction n with
  | zero => intros; rfl
  | succ n ih =>
    intro k hk
    rw [natBytes, natBytes, ih k (by omega)]
    congr 1
    apply BitVec.eq_of_toNat_eq
    simp only [BitVec.toNat_ofNat]
    obtain ⟨d, rfl⟩ : ∃ d, k = n + 1 + d := ⟨k - (n + 1), by omega⟩
    rw [pow_add, pow_succ, mul_assoc, Nat.mod_mul_right_div_self, Nat.mod_mod_of_dvd]
    exact Dvd.intro _ rfl

/-- The bytes of the integer of a byte sequence are the sequence. -/
theorem natBytes_bytesNat (bs : List Byte) : natBytes bs.length (bytesNat bs) = bs := by
  induction bs with
  | nil => rfl
  | cons b bs ih =>
    have hlt := bytesNat_lt bs
    rw [List.length_cons, natBytes, bytesNat_cons]
    congr 1
    · apply BitVec.eq_of_toNat_eq
      rw [BitVec.toNat_ofNat, Nat.add_comm, Nat.add_mul_div_right _ _ (by positivity), Nat.div_eq_of_lt hlt, Nat.zero_add]
      exact Nat.mod_eq_of_lt b.isLt
    · rw [← natBytes_mod, Nat.add_comm, Nat.add_mul_mod_self_right, natBytes_mod, ih]

/-- A bit string of bytes, read back. -/
theorem natBytes_bytesBits {n w : Nat} (bs : List Byte) (hn : bs.length = n) (hw : w = 8 * n) :
    natBytes n (bytesBits w bs).toNat = bs := by
  subst hn hw
  rw [bytesBits, BitVec.toNat_ofNat, Nat.mod_eq_of_lt, natBytes_bytesNat]
  have := bytesNat_lt bs
  rwa [show (256 : Nat) = 2 ^ 8 from rfl, ← pow_mul] at this

/-- The bit string of the bytes of a bit string. -/
theorem bytesBits_natBytes {n w : Nat} (v : BitVec w) (hw : w = 8 * n) : bytesBits w (natBytes n v.toNat) = v := by
  apply BitVec.eq_of_toNat_eq
  rw [bytesBits, bytesNat_natBytes, BitVec.toNat_ofNat, show (256 : Nat) = 2 ^ 8 from rfl, ← pow_mul, ← hw,
    Nat.mod_mod, Nat.mod_eq_of_lt v.isLt]

/-- The bits of a field, counted from its top. -/
theorem field_getMsbD {n : Nat} (b : BitVec n) (p w k : Nat) (h : p + w ≤ n) (hk : k < w) :
    (field b p w).getMsbD k = b.getMsbD (p + k) := by
  simp only [field, BitVec.getMsbD, BitVec.getLsbD_extractLsb']
  have h1 : decide (k < w) = true := by simpa using hk
  have h2 : decide (p + k < n) = true := by simpa using by omega
  rw [h1, h2, show n - (p + w) + (w - 1 - k) = n - 1 - (p + k) by omega]
  have h3 : decide (w - 1 - k < w) = true := by simpa using by omega
  simp [h3]

/-! ### Two's complement -/

theorem unsigned_lt (w : Nat) (x : Int) : unsigned w x < 2 ^ w := by
  have h := Int.emod_lt_of_pos x (show (0 : Int) < 2 ^ w by positivity)
  have h0 := Int.emod_nonneg x (show (2 ^ w : Int) ≠ 0 by positivity)
  unfold unsigned
  zify
  rwa [Int.toNat_of_nonneg h0]

theorem two_pow_split {w : Nat} (hw : 0 < w) : (2 : Int) ^ w = 2 * 2 ^ (w - 1) := by
  obtain ⟨k, rfl⟩ : ∃ k, w = k + 1 := ⟨w - 1, by omega⟩
  rw [pow_succ, Nat.add_sub_cancel]
  ring

/-- A number that fits comes back from its bits. -/
theorem signed_unsigned {w : Nat} (hw : 0 < w) {x : Int} (h : fitsSigned w x = true) : signed w (unsigned w x) = x := by
  simp only [fitsSigned, Bool.and_eq_true, decide_eq_true_eq] at h
  have hs := two_pow_split hw
  have h0 := Int.emod_nonneg x (show (2 ^ w : Int) ≠ 0 by positivity)
  have hv : ((unsigned w x : Nat) : Int) = x % 2 ^ w := Int.toNat_of_nonneg h0
  have hp : (0 : Int) < 2 ^ (w - 1) := by positivity
  unfold signed
  by_cases hx : 0 ≤ x
  · have e : x % 2 ^ w = x := Int.emod_eq_of_lt hx (by omega)
    rw [if_pos (by zify; rw [hv, e]; exact h.2), hv, e]
  · have e : x % 2 ^ w = x + 2 ^ w := by
      rw [← Int.add_emod_right]
      exact Int.emod_eq_of_lt (by omega) (by omega)
    rw [if_neg (by zify; rw [hv, e]; omega), hv, e]
    ring

/-- The bits of the number that bits stand for are the bits. -/
theorem unsigned_signed {w v : Nat} (h : v < 2 ^ w) : unsigned w (signed w v) = v := by
  have h' : (v : Int) < 2 ^ w := by exact_mod_cast h
  unfold unsigned signed
  split
  · rw [Int.emod_eq_of_lt (by positivity) h', Int.toNat_natCast]
  · rw [Int.sub_emod_right, Int.emod_eq_of_lt (by positivity) h', Int.toNat_natCast]

/-- What `w` bits stand for fits them. -/
theorem fitsSigned_signed {w v : Nat} (hw : 0 < w) (h : v < 2 ^ w) : fitsSigned w (signed w v) = true := by
  have h' : (v : Int) < 2 ^ w := by exact_mod_cast h
  have hs := two_pow_split hw
  have hp : (0 : Int) < 2 ^ (w - 1) := by positivity
  unfold fitsSigned signed
  rw [Bool.and_eq_true, decide_eq_true_eq, decide_eq_true_eq]
  split
  · next hv =>
    have hv' : (v : Int) < 2 ^ (w - 1) := by exact_mod_cast hv
    omega
  · next hv =>
    have hv' : ¬ (v : Int) < 2 ^ (w - 1) := by exact_mod_cast hv
    omega

end Sys2Proof.Bits
end

