-- ==== Sys2Proof/Laws/Cosine.lean ====
section
/-! SUPPORT. The scaled cosines of Machine/Zones.lean against the real function: how far `piScaled` and `cosPi` can be off. -/

namespace Sys2Proof.Machine

/-- A quotient of naturals is within 1 of the real quotient. -/
theorem floor_div_err (a b : ℕ) (hb : 0 < b) : |(((a / b : ℕ) : ℝ)) - a / b| ≤ 1 := by
  have hb' : (0 : ℝ) < b := by exact_mod_cast hb
  have h1 : ((a / b : ℕ) : ℝ) ≤ a / b := Nat.cast_div_le
  have h2 : (a : ℝ) / b < (a / b : ℕ) + 1 := by
    rw [div_lt_iff₀ hb']
    have := Nat.div_add_mod a b
    have := Nat.mod_lt a hb
    exact_mod_cast (by nlinarith : a < (a / b + 1) * b)
  rw [abs_le]; constructor <;> linarith

/-! ### arctan -/

/-- The exact counterpart of `arctanSum` for `y = 1/k^2`, per unit of `power`. -/
noncomputable def arctanPart (y : ℝ) : ℕ → ℕ → ℝ
  | 0, _ => 0
  | fuel + 1, j => 1 / (2 * j + 1) - y * arctanPart y fuel (j + 1)

/-- The counterpart stays near the first term. -/
theorem arctanPart_bounds {y : ℝ} (h0 : 0 ≤ y) (h1 : y ≤ 1 / 25) (fuel j : ℕ) :
    -1 ≤ arctanPart y fuel j ∧ arctanPart y fuel j ≤ 1 + 1 / 25 := by
  induction fuel generalizing j with
  | zero => simp [arctanPart]; norm_num
  | succ fuel ih =>
    obtain ⟨i1, i2⟩ := ih (j + 1)
    have hj : (0 : ℝ) ≤ 1 / (2 * j + 1) := by positivity
    have hj' : (1 : ℝ) / (2 * j + 1) ≤ 1 := by
      rw [div_le_one (by positivity)]; have : (0 : ℝ) ≤ j := by positivity
      linarith
    rw [arctanPart]
    constructor <;> nlinarith

/-- What the terms after the first `fuel` add. -/
theorem arctanPart_close {y : ℝ} (h0 : 0 ≤ y) (h1 : y ≤ 1 / 25) (fuel d j : ℕ) :
    |arctanPart y fuel j - arctanPart y (fuel + d) j| ≤ 2 * (1 / 25) ^ fuel := by
  induction fuel generalizing j with
  | zero =>
    obtain ⟨i1, i2⟩ := arctanPart_bounds h0 h1 (0 + d) j
    rw [zero_add] at i1 i2
    rw [arctanPart, abs_le, zero_add]; constructor <;> norm_num <;> linarith
  | succ fuel ih =>
    rw [show fuel + 1 + d = (fuel + d) + 1 by ring, arctanPart, arctanPart,
      show (1 : ℝ) / (2 * j + 1) - y * arctanPart y fuel (j + 1) - (1 / (2 * j + 1) - y * arctanPart y (fuel + d) (j + 1)) =
        -(y * (arctanPart y fuel (j + 1) - arctanPart y (fuel + d) (j + 1))) by ring, abs_neg, abs_mul, abs_of_nonneg h0,
      pow_succ]
    have := ih (j + 1)
    have hp : (0 : ℝ) ≤ (1 / 25) ^ fuel := by positivity
    calc y * _ ≤ (1 / 25) * (2 * (1 / 25) ^ fuel) := mul_le_mul h1 this (abs_nonneg _) (by norm_num)
      _ = _ := by ring

/-- The counterpart is a partial sum of the series. -/
theorem arctanPart_sum (x : ℝ) (N j : ℕ) :
    x ^ (2 * j + 1) * arctanPart (x ^ 2) N j * (-1) ^ j =
      ∑ i ∈ Finset.range N, (-1) ^ (j + i) * x ^ (2 * (j + i) + 1) / ((2 * (j + i) + 1 : ℕ) : ℝ) := by
  induction N generalizing j with
  | zero => simp [arctanPart]
  | succ N ih =>
    rw [arctanPart, Finset.sum_range_succ']
    have := ih (j + 1)
    have e : ∀ i, j + (i + 1) = j + 1 + i := fun i => by ring
    rw [Finset.sum_congr rfl fun i _ => by rw [e i], ← this]
    push_cast
    ring

/-- A partial sum against the function. -/
theorem arctan_close {x : ℝ} (h0 : 0 < x) (h1 : x ≤ 1 / 5) (fuel : ℕ) :
    |x * arctanPart (x ^ 2) fuel 0 - Real.arctan x| ≤ x * (2 * (1 / 25) ^ fuel) := by
  have hx : ‖x‖ < 1 := by rw [Real.norm_eq_abs, abs_of_pos h0]; linarith
  have hs := (Real.hasSum_arctan hx).tendsto_sum_nat
  have hs' : Filter.Tendsto (fun d => x * arctanPart (x ^ 2) (fuel + d) 0) Filter.atTop (nhds (Real.arctan x)) := by
    have e : (fun N => ∑ i ∈ Finset.range N, (-1) ^ i * x ^ (2 * i + 1) / ((2 * i + 1 : ℕ) : ℝ)) =
        fun N => x * arctanPart (x ^ 2) N 0 := by
      funext N
      have := arctanPart_sum x N 0
      simp only [zero_add, mul_zero, pow_zero, mul_one, pow_one] at this
      exact this.symm
    rw [e] at hs
    have := (Filter.tendsto_add_atTop_iff_nat fuel).mpr hs
    simpa [add_comm] using this
  have hy : x ^ 2 ≤ 1 / 25 := by nlinarith
  refine le_of_tendsto ((tendsto_const_nhds.sub hs').abs) (Filter.Eventually.of_forall fun d => ?_)
  rw [← mul_sub, abs_mul, abs_of_pos h0]
  exact mul_le_mul_of_nonneg_left (arctanPart_close (by positivity) hy fuel d 0) h0.le

/-- The rounding errors: at most 4 a term. -/
theorem arctanSum_err {k : ℕ} (hk : 5 ≤ k) (fuel j power : ℕ) {X : ℝ} (hX : |(power : ℝ) - X| ≤ 2) :
    |(arctanSum k fuel j power : ℝ) - X * arctanPart ((1 / (k : ℝ)) ^ 2) fuel j| ≤ 4 * fuel := by
  have hk' : (5 : ℝ) ≤ k := by exact_mod_cast hk
  have hy0 : (0 : ℝ) ≤ (1 / (k : ℝ)) ^ 2 := by positivity
  have hy1 : (1 / (k : ℝ)) ^ 2 ≤ 1 / 25 := by
    rw [div_pow, one_pow]; exact one_div_le_one_div_of_le (by norm_num) (by nlinarith)
  induction fuel generalizing j power X with
  | zero => simp [arctanSum, arctanPart]
  | succ fuel ih =>
    rw [arctanSum]
    split
    · next h0 =>
      subst h0
      obtain ⟨i1, i2⟩ := arctanPart_bounds hy0 hy1 (fuel + 1) j
      have : |arctanPart ((1 / (k : ℝ)) ^ 2) (fuel + 1) j| ≤ 2 := abs_le.mpr ⟨by linarith, by linarith⟩
      have hX' : |X| ≤ 2 := by simpa using hX
      rw [Int.cast_zero, zero_sub, abs_neg, abs_mul]
      push_cast
      have : |X| * |arctanPart ((1 / (k : ℝ)) ^ 2) (fuel + 1) j| ≤ 2 * 2 := mul_le_mul hX' this (abs_nonneg _) (by norm_num)
      have : (0 : ℝ) ≤ fuel := by positivity
      linarith
    · have hkk : (0 : ℕ) < k * k := by positivity
      have h1 := floor_div_err power (k * k) hkk
      have h2 := floor_div_err power (2 * j + 1) (by omega)
      have hnext : |((power / (k * k) : ℕ) : ℝ) - X * (1 / (k : ℝ)) ^ 2| ≤ 2 := by
        have : (power : ℝ) / ((k * k : ℕ) : ℝ) - X * (1 / (k : ℝ)) ^ 2 = (power - X) * (1 / (k : ℝ)) ^ 2 := by
          push_cast; field_simp
        have h3 : |(power : ℝ) / ((k * k : ℕ) : ℝ) - X * (1 / (k : ℝ)) ^ 2| ≤ 2 * (1 / 25) := by
          rw [this, abs_mul, abs_of_nonneg hy0]
          exact mul_le_mul hX hy1 hy0 (by norm_num)
        refine (abs_sub_le _ ((power : ℝ) / ((k * k : ℕ) : ℝ)) _).trans ?_
        linarith
      have hterm : |((power / (2 * j + 1) : ℕ) : ℝ) - X * (1 / (2 * j + 1))| ≤ 3 := by
        have h4 : |(power : ℝ) / ((2 * j + 1 : ℕ) : ℝ) - X * (1 / (2 * j + 1))| ≤ 2 := by
          have : (power : ℝ) / ((2 * j + 1 : ℕ) : ℝ) - X * (1 / (2 * j + 1)) = (power - X) * (1 / (2 * j + 1)) := by
            push_cast; ring
          rw [this, abs_mul, abs_of_nonneg (a := (1 : ℝ) / (2 * j + 1)) (by positivity)]
          have : (1 : ℝ) / (2 * j + 1) ≤ 1 := by
            rw [div_le_one (by positivity)]; have : (0 : ℝ) ≤ j := by positivity
            linarith
          calc _ ≤ 2 * 1 := mul_le_mul hX this (by positivity) (by norm_num)
            _ = 2 := by ring
        refine (abs_sub_le _ ((power : ℝ) / ((2 * j + 1 : ℕ) : ℝ)) _).trans ?_
        linarith
      have := ih (j + 1) (power / (k * k)) hnext
      rw [arctanPart, Int.cast_sub, Int.cast_natCast]
      rw [show ((power / (2 * j + 1) : ℕ) : ℝ) - (arctanSum k fuel (j + 1) (power / (k * k)) : ℝ) -
          X * (1 / (2 * (j : ℝ) + 1) - (1 / (k : ℝ)) ^ 2 * arctanPart ((1 / (k : ℝ)) ^ 2) fuel (j + 1)) =
          (((power / (2 * j + 1) : ℕ) : ℝ) - X * (1 / (2 * j + 1))) -
          ((arctanSum k fuel (j + 1) (power / (k * k)) : ℝ) -
            X * (1 / (k : ℝ)) ^ 2 * arctanPart ((1 / (k : ℝ)) ^ 2) fuel (j + 1)) by ring]
      refine (abs_sub _ _).trans ?_
      rw [Nat.cast_succ]
      linarith

/-- `arctan(1/k)`, scaled: the whole error. -/
theorem arctanSum_close {k : ℕ} (hk : 5 ≤ k) (w : ℕ) :
    |(arctanSum k w 0 (2 ^ w / k) : ℝ) - 2 ^ w * Real.arctan (k : ℝ)⁻¹| ≤ 4 * w + 1 := by
  have hk' : (5 : ℝ) ≤ k := by exact_mod_cast hk
  have h1 := floor_div_err (2 ^ w) k (by omega)
  push_cast at h1
  have h2 := arctanSum_err hk w 0 (2 ^ w / k) (X := 2 ^ w / k) (h1.trans (by norm_num))
  have hx1 : (1 : ℝ) / k ≤ 1 / 5 := one_div_le_one_div_of_le (by norm_num) hk'
  have h3 := arctan_close (x := 1 / k) (by positivity) hx1 w
  have e : (2 : ℝ) ^ w / k * arctanPart ((1 / (k : ℝ)) ^ 2) w 0 - 2 ^ w * Real.arctan (k : ℝ)⁻¹ =
      2 ^ w * (1 / k * arctanPart ((1 / (k : ℝ)) ^ 2) w 0 - Real.arctan (1 / k)) := by
    rw [one_div]; ring
  have h4 : |(2 : ℝ) ^ w / k * arctanPart ((1 / (k : ℝ)) ^ 2) w 0 - 2 ^ w * Real.arctan (k : ℝ)⁻¹| ≤ 1 := by
    rw [e, abs_mul, abs_of_pos (by positivity)]
    have h5 : (2 : ℝ) ^ w * (1 / 25) ^ w ≤ 1 := by
      rw [← mul_pow]; exact pow_le_one₀ (by norm_num) (by norm_num)
    calc (2 : ℝ) ^ w * _ ≤ 2 ^ w * (1 / k * (2 * (1 / 25) ^ w)) := mul_le_mul_of_nonneg_left h3 (by positivity)
      _ = (2 ^ w * (1 / 25) ^ w) * (2 * (1 / k)) := by ring
      _ ≤ 1 * (2 * (1 / 5)) := mul_le_mul h5 (by linarith) (by positivity) (by norm_num)
      _ ≤ 1 := by norm_num
  refine (abs_sub_le _ _ _).trans (add_le_add h2 h4)

/-- `π`, scaled: the whole error. -/
theorem piScaled_close (w : ℕ) : |(piScaled w : ℝ) - 2 ^ w * Real.pi| ≤ 80 * w + 20 := by
  have h5 := arctanSum_close (k := 5) (by norm_num) w
  have h239 := arctanSum_close (k := 239) (by norm_num) w
  have hm := Real.four_mul_arctan_inv_5_sub_arctan_inv_239
  push_cast at h5 h239
  set a := arctanSum 5 w 0 (2 ^ w / 5)
  set b := arctanSum 239 w 0 (2 ^ w / 239)
  have e : (2 : ℝ) ^ w * Real.pi = 16 * (2 ^ w * Real.arctan 5⁻¹) - 4 * (2 ^ w * Real.arctan 239⁻¹) := by
    linear_combination (-4 * 2 ^ w : ℝ) * hm
  have hz : |((16 * a - 4 * b : ℤ) : ℝ) - 2 ^ w * Real.pi| ≤ 80 * w + 20 := by
    rw [e]
    push_cast
    rw [abs_le] at *
    constructor <;> linarith [h5.1, h5.2, h239.1, h239.2]
  have hpos : (0 : ℝ) ≤ 2 ^ w * Real.pi := by positivity
  have ht : (piScaled w : ℝ) = max ((16 * a - 4 * b : ℤ) : ℝ) 0 := by
    show (((16 * a - 4 * b).toNat : ℕ) : ℝ) = _
    have : (((16 * a - 4 * b).toNat : ℤ) : ℝ) = ((max (16 * a - 4 * b) 0 : ℤ) : ℝ) := by rw [Int.toNat_eq_max]
    rw [Int.cast_max, Int.cast_zero] at this
    exact_mod_cast this
  rw [ht]
  refine le_trans ?_ hz
  have := abs_max_sub_max_le_abs ((16 * a - 4 * b : ℤ) : ℝ) (2 ^ w * Real.pi) 0
  rwa [max_eq_left hpos] at this

/-! ### cos -/

/-- The exact counterpart of `cosSum` for `y = x^2`, per unit of `term`. -/
noncomputable def cosPart (y : ℝ) : ℕ → ℕ → ℝ
  | 0, _ => 0
  | fuel + 1, k => 1 - y / ((2 * k + 1) * (2 * k + 2)) * cosPart y fuel (k + 1)

/-- From the second term on, a term is at most a quarter of the one before. -/
theorem cosCoeff {y : ℝ} (h1 : y ≤ 5 / 2) (k : ℕ) :
    y / ((2 * (k + 1 : ℕ) + 1) * (2 * (k + 1 : ℕ) + 2)) ≤ 1 / 4 := by
  push_cast
  rw [div_le_iff₀ (by positivity)]
  have : (0 : ℝ) ≤ k := by positivity
  nlinarith

/-- The counterpart stays between 0 and 1 from the second term on. -/
theorem cosPart_succ_bounds {y : ℝ} (h0 : 0 ≤ y) (h1 : y ≤ 5 / 2) (fuel k : ℕ) :
    0 ≤ cosPart y fuel (k + 1) ∧ cosPart y fuel (k + 1) ≤ 1 := by
  induction fuel generalizing k with
  | zero => simp [cosPart]
  | succ fuel ih =>
    obtain ⟨i1, i2⟩ := ih (k + 1)
    have hc := cosCoeff h1 k
    have hc0 : 0 ≤ y / ((2 * (k + 1 : ℕ) + 1) * (2 * (k + 1 : ℕ) + 2)) := by positivity
    rw [cosPart]
    constructor <;> nlinarith

/-- What the terms after the first `fuel` add. -/
theorem cosPart_succ_close {y : ℝ} (h0 : 0 ≤ y) (h1 : y ≤ 5 / 2) (fuel d k : ℕ) :
    |cosPart y fuel (k + 1) - cosPart y (fuel + d) (k + 1)| ≤ (1 / 4) ^ fuel := by
  induction fuel generalizing k with
  | zero =>
    obtain ⟨i1, i2⟩ := cosPart_succ_bounds h0 h1 (0 + d) k
    rw [zero_add] at i1 i2
    rw [cosPart, abs_le, zero_add]; constructor <;> norm_num <;> linarith
  | succ fuel ih =>
    have hc := cosCoeff h1 k
    have hc0 : 0 ≤ y / ((2 * (k + 1 : ℕ) + 1) * (2 * (k + 1 : ℕ) + 2)) := by positivity
    rw [show fuel + 1 + d = (fuel + d) + 1 by ring, cosPart, cosPart, sub_sub_sub_cancel_left, ← mul_sub, abs_mul,
      abs_of_nonneg hc0, abs_sub_comm, pow_succ']
    exact mul_le_mul hc (ih (k + 1)) (abs_nonneg _) (by norm_num)

/-- The counterpart is a partial sum of the series. -/
theorem cosPart_sum (x : ℝ) (N k : ℕ) :
    x ^ (2 * k) / (2 * k).factorial * cosPart (x ^ 2) N k * (-1) ^ k =
      ∑ i ∈ Finset.range N, (-1) ^ (k + i) * x ^ (2 * (k + i)) / ((2 * (k + i)).factorial : ℝ) := by
  induction N generalizing k with
  | zero => simp [cosPart]
  | succ N ih =>
    rw [cosPart, Finset.sum_range_succ']
    have := ih (k + 1)
    have e : ∀ i, k + (i + 1) = k + 1 + i := fun i => by ring
    rw [Finset.sum_congr rfl fun i _ => by rw [e i], ← this, show 2 * (k + 1) = (2 * k + 1) + 1 by ring,
      Nat.factorial_succ, Nat.factorial_succ]
    have hf : ((2 * k).factorial : ℝ) ≠ 0 := by positivity
    push_cast
    field_simp
    ring_nf

/-- A partial sum against the function. -/
theorem cos_close {x : ℝ} (h1 : x ^ 2 ≤ 5 / 2) (fuel : ℕ) :
    |cosPart (x ^ 2) (fuel + 1) 0 - Real.cos x| ≤ 2 * (1 / 4) ^ fuel := by
  have hs := (Real.hasSum_cos x).tendsto_sum_nat
  have hs' : Filter.Tendsto (fun d => cosPart (x ^ 2) (fuel + d + 1) 0) Filter.atTop (nhds (Real.cos x)) := by
    have e : (fun N => ∑ i ∈ Finset.range N, (-1) ^ i * x ^ (2 * i) / ((2 * i).factorial : ℝ)) =
        fun N => cosPart (x ^ 2) N 0 := by
      funext N
      have := cosPart_sum x N 0
      simp only [zero_add, mul_zero, pow_zero, mul_one, Nat.factorial_zero, Nat.cast_one, div_one, one_mul] at this
      exact this.symm
    rw [e] at hs
    have := (Filter.tendsto_add_atTop_iff_nat (fuel + 1)).mpr hs
    refine this.congr fun d => ?_
    rw [show d + (fuel + 1) = fuel + d + 1 by ring]
  refine le_of_tendsto ((tendsto_const_nhds.sub hs').abs) (Filter.Eventually.of_forall fun d => ?_)
  rw [cosPart, cosPart, sub_sub_sub_cancel_left, ← mul_sub, abs_mul, abs_sub_comm]
  have hc : |x ^ 2 / ((2 * ((0 : ℕ) : ℝ) + 1) * (2 * ((0 : ℕ) : ℝ) + 2))| ≤ 2 := by
    rw [abs_of_nonneg (by positivity)]; norm_num; linarith
  exact mul_le_mul hc (cosPart_succ_close (by positivity) h1 fuel d 0) (abs_nonneg _) (by norm_num)

/-- The next term of the series, to within the error of this one. -/
theorem term_err {w Y k : ℕ} {y δ t : ℝ} {term : ℕ} {e : ℝ}
    (hY : |(Y : ℝ) - y * 2 ^ w| ≤ δ) (hY3 : (Y : ℝ) ≤ 3 * 2 ^ w) (ht0 : 0 ≤ t) (ht : t ≤ 2 * 2 ^ w)
    (hterm : |(term : ℝ) - t| ≤ e) :
    |((term * Y / 2 ^ w / ((2 * k + 1) * (2 * k + 2)) : ℕ) : ℝ) - t * (y / ((2 * k + 1) * (2 * k + 2)))| ≤
      (3 * e + 2 * δ) / ((2 * k + 1) * (2 * k + 2)) + 2 := by
  have h2w : (0 : ℝ) < 2 ^ w := by positivity
  have hden : (0 : ℝ) < (2 * k + 1) * (2 * k + 2) := by positivity
  have hden1 : (1 : ℝ) ≤ (2 * k + 1) * (2 * k + 2) := by
    have : (0 : ℝ) ≤ k := by positivity
    nlinarith
  have he : 0 ≤ e := (abs_nonneg _).trans hterm
  have f1 := floor_div_err (term * Y) (2 ^ w) (by positivity)
  have f2 := floor_div_err (term * Y / 2 ^ w) ((2 * k + 1) * (2 * k + 2)) (by positivity)
  push_cast at f1 f2
  have m : |(term : ℝ) * Y / 2 ^ w - t * y| ≤ 3 * e + 2 * δ := by
    have e1 : (term : ℝ) * Y / 2 ^ w - t * y = (term - t) * (Y / 2 ^ w) + t / 2 ^ w * (Y - y * 2 ^ w) := by
      field_simp; ring
    rw [e1]
    refine (abs_add_le _ _).trans ?_
    rw [abs_mul, abs_mul, abs_of_nonneg (a := (Y : ℝ) / 2 ^ w) (by positivity),
      abs_of_nonneg (a := t / 2 ^ w) (by positivity)]
    have a1 : |(term : ℝ) - t| * (Y / 2 ^ w) ≤ e * 3 :=
      mul_le_mul hterm (by rw [div_le_iff₀ h2w]; exact hY3) (by positivity) he
    have a2 : t / 2 ^ w * |(Y : ℝ) - y * 2 ^ w| ≤ 2 * δ :=
      mul_le_mul (by rw [div_le_iff₀ h2w]; exact ht) hY (abs_nonneg _) (by norm_num)
    linarith
  have m2 : |((term * Y / 2 ^ w : ℕ) : ℝ) - t * y| ≤ 3 * e + 2 * δ + 1 := by
    refine (abs_sub_le _ ((term : ℝ) * Y / 2 ^ w) _).trans ?_
    linarith
  have m3 : |((term * Y / 2 ^ w : ℕ) : ℝ) / ((2 * k + 1) * (2 * k + 2)) - t * (y / ((2 * k + 1) * (2 * k + 2)))| ≤
      (3 * e + 2 * δ) / ((2 * k + 1) * (2 * k + 2)) + 1 := by
    rw [show ((term * Y / 2 ^ w : ℕ) : ℝ) / ((2 * k + 1) * (2 * k + 2)) - t * (y / ((2 * k + 1) * (2 * k + 2))) =
      (((term * Y / 2 ^ w : ℕ) : ℝ) - t * y) / ((2 * k + 1) * (2 * k + 2)) by ring, abs_div, abs_of_pos hden]
    calc _ ≤ (3 * e + 2 * δ + 1) / ((2 * k + 1) * (2 * k + 2)) := div_le_div_of_nonneg_right m2 hden.le
      _ = (3 * e + 2 * δ) / ((2 * k + 1) * (2 * k + 2)) + 1 / ((2 * k + 1) * (2 * k + 2)) := by ring
      _ ≤ _ := by
        have : (1 : ℝ) / ((2 * k + 1) * (2 * k + 2)) ≤ 1 := by rw [div_le_one hden]; exact hden1
        linarith
  refine (abs_sub_le _ (((term * Y / 2 ^ w : ℕ) : ℝ) / ((2 * k + 1) * (2 * k + 2))) _).trans ?_
  linarith

/-- The rounding errors, from the second term on. -/
theorem cosSum_succ_err {w Y : ℕ} {y δ : ℝ} (hy0 : 0 ≤ y) (hy1 : y ≤ 5 / 2) (hδ : 0 ≤ δ)
    (hY : |(Y : ℝ) - y * 2 ^ w| ≤ δ) (hY3 : (Y : ℝ) ≤ 3 * 2 ^ w) (fuel k term : ℕ) {t : ℝ} (ht0 : 0 ≤ t)
    (ht : t ≤ 2 * 2 ^ w) (hterm : |(term : ℝ) - t| ≤ δ + 4) :
    |(cosSum w Y fuel (k + 1) term : ℝ) - t * cosPart y fuel (k + 1)| ≤ (δ + 4) * fuel := by
  induction fuel generalizing k term t with
  | zero => simp [cosSum, cosPart]
  | succ fuel ih =>
    rw [cosSum]
    split
    · next h0 =>
      subst h0
      obtain ⟨i1, i2⟩ := cosPart_succ_bounds hy0 hy1 (fuel + 1) k
      rw [Int.cast_zero, zero_sub, abs_neg, abs_mul, abs_of_nonneg i1]
      have ht' : |t| ≤ δ + 4 := by simpa using hterm
      have : |t| * cosPart y (fuel + 1) (k + 1) ≤ (δ + 4) * 1 := mul_le_mul ht' i2 i1 (by linarith)
      push_cast
      have : 0 ≤ (δ + 4) * fuel := by positivity
      linarith
    · have hc := cosCoeff hy1 k
      have hc0 : 0 ≤ y / ((2 * (k + 1 : ℕ) + 1) * (2 * (k + 1 : ℕ) + 2)) := by positivity
      have hn := term_err (k := k + 1) hY hY3 ht0 ht hterm
      have h12 : (12 : ℝ) ≤ (2 * (k + 1 : ℕ) + 1) * (2 * (k + 1 : ℕ) + 2) := by
        push_cast; have : (0 : ℝ) ≤ k := by positivity
        nlinarith
      have hn' : (3 * (δ + 4) + 2 * δ) / ((2 * (k + 1 : ℕ) + 1) * (2 * (k + 1 : ℕ) + 2)) + 2 ≤ δ + 4 := by
        have : (3 * (δ + 4) + 2 * δ) / ((2 * (k + 1 : ℕ) + 1) * (2 * (k + 1 : ℕ) + 2)) ≤ (3 * (δ + 4) + 2 * δ) / 12 :=
          div_le_div_of_nonneg_left (by linarith) (by norm_num) h12
        linarith
      have := ih (k + 1) _ (t := t * (y / ((2 * (k + 1 : ℕ) + 1) * (2 * (k + 1 : ℕ) + 2)))) (by positivity)
        (by nlinarith) (hn.trans hn')
      rw [cosPart]
      push_cast at *
      rw [show (term : ℝ) - (cosSum w Y fuel (k + 1 + 1) (term * Y / 2 ^ w / ((2 * (k + 1) + 1) * (2 * (k + 1) + 2))) : ℝ) -
          t * (1 - y / ((2 * ((k : ℝ) + 1) + 1) * (2 * (k + 1) + 2)) * cosPart y fuel (k + 1 + 1)) =
          (term - t) - ((cosSum w Y fuel (k + 1 + 1) (term * Y / 2 ^ w / ((2 * (k + 1) + 1) * (2 * (k + 1) + 2))) : ℝ) -
            t * (y / ((2 * ((k : ℝ) + 1) + 1) * (2 * (k + 1) + 2))) * cosPart y fuel (k + 1 + 1)) by ring]
      refine (abs_sub _ _).trans ?_
      linarith

/-- `cos x`, scaled: the whole error. -/
theorem cosSum_close {w Y : ℕ} (hw : 0 < w) {x δ : ℝ} (hx1 : x ^ 2 ≤ 5 / 2) (hδ : 0 ≤ δ)
    (hY : |(Y : ℝ) - x ^ 2 * 2 ^ w| ≤ δ) (hY3 : (Y : ℝ) ≤ 3 * 2 ^ w) :
    |(cosSum w Y w 0 (2 ^ w) : ℝ) - 2 ^ w * Real.cos x| ≤ (δ + 4) * w + 4 := by
  obtain ⟨v, rfl⟩ : ∃ v, w = v + 1 := ⟨w - 1, by omega⟩
  have hn := term_err (w := v + 1) (k := 0) (term := 2 ^ (v + 1)) (t := 2 ^ (v + 1)) (e := 0) hY hY3
    (by positivity) (by linarith [show (0 : ℝ) < 2 ^ (v + 1) by positivity]) (by push_cast; simp)
  have h2w : (0 : ℝ) < 2 ^ (v + 1) := by positivity
  have := cosSum_succ_err (sq_nonneg x) hx1 hδ hY hY3 v 0 _
    (t := 2 ^ (v + 1) * (x ^ 2 / ((2 * ((0 : ℕ) : ℝ) + 1) * (2 * ((0 : ℕ) : ℝ) + 2))))
    (by positivity) (by push_cast; norm_num; nlinarith) (hn.trans (by push_cast; norm_num))
  have hc := cos_close hx1 v
  rw [cosSum, if_neg (by positivity)]
  have e1 : |(((2 ^ (v + 1) : ℕ) : ℤ) - cosSum (v + 1) Y v (0 + 1)
        (2 ^ (v + 1) * Y / 2 ^ (v + 1) / ((2 * 0 + 1) * (2 * 0 + 2))) : ℝ) -
      2 ^ (v + 1) * cosPart (x ^ 2) (v + 1) 0| ≤ (δ + 4) * v := by
    rw [cosPart]
    push_cast at *
    rw [← abs_neg]
    convert this using 2
    ring
  have e2 : |(2 : ℝ) ^ (v + 1) * cosPart (x ^ 2) (v + 1) 0 - 2 ^ (v + 1) * Real.cos x| ≤ 4 := by
    rw [← mul_sub, abs_mul, abs_of_pos h2w]
    have h5 : (2 : ℝ) ^ v * (1 / 4) ^ v ≤ 1 := by
      rw [← mul_pow]; exact pow_le_one₀ (by norm_num) (by norm_num)
    calc _ ≤ (2 : ℝ) ^ (v + 1) * (2 * (1 / 4) ^ v) := mul_le_mul_of_nonneg_left hc h2w.le
      _ = 4 * (2 ^ v * (1 / 4) ^ v) := by ring
      _ ≤ 4 := by linarith
  push_cast at *
  refine (abs_sub_le _ _ _).trans ((add_le_add e1 e2).trans ?_)
  nlinarith

/-- For the precisions used, the scaled cosine is within `w^2 * 2^10`. -/
theorem cosPi_close {w num den : ℕ} (hw : 128 ≤ w) (hden : 0 < den) (hr : 2 * num ≤ den) :
    |(cosPi w num den : ℝ) - 2 ^ w * Real.cos (Real.pi * num / den)| ≤ 2 ^ 10 * w ^ 2 := by
  have hd : (0 : ℝ) < den := by exact_mod_cast hden
  have hw' : (128 : ℝ) ≤ w := by exact_mod_cast hw
  have hr' : (num : ℝ) / den ≤ 1 / 2 := by
    rw [div_le_iff₀ hd]; have : (2 * num : ℝ) ≤ den := by exact_mod_cast hr
    linarith
  have hr0 : (0 : ℝ) ≤ num / den := by positivity
  have hbig : (2 : ℝ) ^ 12 * w ≤ 2 ^ w := by
    have : ∀ v : ℕ, 2 ^ 12 * (v + 128) ≤ 2 ^ (v + 128) := by
      intro v
      induction v with
      | zero => norm_num
      | succ v ih => rw [show v + 1 + 128 = (v + 128) + 1 by ring, pow_succ]; omega
    have := this (w - 128)
    rw [Nat.sub_add_cancel hw] at this
    exact_mod_cast this
  have h2w : (0 : ℝ) < 2 ^ w := by positivity
  set x : ℝ := Real.pi * num / den with hx
  have hx' : x = Real.pi * (num / den) := by rw [hx]; ring
  have hpi := Real.pi_lt_d4
  have hpi0 := Real.pi_pos
  have hx0 : 0 ≤ x := by positivity
  have hx1 : x ≤ 1.5708 := by rw [hx']; nlinarith
  have hx2 : x ^ 2 ≤ 2.4675 := by nlinarith
  have hp := piScaled_close w
  set X := piScaled w * num / den with hX
  have hX1 : |(X : ℝ) - 2 ^ w * x| ≤ 41 * w := by
    have f := floor_div_err (piScaled w * num) den hden
    push_cast at f
    have e : (piScaled w : ℝ) * num / den - 2 ^ w * x = (piScaled w - 2 ^ w * Real.pi) * (num / den) := by rw [hx']; ring
    have : |(piScaled w : ℝ) * num / den - 2 ^ w * x| ≤ (80 * w + 20) * (1 / 2) := by
      rw [e, abs_mul, abs_of_nonneg hr0]
      exact mul_le_mul hp hr' hr0 (by positivity)
    refine (abs_sub_le _ ((piScaled w : ℝ) * num / den) _).trans ?_
    linarith
  have hX2 : (X : ℝ) ≤ 1.6 * 2 ^ w := by
    have := (abs_le.mp hX1).2
    nlinarith
  have hY1 : |((X * X / 2 ^ w : ℕ) : ℝ) - x ^ 2 * 2 ^ w| ≤ (132 * w : ℝ) := by
    have f := floor_div_err (X * X) (2 ^ w) (by positivity)
    push_cast at f
    have e : (X : ℝ) * X / 2 ^ w - x ^ 2 * 2 ^ w = (X - 2 ^ w * x) * (X / 2 ^ w + x) := by field_simp; ring
    have hs : (X : ℝ) / 2 ^ w + x ≤ 3.1708 := by
      have : (X : ℝ) / 2 ^ w ≤ 1.6 := by rw [div_le_iff₀ h2w]; exact hX2
      linarith
    have : |(X : ℝ) * X / 2 ^ w - x ^ 2 * 2 ^ w| ≤ (41 * w * 3.1708 : ℝ) := by
      rw [e, abs_mul, abs_of_nonneg (a := (X : ℝ) / 2 ^ w + x) (by positivity)]
      exact mul_le_mul hX1 hs (by positivity) (by positivity)
    refine (abs_sub_le _ ((X : ℝ) * X / 2 ^ w) _).trans ?_
    linarith
  have hY3 : ((X * X / 2 ^ w : ℕ) : ℝ) ≤ 3 * 2 ^ w := by
    have := (abs_le.mp hY1).2
    nlinarith
  have := cosSum_close (by omega) (by linarith) (by positivity) hY1 hY3
  refine le_trans ?_ (this.trans ?_)
  · exact le_of_eq rfl
  · nlinarith

end Sys2Proof.Machine
end

