-- ==== Sys2Proof/Laws/State.lean ====
section
/-! SUPPORT. One lemma per field per update of the state, each true by rfl, so that no later proof unfolds a record
update. -/

namespace Sys2Proof.Machine

section latchBuf
variable (bytes : List Byte) (s : State)
@[simp] theorem latchBuf_params : (latchBuf bytes s).params = s.params := rfl
@[simp] theorem latchBuf_op : (latchBuf bytes s).op = s.op := rfl
@[simp] theorem latchBuf_len : (latchBuf bytes s).len = BitVec.ofNat 4 bytes.length := rfl
@[simp] theorem latchBuf_buf : (latchBuf bytes s).buf = if bytes.length ≤ Config.bufBytes then memWriteAll s.buf 0 bytes else s.buf := rfl
@[simp] theorem latchBuf_ts : (latchBuf bytes s).ts = s.ts := rfl
@[simp] theorem latchBuf_ac : (latchBuf bytes s).ac = s.ac := rfl
@[simp] theorem latchBuf_lat : (latchBuf bytes s).lat = s.lat := rfl
@[simp] theorem latchBuf_lon : (latchBuf bytes s).lon = s.lon := rfl
@[simp] theorem latchBuf_odd : (latchBuf bytes s).odd = s.odd := rfl
@[simp] theorem latchBuf_nbits : (latchBuf bytes s).nbits = s.nbits := rfl
@[simp] theorem latchBuf_w : (latchBuf bytes s).w = s.w := rfl
@[simp] theorem latchBuf_result : (latchBuf bytes s).result = s.result := rfl
@[simp] theorem latchBuf_status : (latchBuf bytes s).status = s.status := rfl
@[simp] theorem latchBuf_fsm : (latchBuf bytes s).fsm = s.fsm := rfl
@[simp] theorem latchBuf_host : (latchBuf bytes s).host = s.host := rfl
end latchBuf

section acceptB
variable (op : BitVec 4) (bytes : List Byte) (s : State)
@[simp] theorem acceptB_params : (acceptB op bytes s).params = s.params := rfl
@[simp] theorem acceptB_op : (acceptB op bytes s).op = op := rfl
@[simp] theorem acceptB_len : (acceptB op bytes s).len = BitVec.ofNat 4 bytes.length := rfl
@[simp] theorem acceptB_buf : (acceptB op bytes s).buf = if bytes.length ≤ Config.bufBytes then memWriteAll s.buf 0 bytes else s.buf := rfl
@[simp] theorem acceptB_ts : (acceptB op bytes s).ts = s.ts := rfl
@[simp] theorem acceptB_ac : (acceptB op bytes s).ac = s.ac := rfl
@[simp] theorem acceptB_lat : (acceptB op bytes s).lat = s.lat := rfl
@[simp] theorem acceptB_lon : (acceptB op bytes s).lon = s.lon := rfl
@[simp] theorem acceptB_odd : (acceptB op bytes s).odd = s.odd := rfl
@[simp] theorem acceptB_nbits : (acceptB op bytes s).nbits = s.nbits := rfl
@[simp] theorem acceptB_w : (acceptB op bytes s).w = s.w := rfl
@[simp] theorem acceptB_result : (acceptB op bytes s).result = s.result := rfl
@[simp] theorem acceptB_status : (acceptB op bytes s).status = s.status := rfl
@[simp] theorem acceptB_fsm : (acceptB op bytes s).fsm = s.fsm := rfl
@[simp] theorem acceptB_host : (acceptB op bytes s).host = s.host := rfl
end acceptB

section acceptP
variable (ts : Nat) (bytes : List Byte) (s : State)
@[simp] theorem acceptP_params : (acceptP ts bytes s).params = s.params := rfl
@[simp] theorem acceptP_op : (acceptP ts bytes s).op = 10 := rfl
@[simp] theorem acceptP_len : (acceptP ts bytes s).len = BitVec.ofNat 4 bytes.length := rfl
@[simp] theorem acceptP_buf : (acceptP ts bytes s).buf = if bytes.length ≤ Config.bufBytes then memWriteAll s.buf 0 bytes else s.buf := rfl
@[simp] theorem acceptP_ts : (acceptP ts bytes s).ts = ts := rfl
@[simp] theorem acceptP_ac : (acceptP ts bytes s).ac = s.ac := rfl
@[simp] theorem acceptP_lat : (acceptP ts bytes s).lat = s.lat := rfl
@[simp] theorem acceptP_lon : (acceptP ts bytes s).lon = s.lon := rfl
@[simp] theorem acceptP_odd : (acceptP ts bytes s).odd = s.odd := rfl
@[simp] theorem acceptP_nbits : (acceptP ts bytes s).nbits = s.nbits := rfl
@[simp] theorem acceptP_w : (acceptP ts bytes s).w = s.w := rfl
@[simp] theorem acceptP_result : (acceptP ts bytes s).result = s.result := rfl
@[simp] theorem acceptP_status : (acceptP ts bytes s).status = s.status := rfl
@[simp] theorem acceptP_fsm : (acceptP ts bytes s).fsm = s.fsm := rfl
@[simp] theorem acceptP_host : (acceptP ts bytes s).host = s.host := rfl
end acceptP

section acceptA
variable (op : BitVec 4) (ac : BitVec 13) (s : State)
@[simp] theorem acceptA_params : (acceptA op ac s).params = s.params := rfl
@[simp] theorem acceptA_op : (acceptA op ac s).op = op := rfl
@[simp] theorem acceptA_len : (acceptA op ac s).len = s.len := rfl
@[simp] theorem acceptA_buf : (acceptA op ac s).buf = s.buf := rfl
@[simp] theorem acceptA_ts : (acceptA op ac s).ts = s.ts := rfl
@[simp] theorem acceptA_ac : (acceptA op ac s).ac = ac := rfl
@[simp] theorem acceptA_lat : (acceptA op ac s).lat = s.lat := rfl
@[simp] theorem acceptA_lon : (acceptA op ac s).lon = s.lon := rfl
@[simp] theorem acceptA_odd : (acceptA op ac s).odd = s.odd := rfl
@[simp] theorem acceptA_nbits : (acceptA op ac s).nbits = s.nbits := rfl
@[simp] theorem acceptA_w : (acceptA op ac s).w = s.w := rfl
@[simp] theorem acceptA_result : (acceptA op ac s).result = s.result := rfl
@[simp] theorem acceptA_status : (acceptA op ac s).status = s.status := rfl
@[simp] theorem acceptA_fsm : (acceptA op ac s).fsm = s.fsm := rfl
@[simp] theorem acceptA_host : (acceptA op ac s).host = s.host := rfl
end acceptA

section acceptN
variable (lat : Int) (s : State)
@[simp] theorem acceptN_params : (acceptN lat s).params = s.params := rfl
@[simp] theorem acceptN_op : (acceptN lat s).op = 7 := rfl
@[simp] theorem acceptN_len : (acceptN lat s).len = s.len := rfl
@[simp] theorem acceptN_buf : (acceptN lat s).buf = s.buf := rfl
@[simp] theorem acceptN_ts : (acceptN lat s).ts = s.ts := rfl
@[simp] theorem acceptN_ac : (acceptN lat s).ac = s.ac := rfl
@[simp] theorem acceptN_lat : (acceptN lat s).lat = lat := rfl
@[simp] theorem acceptN_lon : (acceptN lat s).lon = s.lon := rfl
@[simp] theorem acceptN_odd : (acceptN lat s).odd = s.odd := rfl
@[simp] theorem acceptN_nbits : (acceptN lat s).nbits = s.nbits := rfl
@[simp] theorem acceptN_w : (acceptN lat s).w = s.w := rfl
@[simp] theorem acceptN_result : (acceptN lat s).result = s.result := rfl
@[simp] theorem acceptN_status : (acceptN lat s).status = s.status := rfl
@[simp] theorem acceptN_fsm : (acceptN lat s).fsm = s.fsm := rfl
@[simp] theorem acceptN_host : (acceptN lat s).host = s.host := rfl
end acceptN

section acceptC
variable (odd : BitVec 1) (nbits : BitVec Config.nbitsW) (lat lon : Int) (s : State)
@[simp] theorem acceptC_params : (acceptC odd nbits lat lon s).params = s.params := rfl
@[simp] theorem acceptC_op : (acceptC odd nbits lat lon s).op = 8 := rfl
@[simp] theorem acceptC_len : (acceptC odd nbits lat lon s).len = s.len := rfl
@[simp] theorem acceptC_buf : (acceptC odd nbits lat lon s).buf = s.buf := rfl
@[simp] theorem acceptC_ts : (acceptC odd nbits lat lon s).ts = s.ts := rfl
@[simp] theorem acceptC_ac : (acceptC odd nbits lat lon s).ac = s.ac := rfl
@[simp] theorem acceptC_lat : (acceptC odd nbits lat lon s).lat = lat := rfl
@[simp] theorem acceptC_lon : (acceptC odd nbits lat lon s).lon = lon := rfl
@[simp] theorem acceptC_odd : (acceptC odd nbits lat lon s).odd = odd := rfl
@[simp] theorem acceptC_nbits : (acceptC odd nbits lat lon s).nbits = nbits := rfl
@[simp] theorem acceptC_w : (acceptC odd nbits lat lon s).w = s.w := rfl
@[simp] theorem acceptC_result : (acceptC odd nbits lat lon s).result = s.result := rfl
@[simp] theorem acceptC_status : (acceptC odd nbits lat lon s).status = s.status := rfl
@[simp] theorem acceptC_fsm : (acceptC odd nbits lat lon s).fsm = s.fsm := rfl
@[simp] theorem acceptC_host : (acceptC odd nbits lat lon s).host = s.host := rfl
end acceptC

section finish
variable (r : Result) (s : State)
@[simp] theorem finish_params : (finish r s).params = s.params := rfl
@[simp] theorem finish_op : (finish r s).op = s.op := rfl
@[simp] theorem finish_len : (finish r s).len = s.len := rfl
@[simp] theorem finish_buf : (finish r s).buf = s.buf := rfl
@[simp] theorem finish_ts : (finish r s).ts = s.ts := rfl
@[simp] theorem finish_ac : (finish r s).ac = s.ac := rfl
@[simp] theorem finish_lat : (finish r s).lat = s.lat := rfl
@[simp] theorem finish_lon : (finish r s).lon = s.lon := rfl
@[simp] theorem finish_odd : (finish r s).odd = s.odd := rfl
@[simp] theorem finish_nbits : (finish r s).nbits = s.nbits := rfl
@[simp] theorem finish_w : (finish r s).w = s.w := rfl
@[simp] theorem finish_result : (finish r s).result = r := rfl
@[simp] theorem finish_status : (finish r s).status = Status.ok.code := rfl
@[simp] theorem finish_fsm : (finish r s).fsm = .idle := rfl
@[simp] theorem finish_host : (finish r s).host = s.host := rfl
end finish

section raise
variable (e : Status) (s : State)
@[simp] theorem raise_params : (raise e s).params = s.params := rfl
@[simp] theorem raise_op : (raise e s).op = s.op := rfl
@[simp] theorem raise_len : (raise e s).len = s.len := rfl
@[simp] theorem raise_buf : (raise e s).buf = s.buf := rfl
@[simp] theorem raise_ts : (raise e s).ts = s.ts := rfl
@[simp] theorem raise_ac : (raise e s).ac = s.ac := rfl
@[simp] theorem raise_lat : (raise e s).lat = s.lat := rfl
@[simp] theorem raise_lon : (raise e s).lon = s.lon := rfl
@[simp] theorem raise_odd : (raise e s).odd = s.odd := rfl
@[simp] theorem raise_nbits : (raise e s).nbits = s.nbits := rfl
@[simp] theorem raise_w : (raise e s).w = s.w := rfl
@[simp] theorem raise_result : (raise e s).result = Result.empty := rfl
@[simp] theorem raise_status : (raise e s).status = e.code := rfl
@[simp] theorem raise_fsm : (raise e s).fsm = .idle := rfl
@[simp] theorem raise_host : (raise e s).host = s.host := rfl
end raise

section rejectPacket
variable (e : Status) (b0 : Byte) (s : State)
@[simp] theorem rejectPacket_params : (rejectPacket e b0 s).params = s.params := rfl
@[simp] theorem rejectPacket_op : (rejectPacket e b0 s).op = packetOp b0 := rfl
@[simp] theorem rejectPacket_len : (rejectPacket e b0 s).len = s.len := rfl
@[simp] theorem rejectPacket_buf : (rejectPacket e b0 s).buf = s.buf := rfl
@[simp] theorem rejectPacket_ts : (rejectPacket e b0 s).ts = s.ts := rfl
@[simp] theorem rejectPacket_ac : (rejectPacket e b0 s).ac = s.ac := rfl
@[simp] theorem rejectPacket_lat : (rejectPacket e b0 s).lat = s.lat := rfl
@[simp] theorem rejectPacket_lon : (rejectPacket e b0 s).lon = s.lon := rfl
@[simp] theorem rejectPacket_odd : (rejectPacket e b0 s).odd = s.odd := rfl
@[simp] theorem rejectPacket_nbits : (rejectPacket e b0 s).nbits = s.nbits := rfl
@[simp] theorem rejectPacket_w : (rejectPacket e b0 s).w = s.w := rfl
@[simp] theorem rejectPacket_result : (rejectPacket e b0 s).result = Result.empty := rfl
@[simp] theorem rejectPacket_status : (rejectPacket e b0 s).status = e.code := rfl
@[simp] theorem rejectPacket_fsm : (rejectPacket e b0 s).fsm = .idle := rfl
@[simp] theorem rejectPacket_host : (rejectPacket e b0 s).host = s.host := rfl
end rejectPacket

section setHost
variable (h : List HostEvent) (s : State)
@[simp] theorem setHost_params : (setHost h s).params = s.params := rfl
@[simp] theorem setHost_op : (setHost h s).op = s.op := rfl
@[simp] theorem setHost_len : (setHost h s).len = s.len := rfl
@[simp] theorem setHost_buf : (setHost h s).buf = s.buf := rfl
@[simp] theorem setHost_ts : (setHost h s).ts = s.ts := rfl
@[simp] theorem setHost_ac : (setHost h s).ac = s.ac := rfl
@[simp] theorem setHost_lat : (setHost h s).lat = s.lat := rfl
@[simp] theorem setHost_lon : (setHost h s).lon = s.lon := rfl
@[simp] theorem setHost_odd : (setHost h s).odd = s.odd := rfl
@[simp] theorem setHost_nbits : (setHost h s).nbits = s.nbits := rfl
@[simp] theorem setHost_w : (setHost h s).w = s.w := rfl
@[simp] theorem setHost_result : (setHost h s).result = s.result := rfl
@[simp] theorem setHost_status : (setHost h s).status = s.status := rfl
@[simp] theorem setHost_fsm : (setHost h s).fsm = s.fsm := rfl
@[simp] theorem setHost_host : (setHost h s).host = h := rfl
end setHost

section enterFrame
variable (fr : Frame) (s : State)
@[simp] theorem enterFrame_params : (enterFrame fr s).params = s.params := by unfold enterFrame; rfl
@[simp] theorem enterFrame_op : (enterFrame fr s).op = s.op := by unfold enterFrame; rfl
@[simp] theorem enterFrame_len : (enterFrame fr s).len = s.len := by unfold enterFrame; rfl
@[simp] theorem enterFrame_buf : (enterFrame fr s).buf = s.buf := by unfold enterFrame; rfl
@[simp] theorem enterFrame_ts : (enterFrame fr s).ts = s.ts := by unfold enterFrame; rfl
@[simp] theorem enterFrame_ac : (enterFrame fr s).ac = s.ac := by unfold enterFrame; rfl
@[simp] theorem enterFrame_lat : (enterFrame fr s).lat = s.lat := by unfold enterFrame; rfl
@[simp] theorem enterFrame_lon : (enterFrame fr s).lon = s.lon := by unfold enterFrame; rfl
@[simp] theorem enterFrame_odd : (enterFrame fr s).odd = s.odd := by unfold enterFrame; rfl
@[simp] theorem enterFrame_nbits : (enterFrame fr s).nbits = s.nbits := by unfold enterFrame; rfl
@[simp] theorem enterFrame_w : (enterFrame fr s).w = crcWork false (bufBytes s) s.w := by unfold enterFrame; rfl
@[simp] theorem enterFrame_result : (enterFrame fr s).result = enteredRecord s.ts fr.df (crcRead s.len.toNat (crcWork false (bufBytes s) s.w)) := by unfold enterFrame; rfl
@[simp] theorem enterFrame_status : (enterFrame fr s).status = s.status := by unfold enterFrame; rfl
@[simp] theorem enterFrame_fsm : (enterFrame fr s).fsm = .df fr.df := by unfold enterFrame; rfl
@[simp] theorem enterFrame_host : (enterFrame fr s).host = s.host := by unfold enterFrame; rfl
end enterFrame

section enterSquitter
variable (f : Long) (s : State)
@[simp] theorem enterSquitter_params : (enterSquitter f s).params = s.params := rfl
@[simp] theorem enterSquitter_op : (enterSquitter f s).op = s.op := rfl
@[simp] theorem enterSquitter_len : (enterSquitter f s).len = s.len := rfl
@[simp] theorem enterSquitter_buf : (enterSquitter f s).buf = s.buf := rfl
@[simp] theorem enterSquitter_ts : (enterSquitter f s).ts = s.ts := rfl
@[simp] theorem enterSquitter_ac : (enterSquitter f s).ac = s.ac := rfl
@[simp] theorem enterSquitter_lat : (enterSquitter f s).lat = s.lat := rfl
@[simp] theorem enterSquitter_lon : (enterSquitter f s).lon = s.lon := rfl
@[simp] theorem enterSquitter_odd : (enterSquitter f s).odd = s.odd := rfl
@[simp] theorem enterSquitter_nbits : (enterSquitter f s).nbits = s.nbits := rfl
@[simp] theorem enterSquitter_w : (enterSquitter f s).w = s.w := rfl
@[simp] theorem enterSquitter_result : (enterSquitter f s).result = 
    withPlainAddress s.params.layout.df17.aa f
      { s.result with tc := some (longTc s.params f) } := rfl
@[simp] theorem enterSquitter_status : (enterSquitter f s).status = s.status := rfl
@[simp] theorem enterSquitter_fsm : (enterSquitter f s).fsm = esFsm (esClass (longTc s.params f)) := rfl
@[simp] theorem enterSquitter_host : (enterSquitter f s).host = s.host := rfl
end enterSquitter

section resetBlock
variable (p : Config.Params) (later : List HostEvent)
@[simp] theorem resetBlock_params : (resetBlock p later).params = p := rfl
@[simp] theorem resetBlock_op : (resetBlock p later).op = State.reset.op := rfl
@[simp] theorem resetBlock_len : (resetBlock p later).len = State.reset.len := rfl
@[simp] theorem resetBlock_buf : (resetBlock p later).buf = State.reset.buf := rfl
@[simp] theorem resetBlock_ts : (resetBlock p later).ts = State.reset.ts := rfl
@[simp] theorem resetBlock_ac : (resetBlock p later).ac = State.reset.ac := rfl
@[simp] theorem resetBlock_lat : (resetBlock p later).lat = State.reset.lat := rfl
@[simp] theorem resetBlock_lon : (resetBlock p later).lon = State.reset.lon := rfl
@[simp] theorem resetBlock_odd : (resetBlock p later).odd = State.reset.odd := rfl
@[simp] theorem resetBlock_nbits : (resetBlock p later).nbits = State.reset.nbits := rfl
@[simp] theorem resetBlock_w : (resetBlock p later).w = State.reset.w := rfl
@[simp] theorem resetBlock_result : (resetBlock p later).result = State.reset.result := rfl
@[simp] theorem resetBlock_status : (resetBlock p later).status = State.reset.status := rfl
@[simp] theorem resetBlock_fsm : (resetBlock p later).fsm = State.reset.fsm := rfl
@[simp] theorem resetBlock_host : (resetBlock p later).host = later := rfl
end resetBlock

section reset
@[simp] theorem reset_params : State.reset.params = Config.params := rfl
@[simp] theorem reset_op : State.reset.op = 0 := rfl
@[simp] theorem reset_len : State.reset.len = 0 := rfl
@[simp] theorem reset_buf : State.reset.buf = [] := rfl
@[simp] theorem reset_ts : State.reset.ts = 0 := rfl
@[simp] theorem reset_ac : State.reset.ac = 0 := rfl
@[simp] theorem reset_lat : State.reset.lat = 0 := rfl
@[simp] theorem reset_lon : State.reset.lon = 0 := rfl
@[simp] theorem reset_odd : State.reset.odd = 0 := rfl
@[simp] theorem reset_nbits : State.reset.nbits = 0 := rfl
@[simp] theorem reset_w : State.reset.w = 0 := rfl
@[simp] theorem reset_result : State.reset.result = Result.empty := rfl
@[simp] theorem reset_status : State.reset.status = 0 := rfl
@[simp] theorem reset_fsm : State.reset.fsm = .idle := rfl
@[simp] theorem reset_host : State.reset.host = [] := rfl
end reset

end Sys2Proof.Machine
end

