-- ==== Sys2Proof/Laws/Memory.lean ====
section
/-! SUPPORT. The input buffer: a read after a write, the canonical form kept by every operation, and the bytes a command
wrote read back. -/

namespace Sys2Proof.Machine

@[simp] theorem memRead_nil (a : Nat) : memRead [] a = unlistedByte := rfl

theorem memRead_cons (b a : Nat) (v : Byte) (m : Memory) :
    memRead ((b, v) :: m) a = if b = a then v else memRead m a := rfl

theorem memRead_memErase_self (m : Memory) (a : Nat) : memRead (memErase m a) a = unlistedByte := by
  induction m with
  | nil => rfl
  | cons c m ih =>
    obtain ⟨k, u⟩ := c
    by_cases h : k = a
    · have : memErase ((k, u) :: m) a = memErase m a := by simp [memErase, h]
      rw [this, ih]
    · have : memErase ((k, u) :: m) a = (k, u) :: memErase m a := by simp [memErase, h]
      rw [this, memRead_cons, if_neg h, ih]

theorem memRead_memErase_other (m : Memory) {a b : Nat} (hab : a ≠ b) : memRead (memErase m a) b = memRead m b := by
  induction m with
  | nil => rfl
  | cons c m ih =>
    obtain ⟨k, u⟩ := c
    by_cases h : k = a
    · have : memErase ((k, u) :: m) a = memErase m a := by simp [memErase, h]
      rw [this, memRead_cons, if_neg (h ▸ hab), ih]
    · have : memErase ((k, u) :: m) a = (k, u) :: memErase m a := by simp [memErase, h]
      rw [this, memRead_cons, memRead_cons, ih]

theorem memRead_memInsert (m : Memory) {a : Nat} (v : Byte) (h : ∀ c ∈ m, c.1 ≠ a) (b : Nat) :
    memRead (memInsert m a v) b = if a = b then v else memRead m b := by
  induction m with
  | nil => rfl
  | cons c m ih =>
    obtain ⟨k, u⟩ := c
    have hk : k ≠ a := h (k, u) (by simp)
    unfold memInsert
    split
    · rfl
    · rw [memRead_cons, memRead_cons, ih fun c hc => h c (by simp [hc])]
      by_cases hkb : k = b
      · rw [if_pos hkb, if_pos hkb, if_neg (by omega)]
      · rw [if_neg hkb, if_neg hkb]

/-- A read after a write: the written byte at its address, every other byte as before. -/
theorem memRead_memWrite (m : Memory) (a : Nat) (v : Byte) (b : Nat) :
    memRead (memWrite m a v) b = if a = b then v else memRead m b := by
  have hrest : ∀ c ∈ memErase m a, c.1 ≠ a := by simp [memErase]
  unfold memWrite
  split
  · next hv =>
    split
    · next hb => rw [hv, ← hb, memRead_memErase_self]
    · next hb => exact memRead_memErase_other m hb
  · rw [memRead_memInsert _ v hrest]
    split
    · rfl
    · next hb => exact memRead_memErase_other m hb

/-- A read after writing bytes: the written byte inside their range, every other byte as before. -/
theorem memRead_memWriteAll (m : Memory) (a : Nat) (vs : List Byte) (b : Nat) :
    memRead (memWriteAll m a vs) b = if a ≤ b ∧ b < a + vs.length then vs.getD (b - a) 0 else memRead m b := by
  induction vs generalizing m a with
  | nil => simp [memWriteAll]
  | cons v vs ih =>
    rw [List.length_cons, memWriteAll, ih, memRead_memWrite]
    by_cases hb : a = b
    · subst hb; simp
    · by_cases hr : a + 1 ≤ b ∧ b < a + 1 + vs.length
      · rw [if_pos hr, if_pos (by omega)]
        obtain ⟨d, hd⟩ : ∃ d, b - a = d + 1 := ⟨b - a - 1, by omega⟩
        rw [hd, show b - (a + 1) = d by omega]
        simp
      · rw [if_neg hr, if_neg hb, if_neg (by omega)]

/-! ### The canonical form -/

theorem memWfFrom_cons {lo a : Nat} {v : Byte} {m : Memory} :
    memWfFrom lo ((a, v) :: m) = true ↔
      lo ≤ a ∧ a < Config.bufBytes ∧ v ≠ unlistedByte ∧ memWfFrom (a + 1) m = true := by
  simp [memWfFrom, and_assoc]

/-- A canonical memory is canonical above every lower address. -/
theorem memWfFrom_mono {lo lo' : Nat} {m : Memory} (h : memWfFrom lo m = true) (hl : lo' ≤ lo) :
    memWfFrom lo' m = true := by
  cases m with
  | nil => rfl
  | cons c m =>
    have h := memWfFrom_cons.mp h
    exact memWfFrom_cons.mpr ⟨by omega, h.2⟩

theorem memWfFrom_memErase {lo : Nat} {m : Memory} (h : memWfFrom lo m = true) (a : Nat) :
    memWfFrom lo (memErase m a) = true := by
  induction m generalizing lo with
  | nil => rfl
  | cons c m ih =>
    obtain ⟨k, u⟩ := c
    have h := memWfFrom_cons.mp h
    by_cases hk : k = a
    · have : memErase ((k, u) :: m) a = memErase m a := by simp [memErase, hk]
      rw [this]
      exact memWfFrom_mono (ih h.2.2.2) (by omega)
    · have : memErase ((k, u) :: m) a = (k, u) :: memErase m a := by simp [memErase, hk]
      rw [this]
      exact memWfFrom_cons.mpr ⟨h.1, h.2.1, h.2.2.1, ih h.2.2.2⟩

theorem memWfFrom_memInsert {lo : Nat} {m : Memory} (h : memWfFrom lo m = true) {a : Nat} {v : Byte}
    (hv : v ≠ unlistedByte) (hm : ∀ c ∈ m, c.1 ≠ a) (hlo : lo ≤ a) (ha : a < Config.bufBytes) :
    memWfFrom lo (memInsert m a v) = true := by
  induction m generalizing lo with
  | nil => exact memWfFrom_cons.mpr ⟨hlo, ha, hv, rfl⟩
  | cons c m ih =>
    obtain ⟨k, u⟩ := c
    have h := memWfFrom_cons.mp h
    have hk : k ≠ a := hm (k, u) (by simp)
    unfold memInsert
    split
    · exact memWfFrom_cons.mpr ⟨hlo, ha, hv, memWfFrom_cons.mpr ⟨by omega, h.2⟩⟩
    · exact memWfFrom_cons.mpr ⟨h.1, h.2.1, h.2.2.1, ih h.2.2.2 (fun c hc => hm c (by simp [hc])) (by omega)⟩

/-- Writing one byte inside the buffer keeps the canonical form. -/
theorem wf_memWrite {m : Memory} (h : m.wf = true) {a : Nat} (v : Byte) (ha : a < Config.bufBytes) :
    Memory.wf (memWrite m a v) = true := by
  unfold memWrite
  split
  · exact memWfFrom_memErase h a
  · next hv =>
    exact memWfFrom_memInsert (memWfFrom_memErase h a) hv (by simp [memErase]) (Nat.zero_le a) ha

/-- Writing bytes that fit inside the buffer keeps the canonical form. -/
theorem wf_memWriteAll {m : Memory} (h : m.wf = true) (vs : List Byte) {a : Nat}
    (ha : a + vs.length ≤ Config.bufBytes) : Memory.wf (memWriteAll m a vs) = true := by
  induction vs generalizing m a with
  | nil => exact h
  | cons v vs ih =>
    rw [List.length_cons] at ha
    exact ih (wf_memWrite h v (by omega)) (by omega)

/-- Reset's memory is canonical. -/
theorem wf_reset : State.reset.buf.wf = true := rfl

/-- Equal contents are equal lists: two canonical memories that read alike are the same. -/
theorem memory_ext {lo : Nat} {m m' : Memory} (h : memWfFrom lo m = true) (h' : memWfFrom lo m' = true)
    (hr : ∀ a, memRead m a = memRead m' a) : m = m' := by
  have below : ∀ {lo : Nat} {m : Memory}, memWfFrom lo m = true → ∀ a, a < lo → memRead m a = unlistedByte := by
    intro lo m
    induction m generalizing lo with
    | nil => intros; rfl
    | cons c m ih =>
      intro h a ha
      obtain ⟨k, u⟩ := c
      have h := memWfFrom_cons.mp h
      rw [memRead_cons, if_neg (by omega)]
      exact ih h.2.2.2 a (by omega)
  induction m generalizing lo m' with
  | nil =>
    cases m' with
    | nil => rfl
    | cons c m' =>
      have h' := memWfFrom_cons.mp h'
      have := hr c.1
      rw [memRead_nil, memRead_cons, if_pos rfl] at this
      exact absurd this.symm h'.2.2.1
  | cons c m ih =>
    obtain ⟨k, u⟩ := c
    have h := memWfFrom_cons.mp h
    cases m' with
    | nil =>
      have := hr k
      rw [memRead_nil, memRead_cons, if_pos rfl] at this
      exact absurd this h.2.2.1
    | cons c' m' =>
      obtain ⟨k', u'⟩ := c'
      have h' := memWfFrom_cons.mp h'
      have hkk : k = k' := by
        rcases Nat.lt_trichotomy k k' with hlt | heq | hgt
        · have := hr k
          rw [memRead_cons, if_pos rfl, memRead_cons, if_neg (by omega), below h'.2.2.2 k (by omega)] at this
          exact absurd this h.2.2.1
        · exact heq
        · have := hr k'
          rw [memRead_cons, if_neg (by omega), memRead_cons, if_pos rfl, below h.2.2.2 k' (by omega)] at this
          exact absurd this.symm h'.2.2.1
      subst hkk
      have huu : u = u' := by simpa [memRead_cons] using hr k
      subst huu
      rw [ih h.2.2.2 h'.2.2.2 fun a => ?_]
      by_cases hka : k = a
      · subst hka
        rw [below h.2.2.2 k (by omega), below h'.2.2.2 k (by omega)]
      · simpa [memRead_cons, hka] using hr a

/-! ### The buffer as bytes -/

@[simp] theorem memRange_length (m : Memory) (n : Nat) : (memRange m n).length = n := by simp [memRange]

/-- The bytes a command wrote from address 0 on are the bytes read back (10_state.md R23). -/
theorem memRange_memWriteAll (m : Memory) (vs : List Byte) :
    memRange (memWriteAll m 0 vs) vs.length = vs := by
  refine List.ext_getElem (by simp) fun k hk hk' => ?_
  rw [memRange_length] at hk
  simp only [memRange, List.getElem_map, List.getElem_range]
  rw [memRead_memWriteAll, if_pos (by omega)]
  simp [hk]

end Sys2Proof.Machine
end

