-- ==== Sys2Proof/Laws/Ops.lean ====
section
/-! SUPPORT. What accepting a command leaves in `LEN` and in the buffer, and the presence register. -/

namespace Sys2Proof.Machine

/-- `LEN` after a buffer of at most fifteen bytes is accepted. -/
theorem latchBuf_len_toNat {bytes : List Byte} (h : bytes.length ≤ 15) (s : State) :
    (latchBuf bytes s).len.toNat = bytes.length := by
  rw [latchBuf_len, BitVec.toNat_ofNat, Nat.mod_eq_of_lt (by omega)]

/-- The buffer after at most fourteen bytes are accepted holds exactly those bytes. -/
theorem latchBuf_bufBytes {bytes : List Byte} (h : bytes.length ≤ 14) (s : State) :
    bufBytes (latchBuf bytes s) = bytes := by
  have hb : bytes.length ≤ Config.bufBytes := h
  rw [bufBytes, latchBuf_len_toNat (by omega), latchBuf_buf, if_pos hb, memRange_memWriteAll]

/-- Every byte of the buffer after a command of at most fifteen bytes is accepted (30_encoding.md R83). -/
theorem latchBuf_memRead (bytes : List Byte) (s : State) (a : Nat) :
    memRead (latchBuf bytes s).buf a =
      if a < bytes.length ∧ bytes.length ≤ 14 then bytes.getD a 0 else memRead s.buf a := by
  rw [latchBuf_buf]
  by_cases h : bytes.length ≤ 14
  · rw [if_pos (show bytes.length ≤ Config.bufBytes from h), memRead_memWriteAll]
    simp [h]
  · rw [if_neg (show ¬ bytes.length ≤ Config.bufBytes from h), if_neg (by omega)]

/-- Accepting a buffer keeps the canonical form. -/
theorem wf_latchBuf {s : State} (h : s.buf.wf = true) (bytes : List Byte) : Memory.wf (latchBuf bytes s).buf = true := by
  rw [latchBuf_buf]
  split
  · next hb => exact wf_memWriteAll h bytes (by omega)
  · exact h

/-- A canonical buffer is what it reads as: accepting bytes it already holds changes nothing. -/
theorem latchBuf_self {s : State} {bytes : List Byte} (h : s.buf.wf = true) (hb : bytes = bufBytes s)
    (hl : bytes.length ≤ 14) : (latchBuf bytes s).buf = s.buf := by
  refine memory_ext (wf_latchBuf h bytes) h fun a => ?_
  rw [latchBuf_memRead]
  split
  · next ha =>
    subst hb
    rw [List.getD_eq_getElem?_getD]
    simp [bufBytes, memRange] at ha ⊢
    simp [ha.1]
  · rfl

/-- An empty record presents no field (10_state.md R25). -/
@[simp] theorem present_empty (f : FieldId) : Result.empty.present f = false := by cases f <;> rfl

/-- A failure presents no field and records its code (60_exceptions.md R284). -/
theorem raise_present (e : Status) (s : State) (f : FieldId) : (raise e s).result.present f = false := by simp

end Sys2Proof.Machine
end

