-- ==== Sys2Proof/Laws/Crc.lean ====
section
/-! SUPPORT. The CRC engine: what one step of the division does to each position, that a division sees the buffer alone and
never what `W` held, and what each of the two commands answers. -/

namespace Sys2Proof.Machine

/-- The bits of the generator at its place for step `i`: position `p` holds bit `24 - (p - i)` of `GEN`. -/
theorem genAt_getMsbD {i : Nat} (hi : i + 24 < 112) (p : Nat) :
    (genAt i).getMsbD p = (decide (i ≤ p ∧ p ≤ i + 24) && Config.gen.getLsbD (24 - (p - i))) := by
  simp only [genAt, BitVec.getMsbD, BitVec.getLsbD_shiftLeft, BitVec.getLsbD_setWidth]
  by_cases hp : p < 112
  · by_cases h1 : i ≤ p ∧ p ≤ i + 24
    · have e1 : decide (p < 112) = true := by simpa using hp
      have e2 : decide (112 - 1 - p < 112) = true := by simpa using by omega
      have e3 : decide (112 - 1 - p < 87 - i) = false := by simpa using by omega
      have e4 : decide (112 - 1 - p - (87 - i) < 112) = true := by simpa using by omega
      rw [e1, e2, e3, e4, show 112 - 1 - p - (87 - i) = 24 - (p - i) by omega]
      simp [h1]
    · rw [decide_eq_false h1]
      by_cases h2 : i ≤ p
      · have e3 : decide (112 - 1 - p < 87 - i) = true := by simpa using by omega
        simp [e3]
      · rw [BitVec.getLsbD_of_ge _ _ (show 25 ≤ 112 - 1 - p - (87 - i) by omega)]
        simp
  · have h1 : ¬ (i ≤ p ∧ p ≤ i + 24) := by omega
    have e1 : decide (p < 112) = false := by simpa using by omega
    rw [decide_eq_false h1, e1]
    simp

/-- One step of the division, position by position (40_crc.md R121). -/
theorem wStep_getMsbD {i : Nat} (hi : i + 24 < 112) (w : BitVec 112) (p : Nat) :
    (wStep w i).getMsbD p =
      (w.getMsbD p ^^ (w.getMsbD i && decide (i ≤ p ∧ p ≤ i + 24) && Config.gen.getLsbD (24 - (p - i)))) := by
  unfold wStep wBit
  by_cases h : w.getMsbD i = true
  · rw [if_pos h, BitVec.getMsbD_xor, genAt_getMsbD hi, h]
    simp
  · simp [h]

/-- A step clears its own position and no earlier one changes. -/
theorem wStep_getMsbD_le {i : Nat} (hi : i + 24 < 112) (w : BitVec 112) {p : Nat} (hp : p ≤ i) :
    (wStep w i).getMsbD p = (decide (p ≠ i) && w.getMsbD p) := by
  rw [wStep_getMsbD hi]
  by_cases h : p = i
  · subst h
    simp
  · have h1 : ¬ (i ≤ p ∧ p ≤ i + 24) := by omega
    simp [h, h1]

/-- A step changes nothing beyond the generator. -/
theorem wStep_getMsbD_beyond {i : Nat} (hi : i + 24 < 112) (w : BitVec 112) {p : Nat} (hp : i + 24 < p) :
    (wStep w i).getMsbD p = w.getMsbD p := by
  have h1 : ¬ (i ≤ p ∧ p ≤ i + 24) := by omega
  rw [wStep_getMsbD hi, decide_eq_false h1]
  simp

theorem wLoop_succ (m : Nat) (w : BitVec 112) : wLoop (m + 1) w = wStep (wLoop m w) m := by
  simp [wLoop, List.range_succ]

/-- The division clears every position it has passed. -/
theorem wLoop_cleared {m : Nat} (hm : m ≤ 88) (w : BitVec 112) {p : Nat} (hp : p < m) :
    (wLoop m w).getMsbD p = false := by
  induction m with
  | zero => omega
  | succ m ih =>
    rw [wLoop_succ, wStep_getMsbD_le (by omega) _ (by omega)]
    by_cases h : p = m
    · simp [h]
    · simp [ih (by omega) (by omega)]

/-- The division leaves the positions beyond its reach. -/
theorem wLoop_beyond {m : Nat} (hm : m ≤ 88) (w : BitVec 112) {p : Nat} (hp : m + 24 ≤ p) :
    (wLoop m w).getMsbD p = w.getMsbD p := by
  induction m with
  | zero => rfl
  | succ m ih => rw [wLoop_succ, wStep_getMsbD_beyond (by omega) _ (by omega), ih (by omega) (by omega)]

/-- Two working copies that agree on the positions a division reaches agree on them afterwards. -/
theorem wLoop_congr {m L : Nat} (hm : m + 24 ≤ L) (hL : L ≤ 112) {w w' : BitVec 112}
    (h : ∀ p, p < L → w.getMsbD p = w'.getMsbD p) : ∀ p, p < L → (wLoop m w).getMsbD p = (wLoop m w').getMsbD p := by
  induction m with
  | zero => exact h
  | succ m ih =>
    intro p hp
    have ih := ih (by omega)
    rw [wLoop_succ, wLoop_succ, wStep_getMsbD (by omega), wStep_getMsbD (by omega), ih p hp, ih m (by omega)]

/-- The loaded working copy: the buffer's bits first, then what the working copy held. -/
theorem wLoad_getMsbD {bytes : List Byte} (hl : bytes.length ≤ 14) (w : BitVec 112) {p : Nat} (hp : p < 112) :
    (wLoad bytes w).getMsbD p =
      if p < 8 * bytes.length then (Bits.bytesNat bytes).testBit (8 * bytes.length - 1 - p) else w.getMsbD p := by
  have hlt := Bits.bytesNat_lt bytes
  rw [show (256 : Nat) = 2 ^ 8 from rfl, ← pow_mul] at hlt
  simp only [wLoad, BitVec.getMsbD, BitVec.getLsbD_or, BitVec.getLsbD_and, BitVec.getLsbD_shiftLeft,
    BitVec.getLsbD_ushiftRight, BitVec.getLsbD_allOnes, Bits.bytesBits, BitVec.getLsbD_ofNat]
  have e1 : decide (p < 112) = true := by simpa using hp
  rw [e1]
  split
  · next h =>
    have e2 : decide (112 - 1 - p < 112) = true := by simpa using by omega
    have e3 : decide (112 - 1 - p < 112 - 8 * bytes.length) = false := by simpa using by omega
    have e4 : decide (112 - 1 - p - (112 - 8 * bytes.length) < 112) = true := by simpa using by omega
    have e5 : decide (8 * bytes.length + (112 - 1 - p) < 112) = false := by simpa using by omega
    rw [e2, e3, e4, e5, show 112 - 1 - p - (112 - 8 * bytes.length) = 8 * bytes.length - 1 - p by omega]
    simp
  · next h =>
    have e3 : decide (112 - 1 - p < 112 - 8 * bytes.length) = true := by simpa using by omega
    have e5 : decide (8 * bytes.length + (112 - 1 - p) < 112) = true := by simpa using by omega
    rw [e3, e5]
    simp

/-- Zeroing the tail, position by position (40_crc.md R122). -/
theorem wZeroTail_getMsbD {n : Nat} (h3 : 3 ≤ n) (hn : n ≤ 14) (w : BitVec 112) {p : Nat} (hp : p < 112) :
    (wZeroTail n w).getMsbD p = (w.getMsbD p && !decide (8 * n - 24 ≤ p ∧ p < 8 * n)) := by
  simp only [wZeroTail, BitVec.getMsbD, BitVec.getLsbD_and, BitVec.getLsbD_not, BitVec.getLsbD_shiftLeft]
  have e1 : decide (p < 112) = true := by simpa using hp
  have e2 : decide (112 - 1 - p < 112) = true := by simpa using by omega
  rw [e1, e2]
  have key : (0xFFFFFF : BitVec 112).getLsbD (112 - 1 - p - (112 - 8 * n)) =
      decide (112 - 1 - p - (112 - 8 * n) < 24) := by
    generalize 112 - 1 - p - (112 - 8 * n) = k
    by_cases hk : k < 24
    · rw [decide_eq_true hk]
      interval_cases k <;> decide
    · rw [decide_eq_false hk, BitVec.getLsbD, show (0xFFFFFF : BitVec 112).toNat = 2 ^ 24 - 1 from rfl,
        Nat.testBit_two_pow_sub_one]
      simpa using hk
  rw [key]
  simp only [Bool.true_and]
  congr 1
  by_cases h : 8 * n - 24 ≤ p ∧ p < 8 * n
  · have e3 : decide (112 - 1 - p < 112 - 8 * n) = false := by simpa using by omega
    have e4 : decide (112 - 1 - p - (112 - 8 * n) < 24) = true := by simpa using by omega
    rw [e3, e4, decide_eq_true h]
    rfl
  · rw [decide_eq_false h]
    by_cases h2 : p < 8 * n
    · have e4 : decide (112 - 1 - p - (112 - 8 * n) < 24) = false := by simpa using by omega
      rw [e4]
      simp
    · have e3 : decide (112 - 1 - p < 112 - 8 * n) = true := by simpa using by omega
      rw [e3]
      simp

/-- A division leaves 0 in the positions before the remainder (40_crc.md R121). -/
theorem crcWork_cleared {bytes : List Byte} (hl : bytes.length ≤ 14) (e : Bool) (w : BitVec 112) {p : Nat}
    (hp : p + 24 < 8 * bytes.length) : (crcWork e bytes w).getMsbD p = false :=
  wLoop_cleared (by omega) _ (by omega)

/-- No position below `8 * LEN` depends on what `W` held (10_state.md R31). -/
theorem crcWork_congr {bytes : List Byte} (h3 : 3 ≤ bytes.length) (hl : bytes.length ≤ 14) (e : Bool) (w w' : BitVec 112) :
    ∀ p, p < 8 * bytes.length → (crcWork e bytes w).getMsbD p = (crcWork e bytes w').getMsbD p := by
  refine wLoop_congr (by omega) (by omega) fun p hp => ?_
  have hload : (wLoad bytes w).getMsbD p = (wLoad bytes w').getMsbD p := by
    rw [wLoad_getMsbD hl _ (by omega), wLoad_getMsbD hl _ (by omega), if_pos hp, if_pos hp]
  cases e
  · exact hload
  · simp only [if_true]
    rw [wZeroTail_getMsbD h3 hl _ (by omega), wZeroTail_getMsbD h3 hl _ (by omega), hload]

/-- The remainder depends on the buffer alone (10_state.md R31, R32). -/
theorem crcRead_congr {bytes : List Byte} (h3 : 3 ≤ bytes.length) (hl : bytes.length ≤ 14) (e : Bool) (w w' : BitVec 112) :
    crcRead bytes.length (crcWork e bytes w) = crcRead bytes.length (crcWork e bytes w') := by
  refine BitVec.eq_of_getMsbD_eq fun k hk => ?_
  rw [crcRead, crcRead, Bits.field_getMsbD _ _ _ _ (by omega) hk, Bits.field_getMsbD _ _ _ _ (by omega) hk]
  exact crcWork_congr h3 hl e w w' _ (by omega)

/-! ### The two commands -/

/-- Outside the lengths 3 to 14 both commands are refused (40_crc.md R126). -/
theorem crcCommand_badLength {bytes : List Byte} (h15 : bytes.length ≤ 15) (h : bytes.length < 3 ∨ bytes.length = 15)
    (op : BitVec 4) (e : Bool) (s : State) :
    crcCommand op e bytes s = .next (raise .badLength (acceptB op bytes s)) := by
  have hlen : (acceptB op bytes s).len.toNat = bytes.length := latchBuf_len_toNat h15 s
  unfold crcCommand
  rw [if_pos]
  rw [hlen]
  show bytes.length < 3 ∨ 14 < bytes.length
  omega

/-- For the lengths 3 to 14 both commands divide and present the remainder (40_crc.md R121, R122). -/
theorem crcCommand_ok {bytes : List Byte} (h3 : 3 ≤ bytes.length) (hl : bytes.length ≤ 14) (op : BitVec 4) (e : Bool)
    (s : State) :
    crcCommand op e bytes s =
      .next (finish { Result.empty with crc := some (crcRead bytes.length (crcWork e bytes s.w)) }
        { acceptB op bytes s with w := crcWork e bytes s.w }) := by
  have hlen : (acceptB op bytes s).len.toNat = bytes.length := latchBuf_len_toNat (by omega) s
  have hbuf : bufBytes (acceptB op bytes s) = bytes := latchBuf_bufBytes hl s
  unfold crcCommand
  rw [if_neg]
  · simp only [hbuf, hlen]
    rfl
  · rw [hlen]
    show ¬ (bytes.length < 3 ∨ 14 < bytes.length)
    omega

end Sys2Proof.Machine
end

