-- ==== Sys2Proof/Laws/Decode.lean ====
section
/-! SUPPORT. The packet formats: when each reads an instruction and when it refuses one, and the length of what the packet
decoder reads. -/

namespace Sys2Proof

theorem formatB_ok {mk : List Byte → Instr} {low : BitVec 4} {body : List Byte} {i : Instr} :
    formatB mk low body = .ok i ↔ body.length = low.toNat ∧ i = mk body := by
  unfold formatB
  split <;> simp_all [eq_comm]

theorem formatB_error {mk : List Byte → Instr} {low : BitVec 4} {body : List Byte} {e : DecodeError} :
    formatB mk low body = .error e ↔ body.length ≠ low.toNat ∧ e = .packetLength := by
  unfold formatB
  split <;> simp_all [eq_comm]

theorem formatP_ok {p : Config.Params} {low : BitVec 4} {body : List Byte} {i : Instr} :
    formatP p low body = .ok i ↔
      body.length = p.tsBytes + low.toNat ∧
        i = .parse (Bits.bytesNat (body.take p.tsBytes)) (body.drop p.tsBytes) := by
  unfold formatP
  split
  · next h => exact ⟨fun e => by cases e; exact ⟨h, rfl⟩, fun e => by rw [e.2]⟩
  · next h => exact ⟨fun e => (nomatch e), fun e => absurd e.1 h⟩

theorem formatP_error {p : Config.Params} {low : BitVec 4} {body : List Byte} {e : DecodeError} :
    formatP p low body = .error e ↔ body.length ≠ p.tsBytes + low.toNat ∧ e = .packetLength := by
  unfold formatP
  split
  · next h => exact ⟨fun e => (nomatch e), fun e => absurd h e.1⟩
  · next h => exact ⟨fun e => by cases e; exact ⟨h, rfl⟩, fun e => by rw [e.2]⟩

theorem formatA_ok {mk : BitVec 13 → Instr} {low : BitVec 4} {body : List Byte} {i : Instr} :
    formatA mk low body = .ok i ↔
      ∃ b1 b2, body = [b1, b2] ∧ low = 0 ∧ Bits.field b1 0 3 = 0 ∧ i = mk (Bits.field b1 3 5 ++ b2) := by
  constructor
  · intro h
    unfold formatA at h
    split at h
    · next b1 b2 =>
      split at h
      · next hr => cases h; exact ⟨b1, b2, rfl, hr.1, hr.2, rfl⟩
      · cases h
    · cases h
  · rintro ⟨b1, b2, rfl, h1, h2, rfl⟩
    exact if_pos ⟨h1, h2⟩

theorem formatA_error {mk : BitVec 13 → Instr} {low : BitVec 4} {body : List Byte} {e : DecodeError}
    (hl : body.length = 2) (h : formatA mk low body = .error e) : e = .reservedBits := by
  unfold formatA at h
  split at h
  · split at h
    · cases h
    · cases h; rfl
  · next hb =>
    match body, hl with
    | [b1, b2], _ => exact (hb b1 b2 rfl).elim

theorem formatN_ok {p : Config.Params} {low : BitVec 4} {body : List Byte} {i : Instr} :
    formatN p low body = .ok i ↔
      body.length = p.angleBytes ∧ low = 0 ∧ i = .cprNl (Bits.signed p.angleWidth (Bits.bytesNat body)) := by
  constructor
  · intro h
    unfold formatN at h
    split at h
    · next hl =>
      split at h
      · next hr => cases h; exact ⟨hl, hr, rfl⟩
      · cases h
    · cases h
  · rintro ⟨hl, h1, rfl⟩
    unfold formatN
    rw [if_pos hl, if_pos h1]

theorem formatN_error {p : Config.Params} {low : BitVec 4} {body : List Byte} {e : DecodeError}
    (hl : body.length = p.angleBytes)
    (h : formatN p low body = .error e) : e = .reservedBits := by
  unfold formatN at h
  rw [if_pos hl] at h
  split at h
  · cases h
  · cases h; rfl

theorem formatC_ok {p : Config.Params} {low : BitVec 4} {body : List Byte} {i : Instr} :
    formatC p low body = .ok i ↔
      ∃ b1 angles, body = b1 :: angles ∧ angles.length = 2 * p.angleBytes ∧ low = 0 ∧
        Bits.field b1 1 (7 - Config.nbitsW) = 0 ∧
        i = .cprEnc (Bits.field b1 0 1) (Bits.field b1 (8 - Config.nbitsW) Config.nbitsW)
          (Bits.signed p.angleWidth (Bits.bytesNat (angles.take p.angleBytes)))
          (Bits.signed p.angleWidth (Bits.bytesNat (angles.drop p.angleBytes))) := by
  constructor
  · intro h
    unfold formatC at h
    split at h
    · next b1 angles =>
      split at h
      · next hl =>
        split at h
        · next hr => cases h; exact ⟨b1, angles, rfl, hl, hr.1, hr.2, rfl⟩
        · cases h
      · cases h
    · cases h
  · rintro ⟨b1, angles, rfl, hl, h1, h2, rfl⟩
    unfold formatC
    dsimp only
    rw [if_pos hl, if_pos ⟨h1, h2⟩]

theorem formatC_error {p : Config.Params} {low : BitVec 4} {body : List Byte} {e : DecodeError}
    (hl : body.length = 1 + 2 * p.angleBytes)
    (h : formatC p low body = .error e) : e = .reservedBits := by
  unfold formatC at h
  split at h
  · rw [if_pos (by rw [List.length_cons] at hl; omega)] at h
    split at h
    · cases h
    · cases h; rfl
  · rw [List.length_nil] at hl; omega

/-- A packet that decodes has the length its byte 0 announces (30_encoding.md R82). -/
theorem decodePacket_length {p : Config.Params} {bytes : List Byte} {i : Instr} (h : decodePacket p bytes = .ok i) :
    bytes ≠ [] ∧ bytes.length = packetLength p (bytes.headD 0) := by
  cases bytes with
  | nil => cases h
  | cons b body =>
    refine ⟨by simp, ?_⟩
    show body.length + 1 = packetLength p b
    simp only [decodePacket] at h
    unfold packetLength
    split at h
    · rw [(formatB_ok.mp h).1, Nat.add_comm]
    · rw [(formatB_ok.mp h).1, Nat.add_comm]
    · obtain ⟨_, _, rfl, _⟩ := formatA_ok.mp h; rfl
    · obtain ⟨_, _, rfl, _⟩ := formatA_ok.mp h; rfl
    · obtain ⟨_, _, rfl, _⟩ := formatA_ok.mp h; rfl
    · obtain ⟨_, _, rfl, _⟩ := formatA_ok.mp h; rfl
    · rw [(formatN_ok.mp h).1, Nat.add_comm]
    · obtain ⟨_, _, rfl, hl, _⟩ := formatC_ok.mp h; rw [List.length_cons, hl]; omega
    · rw [(formatB_ok.mp h).1, Nat.add_comm]
    · rw [(formatP_ok.mp h).1]; omega
    · cases h

/-- A packet of the length its byte 0 announces is refused only for its opcode or for a reserved bit. -/
theorem decodePacket_error {p : Config.Params} {bytes : List Byte} {e : DecodeError} (hne : bytes ≠ [])
    (hl : bytes.length = packetLength p (bytes.headD 0)) (h : decodePacket p bytes = .error e) :
    e = .badOpcode ∨ e = .reservedBits := by
  cases bytes with
  | nil => exact absurd rfl hne
  | cons b body =>
    replace hl : body.length + 1 = packetLength p b := hl
    simp only [decodePacket] at h
    unfold packetLength at hl
    split at h <;> simp_all only
    · exact absurd (by omega) (formatB_error.mp h).1
    · exact absurd (by omega) (formatB_error.mp h).1
    · exact .inr (formatA_error (by omega) h)
    · exact .inr (formatA_error (by omega) h)
    · exact .inr (formatA_error (by omega) h)
    · exact .inr (formatA_error (by omega) h)
    · exact .inr (formatN_error (by omega) h)
    · exact .inr (formatC_error (by omega) h)
    · exact absurd (by omega) (formatB_error.mp h).1
    · exact absurd (by omega) (formatP_error.mp h).1
    · cases h; exact .inl rfl

end Sys2Proof
end

