-- ==== Sys2Proof/Laws/Layout.lean ====
section
/-! SUPPORT. What legal parameters give (30_encoding.md R104): the widths are whole bytes, every field lies in its frame, and
where a format's fields fill their room in order, the places are those of the default. -/

namespace Sys2Proof

/-- The widths of legal parameters (92_eei_decisions.md, Open parameters). -/
theorem legal_widths {p : Config.Params} (h : p.legal = true) :
    0 < p.tsWidth ∧ 8 * p.tsBytes = p.tsWidth ∧ 8 * p.angleBytes = p.angleWidth ∧ p.angleFrac + 10 ≤ p.angleWidth := by
  simp only [Config.Params.legal, Bool.and_eq_true, decide_eq_true_eq, beq_iff_eq] at h
  unfold Config.Params.tsBytes Config.Params.angleBytes
  omega

/-- The layout of legal parameters. -/
theorem legal_layout {p : Config.Params} (h : p.legal = true) : p.layout.consistent = true := by
  simp only [Config.Params.legal, Bool.and_eq_true] at h
  exact h.2

/-- Fields in order lie inside their room. -/
theorem spansOrdered_inside {lo hi : Nat} {l : List (Nat × Nat)} (h : spansOrdered lo hi l = true) :
    lo ≤ hi ∧ ∀ e ∈ l, lo ≤ e.1 ∧ e.1 + e.2 ≤ hi := by
  induction l generalizing lo with
  | nil => exact ⟨of_decide_eq_true h, fun e he => nomatch he⟩
  | cons e l ih =>
    obtain ⟨p, w⟩ := e
    rw [spansOrdered, Bool.and_eq_true, decide_eq_true_eq] at h
    obtain ⟨h1, h2⟩ := ih h.2
    refine ⟨by omega, fun x hx => ?_⟩
    rcases List.mem_cons.mp hx with rfl | hx
    · exact ⟨h.1, h1⟩
    · obtain ⟨h3, h4⟩ := h2 x hx
      exact ⟨by omega, h4⟩

/-- Fields that fill their room lie inside it. -/
theorem spansFill_inside {lo hi : Nat} {l : List (Nat × Nat)} (h : spansFill lo hi l = true) :
    ∀ e ∈ l, lo ≤ e.1 ∧ e.1 + e.2 ≤ hi := by
  intro e he
  have := List.all_eq_true.mp (Bool.and_eq_true_iff.mp h).1 e he
  simpa using this

/-- What a consistent layout has for each format. -/
theorem Config.Layout.consistent_cases {l : Config.Layout} (h : l.consistent = true) :
    l.df0.consistent = true ∧ l.surveillance.consistent = true ∧ l.df11.consistent = true ∧ l.df16.consistent = true ∧
      l.advisory.consistent = true ∧ l.df17.consistent = true ∧ l.df19.consistent = true ∧ l.commB.consistent = true ∧
      l.commD.consistent = true ∧ l.callsign.first = 40 ∧ l.position.consistent (l.df17.tc.first + 5) = true ∧
      l.velocity.consistent (l.df17.tc.first + 5) = true ∧ l.opaqueMe.first = 32 := by
  simpa only [Config.Layout.consistent, Bool.and_eq_true, beq_iff_eq, and_assoc] using h

/-- DF 0: every field lies in the first four bytes (30_encoding.md R89). -/
theorem Config.LayoutDf0.consistent_inside {l : Config.LayoutDf0} (h : l.consistent = true) :
    l.vs.first + 1 ≤ 32 ∧ l.cc.first + 1 ≤ 32 ∧ l.x0.first + 6 ≤ 32 ∧ l.ri.first + 4 ≤ 32 ∧ l.x1.first + 2 ≤ 32 ∧
      l.ac.first + 13 ≤ 32 := by
  simp only [Config.LayoutDf0.consistent, Bool.and_eq_true] at h
  have hf := spansFill_inside h.1.1
  simp only [Config.Span.pair, List.mem_cons, List.not_mem_nil, or_false, forall_eq_or_imp, forall_eq] at hf
  omega

/-- DF 16: every field lies before the trailing field (30_encoding.md R92). -/
theorem Config.LayoutDf16.consistent_inside {l : Config.LayoutDf16} (h : l.consistent = true) :
    l.vs.first + 1 ≤ 88 ∧ l.x0.first + 7 ≤ 88 ∧ l.ri.first + 4 ≤ 88 ∧ l.x1.first + 2 ≤ 88 ∧ l.ac.first + 13 ≤ 88 ∧
      l.mv.first = 32 := by
  simp only [Config.LayoutDf16.consistent, Bool.and_eq_true, beq_iff_eq] at h
  have hf := spansFill_inside h.1.1.1
  simp only [Config.Span.pair, List.mem_cons, List.not_mem_nil, or_false, forall_eq_or_imp, forall_eq] at hf
  omega

/-- An airborne velocity: every field lies before the trailing field (30_encoding.md R101). -/
theorem Config.LayoutVelocity.consistent_inside {lo : Nat} {l : Config.LayoutVelocity} (h : l.consistent lo = true) :
    l.st.first + 3 ≤ 88 ∧ l.ic.first + 1 ≤ 88 ∧ l.ifr.first + 1 ≤ 88 ∧ l.nac.first + 3 ≤ 88 ∧ l.weSign.first + 1 ≤ 88 ∧
      l.we.first + 10 ≤ 88 ∧ l.nsSign.first + 1 ≤ 88 ∧ l.ns.first + 10 ≤ 88 ∧ l.vrSrc.first + 1 ≤ 88 ∧
      l.vrSign.first + 1 ≤ 88 ∧ l.vr.first + 9 ≤ 88 ∧ l.difSign.first + 1 ≤ 88 ∧ l.dif.first + 7 ≤ 88 := by
  have hf := (spansOrdered_inside h).2
  simp only [Config.Span.pair, List.mem_cons, List.not_mem_nil, or_false, forall_eq_or_imp, forall_eq] at hf
  omega

/-! ### The formats whose fields fill their room in order -/

/-- DF 4, 5, 20 and 21 (30_encoding.md R90). -/
theorem Config.LayoutSurveillance.consistent_places {l : Config.LayoutSurveillance} (h : l.consistent = true) :
    l.fs.first = 5 ∧ l.dr.first = 8 ∧ l.um.first = 13 ∧ l.code.first = 19 := by
  simp only [Config.LayoutSurveillance.consistent, Config.Span.pair, spansTile, spansOrdered,
    Bool.and_eq_true, decide_eq_true_eq] at h
  omega

/-- DF 11 (30_encoding.md R91). -/
theorem Config.LayoutDf11.consistent_places {l : Config.LayoutDf11} (h : l.consistent = true) :
    l.ca.first = 5 ∧ l.aa.first = 8 := by
  simp only [Config.LayoutDf11.consistent, Config.Span.pair, spansTile, spansOrdered,
    Bool.and_eq_true, decide_eq_true_eq, beq_iff_eq] at h
  omega

/-- The resolution advisory (30_encoding.md R93). -/
theorem Config.LayoutAdvisory.consistent_places {l : Config.LayoutAdvisory} (h : l.consistent = true) :
    l.head.first = 32 ∧ l.ara.first = 40 ∧ l.rac.first = 54 ∧ l.rat.first = 58 ∧ l.mti.first = 59 ∧ l.tti.first = 60 ∧
      l.tid.first = 62 ∧ l.tida.first = 62 ∧ l.tidr.first = 75 ∧ l.tidb.first = 82 := by
  simp only [Config.LayoutAdvisory.consistent, Config.Span.pair, spansTile, spansOrdered,
    Bool.and_eq_true, decide_eq_true_eq, beq_iff_eq] at h
  omega

/-- DF 19 (30_encoding.md R96). -/
theorem Config.LayoutDf19.consistent_places {l : Config.LayoutDf19} (h : l.consistent = true) :
    l.af.first = 5 ∧ l.aa.first = 8 ∧ l.me.first = 32 ∧ l.pi.first = 88 := by
  simp only [Config.LayoutDf19.consistent, Config.Span.pair, spansTile, spansOrdered,
    Bool.and_eq_true, decide_eq_true_eq, beq_iff_eq] at h
  omega

/-- The message field of DF 20 and 21 (30_encoding.md R97). -/
theorem Config.LayoutCommB.consistent_places {l : Config.LayoutCommB} (h : l.consistent = true) :
    l.mb.first = 32 ∧ l.bds.first = 32 := by
  simp only [Config.LayoutCommB.consistent, Bool.and_eq_true, beq_iff_eq] at h
  omega

/-- DF 24 to 31 (30_encoding.md R98). -/
theorem Config.LayoutCommD.consistent_places {l : Config.LayoutCommD} (h : l.consistent = true) :
    l.x0.first = 2 ∧ l.ke.first = 3 ∧ l.nd.first = 4 ∧ l.md.first = 8 := by
  simp only [Config.LayoutCommD.consistent, Config.Span.pair, spansTile, spansOrdered,
    Bool.and_eq_true, decide_eq_true_eq, beq_iff_eq] at h
  omega

/-- DF 17 and the airborne position after its type code (30_encoding.md R94, R100). -/
theorem Config.Layout.consistent_position {l : Config.Layout} (h : l.consistent = true) :
    l.df17.aa.first = 8 ∧ l.df17.tc.first = 32 ∧ l.position.ss.first = 37 ∧ l.position.nicsb.first = 39 ∧
      l.position.alt.first = 40 ∧ l.position.t.first = 52 ∧ l.position.cprOdd.first = 53 ∧ l.position.latCpr.first = 54 ∧
      l.position.lonCpr.first = 71 := by
  obtain ⟨-, -, -, -, -, h17, -, -, -, -, hp, -, -⟩ := Config.Layout.consistent_cases h
  simp only [Config.LayoutDf17.consistent, Config.LayoutPosition.consistent, Config.Span.pair, spansTile, spansOrdered,
    Bool.and_eq_true, decide_eq_true_eq, beq_iff_eq] at h17 hp
  omega

end Sys2Proof
end

