-- ==== Sys2Proof/Laws/Parser.lean ====
section
/-! SUPPORT. The parser: routing is running the row the decoder reads, and the three answers of `PARSE`. -/

namespace Sys2Proof.Machine

/-- The sub-dispatch on `tc` runs the row that the squitter decoder reads (45_ext_squitter.md R251). -/
theorem routeSquitter_eq (f : Long) (s : State) : routeSquitter f s = exec (squitterInstr s.params f) s := by
  unfold routeSquitter squitterInstr
  have hlt := (longTc s.params f).isLt
  generalize (longTc s.params f).toNat = n at hlt
  interval_cases n <;> rfl

/-- The dispatch on `df` runs the row that the frame decoder reads (44_parser.md R205). -/
theorem routeFrame_eq {fr : Frame} {i : Instr} (h : fr.instr = some i) (s : State) : routeFrame fr s = exec i s := by
  cases fr with
  | short f =>
    simp only [Frame.instr, shortInstr] at h
    simp only [routeFrame, routeShort]
    have hlt := (shortDf f).isLt
    generalize (shortDf f).toNat = n at hlt h
    interval_cases n <;> simp at h <;> subst h <;> rfl
  | long f =>
    simp only [Frame.instr, longInstr] at h
    simp only [routeFrame, routeLong]
    have hlt := (longDf f).isLt
    generalize (longDf f).toNat = n at hlt h
    interval_cases n <;> simp at h <;> subst h <;> rfl

/-- The thirty-two values of a five-bit field. -/
theorem five_bits (d : BitVec 5) : ∃ n, n < 32 ∧ d = BitVec.ofNat 5 n := ⟨d.toNat, d.isLt, by simp⟩

/-- A frame selects a row exactly when its length is the one its `df` implies (44_parser.md R203). -/
theorem lengthOk_iff (fr : Frame) : fr.lengthOk = true ↔ ∃ i, fr.instr = some i := by
  rw [← Option.isSome_iff_exists]
  cases fr with
  | short f =>
    simp only [Frame.lengthOk, Frame.instr, shortInstr, Frame.df]
    obtain ⟨n, hn, hd⟩ := five_bits (shortDf f)
    rw [hd]
    clear hd
    interval_cases n <;> simp <;> rfl
  | long f =>
    simp only [Frame.lengthOk, Frame.instr, longInstr, Frame.df]
    obtain ⟨n, hn, hd⟩ := five_bits (longDf f)
    rw [hd]
    clear hd
    interval_cases n <;> simp <;> rfl

/-- The row of a frame runs in the FSM state of its `df` (44_parser.md R205). -/
theorem instrFsm_frame {fr : Frame} {i : Instr} (h : fr.instr = some i) : instrFsm i = .df fr.df := by
  cases fr with
  | short f =>
    simp only [Frame.instr, shortInstr] at h
    rw [show (Frame.short f).df = shortDf f from rfl]
    obtain ⟨n, hn, hd⟩ := five_bits (shortDf f)
    rw [hd] at h ⊢
    clear hd
    interval_cases n <;> simp at h <;> subst h <;> rfl
  | long f =>
    simp only [Frame.instr, longInstr] at h
    rw [show (Frame.long f).df = longDf f from rfl]
    obtain ⟨n, hn, hd⟩ := five_bits (longDf f)
    rw [hd] at h ⊢
    clear hd
    interval_cases n <;> simp at h <;> subst h <;> rfl

/-- The row of an extended squitter runs in the FSM state of its `tc` (45_ext_squitter.md R251). -/
theorem instrFsm_squitter (p : Config.Params) (f : Long) :
    instrFsm (squitterInstr p f) = esFsm (esClass (longTc p f)) := by
  unfold squitterInstr
  obtain ⟨n, hn, hd⟩ := five_bits (longTc p f)
  rw [hd]
  clear hd
  interval_cases n <;> rfl

/-! ### Frames of bytes -/

theorem ofBytes_short {bytes : List Byte} (h : bytes.length = 7) :
    Frame.ofBytes bytes = some (.short (Bits.bytesBits 56 bytes)) := by simp [Frame.ofBytes, h]

theorem ofBytes_long {bytes : List Byte} (h : bytes.length = 14) :
    Frame.ofBytes bytes = some (.long (Bits.bytesBits 112 bytes)) := by simp [Frame.ofBytes, h]

theorem ofBytes_none {bytes : List Byte} (h7 : bytes.length ≠ 7) (h14 : bytes.length ≠ 14) :
    Frame.ofBytes bytes = none := by simp [Frame.ofBytes, h7, h14]

theorem ofBytes_length {bytes : List Byte} {fr : Frame} (h : Frame.ofBytes bytes = some fr) :
    bytes.length = 7 ∨ bytes.length = 14 := by
  by_contra hc
  rw [not_or] at hc
  rw [ofBytes_none hc.1 hc.2] at h
  cases h

/-- What the frame decoder reads. -/
theorem decodeFrame_ok {bytes : List Byte} {i : Instr} :
    decodeFrame bytes = .ok i ↔ ∃ fr, Frame.ofBytes bytes = some fr ∧ fr.instr = some i := by
  unfold decodeFrame
  cases h : Frame.ofBytes bytes with
  | none => simp
  | some fr => cases h2 : fr.instr <;> simp [h2]

/-! ### The command -/

/-- `PARSE` of a length that is no frame's is refused (44_parser.md R201). -/
theorem execParse_badLength {bytes : List Byte} (h15 : bytes.length ≤ 15) (h7 : bytes.length ≠ 7)
    (h14 : bytes.length ≠ 14) (ts : Nat) (s : State) :
    execParse ts bytes s = .next (raise .badLength (acceptP ts bytes s)) := by
  have hlen : (bufBytes (acceptP ts bytes s)).length = bytes.length := by
    rw [bufBytes, memRange_length]
    exact latchBuf_len_toNat h15 s
  have hfr : latchedFrame { acceptP ts bytes s with result := Result.empty, fsm := .check } = none :=
    ofBytes_none (bytes := bufBytes (acceptP ts bytes s)) (by omega) (by omega)
  simp only [execParse, parseLatched, hfr]
  rfl

/-- `PARSE` of a frame whose length is not the one its `df` implies is refused (44_parser.md R203). -/
theorem execParse_mismatch {bytes : List Byte} {fr : Frame} (hfr : Frame.ofBytes bytes = some fr)
    (hok : fr.lengthOk = false) (ts : Nat) (s : State) :
    execParse ts bytes s = .next (raise .lengthMismatch (acceptP ts bytes s)) := by
  have hb : bufBytes (acceptP ts bytes s) = bytes :=
    latchBuf_bufBytes (by have := ofBytes_length hfr; omega) s
  have hfr' : latchedFrame { acceptP ts bytes s with result := Result.empty, fsm := .check } = some fr :=
    show Frame.ofBytes (bufBytes (acceptP ts bytes s)) = some fr by rw [hb, hfr]
  simp only [execParse, parseLatched, hfr', hok]
  rfl

/-- `PARSE` of any other frame is its row's instruction, run on the state in which the row is entered (44_parser.md
R200). -/
theorem execParse_row {bytes : List Byte} {fr : Frame} {i : Instr} (hfr : Frame.ofBytes bytes = some fr)
    (hi : fr.instr = some i) (ts : Nat) (s : State) :
    execParse ts bytes s = exec i (enterFrame fr (acceptP ts bytes s)) := by
  have hb : bufBytes (acceptP ts bytes s) = bytes :=
    latchBuf_bufBytes (by have := ofBytes_length hfr; omega) s
  have hfr' : latchedFrame { acceptP ts bytes s with result := Result.empty, fsm := .check } = some fr :=
    show Frame.ofBytes (bufBytes (acceptP ts bytes s)) = some fr by rw [hb, hfr]
  have hok : fr.lengthOk = true := (lengthOk_iff fr).mpr ⟨i, hi⟩
  simp only [execParse, parseLatched, hfr', hok, if_true]
  rw [routeFrame_eq hi]
  rfl

/-- Row `DF17` is the row of its type code, run on the state in which that row is entered (44_parser.md R214). -/
theorem execDf17_eq (f : Long) (s : State) : execDf17 f s = exec (squitterInstr s.params f) (enterSquitter f s) :=
  routeSquitter_eq f _

end Sys2Proof.Machine
end

