-- ==== Sys2Proof/Laws/PerInstr.lean ====
section
/-! SUPPORT. Statements for all instructions, one lemma per constructor. `EncodeLength`: a well-formed instruction's words
have the length its first byte announces (30_encoding.md R82) or, for a row, a frame's length (R112). -/

namespace Sys2Proof

/-- The opcode nibble of an encoded byte 0 (30_encoding.md R82). -/
theorem packetOp_opByte (op low : Nat) : packetOp (opByte op low) = BitVec.ofNat 4 op := by
  refine BitVec.eq_of_getMsbD_eq fun k hk => ?_
  rw [packetOp, Bits.field_getMsbD _ _ _ _ (by omega) hk, opByte, BitVec.getMsbD_append]
  simp [hk]

/-- The low nibble of an encoded byte 0 (30_encoding.md R82). -/
theorem packetLow_opByte (op low : Nat) : packetLow (opByte op low) = BitVec.ofNat 4 low := by
  refine BitVec.eq_of_getMsbD_eq fun k hk => ?_
  rw [packetLow, Bits.field_getMsbD _ _ _ _ (by omega) hk, opByte, BitVec.getMsbD_append]
  simp

/-- The length byte 0 announces, by its nibbles (30_encoding.md R82). -/
theorem packetLength_opByte (p : Config.Params) {op : Nat} (hop : op < 16) {n : Nat} (hn : n ≤ 15) :
    packetLength p (opByte op n) =
      if op = 1 ∨ op = 2 ∨ op = 9 then 1 + n else if op = 10 then 1 + p.tsBytes + n
      else if 3 ≤ op ∧ op ≤ 6 then 3 else if op = 7 then 1 + p.angleBytes
      else if op = 8 then 2 + 2 * p.angleBytes else 1 := by
  unfold packetLength
  rw [packetOp_opByte, packetLow_opByte, BitVec.toNat_ofNat, BitVec.toNat_ofNat, Nat.mod_eq_of_lt (a := n) (by omega)]
  interval_cases op <;> simp

theorem frameBytes_length (fr : Frame) : fr.bytes.length = 7 ∨ fr.bytes.length = 14 := by
  cases fr with
  | short f => exact .inl (Bits.natBytes_length 7 _)
  | long f => exact .inr (Bits.natBytes_length 14 _)

namespace Laws.EncodeLength

/-- The length of a well-formed instruction's words. -/
def Statement (i : Instr) : Prop :=
  ∀ p : Config.Params, i.wf p = true →
    match i.port with
    | .packet => (encode p i).length = packetLength p ((encode p i).headD 0)
    | .frame => (encode p i).length = 7 ∨ (encode p i).length = 14
    | .squitter => (encode p i).length = 14

/-- A command of format B. -/
theorem formatB (p : Config.Params) {op : Nat} (hop : op = 1 ∨ op = 2 ∨ op = 9) {bytes : List Byte}
    (h : bufferWf bytes = true) :
    (encodeB op bytes).length = packetLength p ((encodeB op bytes).headD 0) := by
  have h15 : bytes.length ≤ 15 := of_decide_eq_true h
  show bytes.length + 1 = packetLength p (opByte op bytes.length)
  rw [packetLength_opByte p (by omega) h15, if_pos hop, Nat.add_comm]

/-- A command of format A. -/
theorem formatA (p : Config.Params) {op : Nat} (hop : 3 ≤ op ∧ op ≤ 6) (ac : BitVec 13) :
    (encodeA op ac).length = packetLength p ((encodeA op ac).headD 0) := by
  show 3 = packetLength p (opByte op 0)
  rw [packetLength_opByte p (by omega) (by omega), if_neg (by omega), if_neg (by omega), if_pos hop]

theorem crc (bytes : List Byte) : Statement (.crc bytes) := fun p h => formatB p (op := 1) (by omega) h

theorem crcEnc (bytes : List Byte) : Statement (.crcEnc bytes) := fun p h => formatB p (op := 2) (by omega) h

theorem altIsm (ac : BitVec 13) : Statement (.altIsm ac) := fun p _ => formatA p (op := 3) (by omega) ac

theorem altIsq (ac : BitVec 13) : Statement (.altIsq ac) := fun p _ => formatA p (op := 4) (by omega) ac

theorem altFt (ac : BitVec 13) : Statement (.altFt ac) := fun p _ => formatA p (op := 5) (by omega) ac

theorem altM (ac : BitVec 13) : Statement (.altM ac) := fun p _ => formatA p (op := 6) (by omega) ac

theorem cprNl (lat : Int) : Statement (.cprNl lat) := fun p _ => by
  show (Bits.natBytes p.angleBytes (Bits.unsigned p.angleWidth lat)).length + 1 = packetLength p (opByte 7 0)
  rw [packetLength_opByte p (by omega) (by omega), Bits.natBytes_length]
  exact Nat.add_comm _ _

theorem cprEnc (odd : BitVec 1) (nbits : BitVec Config.nbitsW) (lat lon : Int) :
    Statement (.cprEnc odd nbits lat lon) := fun p _ => by
  show (Bits.natBytes p.angleBytes (Bits.unsigned p.angleWidth lat) ++
      Bits.natBytes p.angleBytes (Bits.unsigned p.angleWidth lon)).length + 1 + 1 = packetLength p (opByte 8 0)
  rw [packetLength_opByte p (by omega) (by omega), List.length_append, Bits.natBytes_length, Bits.natBytes_length]
  show p.angleBytes + p.angleBytes + 1 + 1 = 2 + 2 * p.angleBytes
  omega

theorem csDec (bytes : List Byte) : Statement (.csDec bytes) := fun p h => formatB p (op := 9) (by omega) h

theorem parse (ts : Nat) (bytes : List Byte) : Statement (.parse ts bytes) := fun p h => by
  have h15 : bytes.length ≤ 15 := of_decide_eq_true (Bool.and_eq_true_iff.mp h).2
  show (Bits.natBytes p.tsBytes ts ++ bytes).length + 1 = packetLength p (opByte 10 bytes.length)
  rw [packetLength_opByte p (by omega) h15, List.length_append, Bits.natBytes_length]
  show p.tsBytes + bytes.length + 1 =
    if 10 = 1 ∨ 10 = 2 ∨ 10 = 9 then 1 + bytes.length else 1 + p.tsBytes + bytes.length
  rw [if_neg (by omega)]
  omega

theorem df0 (f : Short) : Statement (.df0 f) := fun _ _ => .inl (Bits.natBytes_length 7 f.toNat)

theorem df1 (f : Frame) : Statement (.df1 f) := fun _ _ => frameBytes_length f

theorem df2 (f : Frame) : Statement (.df2 f) := fun _ _ => frameBytes_length f

theorem df3 (f : Frame) : Statement (.df3 f) := fun _ _ => frameBytes_length f

theorem df4 (f : Short) : Statement (.df4 f) := fun _ _ => .inl (Bits.natBytes_length 7 f.toNat)

theorem df5 (f : Short) : Statement (.df5 f) := fun _ _ => .inl (Bits.natBytes_length 7 f.toNat)

theorem df6 (f : Frame) : Statement (.df6 f) := fun _ _ => frameBytes_length f

theorem df7 (f : Frame) : Statement (.df7 f) := fun _ _ => frameBytes_length f

theorem df8 (f : Frame) : Statement (.df8 f) := fun _ _ => frameBytes_length f

theorem df9 (f : Frame) : Statement (.df9 f) := fun _ _ => frameBytes_length f

theorem df10 (f : Frame) : Statement (.df10 f) := fun _ _ => frameBytes_length f

theorem df11 (f : Short) : Statement (.df11 f) := fun _ _ => .inl (Bits.natBytes_length 7 f.toNat)

theorem df12 (f : Frame) : Statement (.df12 f) := fun _ _ => frameBytes_length f

theorem df13 (f : Frame) : Statement (.df13 f) := fun _ _ => frameBytes_length f

theorem df14 (f : Frame) : Statement (.df14 f) := fun _ _ => frameBytes_length f

theorem df15 (f : Frame) : Statement (.df15 f) := fun _ _ => frameBytes_length f

theorem df16 (f : Long) : Statement (.df16 f) := fun _ _ => .inr (Bits.natBytes_length 14 f.toNat)

theorem df17 (f : Long) : Statement (.df17 f) := fun _ _ => .inr (Bits.natBytes_length 14 f.toNat)

theorem df18 (f : Long) : Statement (.df18 f) := fun _ _ => .inr (Bits.natBytes_length 14 f.toNat)

theorem df19 (f : Long) : Statement (.df19 f) := fun _ _ => .inr (Bits.natBytes_length 14 f.toNat)

theorem df20 (f : Long) : Statement (.df20 f) := fun _ _ => .inr (Bits.natBytes_length 14 f.toNat)

theorem df21 (f : Long) : Statement (.df21 f) := fun _ _ => .inr (Bits.natBytes_length 14 f.toNat)

theorem df22 (f : Long) : Statement (.df22 f) := fun _ _ => .inr (Bits.natBytes_length 14 f.toNat)

theorem df23 (f : Frame) : Statement (.df23 f) := fun _ _ => frameBytes_length f

theorem df24 (f : Long) : Statement (.df24 f) := fun _ _ => .inr (Bits.natBytes_length 14 f.toNat)

theorem df25 (f : Long) : Statement (.df25 f) := fun _ _ => .inr (Bits.natBytes_length 14 f.toNat)

theorem df26 (f : Long) : Statement (.df26 f) := fun _ _ => .inr (Bits.natBytes_length 14 f.toNat)

theorem df27 (f : Long) : Statement (.df27 f) := fun _ _ => .inr (Bits.natBytes_length 14 f.toNat)

theorem df28 (f : Long) : Statement (.df28 f) := fun _ _ => .inr (Bits.natBytes_length 14 f.toNat)

theorem df29 (f : Long) : Statement (.df29 f) := fun _ _ => .inr (Bits.natBytes_length 14 f.toNat)

theorem df30 (f : Long) : Statement (.df30 f) := fun _ _ => .inr (Bits.natBytes_length 14 f.toNat)

theorem df31 (f : Long) : Statement (.df31 f) := fun _ _ => .inr (Bits.natBytes_length 14 f.toNat)

theorem esTc0 (f : Long) : Statement (.esTc0 f) := fun _ _ => Bits.natBytes_length 14 f.toNat

theorem esTc1 (f : Long) : Statement (.esTc1 f) := fun _ _ => Bits.natBytes_length 14 f.toNat

theorem esTc2 (f : Long) : Statement (.esTc2 f) := fun _ _ => Bits.natBytes_length 14 f.toNat

theorem esTc3 (f : Long) : Statement (.esTc3 f) := fun _ _ => Bits.natBytes_length 14 f.toNat

theorem esTc4 (f : Long) : Statement (.esTc4 f) := fun _ _ => Bits.natBytes_length 14 f.toNat

theorem esTc5 (f : Long) : Statement (.esTc5 f) := fun _ _ => Bits.natBytes_length 14 f.toNat

theorem esTc6 (f : Long) : Statement (.esTc6 f) := fun _ _ => Bits.natBytes_length 14 f.toNat

theorem esTc7 (f : Long) : Statement (.esTc7 f) := fun _ _ => Bits.natBytes_length 14 f.toNat

theorem esTc8 (f : Long) : Statement (.esTc8 f) := fun _ _ => Bits.natBytes_length 14 f.toNat

theorem esTc9 (f : Long) : Statement (.esTc9 f) := fun _ _ => Bits.natBytes_length 14 f.toNat

theorem esTc10 (f : Long) : Statement (.esTc10 f) := fun _ _ => Bits.natBytes_length 14 f.toNat

theorem esTc11 (f : Long) : Statement (.esTc11 f) := fun _ _ => Bits.natBytes_length 14 f.toNat

theorem esTc12 (f : Long) : Statement (.esTc12 f) := fun _ _ => Bits.natBytes_length 14 f.toNat

theorem esTc13 (f : Long) : Statement (.esTc13 f) := fun _ _ => Bits.natBytes_length 14 f.toNat

theorem esTc14 (f : Long) : Statement (.esTc14 f) := fun _ _ => Bits.natBytes_length 14 f.toNat

theorem esTc15 (f : Long) : Statement (.esTc15 f) := fun _ _ => Bits.natBytes_length 14 f.toNat

theorem esTc16 (f : Long) : Statement (.esTc16 f) := fun _ _ => Bits.natBytes_length 14 f.toNat

theorem esTc17 (f : Long) : Statement (.esTc17 f) := fun _ _ => Bits.natBytes_length 14 f.toNat

theorem esTc18 (f : Long) : Statement (.esTc18 f) := fun _ _ => Bits.natBytes_length 14 f.toNat

theorem esTc19 (f : Long) : Statement (.esTc19 f) := fun _ _ => Bits.natBytes_length 14 f.toNat

theorem esTc20 (f : Long) : Statement (.esTc20 f) := fun _ _ => Bits.natBytes_length 14 f.toNat

theorem esTc21 (f : Long) : Statement (.esTc21 f) := fun _ _ => Bits.natBytes_length 14 f.toNat

theorem esTc22 (f : Long) : Statement (.esTc22 f) := fun _ _ => Bits.natBytes_length 14 f.toNat

theorem esTc23 (f : Long) : Statement (.esTc23 f) := fun _ _ => Bits.natBytes_length 14 f.toNat

theorem esTc24 (f : Long) : Statement (.esTc24 f) := fun _ _ => Bits.natBytes_length 14 f.toNat

theorem esTc25 (f : Long) : Statement (.esTc25 f) := fun _ _ => Bits.natBytes_length 14 f.toNat

theorem esTc26 (f : Long) : Statement (.esTc26 f) := fun _ _ => Bits.natBytes_length 14 f.toNat

theorem esTc27 (f : Long) : Statement (.esTc27 f) := fun _ _ => Bits.natBytes_length 14 f.toNat

theorem esTc28 (f : Long) : Statement (.esTc28 f) := fun _ _ => Bits.natBytes_length 14 f.toNat

theorem esTc29 (f : Long) : Statement (.esTc29 f) := fun _ _ => Bits.natBytes_length 14 f.toNat

theorem esTc30 (f : Long) : Statement (.esTc30 f) := fun _ _ => Bits.natBytes_length 14 f.toNat

theorem esTc31 (f : Long) : Statement (.esTc31 f) := fun _ _ => Bits.natBytes_length 14 f.toNat

end Laws.EncodeLength

end Sys2Proof
end

