-- ==== Sys2Proof/Laws/Step.lean ====
section
/-! SUPPORT. Fetching and stepping: what the fetch answers, what a packet runs, and once everything a step can do. -/

namespace Sys2Proof.Machine

@[simp] theorem hostBytes_nil : hostBytes [] = [] := rfl
@[simp] theorem hostBytes_cons (b : Byte) (bs : List Byte) : hostBytes (b :: bs) = .byte b :: hostBytes bs := rfl

/-- The bytes of a whole packet come back. -/
theorem takePacket_whole (bytes : List Byte) (later : List HostEvent) :
    takePacket bytes.length (hostBytes bytes ++ later) = .packet bytes later := by
  induction bytes with
  | nil => rfl
  | cons b bs ih => simp [takePacket, ih]

/-- Fewer bytes than asked for: the fetch waits. -/
theorem takePacket_short {bytes : List Byte} {n : Nat} (h : bytes.length < n) :
    takePacket n (hostBytes bytes) = .waiting := by
  induction bytes generalizing n with
  | nil => cases n <;> simp [takePacket] at *
  | cons b bs ih =>
    cases n with
    | zero => simp at h
    | succ n => simp [takePacket, ih (by simpa using h)]

/-- A reset before the packet is whole: the fetch is abandoned. -/
theorem takePacket_aborted {bytes : List Byte} {n : Nat} (h : bytes.length < n) (later : List HostEvent) :
    takePacket n (hostBytes bytes ++ .reset :: later) = .aborted later := by
  induction bytes generalizing n with
  | nil => cases n <;> simp [takePacket] at *
  | cons b bs ih =>
    cases n with
    | zero => simp at h
    | succ n => simp [takePacket, ih (by simpa using h)]

/-- A taken packet has the length asked for and was the head of the input. -/
theorem takePacket_packet {n : Nat} {h later : List HostEvent} {bytes : List Byte}
    (hp : takePacket n h = .packet bytes later) : bytes.length = n ∧ h = hostBytes bytes ++ later := by
  induction n generalizing h bytes with
  | zero =>
    simp only [takePacket, Fetched.packet.injEq] at hp
    obtain ⟨rfl, rfl⟩ := hp
    exact ⟨rfl, rfl⟩
  | succ n ih =>
    match h, hp with
    | .byte b :: h, hp =>
      simp only [takePacket] at hp
      split at hp
      · next bs rest hr =>
        simp only [Fetched.packet.injEq] at hp
        obtain ⟨rfl, rfl⟩ := hp
        obtain ⟨hl, hh⟩ := ih hr
        exact ⟨by simp [hl], by simp [hh]⟩
      · simp at hp
      · simp at hp

/-- A whole packet at the head of the input is fetched. -/
theorem fetchPacket_whole {p : Config.Params} {bytes : List Byte} (hne : bytes ≠ []) (hl : bytes.length = packetLength p (bytes.headD 0))
    (later : List HostEvent) : fetchPacket p (hostBytes bytes ++ later) = .packet bytes later := by
  cases bytes with
  | nil => exact absurd rfl hne
  | cons b bs =>
    have := takePacket_whole (b :: bs) later
    rw [hl] at this
    exact this

/-- Without a whole packet the fetch waits. -/
theorem fetchPacket_short {p : Config.Params} {bytes : List Byte} (h : bytes = [] ∨ bytes.length < packetLength p (bytes.headD 0)) :
    fetchPacket p (hostBytes bytes) = .waiting := by
  cases bytes with
  | nil => rfl
  | cons b bs => exact takePacket_short (h.resolve_left (by simp))

/-- A reset before the packet is whole abandons it. -/
theorem fetchPacket_aborted {p : Config.Params} {bytes : List Byte} (h : bytes = [] ∨ bytes.length < packetLength p (bytes.headD 0))
    (later : List HostEvent) : fetchPacket p (hostBytes bytes ++ .reset :: later) = .aborted later := by
  cases bytes with
  | nil => rfl
  | cons b bs => exact takePacket_aborted (h.resolve_left (by simp)) later

/-- A fetched packet has the length its byte 0 announces (30_encoding.md R82). -/
theorem fetchPacket_packet {p : Config.Params} {h later : List HostEvent} {bytes : List Byte} (hp : fetchPacket p h = .packet bytes later) :
    bytes ≠ [] ∧ bytes.length = packetLength p (bytes.headD 0) ∧ h = hostBytes bytes ++ later := by
  match h, hp with
  | .byte b :: h, hp =>
    simp only [fetchPacket] at hp
    obtain ⟨hl, hh⟩ := takePacket_packet hp
    cases bytes with
    | nil =>
      have : 1 ≤ packetLength p b := by unfold packetLength; split <;> omega
      simp at hl
      omega
    | cons c bs =>
      simp only [hostBytes_cons, List.cons_append, List.cons.injEq, HostEvent.byte.injEq] at hh
      obtain ⟨rfl, hh⟩ := hh
      exact ⟨by simp, hl, by simp [hh]⟩

/-! ### Stepping -/

/-- A step from `IDLE` with a whole packet at the head of the input runs it. -/
theorem step_packet {s : State} {bytes : List Byte} {later : List HostEvent} (hs : s.fsm = .idle)
    (hh : s.host = hostBytes bytes ++ later) (hne : bytes ≠ []) (hl : bytes.length = packetLength s.params (bytes.headD 0)) :
    step s = runPacket bytes (setHost later s) := by
  simp [step, stepAny, hs, stepIdle, hh, fetchPacket_whole hne hl]

/-- What running a whole packet answers. -/
theorem runPacket_cases {bytes : List Byte} (hne : bytes ≠ []) (s : State)
    (hl : bytes.length = packetLength s.params (bytes.headD 0)) :
    (∃ i, decodePacket s.params bytes = .ok i ∧ runPacket bytes s = exec i s) ∨
    (decodePacket s.params bytes = .error .badOpcode ∧
      runPacket bytes s = .next (rejectPacket .badOpcode (bytes.headD 0) s)) ∨
    (decodePacket s.params bytes = .error .reservedBits ∧
      runPacket bytes s = .next (rejectPacket .badOperand (bytes.headD 0) s)) := by
  unfold runPacket
  cases h : decodePacket s.params bytes with
  | ok i => exact .inl ⟨i, rfl, rfl⟩
  | error e =>
    rcases decodePacket_error hne hl h with rfl | rfl
    · exact .inr (.inl ⟨rfl, rfl⟩)
    · exact .inr (.inr ⟨rfl, rfl⟩)

/-- Once everything a step can do: keep the state until a packet is whole, reset, refuse a packet, run a packet's
instruction, or run the instruction at which a `PARSE` in progress stands; in no other way does it answer a next
state. -/
theorem step_cases {s t : State} (h : step s = .next t) :
    (s.fsm = .idle ∧ fetchPacket s.params s.host = .waiting ∧ t = s) ∨
    (∃ later, t = resetBlock s.params later ∧ ((s.fsm = .idle ∧ fetchPacket s.params s.host = .aborted later) ∨
      (s.fsm ≠ .idle ∧ s.host = .reset :: later))) ∨
    (∃ bytes later e, s.fsm = .idle ∧ s.host = hostBytes bytes ++ later ∧ (e = .badOpcode ∨ e = .badOperand) ∧
      t = rejectPacket e (bytes.headD 0) (setHost later s)) ∨
    (∃ bytes later i, s.fsm = .idle ∧ s.host = hostBytes bytes ++ later ∧ decodePacket s.params bytes = .ok i ∧
      exec i (setHost later s) = .next t) ∨
    (∃ i, s.fsm ≠ .idle ∧ s.host.head? ≠ some .reset ∧ pendingInstr s = some i ∧ exec i s = .next t) := by
  by_cases hs : s.fsm = .idle
  · have hstep : step s = stepIdle s := by simp [step, stepAny, hs]
    rw [hstep] at h
    unfold stepIdle at h
    cases hf : fetchPacket s.params s.host with
    | waiting =>
      rw [hf] at h
      cases h
      exact .inl ⟨hs, rfl, rfl⟩
    | aborted later =>
      rw [hf] at h
      cases h
      exact .inr (.inl ⟨later, rfl, .inl ⟨hs, rfl⟩⟩)
    | packet bytes later =>
      obtain ⟨hne, hl, hh⟩ := fetchPacket_packet hf
      rw [hf] at h
      rcases runPacket_cases hne (setHost later s) hl with ⟨i, hd, hr⟩ | ⟨_, hr⟩ | ⟨_, hr⟩
      · exact .inr (.inr (.inr (.inl ⟨bytes, later, i, hs, hh, hd, hr ▸ h⟩)))
      · refine .inr (.inr (.inl ⟨bytes, later, _, hs, hh, .inl rfl, ?_⟩))
        simpa [hr] using h.symm
      · refine .inr (.inr (.inl ⟨bytes, later, _, hs, hh, .inr rfl, ?_⟩))
        simpa [hr] using h.symm
  · have hstep : step s = stepBusy s := by simp [step, stepAny, hs]
    rw [hstep] at h
    unfold stepBusy at h
    split at h
    · next later hh =>
      cases h
      exact .inr (.inl ⟨later, rfl, .inr ⟨hs, hh⟩⟩)
    · next hh =>
      split at h
      · next i hi =>
        refine .inr (.inr (.inr (.inr ⟨i, hs, fun hc => ?_, hi, h⟩)))
        cases hhost : s.host with
        | nil => simp [hhost] at hc
        | cons e es =>
          simp only [hhost, List.head?_cons, Option.some.injEq] at hc
          exact hh es (by rw [hhost, hc])
      · cases h

end Sys2Proof.Machine
end

