-- ==== Sys2Proof/Laws/Zones.lean ====
section
/-! SUPPORT. The thresholds of Machine/Zones.lean are the floors of 42_cpr.md R173, for every number of fraction bits: a gap
other than zero is bounded away from zero, so the rounds decide its sign. -/

namespace Sys2Proof.Machine

/-! ### Separation -/

/-- `4 cos(2πa/N) cos(2πb/N) - 4 cos(2πc/N)` is an algebraic integer of the `N`-th cyclotomic field whose conjugates are at
most 8, so it is 0 or at least `8^-N`: the product of the conjugates is an integer. -/
theorem cosines_separated_field {K : Type} [Field K] [Algebra ℚ K] {N : ℕ} [NeZero N] [IsCyclotomicExtension {N} ℚ K]
    (hN : 0 < N) (a b c : ℕ)
    (h : 2 * Real.cos (2 * Real.pi * a / N) * (2 * Real.cos (2 * Real.pi * b / N)) -
      2 * (2 * Real.cos (2 * Real.pi * c / N)) ≠ 0) :
    1 ≤ |2 * Real.cos (2 * Real.pi * a / N) * (2 * Real.cos (2 * Real.pi * b / N)) -
      2 * (2 * Real.cos (2 * Real.pi * c / N))| * 8 ^ N := by
  have : FiniteDimensional ℚ K := IsCyclotomicExtension.finiteDimensional {N} ℚ K
  have hz : IsPrimitiveRoot (IsCyclotomicExtension.zeta N ℚ K) N := IsCyclotomicExtension.zeta_spec N ℚ K
  set z : K := IsCyclotomicExtension.zeta N ℚ K with hzdef
  let β : K := (z ^ a + z⁻¹ ^ a) * (z ^ b + z⁻¹ ^ b) - 2 * (z ^ c + z⁻¹ ^ c)
  have hi : IsIntegral ℤ z := hz.isIntegral hN
  have hi' : IsIntegral ℤ z⁻¹ := (hz.inv).isIntegral hN
  have h2 : IsIntegral ℤ (2 : K) := by
    have := isIntegral_algebraMap (R := ℤ) (A := K) (x := 2)
    simpa using this
  have hβ : IsIntegral ℤ β :=
    (((hi.pow a).add (hi'.pow a)).mul ((hi.pow b).add (hi'.pow b))).sub (h2.mul ((hi.pow c).add (hi'.pow c)))
  have hp : IsPrimitiveRoot (Complex.exp (2 * Real.pi * Complex.I / N)) N := Complex.isPrimitiveRoot_exp N hN.ne'
  let e := hz.embeddingsEquivPrimitiveRoots ℂ (Polynomial.cyclotomic.irreducible_rat hN)
  let σ : K →ₐ[ℚ] ℂ := e.symm ⟨_, (mem_primitiveRoots hN).mpr hp⟩
  have hσ : σ z = Complex.exp (2 * Real.pi * Complex.I / N) := by
    have := hz.embeddingsEquivPrimitiveRoots_apply_coe ℂ (Polynomial.cyclotomic.irreducible_rat hN) σ
    rw [← this]
    show ((e (e.symm _)) : ℂ) = _
    rw [Equiv.apply_symm_apply]
  have hcos : ∀ k : ℕ, σ z ^ k + (σ z)⁻¹ ^ k = ((2 * Real.cos (2 * Real.pi * k / N) : ℝ) : ℂ) := by
    intro k
    rw [hσ, ← Complex.exp_neg, ← Complex.exp_nat_mul, ← Complex.exp_nat_mul]
    push_cast
    rw [Complex.two_cos]
    congr 2 <;> ring
  have hσβ : σ β = ((2 * Real.cos (2 * Real.pi * a / N) * (2 * Real.cos (2 * Real.pi * b / N)) -
      2 * (2 * Real.cos (2 * Real.pi * c / N)) : ℝ) : ℂ) := by
    simp only [β, map_sub, map_mul, map_add, map_pow, map_inv₀, map_ofNat]
    rw [hcos, hcos, hcos]
    push_cast
    ring
  have hβ0 : β ≠ 0 := by
    intro h0
    apply h
    rw [h0, map_zero] at hσβ
    exact_mod_cast hσβ.symm
  have hnorm : ∀ τ : K →ₐ[ℚ] ℂ, ‖τ β‖ ≤ 8 := by
    intro τ
    have h1 : ‖τ z‖ = 1 := (hz.map_of_injective τ.injective).norm'_eq_one hN.ne'
    have hk : ∀ k : ℕ, ‖τ z ^ k + (τ z)⁻¹ ^ k‖ ≤ 2 := by
      intro k
      refine (norm_add_le _ _).trans ?_
      rw [norm_pow, norm_pow, norm_inv, h1]; norm_num
    simp only [β, map_sub, map_mul, map_add, map_pow, map_inv₀, map_ofNat]
    refine (norm_sub_le _ _).trans ?_
    rw [norm_mul, norm_mul]
    have h2' : ‖(2 : ℂ)‖ = 2 := by simp
    rw [h2']
    nlinarith [hk a, hk b, hk c, norm_nonneg (τ z ^ a + (τ z)⁻¹ ^ a), norm_nonneg (τ z ^ b + (τ z)⁻¹ ^ b)]
  obtain ⟨n, hn⟩ := IsIntegrallyClosed.isIntegral_iff.mp (Algebra.isIntegral_norm ℚ hβ)
  have hn0 : n ≠ 0 := by
    rintro rfl
    rw [map_zero] at hn
    exact hβ0 (Algebra.norm_eq_zero_iff.mp hn.symm)
  have hprod : (1 : ℝ) ≤ ∏ τ : K →ₐ[ℚ] ℂ, ‖τ β‖ := by
    rw [← norm_prod, ← Algebra.norm_eq_prod_embeddings ℚ ℂ β, ← hn]
    simp only [eq_intCast, map_intCast]
    rw [Complex.norm_intCast]
    exact_mod_cast Int.one_le_abs hn0
  classical
  rw [← Finset.mul_prod_erase _ _ (Finset.mem_univ σ)] at hprod
  have hcard : ((Finset.univ.erase σ : Finset (K →ₐ[ℚ] ℂ))).card ≤ N := by
    refine (Finset.card_le_univ _).trans ?_
    rw [AlgHom.card, IsCyclotomicExtension.finrank K (Polynomial.cyclotomic.irreducible_rat hN)]
    exact Nat.totient_le N
  have hrest : ∏ τ ∈ Finset.univ.erase σ, ‖τ β‖ ≤ (8 : ℝ) ^ N :=
    ((Finset.prod_le_prod (fun _ _ => norm_nonneg _) fun τ _ => hnorm τ).trans_eq
      (by rw [Finset.prod_const])).trans (pow_le_pow_right₀ (by norm_num) hcard)
  have : ‖σ β‖ = |2 * Real.cos (2 * Real.pi * a / N) * (2 * Real.cos (2 * Real.pi * b / N)) -
      2 * (2 * Real.cos (2 * Real.pi * c / N))| := by
    rw [hσβ, Complex.norm_real, Real.norm_eq_abs]
  rw [this] at hprod
  exact hprod.trans (mul_le_mul_of_nonneg_left hrest (abs_nonneg _))

/-- A difference of cosines is 0 or bounded away from it. -/
theorem cosines_separated {N : ℕ} (hN : 0 < N) (a b c : ℕ)
    (h : 2 * Real.cos (2 * Real.pi * a / N) * (2 * Real.cos (2 * Real.pi * b / N)) -
      2 * (2 * Real.cos (2 * Real.pi * c / N)) ≠ 0) :
    1 ≤ |2 * Real.cos (2 * Real.pi * a / N) * (2 * Real.cos (2 * Real.pi * b / N)) -
      2 * (2 * Real.cos (2 * Real.pi * c / N))| * 8 ^ N := by
  have : NeZero N := ⟨hN.ne'⟩
  have : NeZero ((N : ℕ) : ℚ) := ⟨Nat.cast_ne_zero.mpr hN.ne'⟩
  exact @cosines_separated_field (CyclotomicField N ℚ) _ (CyclotomicField.algebra N ℚ) N _
    (CyclotomicField.isCyclotomicExtension N ℚ) hN a b c h

/-! ### The gap -/

/-- A difference of a product and a third number, to within the errors of the three. -/
theorem gap_err {a b c A B C W E : ℝ} (hW : 0 < W) (hE0 : 0 ≤ E) (hE : E ≤ W) (ha : |a - W * A| ≤ E)
    (hb : |b - W * B| ≤ E) (hc : |c - W * C| ≤ E) (hA : |A| ≤ 1) (hB : |B| ≤ 1) :
    |a * b - c * W - W * W * (A * B - C)| ≤ 4 * E * W := by
  have hA1 : |W * A| ≤ W := by rw [abs_mul, abs_of_pos hW]; nlinarith
  have hB1 : |W * B| ≤ W := by rw [abs_mul, abs_of_pos hW]; nlinarith
  have hb2 : |b| ≤ 2 * W := by
    have := abs_sub_abs_le_abs_sub b (W * B)
    linarith
  have e : a * b - c * W - W * W * (A * B - C) = (a - W * A) * b + W * A * (b - W * B) - (c - W * C) * W := by ring
  have t1 : |(a - W * A) * b| ≤ E * (2 * W) := by rw [abs_mul]; exact mul_le_mul ha hb2 (abs_nonneg _) hE0
  have t2 : |W * A * (b - W * B)| ≤ W * E := by rw [abs_mul]; exact mul_le_mul hA1 hb (abs_nonneg _) hW.le
  have t3 : |(c - W * C) * W| ≤ E * W := by
    rw [abs_mul, abs_of_pos hW]; exact mul_le_mul_of_nonneg_right hc hW.le
  rw [e]
  calc _ ≤ |(a - W * A) * b + W * A * (b - W * B)| + |(c - W * C) * W| := abs_sub _ _
    _ ≤ |(a - W * A) * b| + |W * A * (b - W * B)| + |(c - W * C) * W| := by
      linarith [abs_add_le ((a - W * A) * b) (W * A * (b - W * B))]
    _ ≤ 4 * E * W := by linarith

/-- What `zoneGap` approximates. -/
noncomputable def realGap (n m f : ℕ) : ℝ :=
  Real.cos (Real.pi * m / (180 * 2 ^ f : ℕ)) * Real.cos (Real.pi * (n - 2 : ℕ) / (2 * n : ℕ)) -
    Real.cos (Real.pi * (29 : ℕ) / (60 : ℕ))

/-- The error of a gap at precision `64 + v`, against what decides. -/
theorem precision_small (v : ℕ) : 4 * (2 ^ 10 * (2 * (v + 64)) ^ 2) < 2 ^ (v + 64) := by
  induction v with
  | zero => norm_num
  | succ v ih =>
    rw [show v + 1 + 64 = (v + 64) + 1 by ring, pow_succ 2 (v + 64)]
    generalize hu : v + 64 = u at ih
    have h64 : 64 ≤ u := by omega
    generalize 2 ^ u = P at ih
    nlinarith

/-- The scaled gap is off by less than what decides. -/
theorem zoneGap_close {p n m f : ℕ} (hp : 64 ≤ p) (hn : 2 ≤ n) (hm : m ≤ 90 * 2 ^ f) :
    |(zoneGap (2 * p) n m f : ℝ) - 2 ^ (4 * p) * realGap n m f| < 2 ^ (3 * p) := by
  have ha := cosPi_close (w := 2 * p) (num := m) (den := 180 * 2 ^ f) (by omega) (by positivity) (by linarith)
  have hb := cosPi_close (w := 2 * p) (num := n - 2) (den := 2 * n) (by omega) (by omega) (by omega)
  have hc := cosPi_close (w := 2 * p) (num := 29) (den := 60) (by omega) (by omega) (by omega)
  have hs := precision_small (p - 64)
  rw [Nat.sub_add_cancel hp] at hs
  have hs' : 4 * ((2 : ℝ) ^ 10 * ((2 * p : ℕ) : ℝ) ^ 2) < 2 ^ p := by exact_mod_cast hs
  generalize (2 : ℝ) ^ 10 * ((2 * p : ℕ) : ℝ) ^ 2 = E at ha hb hc hs'
  have hE0 : 0 ≤ E := (abs_nonneg _).trans ha
  have hpw : (2 : ℝ) ^ p ≤ 2 ^ (2 * p) := pow_le_pow_right₀ (by norm_num) (by omega)
  have hW0 : (0 : ℝ) < 2 ^ (2 * p) := by positivity
  have := gap_err hW0 hE0 (by linarith) ha hb hc (Real.abs_cos_le_one _) (Real.abs_cos_le_one _)
  have e4 : (2 : ℝ) ^ (4 * p) = 2 ^ (2 * p) * 2 ^ (2 * p) := by rw [← pow_add]; congr 1; ring
  have e3 : (2 : ℝ) ^ (3 * p) = 2 ^ p * 2 ^ (2 * p) := by rw [← pow_add]; congr 1; ring
  rw [zoneGap, realGap, e4, e3, Int.cast_sub, Int.cast_mul, Int.cast_mul, Int.cast_pow, Int.cast_ofNat]
  exact this.trans_lt (mul_lt_mul_of_pos_right hs' hW0)

/-! ### The comparison -/

/-- A gap other than zero is at least `2^-(2^(f+18))`. -/
theorem realGap_separated {n m f : ℕ} (hn : 2 ≤ n) (hn' : n ≤ 59) (h : realGap n m f ≠ 0) :
    1 ≤ |realGap n m f| * 2 ^ (2 ^ (f + 18)) := by
  have hn0 : (n : ℝ) ≠ 0 := by positivity
  have h2f : (2 : ℝ) ^ f ≠ 0 := by positivity
  have ea : Real.pi * m / (180 * 2 ^ f : ℕ) = 2 * Real.pi * (4 * n * m : ℕ) / (1440 * n * 2 ^ f : ℕ) := by
    push_cast; field_simp; ring
  have eb : Real.pi * (n - 2 : ℕ) / (2 * n : ℕ) =
      2 * Real.pi * (360 * 2 ^ f * (n - 2) : ℕ) / (1440 * n * 2 ^ f : ℕ) := by
    push_cast; field_simp; ring
  have ec : Real.pi * (29 : ℕ) / (60 : ℕ) = 2 * Real.pi * (348 * n * 2 ^ f : ℕ) / (1440 * n * 2 ^ f : ℕ) := by
    push_cast; field_simp; ring
  have e : 4 * realGap n m f =
      2 * Real.cos (2 * Real.pi * (4 * n * m : ℕ) / (1440 * n * 2 ^ f : ℕ)) *
          (2 * Real.cos (2 * Real.pi * (360 * 2 ^ f * (n - 2) : ℕ) / (1440 * n * 2 ^ f : ℕ))) -
        2 * (2 * Real.cos (2 * Real.pi * (348 * n * 2 ^ f : ℕ) / (1440 * n * 2 ^ f : ℕ))) := by
    rw [realGap, ea, eb, ec]; ring
  have hs := cosines_separated (N := 1440 * n * 2 ^ f) (by positivity) (4 * n * m) (360 * 2 ^ f * (n - 2)) (348 * n * 2 ^ f)
    (by rw [← e]; exact mul_ne_zero (by norm_num) h)
  rw [← e, abs_mul, abs_of_pos (show (0 : ℝ) < 4 by norm_num)] at hs
  have hN : 2 + 3 * (1440 * n * 2 ^ f) ≤ 2 ^ (f + 18) := by
    have h1 : 1 ≤ 2 ^ f := Nat.one_le_two_pow
    rw [pow_add]
    nlinarith
  have h8 : (4 : ℝ) * 8 ^ (1440 * n * 2 ^ f) ≤ 2 ^ (2 ^ (f + 18)) := by
    rw [show (8 : ℝ) = 2 ^ 3 by norm_num, show (4 : ℝ) = 2 ^ 2 by norm_num, ← pow_mul, ← pow_add]
    exact pow_le_pow_right₀ (by norm_num) hN
  calc (1 : ℝ) ≤ |realGap n m f| * (4 * 8 ^ (1440 * n * 2 ^ f)) := by linarith
    _ ≤ _ := mul_le_mul_of_nonneg_left h8 (abs_nonneg _)

/-- A scaled gap that is large enough has the sign of the gap, and one that is not leaves the gap small. -/
theorem zoneGap_decides {p n m f : ℕ} (hp : 64 ≤ p) (hn : 2 ≤ n) (hm : m ≤ 90 * 2 ^ f) :
    (2 ^ (3 * p) ≤ zoneGap (2 * p) n m f → 0 < realGap n m f) ∧
    (zoneGap (2 * p) n m f ≤ -2 ^ (3 * p) → realGap n m f < 0) ∧
    (zoneGap (2 * p) n m f < 2 ^ (3 * p) → -2 ^ (3 * p) < zoneGap (2 * p) n m f →
      2 ^ (4 * p) * |realGap n m f| < 2 * 2 ^ (3 * p)) := by
  have hg := abs_lt.mp (zoneGap_close hp hn hm)
  have h4 : (0 : ℝ) < 2 ^ (4 * p) := by positivity
  refine ⟨fun h => ?_, fun h => ?_, fun h h' => ?_⟩
  · have h1 : (2 : ℝ) ^ (3 * p) ≤ zoneGap (2 * p) n m f := by exact_mod_cast h
    exact pos_of_mul_pos_right (show (0 : ℝ) < 2 ^ (4 * p) * realGap n m f by linarith) h4.le
  · have h1 : (zoneGap (2 * p) n m f : ℝ) ≤ -2 ^ (3 * p) := by exact_mod_cast h
    by_contra h0
    have := mul_nonneg h4.le (not_lt.mp h0)
    linarith
  · have h1 : (zoneGap (2 * p) n m f : ℝ) < 2 ^ (3 * p) := by exact_mod_cast h
    have h2 : -2 ^ (3 * p) < (zoneGap (2 * p) n m f : ℝ) := by exact_mod_cast h'
    rw [show (2 : ℝ) ^ (4 * p) * |realGap n m f| = |2 ^ (4 * p) * realGap n m f| by rw [abs_mul, abs_of_pos h4], abs_lt]
    constructor <;> linarith

/-- The rounds decide the sign of the gap: one that the last round leaves open is 0. -/
theorem gapNonneg_iff {n m f : ℕ} (hn : 2 ≤ n) (hn' : n ≤ 59) (hm : m ≤ 90 * 2 ^ f) (rounds p : ℕ) (hp : 64 ≤ p)
    (hlast : 2 ^ (f + 18) < p * 2 ^ rounds) : gapNonneg n m f (rounds + 1) p = true ↔ 0 ≤ realGap n m f := by
  induction rounds generalizing p with
  | zero =>
    obtain ⟨d1, d2, d3⟩ := zoneGap_decides (f := f) hp hn hm
    rw [gapNonneg]
    split
    · next h => exact iff_of_true rfl (d1 h).le
    · next h =>
      split
      · next h' => exact iff_of_false (by simp) (not_le.mpr (d2 h'))
      · next h' =>
        refine iff_of_true rfl (ge_of_eq ?_)
        by_contra h0
        have hs := realGap_separated (m := m) (f := f) hn hn' h0
        have e : (2 : ℝ) * 2 ^ (3 * p) * 2 ^ (2 ^ (f + 18)) ≤ 2 ^ (4 * p) := by
          rw [← pow_succ', ← pow_add]
          exact pow_le_pow_right₀ (by norm_num) (by omega)
        refine absurd (d3 (not_le.mp h) (not_le.mp h')) (not_lt.mpr ?_)
        calc (2 : ℝ) * 2 ^ (3 * p) ≤ 2 * 2 ^ (3 * p) * (|realGap n m f| * 2 ^ (2 ^ (f + 18))) :=
              le_mul_of_one_le_right (by positivity) hs
          _ = 2 * 2 ^ (3 * p) * 2 ^ (2 ^ (f + 18)) * |realGap n m f| := by ring
          _ ≤ _ := mul_le_mul_of_nonneg_right e (abs_nonneg _)
  | succ rounds ih =>
    obtain ⟨d1, d2, -⟩ := zoneGap_decides (f := f) hp hn hm
    rw [gapNonneg]
    split
    · next h => exact iff_of_true rfl (d1 h).le
    · split
      · next h' => exact iff_of_false (by simp) (not_le.mpr (d2 h'))
      · exact ih (2 * p) (by omega) (by rwa [show 2 * p * 2 ^ rounds = p * 2 ^ (rounds + 1) by rw [pow_succ]; ring])

/-- `T(n)` (42_cpr.md R173). -/
noncomputable def zoneAngle (n : ℕ) : ℝ :=
  180 / Real.pi * Real.arccos (√((1 - Real.cos (Real.pi / 30)) / (1 - Real.cos (2 * Real.pi / n))))

/-- The gap is not negative exactly for the angles up to `T(n)` (42_cpr.md R173). -/
theorem realGap_nonneg_iff {n m f : ℕ} (hn : 2 ≤ n) (hn' : n ≤ 59) (hm : m ≤ 90 * 2 ^ f) :
    0 ≤ realGap n m f ↔ (m : ℝ) ≤ zoneAngle n * 2 ^ f := by
  have hpi := Real.pi_pos
  have hn2 : (2 : ℝ) ≤ n := by exact_mod_cast hn
  have hn59 : (n : ℝ) ≤ 59 := by exact_mod_cast hn'
  have hn0 : (0 : ℝ) < n := by linarith
  have h2f : (0 : ℝ) < 2 ^ f := by positivity
  have hm' : (m : ℝ) ≤ 90 * 2 ^ f := by exact_mod_cast hm
  have hB : Real.cos (Real.pi * (n - 2 : ℕ) / (2 * n : ℕ)) = Real.sin (Real.pi / n) := by
    rw [← Real.cos_pi_div_two_sub]
    congr 1
    rw [Nat.cast_sub hn]
    push_cast
    field_simp
  have hC : Real.cos (Real.pi * (29 : ℕ) / (60 : ℕ)) = Real.sin (Real.pi / 60) := by
    rw [← Real.cos_pi_div_two_sub]
    congr 1
    push_cast
    ring
  have hn1 : Real.pi / n ≤ Real.pi / 2 := div_le_div_of_nonneg_left hpi.le (by norm_num) hn2
  have hBpos : 0 < Real.sin (Real.pi / n) := Real.sin_pos_of_pos_of_lt_pi (by positivity) (by linarith)
  have hCpos : 0 < Real.sin (Real.pi / 60) := Real.sin_pos_of_pos_of_lt_pi (by positivity) (by linarith)
  have hCB : Real.sin (Real.pi / 60) ≤ Real.sin (Real.pi / n) :=
    Real.sin_le_sin_of_le_of_le_pi_div_two (by linarith) hn1
      (div_le_div_of_nonneg_left hpi.le hn0 (by linarith))
  have hsq : √((1 - Real.cos (Real.pi / 30)) / (1 - Real.cos (2 * Real.pi / n))) =
      Real.sin (Real.pi / 60) / Real.sin (Real.pi / n) := by
    rw [show Real.pi / 30 = 2 * (Real.pi / 60) by ring, show 2 * Real.pi / n = 2 * (Real.pi / n) by ring,
      Real.cos_two_mul, Real.cos_two_mul, Real.cos_sq', Real.cos_sq']
    rw [show (1 - (2 * (1 - Real.sin (Real.pi / 60) ^ 2) - 1)) / (1 - (2 * (1 - Real.sin (Real.pi / n) ^ 2) - 1)) =
      (Real.sin (Real.pi / 60) / Real.sin (Real.pi / n)) ^ 2 by
        have hb := hBpos.ne'
        generalize Real.sin (Real.pi / n) = b at hb
        generalize Real.sin (Real.pi / 60) = a
        rw [show 1 - (2 * (1 - a ^ 2) - 1) = 2 * a ^ 2 by ring,
          show 1 - (2 * (1 - b ^ 2) - 1) = 2 * b ^ 2 by ring, div_pow]
        exact mul_div_mul_left _ _ (by norm_num)]
    exact Real.sqrt_sq (by positivity)
  set θ : ℝ := Real.pi * m / (180 * 2 ^ f : ℕ) with hθ
  have hθ' : θ = Real.pi / 180 * (m / 2 ^ f) := by rw [hθ]; push_cast; field_simp
  have hθ0 : 0 ≤ θ := by positivity
  have hθ1 : θ ≤ Real.pi := by
    rw [hθ']
    have : (m : ℝ) / 2 ^ f ≤ 90 := by rw [div_le_iff₀ h2f]; exact hm'
    nlinarith
  rw [realGap, ← hθ, hB, hC, zoneAngle, hsq]
  have hR1 : Real.sin (Real.pi / 60) / Real.sin (Real.pi / n) ≤ 1 := by rw [div_le_one hBpos]; exact hCB
  have hR0 : 0 ≤ Real.sin (Real.pi / 60) / Real.sin (Real.pi / n) := by positivity
  rw [sub_nonneg, ← div_le_iff₀ hBpos]
  have key : Real.sin (Real.pi / 60) / Real.sin (Real.pi / n) ≤ Real.cos θ ↔
      θ ≤ Real.arccos (Real.sin (Real.pi / 60) / Real.sin (Real.pi / n)) := by
    constructor
    · intro h
      have := Real.arccos_le_arccos h
      rwa [Real.arccos_cos hθ0 hθ1] at this
    · intro h
      have := Real.cos_le_cos_of_nonneg_of_le_pi hθ0 (Real.arccos_le_pi _) h
      rwa [Real.cos_arccos (by linarith) hR1] at this
  rw [key, hθ']
  generalize Real.arccos (Real.sin (Real.pi / 60) / Real.sin (Real.pi / n)) = A
  rw [← div_le_iff₀ h2f, div_mul_eq_mul_div 180, le_div_iff₀ hpi]
  generalize (m : ℝ) / 2 ^ f = X
  constructor <;> intro h <;> linarith

/-- `angleWithin` is the comparison of 42_cpr.md R173 over the reals. -/
theorem angleWithin_iff {n m f : ℕ} (hn : 2 ≤ n) (hn' : n ≤ 59) (hm : m ≤ 90 * 2 ^ f) :
    angleWithin n m f = true ↔ (m : ℝ) ≤ zoneAngle n * 2 ^ f := by
  rw [← realGap_nonneg_iff hn hn' hm]
  refine gapNonneg_iff hn hn' hm (f + 15) (f + 64) (by omega) ?_
  have h1 : 1 ≤ 2 ^ f := Nat.one_le_two_pow
  rw [pow_add, pow_add]
  nlinarith

/-- `T(2)` is 87 degrees exactly (42_cpr.md R173). -/
theorem zoneAngle_two : zoneAngle 2 = 87 := by
  have h : √((1 - Real.cos (Real.pi / 30)) / (1 - Real.cos (2 * Real.pi / (2 : ℕ)))) = Real.cos (29 * Real.pi / 60) := by
    have e : Real.cos (29 * Real.pi / 60) = Real.sin (Real.pi / 60) := by
      rw [← Real.cos_pi_div_two_sub]; congr 1; ring
    rw [show (2 * Real.pi / ((2 : ℕ) : ℝ)) = Real.pi by push_cast; ring, Real.cos_pi, e,
      show Real.pi / 30 = 2 * (Real.pi / 60) by ring, Real.cos_two_mul, Real.cos_sq',
      show (1 - (2 * (1 - Real.sin (Real.pi / 60) ^ 2) - 1)) / (1 - -1) = Real.sin (Real.pi / 60) ^ 2 by ring]
    exact Real.sqrt_sq (Real.sin_nonneg_of_nonneg_of_le_pi (by positivity) (by linarith [Real.pi_pos]))
  rw [zoneAngle, h, Real.arccos_cos (by positivity) (by linarith [Real.pi_pos])]
  field_simp
  norm_num

/-- Each threshold of the table is within `T(n)` and the next number is not; `T(2)` is met exactly and stands apart. -/
theorem zoneTable22_checked : (zoneTable22.all fun e => e.1 == 2 && e.2 == 364904448 ||
    decide (2 ≤ e.1) && decide (e.1 ≤ 59) && decide (e.2 < 90 * 2 ^ 22) && angleWithin e.1 e.2 22 &&
      !angleWithin e.1 (e.2 + 1) 22) = true := by
  decide +kernel

/-- The table holds `floor(T(n) * 2^22)` (42_cpr.md R173). -/
theorem zoneTable22_floor {e : ℕ × ℕ} (he : e ∈ zoneTable22) :
    2 ≤ e.1 ∧ e.1 ≤ 59 ∧ (e.2 : ℝ) ≤ zoneAngle e.1 * 2 ^ 22 ∧ zoneAngle e.1 * 2 ^ 22 < e.2 + 1 := by
  have h := List.all_eq_true.mp zoneTable22_checked e he
  simp only [Bool.or_eq_true, Bool.and_eq_true, beq_iff_eq, decide_eq_true_eq, Bool.not_eq_true'] at h
  rcases h with ⟨h1, h2⟩ | ⟨⟨⟨⟨h1, h2⟩, h3⟩, h4⟩, h5⟩
  · rw [h1, h2, zoneAngle_two]; norm_num
  · refine ⟨h1, h2, (angleWithin_iff h1 h2 h3.le).mp h4, ?_⟩
    by_contra h6
    have := (angleWithin_iff (m := e.2 + 1) (f := 22) h1 h2 h3).mpr (by push_cast; exact not_lt.mp h6)
    rw [this] at h5; cases h5

/-- Each further bit keeps the floor. -/
theorem zoneBits_floor {n q : ℕ} (hn : 2 ≤ n) (hn' : n ≤ 59) (h1 : (q : ℝ) ≤ zoneAngle n * 2 ^ 22)
    (h2 : zoneAngle n * 2 ^ 22 < q + 1) (h90 : zoneAngle n < 90) (k : ℕ) :
    (zoneBits n q k : ℝ) ≤ zoneAngle n * 2 ^ (22 + k) ∧ zoneAngle n * 2 ^ (22 + k) < zoneBits n q k + 1 := by
  induction k with
  | zero => exact ⟨h1, h2⟩
  | succ k ih =>
    obtain ⟨i1, i2⟩ := ih
    have e : zoneAngle n * 2 ^ (22 + (k + 1)) = 2 * (zoneAngle n * 2 ^ (22 + k)) := by rw [← add_assoc, pow_succ]; ring
    have hm : 2 * zoneBits n q k + 1 ≤ 90 * 2 ^ (23 + k) := by
      have hb : zoneBits n q k < 90 * 2 ^ (22 + k) := by
        have : (zoneBits n q k : ℝ) < 90 * 2 ^ (22 + k) :=
          i1.trans_lt (mul_lt_mul_of_pos_right h90 (by positivity))
        exact_mod_cast this
      rw [show 23 + k = (22 + k) + 1 by ring, pow_succ]; omega
    have hw := angleWithin_iff hn hn' hm
    rw [show 23 + k = 22 + (k + 1) by ring, e] at hw
    rw [e, zoneBits, show 23 + k = 22 + (k + 1) by ring]
    split
    · next h => 
      have := hw.mp h
      push_cast at *
      exact ⟨this, by linarith⟩
    · next h =>
      have := mt hw.mpr h
      push_cast at *
      exact ⟨by linarith, not_le.mp this⟩

/-- The thresholds are `floor(T(n) * 2^ANGLE_FRAC)` for every `ANGLE_FRAC` (42_cpr.md R173). -/
theorem zoneTable_eq (f : ℕ) : zoneTable f = zoneTable22.map fun e => (e.1, ⌊zoneAngle e.1 * 2 ^ f⌋₊) := by
  refine List.map_congr_left fun e he => Prod.ext rfl ?_
  obtain ⟨h1, h2, h3, h4⟩ := zoneTable22_floor he
  have h90 : zoneAngle e.1 < 90 := by
    have := (by decide : ∀ e ∈ zoneTable22, e.2 + 1 < 90 * 2 ^ 22) e he
    have : (e.2 : ℝ) + 1 < 90 * 2 ^ 22 := by exact_mod_cast this
    linarith
  obtain ⟨i1, i2⟩ := zoneBits_floor h1 h2 h3 h4 h90 (f - 22)
  show zoneBits e.1 e.2 (f - 22) / 2 ^ (22 - f) = ⌊zoneAngle e.1 * 2 ^ f⌋₊
  have hfl : zoneBits e.1 e.2 (f - 22) = ⌊zoneAngle e.1 * 2 ^ (22 + (f - 22))⌋₊ :=
    ((Nat.floor_eq_iff ((Nat.cast_nonneg _).trans i1)).mpr ⟨i1, i2⟩).symm
  rw [hfl, ← Nat.floor_div_natCast]
  congr 1
  push_cast
  rw [div_eq_iff (by positivity), mul_assoc, ← pow_add]
  congr 2
  omega

/-! ### The zone count -/

/-- The numbers of the table fall from 59 to 2. -/
theorem zoneTable_numbers (f : ℕ) : (zoneTable f).map Prod.fst = zoneTable22.map Prod.fst := by
  rw [zoneTable, List.map_map]
  rfl

/-- What the search of a falling table finds: the first number whose threshold is not passed is the largest. -/
theorem find_largest {l : List (ℕ × ℕ)} (a : ℕ) (hp : (l.map Prod.fst).Pairwise (· > ·))
    (hb : ∀ e ∈ l, 1 ≤ e.1 ∧ e.1 ≤ 59) {n : ℕ}
    (hn : n = match l.find? (fun e => decide (a ≤ e.2)) with | some e => e.1 | none => 1) :
    1 ≤ n ∧ n ≤ 59 ∧ (n = 1 ∨ ∃ q, (n, q) ∈ l ∧ a ≤ q) ∧ ∀ m q, (m, q) ∈ l → a ≤ q → m ≤ n := by
  subst hn
  induction l with
  | nil => simp
  | cons e l ih =>
    rw [List.map_cons, List.pairwise_cons] at hp
    by_cases h : a ≤ e.2
    · simp only [List.find?_cons, h, decide_true]
      refine ⟨(hb e (by simp)).1, (hb e (by simp)).2, .inr ⟨e.2, by simp, h⟩, fun m q hm _ => ?_⟩
      rcases List.mem_cons.mp hm with rfl | hm
      · exact le_rfl
      · exact le_of_lt (hp.1 m (List.mem_map.mpr ⟨_, hm, rfl⟩))
    · simp only [List.find?_cons, h, decide_false]
      obtain ⟨h1, h2, h3, h4⟩ := ih hp.2 fun e he => hb e (by simp [he])
      refine ⟨h1, h2, h3.imp_right fun ⟨q, hq, hq'⟩ => ⟨q, by simp [hq], hq'⟩, fun m q hm hq => ?_⟩
      rcases List.mem_cons.mp hm with rfl | hm
      · exact absurd hq h
      · exact h4 m q hm hq

/-- What `zoneCount` answers, by the thresholds. -/
theorem zoneCount_largest (f a : ℕ) :
    1 ≤ zoneCount f a ∧ zoneCount f a ≤ 59 ∧
      (zoneCount f a = 1 ∨ ∃ q, (zoneCount f a, q) ∈ zoneTable f ∧ a ≤ q) ∧
      ∀ m q, (m, q) ∈ zoneTable f → a ≤ q → m ≤ zoneCount f a := by
  refine find_largest a ?_ (fun e he => ?_) rfl
  · rw [zoneTable_numbers]
    decide
  · have h : e.1 ∈ (zoneTable f).map Prod.fst := List.mem_map.mpr ⟨e, he, rfl⟩
    rw [zoneTable_numbers] at h
    exact (by decide : ∀ n ∈ zoneTable22.map Prod.fst, 1 ≤ n ∧ n ≤ 59) _ h

/-- Every `n` from 2 to 59 has a threshold. -/
theorem mem_zoneTable22 {n : ℕ} (h : 2 ≤ n) (h' : n ≤ 59) : n ∈ zoneTable22.map Prod.fst := by
  have : ∀ n ≤ 59, 2 ≤ n → n ∈ zoneTable22.map Prod.fst := by decide
  exact this n h' h

/-- `T(n)` falls as `n` grows (42_cpr.md R173): an angle up to `T(m)` is one up to `T(n)`. -/
theorem zoneAngle_falls {n m a f : ℕ} (hn : 2 ≤ n) (hnm : n ≤ m) (hm : m ≤ 59) (ha : a ≤ 90 * 2 ^ f)
    (h : (a : ℝ) ≤ zoneAngle m * 2 ^ f) : (a : ℝ) ≤ zoneAngle n * 2 ^ f := by
  rw [← realGap_nonneg_iff (hn.trans hnm) hm ha] at h
  rw [← realGap_nonneg_iff hn (hnm.trans hm) ha]
  have hpi := Real.pi_pos
  have h2f : (0 : ℝ) < 2 ^ f := by positivity
  have hA : 0 ≤ Real.cos (Real.pi * a / (180 * 2 ^ f : ℕ)) := by
    refine Real.cos_nonneg_of_neg_pi_div_two_le_of_le ?_ ?_
    · have : 0 ≤ Real.pi * a / (180 * 2 ^ f : ℕ) := by positivity
      linarith
    · have ha' : (a : ℝ) ≤ 90 * 2 ^ f := by exact_mod_cast ha
      push_cast
      rw [div_le_iff₀ (by positivity)]
      nlinarith
  have hB : Real.cos (Real.pi * (m - 2 : ℕ) / (2 * m : ℕ)) ≤ Real.cos (Real.pi * (n - 2 : ℕ) / (2 * n : ℕ)) := by
    have hn' : (2 : ℝ) ≤ n := by exact_mod_cast hn
    have hm' : (n : ℝ) ≤ m := by exact_mod_cast hnm
    have e : ∀ k : ℕ, 2 ≤ k → Real.pi * (k - 2 : ℕ) / (2 * k : ℕ) = Real.pi / 2 - Real.pi / k := by
      intro k hk
      have : (2 : ℝ) ≤ k := by exact_mod_cast hk
      rw [Nat.cast_sub hk]; push_cast; field_simp
    rw [e m (hn.trans hnm), e n hn]
    have h1 : Real.pi / m ≤ Real.pi / n := div_le_div_of_nonneg_left hpi.le (by linarith) hm'
    have h2 : Real.pi / n ≤ Real.pi / 2 := div_le_div_of_nonneg_left hpi.le (by norm_num) hn'
    have h3 : 0 ≤ Real.pi / m := by positivity
    exact Real.cos_le_cos_of_nonneg_of_le_pi (by linarith) (by linarith) (by linarith)
  unfold realGap at *
  nlinarith [mul_le_mul_of_nonneg_left hB hA]

/-- The zone count is the largest `n` with `|lat| <= T(n)`, over the reals (42_cpr.md R173). -/
theorem le_zoneCount_iff {n a f : ℕ} (hn : 2 ≤ n) (hn' : n ≤ 59) (ha : a ≤ 90 * 2 ^ f) :
    n ≤ zoneCount f a ↔ (a : ℝ) ≤ zoneAngle n * 2 ^ f := by
  obtain ⟨h1, h2, h3, h4⟩ := zoneCount_largest f a
  rw [zoneTable_eq] at h3 h4
  constructor
  · intro h
    rcases h3 with h3 | ⟨q, hq, haq⟩
    · omega
    · obtain ⟨e, he, heq⟩ := List.mem_map.mp hq
      obtain ⟨e1, e2⟩ := Prod.mk.inj heq
      refine zoneAngle_falls hn h h2 ha ?_
      obtain ⟨_, _, h5, _⟩ := zoneTable22_floor he
      have hpos : 0 ≤ zoneAngle e.1 := by
        have : (0 : ℝ) ≤ zoneAngle e.1 * 2 ^ 22 := (Nat.cast_nonneg _).trans h5
        exact nonneg_of_mul_nonneg_left this (by positivity)
      rw [← e1]
      rw [← e2] at haq
      exact (Nat.le_floor_iff (by positivity)).mp haq
  · intro h
    obtain ⟨e, he, rfl⟩ := List.mem_map.mp (mem_zoneTable22 hn hn')
    exact h4 _ _ (List.mem_map.mpr ⟨e, he, rfl⟩) (Nat.le_floor h)

end Sys2Proof.Machine
end

