-- ==== Sys2Proof/Tests/Slice0.lean ====
section
/-! SUPPORT. The model's own tests: ill-formed terms refused, every constructor's decoding, one or two steps per
instruction, and for every statement with hypotheses a state and operands that meet them. Expected values are the spec's:
`V<n>` and `P<n>` name rows of 95_test_vectors.md, `R<n>` a rule from which the value is read off by hand. -/

namespace Sys2Proof.Tests
set_option Elab.async false
open Sys2Proof Sys2Proof.Machine Sys2Proof.Claims

/-- The state after reset in which the host has delivered a packet and then one byte more. -/
def given (packet : List Byte) : State := { State.reset with host := hostBytes packet ++ [.byte 0xEE] }

/-- What is read off a next state; nothing for a fault or a refusal. -/
def got {α : Type} (o : Out) (g : State → α) : Option α :=
  match o with
  | .next t => some (g t)
  | .fault _ => none
  | .refused _ => none

/-- A command's packet, run from reset. -/
def run (packet : List Byte) : Out := step (given packet)

/-- A frame's row, run from the state in which `PARSE` enters it. -/
def row (frame : List Byte) : Out := step (placeFrame frame State.reset)

/-- A squitter's row, run from the state in which `PARSE` enters it. -/
def esRow (frame : List Byte) : Out := step (placeSquitter frame State.reset)

/-! ### WellFormed: each check refuses -/

theorem test_wf_buffers : (Instr.crc (List.replicate 16 0)).wf Config.params = false ∧
    (Instr.crcEnc (List.replicate 16 0)).wf Config.params = false ∧
    (Instr.csDec (List.replicate 16 0)).wf Config.params = false ∧
    (Instr.parse 0 (List.replicate 16 0)).wf Config.params = false := by decide

/-- A timestamp of 65 bits, an angle beyond 32 bits on either side, and both angles of `CPR.ENC` (00_scope.md R7). -/
theorem test_wf_widths : (Instr.parse (2 ^ 64) []).wf Config.params = false ∧
    (Instr.cprNl (2 ^ 31)).wf Config.params = false ∧ (Instr.cprNl (-2 ^ 31 - 1)).wf Config.params = false ∧
    (Instr.cprEnc 0 17 (2 ^ 31) 0).wf Config.params = false ∧
    (Instr.cprEnc 0 17 0 (2 ^ 31)).wf Config.params = false := by decide +kernel

/-- A row refuses a frame of another `df`: here one of `df` 31, or of `df` 0. -/
theorem test_wf_shortRows :
    (Instr.df0 0xFF000000000000).wf Config.params = false ∧ (Instr.df4 0xFF000000000000).wf Config.params = false ∧
    (Instr.df5 0xFF000000000000).wf Config.params = false ∧ (Instr.df11 0xFF000000000000).wf Config.params = false ∧
    (Instr.df1 (.short 0xFF000000000000)).wf Config.params = false ∧
    (Instr.df2 (.short 0xFF000000000000)).wf Config.params = false ∧
    (Instr.df3 (.short 0xFF000000000000)).wf Config.params = false ∧
    (Instr.df6 (.short 0xFF000000000000)).wf Config.params = false ∧
    (Instr.df7 (.short 0xFF000000000000)).wf Config.params = false ∧
    (Instr.df8 (.short 0xFF000000000000)).wf Config.params = false ∧
    (Instr.df9 (.short 0xFF000000000000)).wf Config.params = false ∧
    (Instr.df10 (.short 0xFF000000000000)).wf Config.params = false ∧
    (Instr.df12 (.short 0xFF000000000000)).wf Config.params = false ∧
    (Instr.df13 (.short 0xFF000000000000)).wf Config.params = false ∧
    (Instr.df14 (.short 0xFF000000000000)).wf Config.params = false ∧
    (Instr.df15 (.short 0xFF000000000000)).wf Config.params = false ∧
    (Instr.df23 (.short 0xFF000000000000)).wf Config.params = false := by decide

theorem test_wf_longRows :
    (Instr.df16 0).wf Config.params = false ∧ (Instr.df17 0).wf Config.params = false ∧
    (Instr.df18 0).wf Config.params = false ∧ (Instr.df19 0).wf Config.params = false ∧
    (Instr.df20 0).wf Config.params = false ∧ (Instr.df21 0).wf Config.params = false ∧
    (Instr.df22 0).wf Config.params = false ∧ (Instr.df24 0).wf Config.params = false ∧
    (Instr.df25 0).wf Config.params = false ∧ (Instr.df26 0).wf Config.params = false ∧
    (Instr.df27 0).wf Config.params = false ∧ (Instr.df28 0).wf Config.params = false ∧
    (Instr.df29 0).wf Config.params = false ∧ (Instr.df30 0).wf Config.params = false ∧
    (Instr.df31 0).wf Config.params = false ∧ (Instr.df1 (.long 0)).wf Config.params = false ∧
    (Instr.df2 (.long 0)).wf Config.params = false ∧ (Instr.df3 (.long 0)).wf Config.params = false ∧
    (Instr.df6 (.long 0)).wf Config.params = false ∧ (Instr.df7 (.long 0)).wf Config.params = false ∧
    (Instr.df8 (.long 0)).wf Config.params = false ∧ (Instr.df9 (.long 0)).wf Config.params = false ∧
    (Instr.df10 (.long 0)).wf Config.params = false ∧ (Instr.df12 (.long 0)).wf Config.params = false ∧
    (Instr.df13 (.long 0)).wf Config.params = false ∧ (Instr.df14 (.long 0)).wf Config.params = false ∧
    (Instr.df15 (.long 0)).wf Config.params = false ∧ (Instr.df23 (.long 0)).wf Config.params = false := by decide

/-- A type-code row refuses a frame of another `df`. -/
theorem test_wf_esRows_df :
    (Instr.esTc0 0x8000000000000000000000000000).wf Config.params = false ∧
    (Instr.esTc1 0x8000000008000000000000000000).wf Config.params = false ∧
    (Instr.esTc2 0x8000000010000000000000000000).wf Config.params = false ∧
    (Instr.esTc3 0x8000000018000000000000000000).wf Config.params = false ∧
    (Instr.esTc4 0x8000000020000000000000000000).wf Config.params = false ∧
    (Instr.esTc5 0x8000000028000000000000000000).wf Config.params = false ∧
    (Instr.esTc6 0x8000000030000000000000000000).wf Config.params = false ∧
    (Instr.esTc7 0x8000000038000000000000000000).wf Config.params = false ∧
    (Instr.esTc8 0x8000000040000000000000000000).wf Config.params = false ∧
    (Instr.esTc9 0x8000000048000000000000000000).wf Config.params = false ∧
    (Instr.esTc10 0x8000000050000000000000000000).wf Config.params = false ∧
    (Instr.esTc11 0x8000000058000000000000000000).wf Config.params = false ∧
    (Instr.esTc12 0x8000000060000000000000000000).wf Config.params = false ∧
    (Instr.esTc13 0x8000000068000000000000000000).wf Config.params = false ∧
    (Instr.esTc14 0x8000000070000000000000000000).wf Config.params = false ∧
    (Instr.esTc15 0x8000000078000000000000000000).wf Config.params = false ∧
    (Instr.esTc16 0x8000000080000000000000000000).wf Config.params = false ∧
    (Instr.esTc17 0x8000000088000000000000000000).wf Config.params = false ∧
    (Instr.esTc18 0x8000000090000000000000000000).wf Config.params = false ∧
    (Instr.esTc19 0x8000000098000000000000000000).wf Config.params = false ∧
    (Instr.esTc20 0x80000000A0000000000000000000).wf Config.params = false ∧
    (Instr.esTc21 0x80000000A8000000000000000000).wf Config.params = false ∧
    (Instr.esTc22 0x80000000B0000000000000000000).wf Config.params = false ∧
    (Instr.esTc23 0x80000000B8000000000000000000).wf Config.params = false ∧
    (Instr.esTc24 0x80000000C0000000000000000000).wf Config.params = false ∧
    (Instr.esTc25 0x80000000C8000000000000000000).wf Config.params = false ∧
    (Instr.esTc26 0x80000000D0000000000000000000).wf Config.params = false ∧
    (Instr.esTc27 0x80000000D8000000000000000000).wf Config.params = false ∧
    (Instr.esTc28 0x80000000E0000000000000000000).wf Config.params = false ∧
    (Instr.esTc29 0x80000000E8000000000000000000).wf Config.params = false ∧
    (Instr.esTc30 0x80000000F0000000000000000000).wf Config.params = false ∧
    (Instr.esTc31 0x80000000F8000000000000000000).wf Config.params = false := by decide +kernel

/-- A type-code row refuses a frame of another `tc`. -/
theorem test_wf_esRows_tc :
    (Instr.esTc0 0x8800000008000000000000000000).wf Config.params = false ∧
    (Instr.esTc1 0x8800000010000000000000000000).wf Config.params = false ∧
    (Instr.esTc2 0x8800000018000000000000000000).wf Config.params = false ∧
    (Instr.esTc3 0x8800000020000000000000000000).wf Config.params = false ∧
    (Instr.esTc4 0x8800000028000000000000000000).wf Config.params = false ∧
    (Instr.esTc5 0x8800000030000000000000000000).wf Config.params = false ∧
    (Instr.esTc6 0x8800000038000000000000000000).wf Config.params = false ∧
    (Instr.esTc7 0x8800000040000000000000000000).wf Config.params = false ∧
    (Instr.esTc8 0x8800000048000000000000000000).wf Config.params = false ∧
    (Instr.esTc9 0x8800000050000000000000000000).wf Config.params = false ∧
    (Instr.esTc10 0x8800000058000000000000000000).wf Config.params = false ∧
    (Instr.esTc11 0x8800000060000000000000000000).wf Config.params = false ∧
    (Instr.esTc12 0x8800000068000000000000000000).wf Config.params = false ∧
    (Instr.esTc13 0x8800000070000000000000000000).wf Config.params = false ∧
    (Instr.esTc14 0x8800000078000000000000000000).wf Config.params = false ∧
    (Instr.esTc15 0x8800000080000000000000000000).wf Config.params = false ∧
    (Instr.esTc16 0x8800000088000000000000000000).wf Config.params = false ∧
    (Instr.esTc17 0x8800000090000000000000000000).wf Config.params = false ∧
    (Instr.esTc18 0x8800000098000000000000000000).wf Config.params = false ∧
    (Instr.esTc19 0x88000000A0000000000000000000).wf Config.params = false ∧
    (Instr.esTc20 0x88000000A8000000000000000000).wf Config.params = false ∧
    (Instr.esTc21 0x88000000B0000000000000000000).wf Config.params = false ∧
    (Instr.esTc22 0x88000000B8000000000000000000).wf Config.params = false ∧
    (Instr.esTc23 0x88000000C0000000000000000000).wf Config.params = false ∧
    (Instr.esTc24 0x88000000C8000000000000000000).wf Config.params = false ∧
    (Instr.esTc25 0x88000000D0000000000000000000).wf Config.params = false ∧
    (Instr.esTc26 0x88000000D8000000000000000000).wf Config.params = false ∧
    (Instr.esTc27 0x88000000E0000000000000000000).wf Config.params = false ∧
    (Instr.esTc28 0x88000000E8000000000000000000).wf Config.params = false ∧
    (Instr.esTc29 0x88000000F0000000000000000000).wf Config.params = false ∧
    (Instr.esTc30 0x88000000F8000000000000000000).wf Config.params = false ∧
    (Instr.esTc31 0x8800000000000000000000000000).wf Config.params = false := by decide +kernel

/-! ### Decoding: words written out from the encodings -/

/-- Formats B and P: `OP`, `LEN`, the bytes; eight timestamp bytes (30_encoding.md R83, R84). -/
theorem test_decode_buffers :
    decode Config.params .packet [0x13, 0xAB, 0xCD, 0xEF] = .ok (.crc [0xAB, 0xCD, 0xEF]) ∧
    decode Config.params .packet [0x20] = .ok (.crcEnc []) ∧
    decode Config.params .packet [0x96, 0x18, 0x46, 0x33, 0xC3, 0x1C, 0xA0] = .ok (.csDec [0x18, 0x46, 0x33, 0xC3, 0x1C, 0xA0]) ∧
    decode Config.params .packet [0xA2, 0x01, 0x23, 0x45, 0x67, 0x89, 0xAB, 0xCD, 0xEF, 0x59, 0xA0] = .ok (.parse 0x0123456789ABCDEF [0x59, 0xA0]) := by decide +kernel

/-- Format A: three reserved bits, then thirteen of `AC` (30_encoding.md R85). -/
theorem test_decode_formatA :
    decode Config.params .packet [0x30, 0x10, 0x40] = .ok (.altIsm 0x1040) ∧
    decode Config.params .packet [0x40, 0x00, 0x10] = .ok (.altIsq 0x0010) ∧
    decode Config.params .packet [0x50, 0x06, 0xB8] = .ok (.altFt 0x06B8) ∧
    decode Config.params .packet [0x60, 0x1F, 0xFF] = .ok (.altM 0x1FFF) := by decide +kernel

/-- Formats N and C, most significant byte first (30_encoding.md R86, R87). -/
theorem test_decode_angles :
    decode Config.params .packet [0x70, 0xE9, 0x7F, 0xFF, 0xFF] = .ok (.cprNl (-377487361)) ∧
    decode Config.params .packet [0x80, 0x91, 0x0D, 0x10, 0x75, 0xF7, 0x00, 0xFA, 0xD6, 0xF5] = .ok (.cprEnc 1 17 0x0D1075F7 0x00FAD6F5) := by decide +kernel

/-- Reserved opcodes, reserved bits, and packets of another length than byte 0 says (30_encoding.md R81, R82, R110). -/
theorem test_decode_refused :
    decode Config.params .packet [0x07] = .error .badOpcode ∧
    decode Config.params .packet [0xB0] = .error .badOpcode ∧
    decode Config.params .packet [0x5F, 0x00, 0x10] = .error .reservedBits ∧
    decode Config.params .packet [0x50, 0x20, 0x10] = .error .reservedBits ∧
    decode Config.params .packet [0x71, 0, 0, 0, 0] = .error .reservedBits ∧
    decode Config.params .packet [0x80, 0x51, 0, 0, 0, 0, 0, 0, 0, 0] = .error .reservedBits ∧
    decode Config.params .packet [0x12, 0] = .error .packetLength ∧
    decode Config.params .frame [0x80, 0, 0, 0, 0, 0, 0] = .error .lengthMismatch ∧
    decode Config.params .frame [0] = .error .frameLength ∧
    decode Config.params .squitter [0x80, 0, 0, 0, 0, 0, 0, 0, 0, 0, 0, 0, 0, 0] = .error .notSquitter := by decide +kernel

/-- Short frames: `df` is the top five bits of byte 0 (30_encoding.md R88). -/
theorem test_decode_shortRows :
    decode Config.params .frame [0x00, 0xA0, 0x57, 0xB9, 0x2B, 0xB9, 0x85] = .ok (.df0 0x00A057B92BB985) ∧
    decode Config.params .frame [0x24, 0xA0, 0x57, 0xB9, 0x2B, 0xB9, 0x85] = .ok (.df4 0x24A057B92BB985) ∧
    decode Config.params .frame [0x2D, 0xA0, 0x57, 0xB9, 0x2B, 0xB9, 0x85] = .ok (.df5 0x2DA057B92BB985) ∧
    decode Config.params .frame [0x5B, 0xA0, 0x57, 0xB9, 0x2B, 0xB9, 0x85] = .ok (.df11 0x5BA057B92BB985) := by decide +kernel

/-- Unassigned `df` in seven bytes (30_encoding.md R108). -/
theorem test_decode_unassigned7 :
    decode Config.params .frame [0x09, 0xA0, 0x57, 0xB9, 0x2B, 0xB9, 0x85] = .ok (.df1 (.short 0x09A057B92BB985)) ∧
    decode Config.params .frame [0x12, 0xA0, 0x57, 0xB9, 0x2B, 0xB9, 0x85] = .ok (.df2 (.short 0x12A057B92BB985)) ∧
    decode Config.params .frame [0x1B, 0xA0, 0x57, 0xB9, 0x2B, 0xB9, 0x85] = .ok (.df3 (.short 0x1BA057B92BB985)) ∧
    decode Config.params .frame [0x36, 0xA0, 0x57, 0xB9, 0x2B, 0xB9, 0x85] = .ok (.df6 (.short 0x36A057B92BB985)) ∧
    decode Config.params .frame [0x3F, 0xA0, 0x57, 0xB9, 0x2B, 0xB9, 0x85] = .ok (.df7 (.short 0x3FA057B92BB985)) ∧
    decode Config.params .frame [0x40, 0xA0, 0x57, 0xB9, 0x2B, 0xB9, 0x85] = .ok (.df8 (.short 0x40A057B92BB985)) ∧
    decode Config.params .frame [0x49, 0xA0, 0x57, 0xB9, 0x2B, 0xB9, 0x85] = .ok (.df9 (.short 0x49A057B92BB985)) ∧
    decode Config.params .frame [0x52, 0xA0, 0x57, 0xB9, 0x2B, 0xB9, 0x85] = .ok (.df10 (.short 0x52A057B92BB985)) ∧
    decode Config.params .frame [0x64, 0xA0, 0x57, 0xB9, 0x2B, 0xB9, 0x85] = .ok (.df12 (.short 0x64A057B92BB985)) ∧
    decode Config.params .frame [0x6D, 0xA0, 0x57, 0xB9, 0x2B, 0xB9, 0x85] = .ok (.df13 (.short 0x6DA057B92BB985)) ∧
    decode Config.params .frame [0x76, 0xA0, 0x57, 0xB9, 0x2B, 0xB9, 0x85] = .ok (.df14 (.short 0x76A057B92BB985)) ∧
    decode Config.params .frame [0x7F, 0xA0, 0x57, 0xB9, 0x2B, 0xB9, 0x85] = .ok (.df15 (.short 0x7FA057B92BB985)) ∧
    decode Config.params .frame [0xBF, 0xA0, 0x57, 0xB9, 0x2B, 0xB9, 0x85] = .ok (.df23 (.short 0xBFA057B92BB985)) := by decide +kernel

/-- Unassigned `df` in fourteen bytes (30_encoding.md R108). -/
theorem test_decode_unassigned14 :

    decode Config.params .frame [0x09, 0x48, 0x40, 0xD6, 0x20, 0x2C, 0xC3, 0x71, 0xC3, 0x2C, 0xE0, 0x57, 0x60, 0x98] = .ok (.df1 (.long 0x094840D6202CC371C32CE0576098)) ∧
    decode Config.params .frame [0x12, 0x48, 0x40, 0xD6, 0x20, 0x2C, 0xC3, 0x71, 0xC3, 0x2C, 0xE0, 0x57, 0x60, 0x98] = .ok (.df2 (.long 0x124840D6202CC371C32CE0576098)) ∧
    decode Config.params .frame [0x1B, 0x48, 0x40, 0xD6, 0x20, 0x2C, 0xC3, 0x71, 0xC3, 0x2C, 0xE0, 0x57, 0x60, 0x98] = .ok (.df3 (.long 0x1B4840D6202CC371C32CE0576098)) ∧
    decode Config.params .frame [0x36, 0x48, 0x40, 0xD6, 0x20, 0x2C, 0xC3, 0x71, 0xC3, 0x2C, 0xE0, 0x57, 0x60, 0x98] = .ok (.df6 (.long 0x364840D6202CC371C32CE0576098)) ∧
    decode Config.params .frame [0x3F, 0x48, 0x40, 0xD6, 0x20, 0x2C, 0xC3, 0x71, 0xC3, 0x2C, 0xE0, 0x57, 0x60, 0x98] = .ok (.df7 (.long 0x3F4840D6202CC371C32CE0576098)) ∧
    decode Config.params .frame [0x40, 0x48, 0x40, 0xD6, 0x20, 0x2C, 0xC3, 0x71, 0xC3, 0x2C, 0xE0, 0x57, 0x60, 0x98] = .ok (.df8 (.long 0x404840D6202CC371C32CE0576098)) ∧
    decode Config.params .frame [0x49, 0x48, 0x40, 0xD6, 0x20, 0x2C, 0xC3, 0x71, 0xC3, 0x2C, 0xE0, 0x57, 0x60, 0x98] = .ok (.df9 (.long 0x494840D6202CC371C32CE0576098)) ∧
    decode Config.params .frame [0x52, 0x48, 0x40, 0xD6, 0x20, 0x2C, 0xC3, 0x71, 0xC3, 0x2C, 0xE0, 0x57, 0x60, 0x98] = .ok (.df10 (.long 0x524840D6202CC371C32CE0576098)) ∧
    decode Config.params .frame [0x64, 0x48, 0x40, 0xD6, 0x20, 0x2C, 0xC3, 0x71, 0xC3, 0x2C, 0xE0, 0x57, 0x60, 0x98] = .ok (.df12 (.long 0x644840D6202CC371C32CE0576098)) ∧
    decode Config.params .frame [0x6D, 0x48, 0x40, 0xD6, 0x20, 0x2C, 0xC3, 0x71, 0xC3, 0x2C, 0xE0, 0x57, 0x60, 0x98] = .ok (.df13 (.long 0x6D4840D6202CC371C32CE0576098)) ∧
    decode Config.params .frame [0x76, 0x48, 0x40, 0xD6, 0x20, 0x2C, 0xC3, 0x71, 0xC3, 0x2C, 0xE0, 0x57, 0x60, 0x98] = .ok (.df14 (.long 0x764840D6202CC371C32CE0576098)) ∧
    decode Config.params .frame [0x7F, 0x48, 0x40, 0xD6, 0x20, 0x2C, 0xC3, 0x71, 0xC3, 0x2C, 0xE0, 0x57, 0x60, 0x98] = .ok (.df15 (.long 0x7F4840D6202CC371C32CE0576098)) ∧
    decode Config.params .frame [0xBF, 0x48, 0x40, 0xD6, 0x20, 0x2C, 0xC3, 0x71, 0xC3, 0x2C, 0xE0, 0x57, 0x60, 0x98] = .ok (.df23 (.long 0xBF4840D6202CC371C32CE0576098)) := by decide +kernel

/-- Long frames (30_encoding.md R88). -/
theorem test_decode_longRows :

    decode Config.params .frame [0x80, 0x48, 0x40, 0xD6, 0x20, 0x2C, 0xC3, 0x71, 0xC3, 0x2C, 0xE0, 0x57, 0x60, 0x98] = .ok (.df16 0x804840D6202CC371C32CE0576098) ∧
    decode Config.params .frame [0x89, 0x48, 0x40, 0xD6, 0x20, 0x2C, 0xC3, 0x71, 0xC3, 0x2C, 0xE0, 0x57, 0x60, 0x98] = .ok (.df17 0x894840D6202CC371C32CE0576098) ∧
    decode Config.params .frame [0x92, 0x48, 0x40, 0xD6, 0x20, 0x2C, 0xC3, 0x71, 0xC3, 0x2C, 0xE0, 0x57, 0x60, 0x98] = .ok (.df18 0x924840D6202CC371C32CE0576098) ∧
    decode Config.params .frame [0x9B, 0x48, 0x40, 0xD6, 0x20, 0x2C, 0xC3, 0x71, 0xC3, 0x2C, 0xE0, 0x57, 0x60, 0x98] = .ok (.df19 0x9B4840D6202CC371C32CE0576098) ∧
    decode Config.params .frame [0xA4, 0x48, 0x40, 0xD6, 0x20, 0x2C, 0xC3, 0x71, 0xC3, 0x2C, 0xE0, 0x57, 0x60, 0x98] = .ok (.df20 0xA44840D6202CC371C32CE0576098) ∧
    decode Config.params .frame [0xAD, 0x48, 0x40, 0xD6, 0x20, 0x2C, 0xC3, 0x71, 0xC3, 0x2C, 0xE0, 0x57, 0x60, 0x98] = .ok (.df21 0xAD4840D6202CC371C32CE0576098) ∧
    decode Config.params .frame [0xB6, 0x48, 0x40, 0xD6, 0x20, 0x2C, 0xC3, 0x71, 0xC3, 0x2C, 0xE0, 0x57, 0x60, 0x98] = .ok (.df22 0xB64840D6202CC371C32CE0576098) ∧
    decode Config.params .frame [0xC0, 0x48, 0x40, 0xD6, 0x20, 0x2C, 0xC3, 0x71, 0xC3, 0x2C, 0xE0, 0x57, 0x60, 0x98] = .ok (.df24 0xC04840D6202CC371C32CE0576098) ∧
    decode Config.params .frame [0xC9, 0x48, 0x40, 0xD6, 0x20, 0x2C, 0xC3, 0x71, 0xC3, 0x2C, 0xE0, 0x57, 0x60, 0x98] = .ok (.df25 0xC94840D6202CC371C32CE0576098) ∧
    decode Config.params .frame [0xD2, 0x48, 0x40, 0xD6, 0x20, 0x2C, 0xC3, 0x71, 0xC3, 0x2C, 0xE0, 0x57, 0x60, 0x98] = .ok (.df26 0xD24840D6202CC371C32CE0576098) ∧
    decode Config.params .frame [0xDB, 0x48, 0x40, 0xD6, 0x20, 0x2C, 0xC3, 0x71, 0xC3, 0x2C, 0xE0, 0x57, 0x60, 0x98] = .ok (.df27 0xDB4840D6202CC371C32CE0576098) ∧
    decode Config.params .frame [0xE4, 0x48, 0x40, 0xD6, 0x20, 0x2C, 0xC3, 0x71, 0xC3, 0x2C, 0xE0, 0x57, 0x60, 0x98] = .ok (.df28 0xE44840D6202CC371C32CE0576098) ∧
    decode Config.params .frame [0xED, 0x48, 0x40, 0xD6, 0x20, 0x2C, 0xC3, 0x71, 0xC3, 0x2C, 0xE0, 0x57, 0x60, 0x98] = .ok (.df29 0xED4840D6202CC371C32CE0576098) ∧
    decode Config.params .frame [0xF6, 0x48, 0x40, 0xD6, 0x20, 0x2C, 0xC3, 0x71, 0xC3, 0x2C, 0xE0, 0x57, 0x60, 0x98] = .ok (.df30 0xF64840D6202CC371C32CE0576098) ∧
    decode Config.params .frame [0xFF, 0x48, 0x40, 0xD6, 0x20, 0x2C, 0xC3, 0x71, 0xC3, 0x2C, 0xE0, 0x57, 0x60, 0x98] = .ok (.df31 0xFF4840D6202CC371C32CE0576098) := by decide +kernel

/-- Type codes 0 to 7: the top five bits of byte 4 (45_ext_squitter.md R250). -/
theorem test_decode_esRows0 :

    decode Config.params .squitter [0x8D, 0x48, 0x40, 0xD6, 0x05, 0x12, 0x34, 0x56, 0x78, 0x9A, 0xBC, 0xAD, 0xBD, 0x20] = .ok (.esTc0 0x8D4840D605123456789ABCADBD20) ∧
    decode Config.params .squitter [0x8D, 0x48, 0x40, 0xD6, 0x0D, 0x12, 0x34, 0x56, 0x78, 0x9A, 0xBC, 0xAD, 0xBD, 0x20] = .ok (.esTc1 0x8D4840D60D123456789ABCADBD20) ∧
    decode Config.params .squitter [0x8D, 0x48, 0x40, 0xD6, 0x15, 0x12, 0x34, 0x56, 0x78, 0x9A, 0xBC, 0xAD, 0xBD, 0x20] = .ok (.esTc2 0x8D4840D615123456789ABCADBD20) ∧
    decode Config.params .squitter [0x8D, 0x48, 0x40, 0xD6, 0x1D, 0x12, 0x34, 0x56, 0x78, 0x9A, 0xBC, 0xAD, 0xBD, 0x20] = .ok (.esTc3 0x8D4840D61D123456789ABCADBD20) ∧
    decode Config.params .squitter [0x8D, 0x48, 0x40, 0xD6, 0x25, 0x12, 0x34, 0x56, 0x78, 0x9A, 0xBC, 0xAD, 0xBD, 0x20] = .ok (.esTc4 0x8D4840D625123456789ABCADBD20) ∧
    decode Config.params .squitter [0x8D, 0x48, 0x40, 0xD6, 0x2D, 0x12, 0x34, 0x56, 0x78, 0x9A, 0xBC, 0xAD, 0xBD, 0x20] = .ok (.esTc5 0x8D4840D62D123456789ABCADBD20) ∧
    decode Config.params .squitter [0x8D, 0x48, 0x40, 0xD6, 0x35, 0x12, 0x34, 0x56, 0x78, 0x9A, 0xBC, 0xAD, 0xBD, 0x20] = .ok (.esTc6 0x8D4840D635123456789ABCADBD20) ∧
    decode Config.params .squitter [0x8D, 0x48, 0x40, 0xD6, 0x3D, 0x12, 0x34, 0x56, 0x78, 0x9A, 0xBC, 0xAD, 0xBD, 0x20] = .ok (.esTc7 0x8D4840D63D123456789ABCADBD20) := by decide +kernel

/-- Type codes 8 to 15: the top five bits of byte 4 (45_ext_squitter.md R250). -/
theorem test_decode_esRows1 :

    decode Config.params .squitter [0x8D, 0x48, 0x40, 0xD6, 0x45, 0x12, 0x34, 0x56, 0x78, 0x9A, 0xBC, 0xAD, 0xBD, 0x20] = .ok (.esTc8 0x8D4840D645123456789ABCADBD20) ∧
    decode Config.params .squitter [0x8D, 0x48, 0x40, 0xD6, 0x4D, 0x12, 0x34, 0x56, 0x78, 0x9A, 0xBC, 0xAD, 0xBD, 0x20] = .ok (.esTc9 0x8D4840D64D123456789ABCADBD20) ∧
    decode Config.params .squitter [0x8D, 0x48, 0x40, 0xD6, 0x55, 0x12, 0x34, 0x56, 0x78, 0x9A, 0xBC, 0xAD, 0xBD, 0x20] = .ok (.esTc10 0x8D4840D655123456789ABCADBD20) ∧
    decode Config.params .squitter [0x8D, 0x48, 0x40, 0xD6, 0x5D, 0x12, 0x34, 0x56, 0x78, 0x9A, 0xBC, 0xAD, 0xBD, 0x20] = .ok (.esTc11 0x8D4840D65D123456789ABCADBD20) ∧
    decode Config.params .squitter [0x8D, 0x48, 0x40, 0xD6, 0x65, 0x12, 0x34, 0x56, 0x78, 0x9A, 0xBC, 0xAD, 0xBD, 0x20] = .ok (.esTc12 0x8D4840D665123456789ABCADBD20) ∧
    decode Config.params .squitter [0x8D, 0x48, 0x40, 0xD6, 0x6D, 0x12, 0x34, 0x56, 0x78, 0x9A, 0xBC, 0xAD, 0xBD, 0x20] = .ok (.esTc13 0x8D4840D66D123456789ABCADBD20) ∧
    decode Config.params .squitter [0x8D, 0x48, 0x40, 0xD6, 0x75, 0x12, 0x34, 0x56, 0x78, 0x9A, 0xBC, 0xAD, 0xBD, 0x20] = .ok (.esTc14 0x8D4840D675123456789ABCADBD20) ∧
    decode Config.params .squitter [0x8D, 0x48, 0x40, 0xD6, 0x7D, 0x12, 0x34, 0x56, 0x78, 0x9A, 0xBC, 0xAD, 0xBD, 0x20] = .ok (.esTc15 0x8D4840D67D123456789ABCADBD20) := by decide +kernel

/-- Type codes 16 to 23: the top five bits of byte 4 (45_ext_squitter.md R250). -/
theorem test_decode_esRows2 :

    decode Config.params .squitter [0x8D, 0x48, 0x40, 0xD6, 0x85, 0x12, 0x34, 0x56, 0x78, 0x9A, 0xBC, 0xAD, 0xBD, 0x20] = .ok (.esTc16 0x8D4840D685123456789ABCADBD20) ∧
    decode Config.params .squitter [0x8D, 0x48, 0x40, 0xD6, 0x8D, 0x12, 0x34, 0x56, 0x78, 0x9A, 0xBC, 0xAD, 0xBD, 0x20] = .ok (.esTc17 0x8D4840D68D123456789ABCADBD20) ∧
    decode Config.params .squitter [0x8D, 0x48, 0x40, 0xD6, 0x95, 0x12, 0x34, 0x56, 0x78, 0x9A, 0xBC, 0xAD, 0xBD, 0x20] = .ok (.esTc18 0x8D4840D695123456789ABCADBD20) ∧
    decode Config.params .squitter [0x8D, 0x48, 0x40, 0xD6, 0x9D, 0x12, 0x34, 0x56, 0x78, 0x9A, 0xBC, 0xAD, 0xBD, 0x20] = .ok (.esTc19 0x8D4840D69D123456789ABCADBD20) ∧
    decode Config.params .squitter [0x8D, 0x48, 0x40, 0xD6, 0xA5, 0x12, 0x34, 0x56, 0x78, 0x9A, 0xBC, 0xAD, 0xBD, 0x20] = .ok (.esTc20 0x8D4840D6A5123456789ABCADBD20) ∧
    decode Config.params .squitter [0x8D, 0x48, 0x40, 0xD6, 0xAD, 0x12, 0x34, 0x56, 0x78, 0x9A, 0xBC, 0xAD, 0xBD, 0x20] = .ok (.esTc21 0x8D4840D6AD123456789ABCADBD20) ∧
    decode Config.params .squitter [0x8D, 0x48, 0x40, 0xD6, 0xB5, 0x12, 0x34, 0x56, 0x78, 0x9A, 0xBC, 0xAD, 0xBD, 0x20] = .ok (.esTc22 0x8D4840D6B5123456789ABCADBD20) ∧
    decode Config.params .squitter [0x8D, 0x48, 0x40, 0xD6, 0xBD, 0x12, 0x34, 0x56, 0x78, 0x9A, 0xBC, 0xAD, 0xBD, 0x20] = .ok (.esTc23 0x8D4840D6BD123456789ABCADBD20) := by decide +kernel

/-- Type codes 24 to 31: the top five bits of byte 4 (45_ext_squitter.md R250). -/
theorem test_decode_esRows3 :

    decode Config.params .squitter [0x8D, 0x48, 0x40, 0xD6, 0xC5, 0x12, 0x34, 0x56, 0x78, 0x9A, 0xBC, 0xAD, 0xBD, 0x20] = .ok (.esTc24 0x8D4840D6C5123456789ABCADBD20) ∧
    decode Config.params .squitter [0x8D, 0x48, 0x40, 0xD6, 0xCD, 0x12, 0x34, 0x56, 0x78, 0x9A, 0xBC, 0xAD, 0xBD, 0x20] = .ok (.esTc25 0x8D4840D6CD123456789ABCADBD20) ∧
    decode Config.params .squitter [0x8D, 0x48, 0x40, 0xD6, 0xD5, 0x12, 0x34, 0x56, 0x78, 0x9A, 0xBC, 0xAD, 0xBD, 0x20] = .ok (.esTc26 0x8D4840D6D5123456789ABCADBD20) ∧
    decode Config.params .squitter [0x8D, 0x48, 0x40, 0xD6, 0xDD, 0x12, 0x34, 0x56, 0x78, 0x9A, 0xBC, 0xAD, 0xBD, 0x20] = .ok (.esTc27 0x8D4840D6DD123456789ABCADBD20) ∧
    decode Config.params .squitter [0x8D, 0x48, 0x40, 0xD6, 0xE5, 0x12, 0x34, 0x56, 0x78, 0x9A, 0xBC, 0xAD, 0xBD, 0x20] = .ok (.esTc28 0x8D4840D6E5123456789ABCADBD20) ∧
    decode Config.params .squitter [0x8D, 0x48, 0x40, 0xD6, 0xED, 0x12, 0x34, 0x56, 0x78, 0x9A, 0xBC, 0xAD, 0xBD, 0x20] = .ok (.esTc29 0x8D4840D6ED123456789ABCADBD20) ∧
    decode Config.params .squitter [0x8D, 0x48, 0x40, 0xD6, 0xF5, 0x12, 0x34, 0x56, 0x78, 0x9A, 0xBC, 0xAD, 0xBD, 0x20] = .ok (.esTc30 0x8D4840D6F5123456789ABCADBD20) ∧
    decode Config.params .squitter [0x8D, 0x48, 0x40, 0xD6, 0xFD, 0x12, 0x34, 0x56, 0x78, 0x9A, 0xBC, 0xAD, 0xBD, 0x20] = .ok (.esTc31 0x8D4840D6FD123456789ABCADBD20) := by decide +kernel

/-- Opcode-table words: a packet's byte 0, a frame's byte 0, a type-code row's forty bits (log 7). -/
theorem test_tableWord :
    decodeTableWord 8 0x30 = some (.altIsm 0) ∧ decodeTableWord 8 0x88 = some (.df17 (0x88 <<< 104)) ∧
    decodeTableWord 8 0x58 = some (.df11 (0x58 <<< 48)) ∧
    decodeTableWord 40 0x8800000098 = some (.esTc19 (0x8800000098 <<< 72)) := by decide +kernel

/-- `withFetchWord` makes the next step run the word's instruction. -/
theorem test_withFetchWord :
    got (step (State.reset.withFetchWord 8 0x30)) (fun t => (t.status, t.result.flag)) = some (0, some 0) ∧
    got (step (State.reset.withFetchWord 8 0x58)) (fun t => (t.result.kind, t.result.aa)) = some (some 4, some 0) ∧
    got (step (State.reset.withFetchWord 40 0x8800000098)) (fun t => (t.result.kind, t.result.climbSt)) =
      some (some 8, some 2) := by decide +kernel

/-! ### One step -/

/-- V2. -/
theorem test_crc : got (run [0x17, 0x00, 0x00, 0x01, 0x91, 0x5F, 0xB7, 0x6D]) (fun t => (t.status, t.result.crc)) =
    some (0, some 0xA9A8FC) := by decide +kernel

/-- V22d. -/
theorem test_crc_short : got (run [0x14, 0x01, 0x00, 0x00, 0x00]) (fun t => (t.status, t.result.crc)) =
    some (0, some 0xFFF409) := by decide +kernel

/-- V21b. -/
theorem test_crcEnc : got (run [0x27, 0x59, 0xA0, 0x57, 0xB9, 0x2B, 0xB9, 0x85]) (fun t => (t.status, t.result.crc)) =
    some (0, some 0x2BB985) := by decide +kernel

/-- V27f. -/
theorem test_crcEnc_tooLong : got (run [0x2F, 0x00, 0x00, 0x00, 0x00, 0x00, 0x00, 0x00, 0x00, 0x00, 0x00, 0x00, 0x00, 0x00, 0x00, 0x00]) (fun t => (t.status, t.len, t.result.crc)) =
    some (1, 15, none) := by decide +kernel

/-- V42b. -/
theorem test_altIsm : got (run [0x30, 0x1F, 0xBF]) (fun t => (t.status, t.result.flag)) =
    some (0, some 0) := by decide +kernel

/-- V9. -/
theorem test_altIsm_set : got (run [0x30, 0x0F, 0x4F]) (fun t => (t.status, t.result.flag)) =
    some (0, some 1) := by decide +kernel

/-- V42e. -/
theorem test_altIsq : got (run [0x40, 0x1F, 0xEF]) (fun t => (t.status, t.result.flag)) =
    some (0, some 0) := by decide +kernel

/-- V42g. -/
theorem test_altIsq_metric : got (run [0x40, 0x1F, 0xFF]) (fun t => (t.status, t.result.flag)) =
    some (0, some 1) := by decide +kernel

/-- V39p. -/
theorem test_altFt : got (run [0x50, 0x10, 0x08]) (fun t => (t.status, t.result.altFt)) =
    some (0, some 300) := by decide +kernel

/-- V76b. -/
theorem test_altFt_metric : got (run [0x50, 0x00, 0x40]) (fun t => (t.status, t.result.altFt)) =
    some (3, none) := by decide +kernel

/-- V43f. -/
theorem test_altM : got (run [0x60, 0x01, 0x00]) (fun t => (t.status, t.result.altMNum)) =
    some (0, some (-457200)) := by decide +kernel

/-- V41h. -/
theorem test_altM_invalid : got (run [0x60, 0x00, 0x00]) (fun t => (t.status, t.result.altMNum)) =
    some (4, none) := by decide +kernel

/-- V29d. -/
theorem test_cprNl : got (run [0x70, 0xFD, 0x61, 0xE3, 0xCC]) (fun t => (t.status, t.result.nl)) =
    some (0, some 58) := by decide +kernel

/-- V29i. -/
theorem test_cprNl_domain : got (run [0x70, 0xE9, 0x7F, 0xFF, 0xFF]) (fun t => (t.status, t.result.nl)) =
    some (6, none) := by decide +kernel

/-- V31e. -/
theorem test_cprEnc : got (run [0x80, 0x11, 0xF7, 0x83, 0x73, 0x19, 0x25, 0xCB, 0x57, 0x3F]) (fun t => (t.result.encLat, t.result.encLon)) =
    some (some 44868, some 75615) := by decide +kernel

/-- V33a. -/
theorem test_cprEnc_odd : got (run [0x80, 0x91, 0x0D, 0x11, 0x02, 0x8A, 0x00, 0xFC, 0x17, 0x1A]) (fun t => (t.result.encLat, t.result.encLon)) =
    some (some 17070, some 50194) := by decide +kernel

/-- V13c. -/
theorem test_csDec : got (run [0x96, 0x3B, 0x9D, 0x75, 0x22, 0x08, 0x20]) (fun t => (t.status, t.result.cs)) =
    some (0, some ⟨0x4E, 0x39, 0x35, 0x35, 0x48, 0x20, 0x20, 0x20⟩) := by decide +kernel

/-- V73b. -/
theorem test_csDec_length : got (run [0x97, 0x18, 0x46, 0x33, 0xC3, 0x1C, 0xA0, 0x00]) (fun t => (t.status, t.result.cs)) =
    some (1, none) := by decide +kernel

/-- V66a. -/
theorem test_parse : got (run [0xA7, 0x01, 0x23, 0x45, 0x67, 0x89, 0xAB, 0xCD, 0xEF, 0x59, 0xA0, 0x57, 0xB9, 0x2B, 0xB9, 0x85]) (fun t => (t.result.ts, t.result.aa)) =
    some (some 0x0123456789ABCDEF, some 0xA057B9) := by decide +kernel

/-- V65d. -/
theorem test_parse_mismatch : got (run [0xAE, 0x00, 0x00, 0x00, 0x00, 0x00, 0x00, 0x00, 0x00, 0x59, 0xA0, 0x57, 0xB9, 0x2B, 0xB9, 0x85, 0x00, 0x00, 0x00, 0x00, 0x00, 0x00, 0x00]) (fun t => (t.status, t.result.df)) =
    some (2, none) := by decide +kernel

/-- V74h. -/
theorem test_badOpcode : got (run [0xFF]) (fun t => (t.status, t.host)) =
    some (5, [.byte 0xEE]) := by decide +kernel

/-- V75f. -/
theorem test_badOperand : got (run [0x80, 0x51, 0x00, 0x00, 0x00, 0x00, 0x00, 0x00, 0x00, 0x00]) (fun t => (t.status, t.result.encLat)) =
    some (6, none) := by decide +kernel

/-- V54c. -/
theorem test_df0 : got (row [0x01, 0xFF, 0xFF, 0xFF, 0x67, 0xFA, 0x64]) (fun t => (t.result.x0, t.result.altSt, t.result.altFt)) =
    some (some 63, some 2, none) := by decide +kernel

/-- V55a. -/
theorem test_df4 : got (row [0x22, 0x00, 0x06, 0xB8, 0xBD, 0xA6, 0xEB]) (fun t => (t.result.aa, t.result.fs, t.result.altFt)) =
    some (some 0x4840D6, some 2, some 10000) := by decide +kernel

/-- V56b. -/
theorem test_df5 : got (row [0x29, 0x10, 0x6A, 0xAA, 0xC2, 0xB4, 0x17]) (fun t => (t.result.dr, t.result.idCode, t.result.squawk)) =
    some (some 2, some 0x0AAA, some 0o7700) := by decide +kernel

/-- V19c. -/
theorem test_df11 : got (row [0x5D, 0xFF, 0xFF, 0xFF, 0x28, 0xE0, 0x21]) (fun t => (t.result.ca, t.result.aa, t.result.crc)) =
    some (some 5, some 0xFFFFFF, some 5) := by decide +kernel

/-- V58c. -/
theorem test_df16 : got (row [0x83, 0xF9, 0xEF, 0x4F, 0x30, 0xC0, 0x01, 0x78, 0x32, 0x2C, 0xA1, 0x5B, 0x9F, 0x0F]) (fun t => (t.result.ara, t.result.tid, t.result.tidr)) =
    some (some 0x3000, some 0x0322CA1, some 50) := by decide +kernel

/-- V58b. -/
theorem test_df16_noThreat : got (row [0x84, 0x02, 0x06, 0xB8, 0x30, 0x80, 0x00, 0x05, 0x21, 0x03, 0x58, 0x22, 0x9A, 0xB9]) (fun t => (t.result.tti, t.result.tida, t.result.mv)) =
    some (some 1, none, some 0x30800005210358) := by decide +kernel

/-- V50a. -/
theorem test_df17 : got (row [0x8D, 0x48, 0x40, 0xD6, 0x20, 0x2C, 0xC3, 0x71, 0xC3, 0x2C, 0xE0, 0x57, 0x60, 0x99]) (fun t => (t.result.crc, t.result.tc, t.result.cs)) =
    some (some 1, some 4, some ⟨0x4B, 0x4C, 0x4D, 0x31, 0x30, 0x32, 0x33, 0x20⟩) := by decide +kernel

/-- V59b. -/
theorem test_df18 : got (row [0x97, 0x48, 0x40, 0xD6, 0x20, 0x00, 0x00, 0x00, 0x00, 0x00, 0x00, 0xD6, 0xA7, 0x55]) (fun t => (t.result.kind, t.result.aa)) =
    some (some 10, none) := by decide +kernel

/-- V60b. -/
theorem test_df19 : got (row [0x98, 0xAD, 0xF7, 0xC8, 0x11, 0x22, 0x33, 0x44, 0x55, 0x66, 0x77, 0xAA, 0xBB, 0xCC]) (fun t => (t.result.aa, t.result.me, t.result.pi)) =
    some (some 0xADF7C8, some 0x11223344556677, some 0xAABBCC) := by decide +kernel

/-- V60c. -/
theorem test_df19_other : got (row [0x9B, 0xAD, 0xF7, 0xC8, 0x11, 0x22, 0x33, 0x44, 0x55, 0x66, 0x77, 0xAA, 0xBB, 0xCC]) (fun t => (t.result.af, t.result.aa, t.result.me)) =
    some (some 3, none, none) := by decide +kernel

/-- V61a. -/
theorem test_df20 : got (row [0xA1, 0x00, 0x01, 0x91, 0x20, 0x2C, 0xC3, 0x71, 0xC3, 0x2C, 0xE0, 0x05, 0x10, 0x6A]) (fun t => (t.result.bds, t.result.mb, t.result.altFt)) =
    some (some 0x20, some 0x202CC371C32CE0, some 1425) := by decide +kernel

/-- V61c. -/
theorem test_df21 : got (row [0xAA, 0x08, 0x4A, 0xAA, 0x10, 0x03, 0x0A, 0x80, 0x00, 0x00, 0x00, 0xA1, 0x13, 0x11]) (fun t => (t.result.um, t.result.squawk, t.result.ac)) =
    some (some 2, some 0o7700, none) := by decide +kernel

/-- V59d. -/
theorem test_df22 : got (row [0xB7, 0xFF, 0xFF, 0xFF, 0xFF, 0xFF, 0xFF, 0xFF, 0xFF, 0xFF, 0xFF, 0xFF, 0xFF, 0xFF]) (fun t => (t.result.kind, t.result.crc)) =
    some (some 14, some 0xF12B9D) := by decide +kernel

/-- V62b. -/
theorem test_df24 : got (row [0xC5, 0x01, 0x02, 0x03, 0x04, 0x05, 0x06, 0x07, 0x08, 0x09, 0x0A, 0x2F, 0xF7, 0xD5]) (fun t => (t.result.x0, t.result.ke, t.result.nd)) =
    some (some 0, some 0, some 5) := by decide +kernel

/-- R98 by hand. -/
theorem test_df25 : got (row [0xC9, 0x01, 0x02, 0x03, 0x04, 0x05, 0x06, 0x07, 0x08, 0x09, 0x0A, 0x00, 0x00, 0x00]) (fun t => (t.result.x0, t.result.ke, t.result.nd)) =
    some (some 0, some 0, some 9) := by decide +kernel

/-- R98 by hand. -/
theorem test_df26 : got (row [0xD2, 0x01, 0x02, 0x03, 0x04, 0x05, 0x06, 0x07, 0x08, 0x09, 0x0A, 0x00, 0x00, 0x00]) (fun t => (t.result.x0, t.result.ke, t.result.nd)) =
    some (some 0, some 1, some 2) := by decide +kernel

/-- V62c. -/
theorem test_df27 : got (row [0xDA, 0xFF, 0xFF, 0xFF, 0xFF, 0xFF, 0xFF, 0xFF, 0xFF, 0xFF, 0xFF, 0xF4, 0x1A, 0xF5]) (fun t => (t.result.x0, t.result.ke, t.result.nd)) =
    some (some 0, some 1, some 10) := by decide +kernel

/-- V62d. -/
theorem test_df28 : got (row [0xE0, 0x01, 0x02, 0x03, 0x04, 0x05, 0x06, 0x07, 0x08, 0x09, 0x0A, 0x18, 0x00, 0x3A]) (fun t => (t.result.x0, t.result.ke, t.result.nd)) =
    some (some 1, some 0, some 0) := by decide +kernel

/-- R98 by hand. -/
theorem test_df29 : got (row [0xEF, 0x01, 0x02, 0x03, 0x04, 0x05, 0x06, 0x07, 0x08, 0x09, 0x0A, 0x00, 0x00, 0x00]) (fun t => (t.result.x0, t.result.ke, t.result.nd)) =
    some (some 1, some 0, some 15) := by decide +kernel

/-- R98 by hand. -/
theorem test_df30 : got (row [0xF0, 0x01, 0x02, 0x03, 0x04, 0x05, 0x06, 0x07, 0x08, 0x09, 0x0A, 0x00, 0x00, 0x00]) (fun t => (t.result.x0, t.result.ke, t.result.nd)) =
    some (some 1, some 1, some 0) := by decide +kernel

/-- V62e. -/
theorem test_df31 : got (row [0xFF, 0x01, 0x02, 0x03, 0x04, 0x05, 0x06, 0x07, 0x08, 0x09, 0x0A, 0xD5, 0xEE, 0x3F]) (fun t => (t.result.x0, t.result.ke, t.result.nd)) =
    some (some 1, some 1, some 15) := by decide +kernel

/-- V63b. -/
theorem test_df1 : got (row [0x08, 0x11, 0x22, 0x33, 0x44, 0x55, 0x66, 0x77, 0x88, 0x99, 0x00, 0x04, 0x9C, 0xED]) (fun t => (t.status, t.result.kind, t.result.aa)) =
    some (0, some 16, none) := by decide +kernel

/-- R221 by hand. -/
theorem test_df2 : got (row [0x10, 0xA0, 0x57, 0xB9, 0x2B, 0xB9, 0x85]) (fun t => (t.status, t.result.kind, t.result.aa)) =
    some (0, some 16, none) := by decide +kernel

/-- R221 by hand. -/
theorem test_df3 : got (row [0x18, 0xA0, 0x57, 0xB9, 0x2B, 0xB9, 0x85]) (fun t => (t.status, t.result.kind, t.result.aa)) =
    some (0, some 16, none) := by decide +kernel

/-- R221 by hand. -/
theorem test_df6 : got (row [0x30, 0xA0, 0x57, 0xB9, 0x2B, 0xB9, 0x85]) (fun t => (t.status, t.result.kind, t.result.aa)) =
    some (0, some 16, none) := by decide +kernel

/-- R221 by hand. -/
theorem test_df7 : got (row [0x38, 0xA0, 0x57, 0xB9, 0x2B, 0xB9, 0x85]) (fun t => (t.status, t.result.kind, t.result.aa)) =
    some (0, some 16, none) := by decide +kernel

/-- R221 by hand. -/
theorem test_df8 : got (row [0x40, 0xA0, 0x57, 0xB9, 0x2B, 0xB9, 0x85]) (fun t => (t.status, t.result.kind, t.result.aa)) =
    some (0, some 16, none) := by decide +kernel

/-- R221 by hand. -/
theorem test_df9 : got (row [0x48, 0xA0, 0x57, 0xB9, 0x2B, 0xB9, 0x85]) (fun t => (t.status, t.result.kind, t.result.aa)) =
    some (0, some 16, none) := by decide +kernel

/-- R221 by hand. -/
theorem test_df10 : got (row [0x50, 0xA0, 0x57, 0xB9, 0x2B, 0xB9, 0x85]) (fun t => (t.status, t.result.kind, t.result.aa)) =
    some (0, some 16, none) := by decide +kernel

/-- V63c. -/
theorem test_df12 : got (row [0x60, 0x00, 0x00, 0x00, 0x00, 0x00, 0x00]) (fun t => (t.status, t.result.kind, t.result.aa)) =
    some (0, some 16, none) := by decide +kernel

/-- R221 by hand. -/
theorem test_df13 : got (row [0x68, 0xA0, 0x57, 0xB9, 0x2B, 0xB9, 0x85]) (fun t => (t.status, t.result.kind, t.result.aa)) =
    some (0, some 16, none) := by decide +kernel

/-- R221 by hand. -/
theorem test_df14 : got (row [0x70, 0xA0, 0x57, 0xB9, 0x2B, 0xB9, 0x85]) (fun t => (t.status, t.result.kind, t.result.aa)) =
    some (0, some 16, none) := by decide +kernel

/-- V63d. -/
theorem test_df15 : got (row [0x78, 0x00, 0x00, 0x00, 0x00, 0x00, 0x00]) (fun t => (t.status, t.result.kind, t.result.aa)) =
    some (0, some 16, none) := by decide +kernel

/-- V63f. -/
theorem test_df23 : got (row [0xBF, 0xFF, 0xFF, 0xFF, 0xFF, 0xFF, 0xFF]) (fun t => (t.status, t.result.kind, t.result.aa)) =
    some (0, some 16, none) := by decide +kernel

/-- V49b. -/
theorem test_esTc1 : got (esRow [0x8D, 0x48, 0x40, 0xD6, 0x0F, 0x04, 0x20, 0xC4, 0x14, 0x61, 0xC8, 0xE2, 0xE4, 0x89]) (fun t => (t.result.kind, t.result.tc, t.result.cs)) =
    some (some 6, some 1, some ⟨0x41, 0x42, 0x43, 0x44, 0x45, 0x46, 0x47, 0x48⟩) := by decide +kernel

/-- R252 by hand, the payload of V72e. -/
theorem test_esTc2 : got (esRow [0x8D, 0x48, 0x40, 0xD6, 0x17, 0x04, 0x20, 0xC4, 0x14, 0x61, 0xC8, 0x00, 0x00, 0x00]) (fun t => (t.result.kind, t.result.tc, t.result.cs)) =
    some (some 6, some 2, some ⟨0x41, 0x42, 0x43, 0x44, 0x45, 0x46, 0x47, 0x48⟩) := by decide +kernel

/-- R252 by hand, the payload of V72e. -/
theorem test_esTc3 : got (esRow [0x8D, 0x48, 0x40, 0xD6, 0x1F, 0x04, 0x20, 0xC4, 0x14, 0x61, 0xC8, 0x00, 0x00, 0x00]) (fun t => (t.result.kind, t.result.tc, t.result.cs)) =
    some (some 6, some 3, some ⟨0x41, 0x42, 0x43, 0x44, 0x45, 0x46, 0x47, 0x48⟩) := by decide +kernel

/-- V49c. -/
theorem test_esTc4 : got (esRow [0x8D, 0x48, 0x40, 0xD6, 0x20, 0xFF, 0xFF, 0xFF, 0xFF, 0xFF, 0xFF, 0x69, 0x20, 0x6C]) (fun t => (t.result.kind, t.result.tc, t.result.cs)) =
    some (some 6, some 4, some ⟨0x3F, 0x3F, 0x3F, 0x3F, 0x3F, 0x3F, 0x3F, 0x3F⟩) := by decide +kernel

/-- V49f. -/
theorem test_esTc9 : got (esRow [0x8D, 0x40, 0x62, 0x1D, 0x4F, 0xFF, 0xFF, 0xFF, 0xFF, 0xFF, 0xFF, 0x76, 0xA7, 0x29]) (fun t => (t.result.tc, t.result.ss, t.result.alt, t.result.lonCpr)) =
    some (some 9, some 3, some 0xFFF, some 131071) := by decide +kernel

/-- V46b. -/
theorem test_esTc11 : got (esRow [0x8D, 0x40, 0x62, 0x1D, 0x58, 0xC3, 0x86, 0x43, 0x5C, 0xC4, 0x12, 0x69, 0x2A, 0xD6]) (fun t => (t.result.cprOdd, t.result.latCpr, t.result.lonCpr)) =
    some (some 1, some 74158, some 50194) := by decide +kernel

/-- V49h. -/
theorem test_esTc12 : got (esRow [0x8D, 0x40, 0x62, 0x1D, 0x60, 0xC3, 0x84, 0x83, 0xFE, 0xC3, 0x19, 0x5B, 0x2C, 0x92]) (fun t => (t.result.tc, t.result.latCpr, t.result.lonCpr)) =
    some (some 12, some 16895, some 49945) := by decide +kernel

/-- V49g. -/
theorem test_esTc18 : got (esRow [0x8D, 0x40, 0x62, 0x1D, 0x90, 0x00, 0x00, 0x00, 0x00, 0x00, 0x00, 0xD3, 0x37, 0x71]) (fun t => (t.result.tc, t.result.latCpr, t.result.altFt)) =
    some (some 18, some 0, none) := by decide +kernel

/-- R253 by hand, the payload of V46a. -/
theorem test_esTc10 : got (esRow [0x8D, 0x48, 0x40, 0xD6, 0x50, 0xC3, 0x82, 0xD6, 0x90, 0xC8, 0xAC, 0x00, 0x00, 0x00]) (fun t => (t.result.tc, t.result.latCpr, t.result.lonCpr)) =
    some (some 10, some 93000, some 51372) := by decide +kernel

/-- R253 by hand, the payload of V46a. -/
theorem test_esTc13 : got (esRow [0x8D, 0x48, 0x40, 0xD6, 0x68, 0xC3, 0x82, 0xD6, 0x90, 0xC8, 0xAC, 0x00, 0x00, 0x00]) (fun t => (t.result.tc, t.result.latCpr, t.result.lonCpr)) =
    some (some 13, some 93000, some 51372) := by decide +kernel

/-- R253 by hand, the payload of V46a. -/
theorem test_esTc14 : got (esRow [0x8D, 0x48, 0x40, 0xD6, 0x70, 0xC3, 0x82, 0xD6, 0x90, 0xC8, 0xAC, 0x00, 0x00, 0x00]) (fun t => (t.result.tc, t.result.latCpr, t.result.lonCpr)) =
    some (some 14, some 93000, some 51372) := by decide +kernel

/-- R253 by hand, the payload of V46a. -/
theorem test_esTc15 : got (esRow [0x8D, 0x48, 0x40, 0xD6, 0x78, 0xC3, 0x82, 0xD6, 0x90, 0xC8, 0xAC, 0x00, 0x00, 0x00]) (fun t => (t.result.tc, t.result.latCpr, t.result.lonCpr)) =
    some (some 15, some 93000, some 51372) := by decide +kernel

/-- R253 by hand, the payload of V46a. -/
theorem test_esTc16 : got (esRow [0x8D, 0x48, 0x40, 0xD6, 0x80, 0xC3, 0x82, 0xD6, 0x90, 0xC8, 0xAC, 0x00, 0x00, 0x00]) (fun t => (t.result.tc, t.result.latCpr, t.result.lonCpr)) =
    some (some 16, some 93000, some 51372) := by decide +kernel

/-- R253 by hand, the payload of V46a. -/
theorem test_esTc17 : got (esRow [0x8D, 0x48, 0x40, 0xD6, 0x88, 0xC3, 0x82, 0xD6, 0x90, 0xC8, 0xAC, 0x00, 0x00, 0x00]) (fun t => (t.result.tc, t.result.latCpr, t.result.lonCpr)) =
    some (some 17, some 93000, some 51372) := by decide +kernel

/-- V47b. -/
theorem test_esTc19 : got (esRow [0x8D, 0xA0, 0x5F, 0x21, 0x9B, 0x06, 0xB6, 0xAF, 0x18, 0x94, 0x00, 0xCB, 0xC3, 0x3F]) (fun t => (t.result.we, t.result.ns, t.result.climb)) =
    some (some 694, some 376, some (-2304)) := by decide +kernel

/-- V48a. -/
theorem test_esTc19_unsupported : got (esRow [0x8D, 0x48, 0x50, 0x20, 0x9A, 0x00, 0x64, 0x19, 0x00, 0x38, 0x00, 0x5C, 0xA6, 0x65]) (fun t => (t.status, t.result.climb, t.result.climbSt)) =
    some (0, none, some 2) := by decide +kernel

/-- V49a. -/
theorem test_esTc0 : got (esRow [0x8D, 0x48, 0x40, 0xD6, 0x05, 0x12, 0x34, 0x56, 0x78, 0x9A, 0xBC, 0xAD, 0xBD, 0x20]) (fun t => (t.result.kind, t.result.tc, t.result.me)) =
    some (some 9, some 0, some 0x05123456789ABC) := by decide +kernel

/-- V49d. -/
theorem test_esTc5 : got (esRow [0x8D, 0x48, 0x40, 0xD6, 0x2D, 0x12, 0x34, 0x56, 0x78, 0x9A, 0xBC, 0x3E, 0x68, 0xF3]) (fun t => (t.result.kind, t.result.tc, t.result.me)) =
    some (some 9, some 5, some 0x2D123456789ABC) := by decide +kernel

/-- R257 by hand. -/
theorem test_esTc6 : got (esRow [0x8D, 0x48, 0x40, 0xD6, 0x35, 0x12, 0x34, 0x56, 0x78, 0x9A, 0xBC, 0x00, 0x00, 0x00]) (fun t => (t.result.kind, t.result.tc, t.result.me)) =
    some (some 9, some 6, some 0x35123456789ABC) := by decide +kernel

/-- R257 by hand. -/
theorem test_esTc7 : got (esRow [0x8D, 0x48, 0x40, 0xD6, 0x3D, 0x12, 0x34, 0x56, 0x78, 0x9A, 0xBC, 0x00, 0x00, 0x00]) (fun t => (t.result.kind, t.result.tc, t.result.me)) =
    some (some 9, some 7, some 0x3D123456789ABC) := by decide +kernel

/-- V49e. -/
theorem test_esTc8 : got (esRow [0x8D, 0x48, 0x40, 0xD6, 0x45, 0x12, 0x34, 0x56, 0x78, 0x9A, 0xBC, 0x4D, 0xF1, 0xAC]) (fun t => (t.result.kind, t.result.tc, t.result.me)) =
    some (some 9, some 8, some 0x45123456789ABC) := by decide +kernel

/-- V49i. -/
theorem test_esTc20 : got (esRow [0x8D, 0x48, 0x40, 0xD6, 0xA5, 0x12, 0x34, 0x56, 0x78, 0x9A, 0xBC, 0xE2, 0xF6, 0x77]) (fun t => (t.result.kind, t.result.tc, t.result.me)) =
    some (some 9, some 20, some 0xA5123456789ABC) := by decide +kernel

/-- R257 by hand. -/
theorem test_esTc21 : got (esRow [0x8D, 0x48, 0x40, 0xD6, 0xAD, 0x12, 0x34, 0x56, 0x78, 0x9A, 0xBC, 0x00, 0x00, 0x00]) (fun t => (t.result.kind, t.result.tc, t.result.me)) =
    some (some 9, some 21, some 0xAD123456789ABC) := by decide +kernel

/-- V49j. -/
theorem test_esTc22 : got (esRow [0x8D, 0x48, 0x40, 0xD6, 0xB5, 0x12, 0x34, 0x56, 0x78, 0x9A, 0xBC, 0xDA, 0xE5, 0x54]) (fun t => (t.result.kind, t.result.tc, t.result.me)) =
    some (some 9, some 22, some 0xB5123456789ABC) := by decide +kernel

/-- V49k. -/
theorem test_esTc23 : got (esRow [0x8D, 0x48, 0x40, 0xD6, 0xBD, 0x12, 0x34, 0x56, 0x78, 0x9A, 0xBC, 0x39, 0x16, 0xC1]) (fun t => (t.result.kind, t.result.tc, t.result.me)) =
    some (some 9, some 23, some 0xBD123456789ABC) := by decide +kernel

/-- R257 by hand. -/
theorem test_esTc24 : got (esRow [0x8D, 0x48, 0x40, 0xD6, 0xC5, 0x12, 0x34, 0x56, 0x78, 0x9A, 0xBC, 0x00, 0x00, 0x00]) (fun t => (t.result.kind, t.result.tc, t.result.me)) =
    some (some 9, some 24, some 0xC5123456789ABC) := by decide +kernel

/-- R257 by hand. -/
theorem test_esTc25 : got (esRow [0x8D, 0x48, 0x40, 0xD6, 0xCD, 0x12, 0x34, 0x56, 0x78, 0x9A, 0xBC, 0x00, 0x00, 0x00]) (fun t => (t.result.kind, t.result.tc, t.result.me)) =
    some (some 9, some 25, some 0xCD123456789ABC) := by decide +kernel

/-- R257 by hand. -/
theorem test_esTc26 : got (esRow [0x8D, 0x48, 0x40, 0xD6, 0xD5, 0x12, 0x34, 0x56, 0x78, 0x9A, 0xBC, 0x00, 0x00, 0x00]) (fun t => (t.result.kind, t.result.tc, t.result.me)) =
    some (some 9, some 26, some 0xD5123456789ABC) := by decide +kernel

/-- R257 by hand. -/
theorem test_esTc27 : got (esRow [0x8D, 0x48, 0x40, 0xD6, 0xDD, 0x12, 0x34, 0x56, 0x78, 0x9A, 0xBC, 0x00, 0x00, 0x00]) (fun t => (t.result.kind, t.result.tc, t.result.me)) =
    some (some 9, some 27, some 0xDD123456789ABC) := by decide +kernel

/-- V49l. -/
theorem test_esTc28 : got (esRow [0x8D, 0x48, 0x40, 0xD6, 0xE5, 0x12, 0x34, 0x56, 0x78, 0x9A, 0xBC, 0x02, 0xBA, 0xFB]) (fun t => (t.result.kind, t.result.tc, t.result.me)) =
    some (some 9, some 28, some 0xE5123456789ABC) := by decide +kernel

/-- V49m. -/
theorem test_esTc29 : got (esRow [0x8D, 0x48, 0x40, 0xD6, 0xED, 0x12, 0x34, 0x56, 0x78, 0x9A, 0xBC, 0xE1, 0x49, 0x6E]) (fun t => (t.result.kind, t.result.tc, t.result.me)) =
    some (some 9, some 29, some 0xED123456789ABC) := by decide +kernel

/-- R257 by hand. -/
theorem test_esTc30 : got (esRow [0x8D, 0x48, 0x40, 0xD6, 0xF5, 0x12, 0x34, 0x56, 0x78, 0x9A, 0xBC, 0x00, 0x00, 0x00]) (fun t => (t.result.kind, t.result.tc, t.result.me)) =
    some (some 9, some 30, some 0xF5123456789ABC) := by decide +kernel

/-- V49n. -/
theorem test_esTc31 : got (esRow [0x8D, 0x48, 0x40, 0xD6, 0xFD, 0x12, 0x34, 0x56, 0x78, 0x9A, 0xBC, 0xD9, 0x5A, 0x4D]) (fun t => (t.result.kind, t.result.tc, t.result.me)) =
    some (some 9, some 31, some 0xFD123456789ABC) := by decide +kernel

/-! ### The statements' hypotheses can be met -/

/-! Each `witness_<Name>` shows a state and operands that meet the hypotheses of `Obligations.<Name>` together, clause by
clause, at the ends of the ranges where there are ranges. -/

theorem feetOf_intro {ac : BitVec 13} {v : Int} (h : altFt ac = .feet v) (hv : (BitVec.ofInt 18 v).toInt = v) :
    FeetOf ac v := by
  intro s
  refine ⟨finish { Result.empty with altFt := some (BitVec.ofInt 18 v) } (acceptA 5 ac s), _, ?_, rfl, rfl, hv⟩
  show (match altFt ac with
    | .feet v => _
    | .unsupported => _
    | .invalid => _) = _
  rw [h]

/-- The zone count at the default `ANGLE_FRAC`. -/
def nlHere (lat : Int) : Nat := nlOf 22 lat

theorem nlGives_intro {lat : Int} (h : latOk 22 lat = true) : NlGives lat (nlHere lat) := fun s hs =>
  ⟨finish { Result.empty with nl := some (BitVec.ofNat 6 (nlHere lat)) } (acceptN lat s), by
    show (if latOk s.params.angleFrac lat = true then _ else _) = _
    rw [hs, if_pos h]
    show Host.Outcome.next (finish { Result.empty with nl := some (BitVec.ofNat 6 (nlOf s.params.angleFrac lat)) } _) = _
    rw [hs]
    rfl, rfl, rfl⟩

theorem crcGives_intro {bytes : List Byte} (h3 : 3 ≤ bytes.length) (h14 : bytes.length ≤ 14) {c : BitVec 24}
    (h : crcRead bytes.length (crcWork false bytes 0) = c) : CrcGives bytes c := fun s =>
  ⟨_, crcCommand_ok h3 h14 1 false s, rfl, by rw [crcRead_congr h3 h14 false s.w 0, h]; rfl⟩

theorem isZoneCount_intro {table : List (Nat × Nat)} {a n : Nat} (q : Nat) (hn : 1 ≤ n ∧ n ≤ 59)
    (h : (n, q) ∈ table ∧ a ≤ q) (hm : ∀ e ∈ table, a ≤ e.2 → e.1 ≤ n) : IsZoneCount table a n :=
  ⟨hn.1, hn.2, .inr ⟨q, h⟩, fun m k hk => hm (m, k) hk⟩

theorem recordLegal_empty : RecordLegal Result.empty := by
  constructor <;> simp [Result.empty, altOk, climbOk]

/-- A short frame of DF 11 in `BUF`, the machine in `S_DF11`. -/
def atDf11 : State := placeFrame [0x59, 0xA0, 0x57, 0xB9, 0x2B, 0xB9, 0x85] State.reset

/-- An airborne position in `BUF`, the machine in `S_ES_POS`. -/
def atPosition : State :=
  placeSquitter [0x8D, 0x40, 0x62, 0x1D, 0x58, 0xC3, 0x86, 0x43, 0x5C, 0xC4, 0x12, 0x69, 0x2A, 0xD6] State.reset

/-- A state that has done other things before: other operands, another record, other bits in `W`. -/
def busyPast (packet : List Byte) : State :=
  { State.reset with
    ac := 7
    w := 5
    status := 3
    buf := memWrite State.reset.buf 2 0x77
    result := { Result.empty with nl := some 9 }
    host := hostBytes packet ++ [.reset, .byte 0x30] }

theorem witness_DecodeEncodeRoundTrip :
    Config.params.legal = true ∧ (Instr.parse 7 (List.replicate 15 9)).wf Config.params = true ∧
    (Instr.cprEnc 1 31 (-2147483648) 2147483647).wf Config.params = true ∧
    (Instr.df23 (.short 0xB8000000000000)).wf Config.params = true ∧
    (Instr.df23 (.long 0xB8000000000000FFFFFFFFFFFFFF)).wf Config.params = true ∧
    (Instr.esTc19 0x8800000098000000000000000000).wf Config.params = true := by decide +kernel

theorem witness_EncodeDecodeRoundTrip : Config.params.legal = true ∧
    decode Config.params .packet [0x60, 0x1F, 0xFF] = .ok (.altM 0x1FFF) ∧
    decode Config.params .frame [0x59, 0xA0, 0x57, 0xB9, 0x2B, 0xB9, 0x85] = .ok (.df11 0x59A057B92BB985) ∧
    decode Config.params .squitter [0x88, 0, 0, 0, 0x98, 0, 0, 0, 0, 0, 0, 0, 0, 0] = .ok (.esTc19 (0x8800000098 <<< 72)) := by
  decide +kernel

theorem witness_FieldIsBitSum : 13 + 11 ≤ 8 * [0x12, 0x34, (0x56 : Byte)].length ∧
    1 + 2 ≤ [0x12, 0x34, (0x56 : Byte)].length ∧ 23 < 8 * [0x12, 0x34, (0x56 : Byte)].length ∧
    bytesField [0x12, 0x34, 0x56] 13 11 = 0x456 ∧ bytesField [0x12, 0x34, 0x56] 8 16 = 0x3456 := by decide +kernel

theorem witness_ReservedOpcodeRefused : (0x0F : Byte).toNat / 16 = 0 ∧
    (11 ≤ (0xB0 : Byte).toNat / 16 ∧ (given [0xB0]).fsm = .idle ∧ (given [0xB0]).host = .byte 0xB0 :: [.byte 0xEE]) ∧
    (given [0x0F]).fsm = .idle ∧ (given [0x0F]).host = .byte 0x0F :: [.byte 0xEE] := by decide +kernel

/-- Format A in both reserved fields, format N, format C in both reserved fields. -/
theorem witness_ReservedBitsRefused :
    ((given [0x3F, 0, 0]).fsm = .idle ∧ (given [0x3F, 0, 0]).host = hostBytes (0x3F :: 0 :: [0]) ++ [.byte 0xEE] ∧
      3 ≤ (0x3F : Byte).toNat / 16 ∧ (0x3F : Byte).toNat / 16 ≤ 6 ∧ (0x3F : Byte).toNat % 16 ≠ 0) ∧
    ((given [0x60, 0x20, 0]).host = hostBytes (0x60 :: 0x20 :: [0]) ++ [.byte 0xEE] ∧
      (0x60 : Byte).toNat / 16 ≤ 6 ∧ (0x20 : Byte).toNat / 32 ≠ 0) ∧
    ((given [0x71, 0, 0, 0, 0]).host = hostBytes (0x71 :: 0 :: [0, 0, 0]) ++ [.byte 0xEE] ∧
      (0x71 : Byte).toNat / 16 = 7 ∧ (0x71 : Byte).toNat % 16 ≠ 0) ∧
    ((given [0x80, 0x20, 0, 0, 0, 0, 0, 0, 0, 0]).host =
        hostBytes (0x80 :: 0x20 :: [0, 0, 0, 0, 0, 0, 0, 0]) ++ [.byte 0xEE] ∧
      (0x80 : Byte).toNat / 16 = 8 ∧ (0x20 : Byte).toNat / 32 % 4 ≠ 0 ∧ (0x81 : Byte).toNat / 16 = 8 ∧
      (0x81 : Byte).toNat % 16 ≠ 0) := by decide +kernel

theorem witness_StepRunsPacket : (given [0x50, 0x06, 0xB8]).fsm = .idle ∧
    (given [0x50, 0x06, 0xB8]).host = hostBytes [0x50, 0x06, 0xB8] ++ [.byte 0xEE] ∧
    decode Config.params .packet [0x50, 0x06, 0xB8] = .ok (.altFt 0x6B8) := by decide +kernel

theorem witness_StepRunsPendingRow :
    ((Instr.df11 0x59A057B92BB985).port ≠ .packet ∧ atDf11.fsm = instrFsm (.df11 0x59A057B92BB985) ∧
      decode Config.params .frame (bufBytes atDf11) = .ok (.df11 0x59A057B92BB985) ∧ atDf11.host.head? ≠ some .reset) ∧
    (atPosition.fsm = instrFsm (.esTc11 0x8D40621D58C386435CC412692AD6) ∧
      decode Config.params .squitter (bufBytes atPosition) = .ok (.esTc11 0x8D40621D58C386435CC412692AD6) ∧
      atPosition.host.head? ≠ some .reset) ∧
    ({ atDf11 with fsm := .check }.fsm = .check ∧ { atDf11 with fsm := .check }.host.head? ≠ some .reset) := by
  decide +kernel

theorem witness_StepWaitsForPacket : State.reset.fsm = .idle ∧ State.reset.host = hostBytes [] ∧
    { State.reset with host := hostBytes [0x50, 0x06] }.host = hostBytes [0x50, 0x06] ∧
    [0x50, (0x06 : Byte)].length < packetLength Config.params ([0x50, 0x06].headD 0) := by decide +kernel

theorem witness_ResetEventClears :
    ((busyPast []).fsm = .idle ∧ (busyPast []).host = hostBytes [] ++ .reset :: [.byte 0x30]) ∧
    ((busyPast [0x50, 0x06]).host = hostBytes [0x50, 0x06] ++ .reset :: [.byte 0x30] ∧
      [0x50, (0x06 : Byte)].length < packetLength Config.params ([0x50, 0x06].headD 0)) ∧
    ({ atDf11 with host := [.reset, .byte 0x30] }.fsm ≠ .idle ∧
      { atDf11 with host := [.reset, .byte 0x30] }.host = .reset :: [.byte 0x30]) := by decide +kernel

theorem legal_default : Config.params.legal = true := by decide +kernel

theorem inv_given (packet : List Byte) : Inv (given packet) :=
  have h : Bits.fitsSigned 32 0 = true := by decide
  ⟨legal_default, by show 0 < 2 ^ 64; norm_num, h, h, fun _ h => (nomatch h), rfl, Nat.zero_le _, fun _ _ => rfl, fun _ => recordLegal_empty, fun _ h => (nomatch h), fun h => (nomatch h)⟩

theorem inv_atDf11 : Inv atDf11 where
  paramsLegal := by decide +kernel
  tsFits := by decide +kernel
  latFits := by decide +kernel
  lonFits := by decide +kernel
  resultTsFits v h := by
    have e : atDf11.result.ts = some 0 := by decide +kernel
    rw [e] at h
    cases h
    decide +kernel
  bufCanonical := by decide +kernel
  statusLegal := by decide +kernel
  failureEmpty h := absurd h (by decide +kernel)
  recordLegal h := absurd h (by decide +kernel)
  frameReady d h := by
    have h11 : atDf11.fsm = .df 11 := by decide +kernel
    rw [h11] at h
    injection h with h
    subst h
    exact ⟨.short 0x59A057B92BB985, 0, by decide +kernel⟩
  squitterReady h := absurd h (by decide +kernel)

theorem inv_atPosition : Inv atPosition where
  paramsLegal := by decide +kernel
  tsFits := by decide +kernel
  latFits := by decide +kernel
  lonFits := by decide +kernel
  resultTsFits v h := by
    have e : atPosition.result.ts = some 0 := by decide +kernel
    rw [e] at h
    cases h
    decide +kernel
  bufCanonical := by decide +kernel
  statusLegal := by decide +kernel
  failureEmpty h := absurd h (by decide +kernel)
  recordLegal h := absurd h (by decide +kernel)
  frameReady d h := by
    have hp : atPosition.fsm = .esPos := by decide +kernel
    rw [hp] at h
    cases h
  squitterReady _ := ⟨0x8D40621D58C386435CC412692AD6, 0, by decide +kernel⟩

/-- Between commands, in `S_DF11` and in `S_ES_POS`; the steps are taken. -/
theorem witness_StepKeepsInv :
    (Inv (given [0x50, 0x06, 0xB8]) ∧ ∃ t, step (given [0x50, 0x06, 0xB8]) = .next t) ∧
    (Inv atDf11 ∧ ∃ t, step atDf11 = .next t) ∧ (Inv atPosition ∧ ∃ t, step atPosition = .next t) := by
  have next : ∀ s : State, (got (step s) fun t => t.fsm) = some .idle → ∃ t, step s = .next t := by
    intro s h
    cases e : step s with
    | next t => exact ⟨t, rfl⟩
    | fault f => rw [e] at h; cases h
    | refused r => rw [e] at h; cases h
  exact ⟨⟨inv_given _, next _ (by decide +kernel)⟩, ⟨inv_atDf11, next _ (by decide +kernel)⟩,
    inv_atPosition, next _ (by decide +kernel)⟩

theorem witness_StepAlwaysNext : Inv (given [0xB0]) ∧ Inv atDf11 ∧ Inv atPosition :=
  ⟨inv_given _, inv_atDf11, inv_atPosition⟩

theorem witness_StatusesOfCommands :
    (∃ t, exec (.altIsm 0x40) State.reset = .next t) ∧ ∃ t, exec (.df22 (0xB0 <<< 104)) atDf11 = .next t :=
  ⟨⟨_, rfl⟩, ⟨_, rfl⟩⟩

theorem witness_ResultDependsOnPacketOnly :
    (given [0x50, 0x06, 0xB8]).fsm = .idle ∧ (busyPast [0x50, 0x06, 0xB8]).fsm = .idle ∧
    (given [0x50, 0x06, 0xB8]).host = hostBytes [0x50, 0x06, 0xB8] ++ [.byte 0xEE] ∧
    (busyPast [0x50, 0x06, 0xB8]).host = hostBytes [0x50, 0x06, 0xB8] ++ [.reset, .byte 0x30] ∧
    [0x50, 0x06, (0xB8 : Byte)].length = packetLength Config.params ([0x50, 0x06, 0xB8].headD 0) := by decide +kernel

/-- The lengths 0, 14 and 15; a failure and a division. -/
theorem witness_BufferCommandFrame :
    (List.replicate 0 (1 : Byte)).length ≤ 15 ∧ (List.replicate 14 (1 : Byte)).length ≤ 15 ∧
    (List.replicate 15 (1 : Byte)).length ≤ 15 ∧
    got (exec (.crc (List.replicate 15 1)) State.reset) (fun t => t.status) = some 1 ∧
    got (exec (.crc (List.replicate 14 1)) State.reset) (fun t => t.status) = some 0 ∧ 87 + 24 < 8 * 14 := by
  decide +kernel

/-- Both ends of each range of lengths. -/
theorem witness_BadLengthRefused :
    [2, 3, 14, 15].map (fun n => got (exec (.crc (List.replicate n 1)) State.reset) fun t => t.status) =
      [some 1, some 0, some 0, some 1] ∧
    [2, 3, 14, 15].map (fun n => got (exec (.crcEnc (List.replicate n 1)) State.reset) fun t => t.status) =
      [some 1, some 0, some 0, some 1] ∧
    [5, 6, 7].map (fun n => got (exec (.csDec (List.replicate n 1)) State.reset) fun t => t.status) =
      [some 1, some 0, some 1] ∧
    [6, 7, 8, 13, 15].map (fun n => got (exec (.parse 0 (List.replicate n 0)) State.reset) fun t => t.status) =
      [some 1, some 0, some 1, some 1, some 1] ∧
    got (exec (.parse 0 (List.replicate 14 0x8D)) State.reset) (fun t => t.status) = some 0 := by decide +kernel

theorem witness_CrcIsPolynomialRemainder : 3 ≤ (List.replicate 3 (1 : Byte)).length ∧
    3 ≤ (List.replicate 14 (1 : Byte)).length ∧ (List.replicate 14 (1 : Byte)).length ≤ 14 := by decide

theorem witness_CrcEncIgnoresTail : (List.replicate 0 (1 : Byte)).length ≤ 11 ∧
    (List.replicate 11 (1 : Byte)).length ≤ 11 := by decide

theorem witness_CrcIsLinear : [0, 0, 1, (0 : Byte)].length = [1, 0, 0, (0 : Byte)].length ∧
    3 ≤ [0, 0, 1, (0 : Byte)].length ∧ [0, 0, 1, (0 : Byte)].length ≤ 14 ∧ CrcGives [0, 0, 1, 0] 0x000100 ∧
    CrcGives [1, 0, 0, 0] 0xFFF409 :=
  ⟨rfl, by decide, by decide, crcGives_intro (by decide) (by decide) (by decide +kernel),
    crcGives_intro (by decide) (by decide) (by decide +kernel)⟩

theorem witness_CrcRecoversAddress : (List.replicate 0 (1 : Byte)).length ≤ 11 ∧
    (List.replicate 11 (1 : Byte)).length ≤ 11 := by decide

theorem witness_CrcSyndromeOfOneBit :
    ((3 : Nat) ≤ 3 ∧ 23 < 8 * 3 ∧ [0, 0, (1 : Byte)].length = 3 ∧ CrcGives [0, 0, 1] 1) ∧
    ((14 : Nat) ≤ 14 ∧ 0 < 8 * 14 ∧ (List.replicate 14 (0 : Byte)).length = 14 ∧ CrcGives (List.replicate 14 0) 0) :=
  ⟨⟨le_rfl, by decide, rfl, crcGives_intro (by decide) (by decide) (by decide +kernel)⟩, le_rfl, by decide, rfl,
    crcGives_intro (by decide) (by decide) (by decide +kernel)⟩

theorem witness_AltMetresExact :
    got (exec (.altFt 0x0100) State.reset) (fun t => t.result.altFt) = some (some (-1200)) ∧
    got (exec (.altFt 0) State.reset) (fun t => t.result.altFt) = some none := by decide +kernel

theorem witness_AltitudeRanges :
    (FeetOf 0x0010 (-1000) ∧ (0x0010 : BitVec 13).getLsbD 4 = true) ∧
    (FeetOf 0x0104 126700 ∧ (0x0104 : BitVec 13).getLsbD 4 = false) :=
  ⟨⟨feetOf_intro (by decide +kernel) (by decide +kernel), rfl⟩,
    feetOf_intro (by decide +kernel) (by decide +kernel), rfl⟩

theorem witness_GillhamIsGrayCode : (0x0100 : BitVec 13).getLsbD 4 = false ∧ (0x0500 : BitVec 13).getLsbD 4 = false ∧
    FeetOf 0x0100 (-1200) ∧ FeetOf 0x0500 (-1100) ∧ (-1100 : Int) = -1200 + 100 :=
  ⟨rfl, rfl, feetOf_intro (by decide +kernel) (by decide +kernel),
    feetOf_intro (by decide +kernel) (by decide +kernel), rfl⟩

theorem witness_CprNlCountsZones : InDomain 22 377487360 ∧ InDomain 22 (-377487360) ∧ InDomain 22 0 := by
  unfold InDomain; decide +kernel

theorem witness_CprNlProperties :
    (InDomain 22 219182583 ∧ InDomain 22 (-364904449) ∧ NlGives 219182583 36 ∧ NlGives (-364904449) 1 ∧
      (219182583 : Int).natAbs ≤ (-364904449 : Int).natAbs) ∧
    (-364904448 : Int).natAbs = 364904448 ∧
    (InDomain 22 364904449 ∧ 364904448 < (364904449 : Int).natAbs) := by
  have a : nlHere 219182583 = 36 := by decide +kernel
  have b : nlHere (-364904449) = 1 := by decide +kernel
  refine ⟨⟨?_, ?_, a ▸ nlGives_intro (by decide +kernel), b ▸ nlGives_intro (by decide +kernel), by decide +kernel⟩,
    by decide +kernel, ?_, by decide +kernel⟩ <;> (unfold InDomain; decide +kernel)

/-- The equator, a latitude between, 87 degrees, the pole; and the pole at a finer scale. -/
theorem witness_CprNlIsRealFormula :
    State.reset.params.angleFrac = 22 ∧ InDomain 22 0 ∧ InDomain 22 219182583 ∧ InDomain 22 364904448 ∧
    InDomain 22 (-377487360) ∧ InDomain 24 (-1509949440) := by
  unfold InDomain; decide +kernel

theorem witness_LatitudeDomain : InDomain 22 377487360 ∧ InDomain 22 (-377487360) ∧ ¬ InDomain 22 377487361 ∧
    ¬ InDomain 22 (-377487361) ∧ ¬ InDomain 22 0x80000000 := by
  unfold InDomain; decide +kernel

theorem witness_CprEncIsRationalFormula : State.reset.params.angleFrac = 22 ∧
    InDomain 22 219182583 ∧ IsZoneCount (zoneTable 22) (219182583 : Int).natAbs 36 ∧
    InDomain 22 (-377487360) ∧ IsZoneCount (zoneTable 22) (-377487360 : Int).natAbs 1 := by
  refine ⟨rfl, ?_, isZoneCount_intro 222697248 (by decide) (by decide +kernel) (by decide +kernel), ?_,
    by decide, by decide, .inl rfl, fun m k hk => ?_⟩
  · unfold InDomain; decide +kernel
  · unfold InDomain; decide +kernel
  · have h : ∀ e ∈ zoneTable 22, (-377487360 : Int).natAbs ≤ e.2 → e.1 ≤ 1 := by decide +kernel
    exact h (m, k) hk

/-- Two latitudes of one zone count, two longitudes a whole turn apart. -/
theorem witness_CprEncLaws : InDomain 22 219182583 ∧ InDomain 22 (-219000000) ∧
    IsZoneCount (zoneTable 22) (219182583 : Int).natAbs 36 ∧
    IsZoneCount (zoneTable 22) (-219000000 : Int).natAbs 36 ∧
    (90 * 2 ^ 22 : Int) % (360 * 2 ^ 22) = (-270 * 2 ^ 22 : Int) % (360 * 2 ^ 22) := by
  refine ⟨?_, ?_, isZoneCount_intro 222697248 (by decide) (by decide +kernel) (by decide +kernel),
    isZoneCount_intro 222697248 (by decide) (by decide +kernel) (by decide +kernel), by decide +kernel⟩ <;>
    (unfold InDomain; decide +kernel)

theorem witness_CsDecInjective : ∃ t u, exec (.csDec [1, 2, 3, 4, 5, 6]) State.reset = .next t ∧
    exec (.csDec [1, 2, 3, 4, 5, 6]) atDf11 = .next u ∧ t.result = u.result ∧
    [1, 2, 3, 4, 5, (6 : Byte)].length = 6 := ⟨_, _, rfl, rfl, by decide +kernel, rfl⟩

/-- Both mismatches, and the two lengths with a `df` of theirs. -/
theorem witness_LengthMismatchRefused :
    (dfOf (0x58 :: List.replicate 13 0) = 11 ∧ (0x58 :: List.replicate 13 (0 : Byte)).length = 14) ∧
    (dfOf (0x80 :: List.replicate 6 0) = 16 ∧ (0x80 :: List.replicate 6 (0 : Byte)).length = 7) ∧
    got (exec (.parse 0 (0xB8 :: List.replicate 6 0)) State.reset) (fun t => t.status) = some 0 ∧
    got (exec (.parse 0 (0xB8 :: List.replicate 13 0)) State.reset) (fun t => t.status) = some 0 := by
  unfold dfOf; decide +kernel

/-- A `df` of each class: short, long, and 23 in both lengths. -/
theorem lengthFits_all :
    LengthFits (0x58 :: List.replicate 6 (0 : Byte)).length (dfOf (0x58 :: List.replicate 6 0)) ∧
    LengthFits (0xF8 :: List.replicate 13 (0 : Byte)).length (dfOf (0xF8 :: List.replicate 13 0)) ∧
    LengthFits (0xB8 :: List.replicate 6 (0 : Byte)).length (dfOf (0xB8 :: List.replicate 6 0)) ∧
    LengthFits (0xB8 :: List.replicate 13 (0 : Byte)).length (dfOf (0xB8 :: List.replicate 13 0)) := by
  unfold LengthFits dfOf; decide +kernel

theorem witness_ParseCommonFields :
    LengthFits (0x58 :: List.replicate 6 (0 : Byte)).length (dfOf (0x58 :: List.replicate 6 0)) ∧
    LengthFits (0xF8 :: List.replicate 13 (0 : Byte)).length (dfOf (0xF8 :: List.replicate 13 0)) :=
  ⟨lengthFits_all.1, lengthFits_all.2.1⟩

theorem witness_ParseKindTable : State.reset.params.legal = true ∧
    LengthFits (0xB8 :: List.replicate 6 (0 : Byte)).length (dfOf (0xB8 :: List.replicate 6 0)) ∧
    LengthFits (0xB8 :: List.replicate 13 (0 : Byte)).length (dfOf (0xB8 :: List.replicate 13 0)) :=
  ⟨legal_default, lengthFits_all.2.2⟩

theorem witness_ParseRunsRow :
    decode Config.params .frame [0x59, 0xA0, 0x57, 0xB9, 0x2B, 0xB9, 0x85] = .ok (.df11 0x59A057B92BB985) ∧
    decode Config.params .frame (0xF8 :: List.replicate 13 0) = .ok (.df31 (0xF8 <<< 104)) := by decide +kernel

theorem witness_AddressRule : State.reset.params.legal = true ∧
    LengthFits (0x58 :: List.replicate 6 (0 : Byte)).length (dfOf (0x58 :: List.replicate 6 0)) ∧
    LengthFits (0xF8 :: List.replicate 13 (0 : Byte)).length (dfOf (0xF8 :: List.replicate 13 0)) ∧
    LengthFits (0xB8 :: List.replicate 13 (0 : Byte)).length (dfOf (0xB8 :: List.replicate 13 0)) :=
  ⟨legal_default, lengthFits_all.1, lengthFits_all.2.1, lengthFits_all.2.2.2⟩

theorem witness_ParseAltitude : State.reset.params.legal = true ∧
    (LengthFits (0x20 :: List.replicate 6 (0 : Byte)).length (dfOf (0x20 :: List.replicate 6 0)) ∧
      dfOf (0x20 :: List.replicate 6 0) ∈ [0, 4, 16, 20]) ∧
    (LengthFits (0xA0 :: List.replicate 13 (0 : Byte)).length (dfOf (0xA0 :: List.replicate 13 0)) ∧
      dfOf (0xA0 :: List.replicate 13 0) ∈ [0, 4, 16, 20]) := by
  unfold LengthFits dfOf; decide +kernel

/-- `PARSE` of a frame enters the row of `df` `d`, at the default parameters, which are legal. -/
def rowEntered (frame : List Byte) (d : BitVec 5) : Prop :=
  let s := placeFrame frame State.reset
  s.params.legal = true ∧ ∃ c, s.result = enteredRecord s.ts d c

theorem witness_RowDf17 : State.reset.params.legal = true ∧ longDf (0x8D4840D620FFFFFFFFFFFF69206C) = 17 := by
  decide +kernel

theorem witness_RowDf0 : rowEntered [0x02, 0xE1, 0x97, 0x10, 0x91, 0xCB, 0x9E] 0 := ⟨by decide +kernel, _, rfl⟩

theorem witness_RowsDf4Df5 :
    rowEntered [0x22, 0x00, 0x06, 0xB8, 0xBD, 0xA6, 0xEB] 4 ∧
    rowEntered [0x29, 0x10, 0x6A, 0xAA, 0xC2, 0xB4, 0x17] 5 :=
  ⟨⟨by decide +kernel, _, rfl⟩, ⟨by decide +kernel, _, rfl⟩⟩

theorem witness_RowDf11 : atDf11.params.legal = true ∧ atDf11.result = enteredRecord atDf11.ts 11 0 := by decide +kernel

/-- With a resolution advisory and a threat position, with an advisory only, and with neither. -/
theorem witness_RowDf16 :
    (rowEntered [0x83, 0xF9, 0xEF, 0x4F, 0x30, 0xC0, 0x01, 0x78, 0x32, 0x2C, 0xA1, 0x5B, 0x9F, 0x0F] 16) ∧
    (fieldOf (0x83F9EF4F30C00178322CA15B9F0F : Long) 32 8 = 0x30 ∧
      fieldOf (0x83F9EF4F30C00178322CA15B9F0F : Long) 60 2 = 2) ∧
    (fieldOf (0x840206B8308000052103582299AB : Long) 32 8 = 0x30 ∧
      fieldOf (0x840206B8308000052103582299AB : Long) 60 2 ≠ 2) ∧
    fieldOf (0x8000000031 <<< 72 : Long) 32 8 ≠ 0x30 := ⟨⟨by decide +kernel, _, rfl⟩, by unfold fieldOf; decide +kernel⟩

theorem witness_RowsClassifyOnly :
    rowEntered [0x97, 0x48, 0x40, 0xD6, 0x20, 0, 0, 0, 0, 0, 0, 0xD6, 0xA7, 0x55] 18 ∧
    rowEntered [0xB8, 0, 0, 0, 0, 0, 0] 23 := ⟨⟨by decide +kernel, _, rfl⟩, ⟨by decide +kernel, _, rfl⟩⟩

theorem witness_RowDf19 :
    (rowEntered [0x98, 0xAD, 0xF7, 0xC8, 0x11, 0x22, 0x33, 0x44, 0x55, 0x66, 0x77, 0xAA, 0xBB, 0xCC] 19) ∧
    fieldOf (0x98ADF7C811223344556677AABBCC : Long) 5 3 = 0 ∧
    fieldOf (0x9BADF7C811223344556677AABBCC : Long) 5 3 ≠ 0 :=
  ⟨⟨by decide +kernel, _, rfl⟩, by unfold fieldOf; decide +kernel⟩

theorem witness_RowsDf20Df21 :
    rowEntered [0xA1, 0, 0x01, 0x91, 0x20, 0x2C, 0xC3, 0x71, 0xC3, 0x2C, 0xE0, 0x05, 0x10, 0x6A] 20 ∧
    rowEntered [0xAA, 0x08, 0x4A, 0xAA, 0x10, 0x03, 0x0A, 0x80, 0, 0, 0, 0xA1, 0x13, 0x11] 21 :=
  ⟨⟨by decide +kernel, _, rfl⟩, ⟨by decide +kernel, _, rfl⟩⟩

theorem witness_RowsCommD :
    rowEntered (0xC0 :: List.replicate 13 0) 24 ∧
    rowEntered (0xF8 :: List.replicate 13 0) 31 := ⟨⟨by decide +kernel, _, rfl⟩, ⟨by decide +kernel, _, rfl⟩⟩

/-- The record with which the type-code row of a squitter is entered. -/
def esEntered (frame : List Byte) (c a : BitVec 24) (tc : BitVec 5) : Bool :=
  let s := placeSquitter frame State.reset
  s.params.legal && decide (s.result = squitterRecord s.ts c a tc)

theorem witness_RowsIdentification :
    esEntered [0x8D, 0x48, 0x40, 0xD6, 0x0F, 0x04, 0x20, 0xC4, 0x14, 0x61, 0xC8, 0xE2, 0xE4, 0x89] 0 0x4840D6 1 := by
  decide +kernel

theorem witness_RowsPosition : atPosition.params.legal = true ∧ atPosition.result = squitterRecord atPosition.ts 0 0x40621D 11 := by
  decide +kernel

/-- Subtype 3, which has a climb rate, and subtype 2, which has none. -/
theorem witness_RowVelocity :
    esEntered [0x8D, 0xA0, 0x5F, 0x21, 0x9B, 0x06, 0xB6, 0xAF, 0x18, 0x94, 0x00, 0xCB, 0xC3, 0x3F] 0 0xA05F21 19 ∧
    esEntered [0x8D, 0x48, 0x50, 0x20, 0x9A, 0x00, 0x64, 0x19, 0x00, 0x38, 0x00, 0x5C, 0xA6, 0x65] 0 0x485020 19 := by
  decide +kernel

theorem witness_RowsOpaque :
    esEntered [0x8D, 0x48, 0x40, 0xD6, 0x05, 0x12, 0x34, 0x56, 0x78, 0x9A, 0xBC, 0xAD, 0xBD, 0x20] 0 0x4840D6 0 ∧
    esEntered [0x8D, 0x48, 0x40, 0xD6, 0xFD, 0x12, 0x34, 0x56, 0x78, 0x9A, 0xBC, 0xD9, 0x5A, 0x4D] 0 0x4840D6 31 := by
  decide +kernel

/-- Other parameters than the defaults: other widths and another scale, the reserved bits of `DF0` before its fields, another
order of the identity code's bits, another set of velocity subtypes. -/
def otherParams : Config.Params :=
  { tsWidth := 16
    angleWidth := 24
    angleFrac := 12
    layout := { Config.layout with
      df0 := { x0 := ⟨5⟩, vs := ⟨11⟩, cc := ⟨12⟩, ri := ⟨13⟩, x1 := ⟨17⟩, ac := ⟨19⟩ }
      identity := { Config.layout.identity with a1 := 12, c1 := 11 } }
    climbValidSt := [2] }

/-- A block with other parameters, to which the host has delivered a packet. -/
def otherBlock (packet : List Byte) : State := { given packet with params := otherParams }

/-- Both ends of the domain at another scale, and the first value beyond. -/
theorem witness_AngleFracIsParameter : (12 : Nat) ≤ 22 ∧ (otherBlock []).params.angleFrac = 12 ∧ InDomain 12 368640 ∧
    InDomain 12 (-368640) ∧ ¬ InDomain 12 368641 ∧ ¬ InDomain 12 (-368641) := by
  unfold InDomain; decide +kernel

theorem witness_DefaultRowsReadTables :
    ((placeFrame [0x02, 0xE1, 0x97, 0x10, 0x91, 0xCB, 0x9E] State.reset).params = Config.params ∧
      rowEntered [0x02, 0xE1, 0x97, 0x10, 0x91, 0xCB, 0x9E] 0) ∧
    (atDf11.params = Config.params ∧ atDf11.result = enteredRecord atDf11.ts 11 0) ∧
    longDf (0x8D4840D620FFFFFFFFFFFF69206C) = 17 ∧
    (atPosition.params = Config.params ∧ atPosition.result = squitterRecord atPosition.ts 0 0x40621D 11) :=
  ⟨⟨rfl, by decide +kernel, _, rfl⟩, by decide +kernel, by decide +kernel, by decide +kernel⟩

/-- The default parameters but for two fraction bits more, in angles of forty bits. -/
def finerBlock (packet : List Byte) : State :=
  { given packet with params := { Config.params with angleWidth := 40, angleFrac := 24 } }

/-- Thresholds at a finer scale: `T(59) = 10.470471299969` degrees (R173), times `2^24` and rounded down, is 175665358. -/
theorem test_finerScale :
    (finerBlock []).params.legal = true ∧
    got (step (finerBlock [0x70, 0x00, 0x0A, 0x78, 0x70, 0xCE])) (fun t => t.result.nl) = some (some 59) ∧
    got (step (finerBlock [0x70, 0x00, 0x0A, 0x78, 0x70, 0xCF])) (fun t => t.result.nl) = some (some 58) := by
  decide +kernel

/-- A block with other parameters, which are legal: widths and scale (R171, R173, by hand: 87 degrees, 90 degrees and one unit
beyond), the timestamp's two bytes. -/
theorem test_otherWidths : otherParams.legal = true ∧
    got (step (otherBlock [0x70, 0x05, 0x70, 0x00])) (fun t => (t.result.nl, t.host)) = some (some 2, [.byte 0xEE]) ∧
    got (step (otherBlock [0x70, 0x05, 0xA0, 0x00])) (fun t => t.result.nl) = some (some 1) ∧
    got (step (otherBlock [0x70, 0x05, 0xA0, 0x01])) (fun t => t.status) = some 6 ∧
    got (step (otherBlock [0xA7, 0x12, 0x34, 0x59, 0xA0, 0x57, 0xB9, 0x2B, 0xB9, 0x85])) (fun t =>
      (t.result.ts, t.result.aa)) = some (some 0x1234, some 0xA057B9) := by decide +kernel

/-- The layout and the velocity subtypes of a block are its parameters: one frame with the defaults and with others. -/
theorem test_otherLayout :
    got (exec (.df0 0x02E1971091CB9E) State.reset) (fun t => (t.result.vs, t.result.cc, t.result.x0)) =
      some (some 0, some 1, some 0x1C) ∧
    got (exec (.df0 0x02E1971091CB9E) (otherBlock [])) (fun t => (t.result.vs, t.result.cc, t.result.x0)) =
      some (some 0, some 0, some 0x17) ∧
    got (exec (.df5 0x280008086C0124) State.reset) (fun t => t.result.squawk) = some (some 0o1200) ∧
    got (exec (.df5 0x280008086C0124) (otherBlock [])) (fun t => t.result.squawk) = some (some 0o0210) ∧
    got (exec (.esTc19 0x8D4850209A0064190038005CA665) State.reset) (fun t => t.result.climbSt) = some (some 2) ∧
    got (exec (.esTc19 0x8D4850209A0064190038005CA665) (otherBlock [])) (fun t => t.result.climbSt) = some (some 1) := by
  decide +kernel

/-- Layouts that R104 forbids: the parts of `tid` in another order, the reserved bits of `DF16` in another order. -/
theorem test_layout_refused :
    { Config.layout.advisory with tidb := ⟨62⟩, tidr := ⟨68⟩, tida := ⟨75⟩ }.consistent = false ∧
    { Config.layout.df16 with x1 := ⟨6⟩, x0 := ⟨8⟩ }.consistent = false ∧
    { Config.layout.df0 with ri := ⟨5⟩, vs := ⟨9⟩, cc := ⟨10⟩, x0 := ⟨11⟩ }.consistent = false := by decide +kernel

end Sys2Proof.Tests
end

section
/-! PROOFS. The reading of fields (00_scope.md R9, R10): a byte sequence is a bit string whose bits are those of its bytes, so
a sum of bits is a shift and a remainder of the whole integer. -/

namespace Sys2Proof.Bits
open Sys2Proof.Claims

/-- The bound of a byte sequence's integer, in bits. -/
theorem bytesNat_lt_two_pow (bs : List Byte) : bytesNat bs < 2 ^ (8 * bs.length) := by
  rw [pow_mul]
  exact bytesNat_lt bs

/-- A bit string as wide as its bytes is their integer, none of it cut off. -/
@[simp] theorem bytesBits_toNat (bs : List Byte) : (bytesBits (8 * bs.length) bs).toNat = bytesNat bs :=
  Nat.mod_eq_of_lt (bytesNat_lt_two_pow bs)

/-- A field is a shift and a remainder of the whole bit string. -/
theorem field_toNat {n : Nat} (b : BitVec n) (p w : Nat) : (field b p w).toNat = b.toNat / 2 ^ (n - p - w) % 2 ^ w := by
  rw [field, BitVec.extractLsb'_toNat, Nat.shiftRight_eq_div_pow, Nat.sub_sub]

/-- The low `w` bits of an integer, summed from the most significant on (00_scope.md R10). -/
theorem sum_testBit_msb (x w : Nat) :
    ∑ k ∈ Finset.range w, (x.testBit (w - 1 - k)).toNat * 2 ^ (w - 1 - k) = x % 2 ^ w := by
  rw [Finset.sum_range_reflect fun i => (x.testBit i).toNat * 2 ^ i]
  induction w with
  | zero => simp [Nat.mod_one]
  | succ w ih => rw [Finset.sum_range_succ, ih, Nat.mod_pow_succ, Nat.toNat_testBit, Nat.mul_comm]

/-! ### The bits of a byte sequence -/

theorem byteBit_cons (b : Byte) (bs : List Byte) (p : Nat) :
    byteBit (b :: bs) p = if p < 8 then b.getLsbD (7 - p) else byteBit bs (p - 8) := by
  unfold byteBit
  split
  · next h => rw [Nat.div_eq_of_lt h, Nat.mod_eq_of_lt h, List.getD_cons_zero]
  · next h =>
    obtain ⟨q, rfl⟩ : ∃ q, p = q + 8 := ⟨p - 8, by omega⟩
    rw [Nat.add_sub_cancel, Nat.add_div_right _ (by decide), Nat.add_mod_right, List.getD_cons_succ]

/-- Position 0 of a byte sequence is the most significant bit of its integer (00_scope.md R9). -/
theorem bytesNat_testBit (bs : List Byte) {p : Nat} (hp : p < 8 * bs.length) :
    (bytesNat bs).testBit (8 * bs.length - 1 - p) = byteBit bs p := by
  induction bs generalizing p with
  | nil => simp at hp
  | cons b bs ih =>
    rw [List.length_cons] at hp ⊢
    rw [byteBit_cons, bytesNat_cons, Nat.mul_comm, show (256 : Nat) = 2 ^ 8 from rfl, ← pow_mul,
      Nat.testBit_two_pow_mul_add _ (bytesNat_lt_two_pow bs)]
    split
    · next hlow => rw [if_neg (by omega), ← ih (by omega)]; congr 1; omega
    · next htop => rw [if_pos (by omega), BitVec.getLsbD]; congr 1; omega

/-- The bit of a byte sequence's bit string is the bit of the byte (00_scope.md R9). -/
theorem bytesBits_getMsbD (bs : List Byte) {p : Nat} (hp : p < 8 * bs.length) :
    (bytesBits (8 * bs.length) bs).getMsbD p = byteBit bs p := by
  rw [BitVec.getMsbD, decide_eq_true hp, Bool.true_and, BitVec.getLsbD, bytesBits_toNat, bytesNat_testBit bs hp]

/-! ### The fields of a byte sequence -/

/-- The sum of the bits is a shift and a remainder of the whole integer (00_scope.md R10). -/
theorem bytesField_eq_div_mod (bs : List Byte) {p w : Nat} (h : p + w ≤ 8 * bs.length) :
    bytesField bs p w = bytesNat bs / 2 ^ (8 * bs.length - p - w) % 2 ^ w := by
  rw [bytesField, ← sum_testBit_msb]
  refine Finset.sum_congr rfl fun k hk => ?_
  rw [Finset.mem_range] at hk
  rw [Nat.testBit_div_two_pow, ← bytesNat_testBit bs (by omega)]
  congr 3
  omega

/-- What the model reads as a field is the sum of its bits. -/
theorem field_bytesBits_toNat (bs : List Byte) {p w : Nat} (h : p + w ≤ 8 * bs.length) :
    (field (bytesBits (8 * bs.length) bs) p w).toNat = bytesField bs p w := by
  rw [field_toNat, bytesBits_toNat, bytesField_eq_div_mod bs h]

/-- The integer of a run of bytes is cut out of the whole integer. -/
theorem bytesNat_run (bs : List Byte) {a k : Nat} (h : a + k ≤ bs.length) :
    bytesNat ((bs.drop a).take k) = bytesNat bs / 256 ^ (bs.length - a - k) % 256 ^ k := by
  have hlen : ((bs.drop a).take k).length = k := by simp; omega
  have hsplit : bytesNat bs =
      (bytesNat (bs.take a) * 256 ^ k + bytesNat ((bs.drop a).take k)) * 256 ^ (bs.length - a - k) +
        bytesNat ((bs.drop a).drop k) := by
    have hrest : ((bs.drop a).drop k).length = bs.length - a - k := by simp; omega
    conv_lhs => rw [← List.take_append_drop a bs, ← List.take_append_drop k (bs.drop a), ← List.append_assoc]
    rw [bytesNat_append, bytesNat_append, hlen, hrest]
  have hrun := bytesNat_lt ((bs.drop a).take k)
  have hrest := bytesNat_lt ((bs.drop a).drop k)
  rw [hlen] at hrun
  rw [List.length_drop, List.length_drop] at hrest
  rw [hsplit, Nat.add_comm, Nat.add_mul_div_right _ _ (by positivity), Nat.div_eq_of_lt hrest, Nat.zero_add,
    Nat.add_comm, Nat.add_mul_mod_self_right, Nat.mod_eq_of_lt hrun]

/-- A run of bytes is a field (20_memory.md R52). -/
theorem bytesNat_run_eq_bytesField (bs : List Byte) {a k : Nat} (h : a + k ≤ bs.length) :
    bytesNat ((bs.drop a).take k) = bytesField bs (8 * a) (8 * k) := by
  rw [bytesNat_run bs h, bytesField_eq_div_mod bs (by omega), ← Nat.mul_sub, ← Nat.mul_sub, pow_mul, pow_mul]
  rfl

end Sys2Proof.Bits

open Sys2Proof.Bits

/-- Settles O4: the model's field, the sum of bits and a run of bytes are each the same shift and remainder of the buffer's
integer, whose bits are those of the bytes. -/
theorem fieldIsBitSum : Obligations.FieldIsBitSum := by
  intro bytes p w a k
  refine ⟨fun hfield => ⟨?_, ?_⟩, fun hrun => ?_, fun hbit => ?_⟩
  · exact field_bytesBits_toNat bytes hfield
  · exact bytesField_eq_div_mod bytes hfield
  · exact bytesNat_run_eq_bytesField bytes hrun
  · exact bytesBits_getMsbD bytes hbit
end

section
/-! PROOFS. `ANGLE_FRAC` as a parameter of `CPR.NL` (00_scope.md R7, 42_cpr.md R173, R175, R179): the thresholds of one scale
from those of a finer one, and the two answers of the command for the block's own scale. -/

namespace Sys2Proof.Machine
open Sys2Proof.Claims

/-- A floor at a coarser scale drops the low bits of the floor at a finer one. -/
theorem floor_mul_two_pow_coarser (x : ℝ) {f g : ℕ} (h : f ≤ g) : ⌊x * 2 ^ f⌋₊ = ⌊x * 2 ^ g⌋₊ / 2 ^ (g - f) := by
  rw [← Nat.floor_div_natCast]
  congr 1
  push_cast
  rw [eq_div_iff (by positivity), mul_assoc, ← pow_add, Nat.add_sub_cancel' h]

/-- The thresholds of a coarser scale are those of a finer one with the extra bits dropped (42_cpr.md R173). -/
theorem zoneTable_coarser {f g : ℕ} (h : f ≤ g) : zoneTable f = (zoneTable g).map fun e => (e.1, e.2 / 2 ^ (g - f)) := by
  rw [zoneTable_eq, zoneTable_eq, List.map_map]
  refine List.map_congr_left fun e _ => ?_
  rw [Function.comp_apply, floor_mul_two_pow_coarser _ h]

/-- The model's latitude check is the domain of 42_cpr.md R179. -/
theorem latOk_iff_inDomain (frac : Nat) (lat : Int) : latOk frac lat = true ↔ InDomain frac lat := decide_eq_true_iff

/-- What the model counts for a latitude is its zone count (42_cpr.md R173). -/
theorem isZoneCount_nlOf (frac : Nat) (lat : Int) : IsZoneCount (zoneTable frac) lat.natAbs (nlOf frac lat) :=
  zoneCount_largest frac lat.natAbs

/-- `CPR.NL` within the domain presents the zone count alone (42_cpr.md R175). -/
theorem exec_cprNl_of_inDomain {lat : Int} {s : State} (h : InDomain s.params.angleFrac lat) :
    exec (.cprNl lat) s = .next (finish
      { Result.empty with nl := some (BitVec.ofNat 6 (nlOf s.params.angleFrac lat)) } (acceptN lat s)) :=
  if_pos ((latOk_iff_inDomain _ _).mpr h)

/-- `CPR.NL` beyond the domain fails with `BAD_OPERAND` (42_cpr.md R179). -/
theorem exec_cprNl_of_not_inDomain {lat : Int} {s : State} (h : ¬ InDomain s.params.angleFrac lat) :
    exec (.cprNl lat) s = .next (raise .badOperand (acceptN lat s)) :=
  if_neg (mt (latOk_iff_inDomain _ _).mp h)

end Sys2Proof.Machine

open Sys2Proof.Machine

/-- Settles O59: every scale's thresholds are floors of the same angles, and `CPR.NL` reads the block's scale in its domain
check and in its zone count. -/
theorem angleFracIsParameter : Obligations.AngleFracIsParameter := by
  refine ⟨fun f g h => zoneTable_coarser h, fun lat s => ⟨fun hin => ?_, fun hout => ?_⟩⟩
  · exact ⟨_, isZoneCount_nlOf _ lat, exec_cprNl_of_inDomain hin⟩
  · exact exec_cprNl_of_not_inDomain hout
end

section
/-! PROOFS. The ranges of the derived values: the altitude in feet (41_altitude.md R153) and the climb rate (45_ext_squitter.md
R258). -/

namespace Sys2Proof.Machine

/-- The closed-up number of a simple-format code has eleven bits (41_altitude.md R144). -/
theorem simpleNumber_lt (ac : BitVec 13) : (simpleNumber ac).toNat < 2 ^ 11 := by
  simp only [simpleNumber, BitVec.toNat_or, BitVec.toNat_ushiftRight, BitVec.toNat_and, Nat.shiftRight_eq_div_pow]
  refine Nat.or_lt_two_pow (Nat.or_lt_two_pow ?low ?middle) ?high
  case low => exact Nat.and_le_right.trans_lt (by decide)
  case middle => exact Nat.div_lt_of_lt_mul (Nat.and_le_right.trans_lt (by decide))
  case high => exact Nat.div_lt_of_lt_mul (Nat.and_le_right.trans_lt (by decide))

/-- Undoing a Gray code needs no more bits than the code has (41_altitude.md R146). -/
theorem deGray_lt {k : Nat} {x : BitVec 16} (h : x.toNat < 2 ^ k) : (deGray x).toNat < 2 ^ k := by
  have fold : ∀ (y : BitVec 16) (m : Nat), y.toNat < 2 ^ k → (y ^^^ (y >>> m)).toNat < 2 ^ k := fun y m hy => by
    rw [BitVec.toNat_xor, BitVec.toNat_ushiftRight]
    exact Nat.xor_lt_two_pow hy (by rw [Nat.shiftRight_eq_div_pow]; exact (Nat.div_le_self _ _).trans_lt hy)
  exact fold _ 1 (fold _ 2 (fold _ 4 (fold x 8 h)))

theorem n500_lt (ac : BitVec 13) : n500 ac < 2 ^ 8 :=
  deGray_lt (by rw [BitVec.toNat_setWidth_of_le (by decide)]; exact (g500 ac).isLt)

theorem v100_lt (ac : BitVec 13) : v100 ac < 2 ^ 3 :=
  deGray_lt (by rw [BitVec.toNat_setWidth_of_le (by decide)]; exact (g100 ac).isLt)

/-- A valid 100s value counts one to five units (41_altitude.md R147, R148). -/
theorem units100_range {ac : BitVec 13} (h : ¬ (v100 ac = 0 ∨ v100 ac = 5 ∨ v100 ac = 6)) :
    1 ≤ units100 ac ∧ units100 ac ≤ 5 := by
  have hv := v100_lt ac
  unfold units100
  dsimp only
  split <;> split <;> omega

/-- The range of a decoded altitude (41_altitude.md R153). -/
theorem altFt_range {ac : BitVec 13} {v : Int} (h : altFt ac = .feet v) : -1200 ≤ v ∧ v ≤ 126700 := by
  unfold altFt at h
  split at h
  · cases h
  split at h
  · have hn := simpleNumber_lt ac
    injection h with h
    unfold simpleFt at h
    omega
  · unfold gillhamFt at h
    split at h
    · cases h
    · next hv =>
      have hu := units100_range hv
      have hn := n500_lt ac
      injection h with h
      omega

/-- A climb rate is a multiple of 64 within 510 of them (45_ext_squitter.md R255). -/
theorem climbRate_range (sign : BitVec 1) (vr : BitVec 9) :
    -32640 ≤ climbRate sign vr ∧ climbRate sign vr ≤ 32640 ∧ climbRate sign vr % 64 = 0 := by
  have h := vr.isLt
  unfold climbRate
  split <;> omega

end Sys2Proof.Machine
end

section
/-! PROOFS. The legal record (10_state.md R24 to R30): which fields its rules read, and that every operation a row writes its
fields with keeps it. -/

namespace Sys2Proof.Machine

/-- The fields of a record that the rules of a legal record read; all others absent. -/
def recordCore (r : Result) : Result :=
  { Result.empty with
    kind := r.kind, df := r.df, ts := r.ts, crc := r.crc, aa := r.aa, ap := r.ap, ac := r.ac, altFt := r.altFt
    altSt := r.altSt, vr := r.vr, climb := r.climb, climbSt := r.climbSt, altMNum := r.altMNum, nl := r.nl }

/-- A record is legal by its core alone. -/
theorem recordLegal_core_iff (r : Result) : RecordLegal (recordCore r) ↔ RecordLegal r := by
  constructor <;>
    exact fun h => ⟨h.kindLegal, h.kindWithDf, h.tsWithDf, h.crcWithDf, h.address, h.altStLegal, h.altStWithAc,
      h.altFtWithAltSt, h.climbStLegal, h.climbStWithVr, h.climbWithClimbSt, h.altFtRange, h.altMNumRange, h.climbRange,
      h.nlRange⟩

/-- A field outside the core may hold anything in a legal record. -/
theorem RecordLegal.of_core_eq {r r' : Result} (h : RecordLegal r) (e : recordCore r' = recordCore r) : RecordLegal r' :=
  (recordLegal_core_iff r').mp (e ▸ (recordLegal_core_iff r).mpr h)

/-- The record without a field is legal. -/
theorem RecordLegal.of_absent {r : Result} (e : recordCore r = Result.empty) : RecordLegal r := by
  rw [← recordLegal_core_iff, e]
  constructor <;> simp [Result.empty, altOk, climbOk]

/-- A record of a `PARSE` that has entered a row's state: `ts`, `df` and `crc`, an address of two equal fields or none, and no
other field of the core (44_parser.md R200, R214). -/
def Entered (r : Result) : Prop :=
  ∃ ts d c a, recordCore r = recordCore { enteredRecord ts d c with aa := a, ap := a }

theorem entered_enteredRecord (ts : Nat) (d : BitVec 5) (c : BitVec 24) : Entered (enteredRecord ts d c) :=
  ⟨ts, d, c, none, rfl⟩

theorem entered_squitterRecord (ts : Nat) (c a : BitVec 24) (tc : BitVec 5) : Entered (squitterRecord ts c a tc) :=
  ⟨ts, 17, c, some a, rfl⟩

theorem Kind.code_range (k : Kind) : 1 ≤ k.code.toNat ∧ k.code.toNat ≤ 16 := by cases k <;> decide

/-- An entered record with a variant is legal (10_state.md R30). -/
theorem Entered.recordLegal {r r' : Result} (h : Entered r) (k : Kind)
    (e : recordCore r' = recordCore { r with kind := some k.code }) : RecordLegal r' := by
  obtain ⟨ts, d, c, a, hr⟩ := h
  have hcore : recordCore { r with kind := some k.code } = { recordCore r with kind := some k.code } := rfl
  rw [← recordLegal_core_iff, e, hcore, hr]
  have hk := k.code_range
  constructor <;> simp [recordCore, enteredRecord, Result.empty, altOk, climbOk, hk]

/-! ### The operations of the rows -/

theorem RecordLegal.withCrcAddress {r : Result} (h : RecordLegal r) : RecordLegal (withCrcAddress r) :=
  { h with address := rfl }

theorem RecordLegal.withPlainAddress {r : Result} (h : RecordLegal r) {n : Nat} (aa : Config.Span 24) (f : BitVec n) :
    RecordLegal (withPlainAddress aa f r) :=
  { h with address := rfl }

/-- The resolution advisory writes its own fields only (44_parser.md R212, R213). -/
theorem recordCore_withAdvisory (l : Config.LayoutAdvisory) (f : Long) (r : Result) :
    recordCore (withAdvisory l f r) = recordCore r := by
  unfold withAdvisory withThreat
  split
  · split <;> rfl
  · rfl

/-- What a row writes for its altitude code: the code, and the feet with `ALT_OK` or the failure without (44_parser.md
R224). -/
theorem withAltitude_cases (ac : BitVec 13) (r : Result) :
    (∃ v, altFt ac = .feet v ∧
      withAltitude ac r = { r with ac := some ac, altFt := some (BitVec.ofInt 18 v), altSt := some altOk }) ∨
    (altFt ac = .unsupported ∧ withAltitude ac r = { r with ac := some ac, altFt := none, altSt := some altUnsupported }) ∨
    (altFt ac = .invalid ∧ withAltitude ac r = { r with ac := some ac, altFt := none, altSt := some altInvalid }) := by
  unfold withAltitude
  cases altFt ac with
  | feet v => exact .inl ⟨v, rfl, rfl⟩
  | unsupported => exact .inr (.inl ⟨rfl, rfl⟩)
  | invalid => exact .inr (.inr ⟨rfl, rfl⟩)

/-- The 18 bits of `alt_ft` hold every altitude that decodes (41_altitude.md R153). -/
theorem altFt_toInt_range {ac : BitVec 13} {v : Int} (h : altFt ac = .feet v) :
    -1200 ≤ (BitVec.ofInt 18 v).toInt ∧ (BitVec.ofInt 18 v).toInt ≤ 126700 := by
  have hv := altFt_range h
  rwa [BitVec.toInt_ofInt_eq_self (by decide) (by omega) (by omega)]

theorem RecordLegal.withAltitude {r : Result} (h : RecordLegal r) (ac : BitVec 13) : RecordLegal (withAltitude ac r) := by
  rcases withAltitude_cases ac r with ⟨v, hv, e⟩ | ⟨-, e⟩ | ⟨-, e⟩ <;> rw [e]
  · have hrange := altFt_toInt_range hv
    exact { h with
      altStLegal := by simp
      altStWithAc := rfl
      altFtWithAltSt := by simp
      altFtRange := by simpa using hrange }
  · exact { h with
      altStLegal := by simp
      altStWithAc := rfl
      altFtWithAltSt := by simp [altOk, altUnsupported]
      altFtRange := by simp }
  · exact { h with
      altStLegal := by simp
      altStWithAc := rfl
      altFtWithAltSt := by simp [altOk, altInvalid]
      altFtRange := by simp }

/-- The vertical rate and the climb rate derived from it (45_ext_squitter.md R254, R255). -/
theorem RecordLegal.withClimb {r : Result} (h : RecordLegal r) (p : Config.Params) (f : Long) (vr : BitVec 9) :
    RecordLegal (withClimb p f { r with vr := some vr }) := by
  unfold Machine.withClimb
  split
  · have hrate := climbRate_range (p.layout.velocity.vrSign.get f) (p.layout.velocity.vr.get f)
    have hrange : ∀ v, some (BitVec.ofInt 16 (climbRate (p.layout.velocity.vrSign.get f) (p.layout.velocity.vr.get f))) =
        some v → -32640 ≤ v.toInt ∧ v.toInt ≤ 32640 ∧ v.toInt % 64 = 0 := by
      rintro _ ⟨⟩
      rwa [BitVec.toInt_ofInt_eq_self (by decide) (by omega) (by omega)]
    exact { h with
      climbStLegal := by simp
      climbStWithVr := rfl
      climbWithClimbSt := by simp
      climbRange := hrange }
  · exact { h with
      climbStLegal := by simp
      climbStWithVr := rfl
      climbWithClimbSt := by simp [climbOk, climbUnsupported]
      climbRange := by simp }

end Sys2Proof.Machine
end

section
/-! PROOFS. The rows (44_parser.md R205, 45_ext_squitter.md R251): each ends the `PARSE` it is part of with `OK`, and
the record it leaves is a function of the row, the parameters and the record it finds. -/

namespace Sys2Proof.Machine

/-- The record a row leaves, read off its run from the reset state with the given parameters and record. -/
def rowRecord (i : Instr) (p : Config.Params) (r : Result) : Result :=
  match exec i { State.reset with params := p, result := r } with
  | .next t => t.result
  | .fault _ => Result.empty
  | .refused _ => Result.empty

/-- The type-code row that an extended squitter selects ends with `OK`. -/
theorem exec_squitterInstr (p : Config.Params) (f : Long) (s : State) :
    exec (squitterInstr p f) s = .next (finish (rowRecord (squitterInstr p f) s.params s.result) s) := by
  unfold squitterInstr
  obtain ⟨n, hn, hd⟩ := five_bits (longTc p f)
  rw [hd]
  clear hd
  interval_cases n <;> rfl

/-- What `S_DF17` has written when it enters the state of a type code (44_parser.md R214). -/
def df17Record (f : Long) (p : Config.Params) (r : Result) : Result :=
  withPlainAddress p.layout.df17.aa f { r with tc := some (longTc p f) }

/-- Row `DF17` leaves what the row of its type code leaves. -/
theorem exec_df17 (f : Long) (s : State) :
    exec (.df17 f) s =
      .next (finish (rowRecord (squitterInstr s.params f) s.params (df17Record f s.params s.result)) s) :=
  (execDf17_eq f s).trans (exec_squitterInstr s.params f (enterSquitter f s))

theorem rowRecord_df17 (f : Long) (p : Config.Params) (r : Result) :
    rowRecord (.df17 f) p r = rowRecord (squitterInstr p f) p (df17Record f p r) := by
  rw [rowRecord, exec_df17]
  rfl

/-- What row `DF19` leaves: the plain fields where `af` is 0 (44_parser.md R216). -/
def df19Record (f : Long) (p : Config.Params) (r : Result) : Result :=
  if p.layout.df19.af.get f = 0 then
    withPlainAddress p.layout.df19.aa f
      { r with
        kind := some Kind.df19.code
        af := some (p.layout.df19.af.get f)
        me := some (p.layout.df19.me.get f)
        pi := some (p.layout.df19.pi.get f) }
  else { r with kind := some Kind.df19.code, af := some (p.layout.df19.af.get f) }

theorem exec_df19 (f : Long) (s : State) : exec (.df19 f) s = .next (finish (df19Record f s.params s.result) s) := by
  show execDf19 f s = _
  unfold execDf19 df19Record
  split <;> rfl

theorem rowRecord_df19 (f : Long) (p : Config.Params) (r : Result) : rowRecord (.df19 f) p r = df19Record f p r := by
  rw [rowRecord, exec_df19]
  rfl

/-- Every row ends with `OK` and `rowRecord`, and changes nothing else (44_parser.md R200). -/
theorem exec_row {i : Instr} (h : instrFsm i ≠ .idle) (s : State) :
    exec i s = .next (finish (rowRecord i s.params s.result) s) := by
  cases i with
  | crc | crcEnc | altIsm | altIsq | altFt | altM | cprNl | cprEnc | csDec | parse => exact absurd rfl h
  | df17 f => rw [exec_df17, rowRecord_df17]
  | df19 f => rw [exec_df19, rowRecord_df19]
  | _ => rfl

/-! ### What the rows leave -/

/-- What `S_DF17` writes keeps the record an entered one. -/
theorem Entered.df17Record {r : Result} (h : Entered r) (f : Long) (p : Config.Params) : Entered (df17Record f p r) := by
  obtain ⟨ts, d, c, a, hr⟩ := h
  let b := p.layout.df17.aa.get f
  have hcore : recordCore (Machine.df17Record f p r) = { recordCore r with aa := some b, ap := some b } := rfl
  exact ⟨ts, d, c, some b, by rw [hcore, hr]; rfl⟩

/-- The variant that `PARSE` reports for the state of the FSM in which its row runs (10_state.md R30, 44_parser.md R205,
45_ext_squitter.md R251); `S_DF17` reports none of its own. -/
def fsmKind : Fsm → Kind
  | .df d =>
    match d.toNat with
    | 0 => .df0
    | 4 => .df4
    | 5 => .df5
    | 11 => .df11
    | 16 => .df16
    | 18 => .df18
    | 19 => .df19
    | 20 => .df20
    | 21 => .df21
    | 22 => .df22
    | n => if 24 ≤ n then .commD else .unassigned
  | .esId => .esId
  | .esPos => .esPos
  | .esVel => .esVel
  | .esOpaque => .esOpaque
  | .idle => .unassigned
  | .check => .unassigned

/-- The state of the FSM in which a row ends its `PARSE`: for row `DF17` the one its type code selects (44_parser.md R214). -/
def lastFsm (p : Config.Params) : Instr → Fsm
  | .df17 f => esFsm (esClass (longTc p f))
  | i => instrFsm i

/-- What every row does with the record it finds: it makes a legal record of an entered one, keeps the timestamp, and reports a
variant. -/
structure RowLeaves (r r' : Result) (k : Kind) : Prop where
  legal : Entered r → RecordLegal r'
  ts : r'.ts = r.ts
  kind : r'.kind = some k.code

/-- The climb rate is a matter of the core alone. -/
theorem recordCore_withClimb (p : Config.Params) (f : Long) (r : Result) :
    recordCore (withClimb p f r) = withClimb p f (recordCore r) := by
  unfold withClimb
  split <;> rfl

namespace RowLeaves
variable {r r₁ : Result} {k : Kind}

/-- A row that writes, in the core of the record, its variant only. -/
theorem of_kind (k : Kind) (e : recordCore r₁ = recordCore { r with kind := some k.code } := by rfl) :
    RowLeaves r r₁ k where
  legal h := h.recordLegal k e
  ts := show (recordCore r₁).ts = r.ts by rw [e]; rfl
  kind := show (recordCore r₁).kind = _ by rw [e]; rfl

theorem of_core_eq {r₂ : Result} (h : RowLeaves r r₁ k) (e : recordCore r₂ = recordCore r₁ := by rfl) :
    RowLeaves r r₂ k where
  legal hr := (h.legal hr).of_core_eq e
  ts := show (recordCore r₂).ts = r.ts by rw [e]; exact h.ts
  kind := show (recordCore r₂).kind = _ by rw [e]; exact h.kind

/-- A row that another one runs on a record it has prepared (44_parser.md R214). -/
theorem of_entered {r₀ : Result} (h : RowLeaves r₀ r₁ k) (he : Entered r → Entered r₀) (ht : r₀.ts = r.ts) :
    RowLeaves r r₁ k :=
  ⟨fun hr => h.legal (he hr), h.ts.trans ht, h.kind⟩

theorem withCrcAddress (h : RowLeaves r r₁ k) : RowLeaves r (withCrcAddress r₁) k :=
  ⟨fun hr => (h.legal hr).withCrcAddress, h.ts, h.kind⟩

theorem withPlainAddress (h : RowLeaves r r₁ k) {n : Nat} (aa : Config.Span 24) (f : BitVec n) :
    RowLeaves r (withPlainAddress aa f r₁) k :=
  ⟨fun hr => (h.legal hr).withPlainAddress aa f, h.ts, h.kind⟩

theorem withAltitude (h : RowLeaves r r₁ k) (ac : BitVec 13) : RowLeaves r (withAltitude ac r₁) k where
  legal hr := (h.legal hr).withAltitude ac
  ts := by rcases withAltitude_cases ac r₁ with ⟨v, -, e⟩ | ⟨-, e⟩ | ⟨-, e⟩ <;> rw [e] <;> exact h.ts
  kind := by rcases withAltitude_cases ac r₁ with ⟨v, -, e⟩ | ⟨-, e⟩ | ⟨-, e⟩ <;> rw [e] <;> exact h.kind

theorem withClimb {r₂ : Result} (h : RowLeaves r r₁ k) (p : Config.Params) (f : Long) {vr : BitVec 9}
    (e : recordCore r₂ = recordCore { r₁ with vr := some vr }) : RowLeaves r (withClimb p f r₂) k := by
  have hclimb : RowLeaves r (Machine.withClimb p f { r₁ with vr := some vr }) k :=
    { legal := fun hr => (h.legal hr).withClimb p f vr
      ts := by unfold Machine.withClimb; split <;> exact h.ts
      kind := by unfold Machine.withClimb; split <;> exact h.kind }
  exact hclimb.of_core_eq (by rw [recordCore_withClimb, e, ← recordCore_withClimb])

end RowLeaves

/-- What the rows of the type codes do with the record. -/
theorem rowLeaves_squitter {i : Instr} (h : i.port = .squitter) (p : Config.Params) (r : Result) :
    RowLeaves r (rowRecord i p r) (fsmKind (instrFsm i)) := by
  cases i with
  | esTc19 f =>
    exact .withClimb (r₁ := { r with kind := some Kind.esVel.code }) (.of_kind .esVel) p f
      (vr := p.layout.velocity.vr.get f) rfl
  | esTc1 f | esTc2 f | esTc3 f | esTc4 f => exact .of_kind .esId
  | esTc9 f | esTc10 f | esTc11 f | esTc12 f | esTc13 f | esTc14 f | esTc15 f | esTc16 f | esTc17 f | esTc18 f =>
    exact .of_kind .esPos
  | esTc0 f | esTc5 f | esTc6 f | esTc7 f | esTc8 f | esTc20 f | esTc21 f | esTc22 f | esTc23 f | esTc24 f | esTc25 f
  | esTc26 f | esTc27 f | esTc28 f | esTc29 f | esTc30 f | esTc31 f => exact .of_kind .esOpaque
  | _ => exact absurd h (by simp [Instr.port])

theorem squitterInstr_port (p : Config.Params) (f : Long) : (squitterInstr p f).port = .squitter := by
  unfold squitterInstr
  split <;> rfl

/-- What every row does with the record. -/
theorem rowLeaves {i : Instr} (h : instrFsm i ≠ .idle) (p : Config.Params) (r : Result) :
    RowLeaves r (rowRecord i p r) (fsmKind (lastFsm p i)) := by
  cases i with
  | crc | crcEnc | altIsm | altIsq | altFt | altM | cprNl | cprEnc | csDec | parse => exact absurd rfl h
  | df0 f => exact .withAltitude (.withCrcAddress (.of_kind .df0)) _
  | df4 f => exact .withAltitude (.withCrcAddress (.of_kind .df4)) _
  | df5 f => exact .of_core_eq (.withCrcAddress (.of_kind .df5))
  | df11 f => exact .withPlainAddress (.of_kind .df11) _ _
  | df16 f =>
    exact .of_core_eq (.withAltitude (.withCrcAddress (.of_kind .df16)) _) (recordCore_withAdvisory _ _ _)
  | df17 f =>
    rw [rowRecord_df17, lastFsm, ← instrFsm_squitter]
    exact (rowLeaves_squitter (squitterInstr_port p f) p (df17Record f p r)).of_entered (·.df17Record f p) rfl
  | df18 f => exact .of_kind .df18
  | df19 f =>
    rw [rowRecord_df19, df19Record]
    split
    · exact .withPlainAddress (.of_kind .df19) _ _
    · exact .of_kind .df19
  | df20 f => exact .withAltitude (.withCrcAddress (.of_kind .df20)) _
  | df21 f => exact .of_core_eq (.withCrcAddress (.of_kind .df21))
  | df22 f => exact .of_kind .df22
  | df24 f | df25 f | df26 f | df27 f | df28 f | df29 f | df30 f | df31 f =>
    exact .withCrcAddress (.of_kind .commD)
  | df1 f | df2 f | df3 f | df6 f | df7 f | df8 f | df9 f | df10 f | df12 f | df13 f | df14 f | df15 f | df23 f =>
    exact .of_kind .unassigned
  | _ => exact rowLeaves_squitter rfl p r

end Sys2Proof.Machine
end

section
/-! PROOFS. How an instruction ends (60_exceptions.md R284, 70_reset_and_hazards.md R318): with `OK` and a record, or with a
failure and none; in both cases the operand registers hold what the command's format names (10_state.md R21). -/

namespace Sys2Proof.Machine

/-- Every status is 0 to 6 (60_exceptions.md R280). -/
theorem Status.code_le (e : Status) : e.code.toNat ≤ 6 := by cases e <;> decide

/-- The code of a failure is not that of `OK` (60_exceptions.md R280). -/
theorem Status.code_ne_zero {e : Status} (h : e ≠ .ok) : e.code ≠ 0 := by
  cases e with
  | ok => exact absurd rfl h
  | _ => decide

/-! ### Legal records of the commands -/

theorem recordLegal_crc (c : BitVec 24) : RecordLegal { Result.empty with crc := some c } :=
  { RecordLegal.of_absent (r := Result.empty) rfl with crcWithDf := nofun }

theorem recordLegal_altFt {ac : BitVec 13} {v : Int} (h : altFt ac = .feet v) :
    RecordLegal { Result.empty with altFt := some (BitVec.ofInt 18 v) } :=
  { RecordLegal.of_absent (r := Result.empty) rfl with
    altFtWithAltSt := nofun
    altFtRange := by simpa using altFt_toInt_range h }

theorem recordLegal_altMNum {ac : BitVec 13} {v : Int} (h : altFt ac = .feet v) :
    RecordLegal { Result.empty with altMNum := some (BitVec.ofInt 27 (381 * v)) } := by
  have hv := altFt_range h
  have hnum : (BitVec.ofInt 27 (381 * v)).toInt = 381 * v :=
    BitVec.toInt_ofInt_eq_self (by decide) (by omega) (by omega)
  exact { RecordLegal.of_absent (r := Result.empty) rfl with
    altMNumRange := by rintro _ ⟨⟩; omega }

theorem recordLegal_nl (frac : Nat) (lat : Int) :
    RecordLegal { Result.empty with nl := some (BitVec.ofNat 6 (nlOf frac lat)) } := by
  obtain ⟨hlo, hhi, -⟩ := zoneCount_largest frac lat.natAbs
  have hn : (BitVec.ofNat 6 (nlOf frac lat)).toNat = nlOf frac lat :=
    Nat.mod_eq_of_lt (show zoneCount frac lat.natAbs < 2 ^ 6 by omega)
  exact { RecordLegal.of_absent (r := Result.empty) rfl with
    nlRange := by rintro _ ⟨⟩; rw [hn]; exact ⟨hlo, hhi⟩ }

/-! ### The ends of an instruction -/

/-- The state once a command's operands are accepted (10_state.md R21); a row accepts none. -/
def accepted (i : Instr) (s : State) : State :=
  match i with
  | .crc bytes => acceptB 1 bytes s
  | .crcEnc bytes => acceptB 2 bytes s
  | .altIsm ac => acceptA 3 ac s
  | .altIsq ac => acceptA 4 ac s
  | .altFt ac => acceptA 5 ac s
  | .altM ac => acceptA 6 ac s
  | .cprNl lat => acceptN lat s
  | .cprEnc odd nbits lat lon => acceptC odd nbits lat lon s
  | .csDec bytes => acceptB 9 bytes s
  | .parse ts bytes => acceptP ts bytes s
  | _ => s

theorem accepted_params (i : Instr) (s : State) : (accepted i s).params = s.params := by cases i <;> rfl

theorem accepted_host (i : Instr) (s : State) : (accepted i s).host = s.host := by cases i <;> rfl

theorem accepted_row {i : Instr} (h : instrFsm i ≠ .idle) (s : State) : accepted i s = s := by
  cases i with
  | crc | crcEnc | altIsm | altIsq | altFt | altM | cprNl | cprEnc | csDec | parse => exact absurd rfl h
  | _ => rfl

/-- The two ends of an instruction. With `OK` it presents a record, legal if a row found the record that a `PARSE` has entered
its state with, whose timestamp, if any, is the command's or that of the record found; it may have used `W`. With a failure it
changes nothing but the operands it has accepted. -/
inductive Ends (i : Instr) (s : State) : Out → Prop where
  | ok (r : Result) (w : BitVec 112) (legal : (instrFsm i ≠ .idle → Entered s.result) → RecordLegal r)
      (ts : r.ts = none ∨ r.ts = some (accepted i s).ts ∨ r.ts = s.result.ts) :
      Ends i s (.next (finish r { accepted i s with w := w }))
  | failed (e : Status) (h : e ≠ .ok) : Ends i s (.next (raise e (accepted i s)))

/-- A command that presents none of the fields the record's rules read. -/
theorem Ends.plain {i : Instr} {s : State} {r : Result} (w : BitVec 112) (e : recordCore r = Result.empty) :
    Ends i s (.next (finish r { accepted i s with w := w })) :=
  .ok r w (fun _ => .of_absent e) (.inl (congrArg Result.ts e))

theorem row_ends {i : Instr} (h : instrFsm i ≠ .idle) (s : State) : Ends i s (exec i s) := by
  have hleaves := rowLeaves h s.params s.result
  have hend := Ends.ok (i := i) (s := s) (rowRecord i s.params s.result) s.w (fun hr => hleaves.legal (hr h))
    (.inr (.inr hleaves.ts))
  rw [exec_row h]
  rwa [accepted_row h] at hend

theorem crcCommand_ends {i : Instr} {op : BitVec 4} {bytes : List Byte} {s : State} (hi : accepted i s = acceptB op bytes s)
    (encode : Bool) : Ends i s (crcCommand op encode bytes s) := by
  unfold crcCommand
  rw [← hi]
  dsimp only
  split
  · exact .failed .badLength (by decide)
  · exact .ok _ _ (fun _ => recordLegal_crc _) (.inl rfl)

/-- The three answers of `PARSE` once its operands are latched (44_parser.md R200, R201, R203). -/
theorem parseLatched_cases (s : State) :
    parseLatched s = .next (raise .badLength s) ∨ parseLatched s = .next (raise .lengthMismatch s) ∨
      ∃ fr i, latchedFrame s = some fr ∧ fr.instr = some i ∧ parseLatched s = exec i (enterFrame fr s) := by
  have hlatched : latchedFrame { s with result := Result.empty, fsm := .check } = latchedFrame s := rfl
  unfold parseLatched
  dsimp only
  rw [hlatched]
  cases hfr : latchedFrame s with
  | none => exact .inl rfl
  | some fr =>
    cases hok : fr.lengthOk with
    | false => exact .inr (.inl (by simp only [hok]; rfl))
    | true =>
      obtain ⟨i, hi⟩ := (lengthOk_iff fr).mp hok
      exact .inr (.inr ⟨fr, i, rfl, hi, by simp only [hok, if_true]; exact routeFrame_eq hi (enterFrame fr s)⟩)

theorem instrFsm_frame_ne_idle {fr : Frame} {i : Instr} (h : fr.instr = some i) : instrFsm i ≠ .idle := by
  rw [instrFsm_frame h]
  nofun

theorem parse_ends (ts : Nat) (bytes : List Byte) (s : State) : Ends (.parse ts bytes) s (exec (.parse ts bytes) s) := by
  show Ends _ s (parseLatched (acceptP ts bytes s))
  rcases parseLatched_cases (acceptP ts bytes s) with h | h | ⟨fr, i, -, hi, h⟩ <;> rw [h]
  · exact .failed .badLength (by decide)
  · exact .failed .lengthMismatch (by decide)
  · have hrow := instrFsm_frame_ne_idle hi
    have hleaves := rowLeaves hrow s.params (enterFrame fr (acceptP ts bytes s)).result
    rw [exec_row hrow]
    refine .ok _ _ (fun _ => hleaves.legal ?_) (.inr (.inl ?_))
    · rw [enterFrame_result]
      exact entered_enteredRecord _ _ _
    · rw [enterFrame_params, acceptP_params, hleaves.ts, enterFrame_result]
      rfl

/-- Every instruction ends in one of the two ways. -/
theorem exec_ends (i : Instr) (s : State) : Ends i s (exec i s) := by
  cases i with
  | crc bytes => exact crcCommand_ends rfl false
  | crcEnc bytes => exact crcCommand_ends rfl true
  | altIsm ac => exact .plain s.w rfl
  | altIsq ac => exact .plain s.w rfl
  | altFt ac =>
    show Ends _ s (execAltFt ac s)
    simp only [execAltFt, acceptA_ac]
    cases h : altFt ac with
    | feet v => exact .ok _ s.w (fun _ => recordLegal_altFt h) (.inl rfl)
    | unsupported => exact .failed .unsupportedEncoding (by decide)
    | invalid => exact .failed .invalidEncoding (by decide)
  | altM ac =>
    show Ends _ s (execAltM ac s)
    simp only [execAltM, acceptA_ac]
    cases h : altFt ac with
    | feet v => exact .ok _ s.w (fun _ => recordLegal_altMNum h) (.inl rfl)
    | unsupported => exact .failed .unsupportedEncoding (by decide)
    | invalid => exact .failed .invalidEncoding (by decide)
  | cprNl lat =>
    show Ends _ s (execCprNl lat s)
    unfold execCprNl
    dsimp only
    split
    · exact .ok _ s.w (fun _ => recordLegal_nl _ _) (.inl rfl)
    · exact .failed .badOperand (by decide)
  | cprEnc odd nbits lat lon =>
    show Ends _ s (execCprEnc odd nbits lat lon s)
    unfold execCprEnc
    dsimp only
    split
    · exact .plain s.w rfl
    · exact .failed .badOperand (by decide)
  | csDec bytes =>
    show Ends _ s (execCsDec bytes s)
    unfold execCsDec
    dsimp only
    split
    · exact .plain s.w rfl
    · exact .failed .badLength (by decide)
  | parse ts bytes => exact parse_ends ts bytes s
  | _ => exact row_ends (by simp [instrFsm]) s

end Sys2Proof.Machine

open Sys2Proof.Machine Sys2Proof.Claims

/-- Settles O15: both ends of an instruction return to `IDLE`, and the failing one clears the record. -/
theorem instructionsEnd : Obligations.InstructionsEnd := by
  intro i s
  have hend := exec_ends i s
  generalize exec i s = o at hend ⊢
  cases hend with
  | ok r w legal ts =>
    exact ⟨_, rfl, rfl, Nat.zero_le _, fun h => absurd rfl h, accepted_host i s, accepted_params i s⟩
  | failed e h =>
    exact ⟨_, rfl, rfl, e.code_le, fun _ => raise_present e _, accepted_host i s, accepted_params i s⟩
end

section
/-! PROOFS. What the packet decoder reads is well formed (30_encoding.md R82 to R87): a buffer fits `LEN`, a timestamp and an
angle fit their widths. -/

namespace Sys2Proof

/-- The integer of the bytes of a number fits the number's width (30_encoding.md R82). -/
theorem bytesNat_lt_width {bs : List Byte} {n w : Nat} (hn : bs.length = n) (hw : 8 * n = w) :
    Bits.bytesNat bs < 2 ^ w := by
  subst hn hw
  exact Bits.bytesNat_lt_two_pow bs

/-- An angle of a packet fits its width (30_encoding.md R87, R105). -/
theorem fitsSigned_bytes {p : Config.Params} (hp : p.legal = true) {bs : List Byte} (h : bs.length = p.angleBytes) :
    Bits.fitsSigned p.angleWidth (Bits.signed p.angleWidth (Bits.bytesNat bs)) = true := by
  obtain ⟨-, -, hangle, hroom⟩ := legal_widths hp
  exact Bits.fitsSigned_signed (by omega) (bytesNat_lt_width h hangle)

theorem bufferWf_of_low {bytes : List Byte} {low : BitVec 4} (h : bytes.length = low.toNat) : bufferWf bytes = true :=
  decide_eq_true (by have := low.isLt; omega)

/-- Once everything a packet can decode to (30_encoding.md R82 to R87): a buffer that `LEN` can hold, an altitude code, angles
and a timestamp from as many bytes as their widths have. -/
theorem decodePacket_cases {p : Config.Params} {bytes : List Byte} {i : Instr} (h : decodePacket p bytes = .ok i) :
    (∃ buffer, bufferWf buffer = true ∧ (i = .crc buffer ∨ i = .crcEnc buffer ∨ i = .csDec buffer)) ∨
    (∃ ac, i = .altIsm ac ∨ i = .altIsq ac ∨ i = .altFt ac ∨ i = .altM ac) ∨
    (∃ lat, lat.length = p.angleBytes ∧ i = .cprNl (Bits.signed p.angleWidth (Bits.bytesNat lat))) ∨
    (∃ odd nbits lat lon, lat.length = p.angleBytes ∧ lon.length = p.angleBytes ∧
      i = .cprEnc odd nbits (Bits.signed p.angleWidth (Bits.bytesNat lat)) (Bits.signed p.angleWidth (Bits.bytesNat lon))) ∨
    ∃ time buffer, time.length = p.tsBytes ∧ bufferWf buffer = true ∧ i = .parse (Bits.bytesNat time) buffer := by
  have formatA {mk : BitVec 13 → Instr} {low : BitVec 4} {body : List Byte} (h : formatA mk low body = .ok i) :
      ∃ ac, i = mk ac := by
    obtain ⟨_, _, _, _, _, hi⟩ := formatA_ok.mp h
    exact ⟨_, hi⟩
  have formatB {mk : List Byte → Instr} {low : BitVec 4} {body : List Byte} (h : formatB mk low body = .ok i) :
      bufferWf body = true ∧ i = mk body := by
    obtain ⟨hl, hi⟩ := formatB_ok.mp h
    exact ⟨bufferWf_of_low hl, hi⟩
  cases bytes with
  | nil => cases h
  | cons b body =>
    simp only [decodePacket] at h
    split at h
    · obtain ⟨hl, hi⟩ := formatB h; exact .inl ⟨body, hl, .inl hi⟩
    · obtain ⟨hl, hi⟩ := formatB h; exact .inl ⟨body, hl, .inr (.inl hi)⟩
    · obtain ⟨ac, hi⟩ := formatA h; exact .inr (.inl ⟨ac, .inl hi⟩)
    · obtain ⟨ac, hi⟩ := formatA h; exact .inr (.inl ⟨ac, .inr (.inl hi)⟩)
    · obtain ⟨ac, hi⟩ := formatA h; exact .inr (.inl ⟨ac, .inr (.inr (.inl hi))⟩)
    · obtain ⟨ac, hi⟩ := formatA h; exact .inr (.inl ⟨ac, .inr (.inr (.inr hi))⟩)
    · obtain ⟨hl, -, hi⟩ := formatN_ok.mp h
      exact .inr (.inr (.inl ⟨body, hl, hi⟩))
    · obtain ⟨b1, angles, -, hl, -, -, hi⟩ := formatC_ok.mp h
      refine .inr (.inr (.inr (.inl ⟨_, _, angles.take p.angleBytes, angles.drop p.angleBytes, ?_, ?_, hi⟩)))
      · rw [List.length_take]; omega
      · rw [List.length_drop]; omega
    · obtain ⟨hl, hi⟩ := formatB h; exact .inl ⟨body, hl, .inr (.inr hi)⟩
    · obtain ⟨hl, hi⟩ := formatP_ok.mp h
      have hbuffer : (body.drop p.tsBytes).length = (packetLow b).toNat := by rw [List.length_drop]; omega
      refine .inr (.inr (.inr (.inr ⟨body.take p.tsBytes, body.drop p.tsBytes, ?_, bufferWf_of_low hbuffer, hi⟩)))
      rw [List.length_take]; omega
    · cases h

/-- What a packet decodes to is a well-formed command. -/
theorem decodePacket_wf {p : Config.Params} (hp : p.legal = true) {bytes : List Byte} {i : Instr}
    (h : decodePacket p bytes = .ok i) : i.port = .packet ∧ i.wf p = true := by
  obtain ⟨-, hts, -, -⟩ := legal_widths hp
  rcases decodePacket_cases h with ⟨_, hb, rfl | rfl | rfl⟩ | ⟨_, rfl | rfl | rfl | rfl⟩ | ⟨_, hlat, rfl⟩ |
    ⟨_, _, _, _, hlat, hlon, rfl⟩ | ⟨_, _, htime, hb, rfl⟩
  · exact ⟨rfl, hb⟩
  · exact ⟨rfl, hb⟩
  · exact ⟨rfl, hb⟩
  · exact ⟨rfl, rfl⟩
  · exact ⟨rfl, rfl⟩
  · exact ⟨rfl, rfl⟩
  · exact ⟨rfl, rfl⟩
  · exact ⟨rfl, fitsSigned_bytes hp hlat⟩
  · exact ⟨rfl, Bool.and_eq_true_iff.mpr ⟨fitsSigned_bytes hp hlat, fitsSigned_bytes hp hlon⟩⟩
  · exact ⟨rfl, Bool.and_eq_true_iff.mpr ⟨decide_eq_true (bytesNat_lt_width htime hts), hb⟩⟩

/-- A command runs from `IDLE` (30_encoding.md R80, 10_state.md R26). -/
theorem instrFsm_of_port_packet {i : Instr} (h : i.port = .packet) : Machine.instrFsm i = .idle := by
  cases i with
  | crc | crcEnc | altIsm | altIsq | altFt | altM | cprNl | cprEnc | csDec | parse => rfl
  | _ => cases h

end Sys2Proof
end

section
/-! PROOFS. The invariant: it holds of the reset state, and every way in which `step` answers a next state keeps it. -/

namespace Sys2Proof.Machine

/-- What the invariant says of the registers that the two ends of an instruction leave alone. -/
structure OperandsOk (s : State) : Prop where
  paramsLegal : s.params.legal = true
  tsFits : s.ts < 2 ^ s.params.tsWidth
  latFits : Bits.fitsSigned s.params.angleWidth s.lat = true
  lonFits : Bits.fitsSigned s.params.angleWidth s.lon = true
  bufCanonical : s.buf.wf = true

theorem Inv.operandsOk {s : State} (h : Inv s) : OperandsOk s := { h with }

/-- Between commands the invariant is a matter of the operands, the status and the record. -/
theorem OperandsOk.inv_of_idle {s : State} (h : OperandsOk s) (hidle : s.fsm = .idle) (hstatus : s.status.toNat ≤ 6)
    (hfail : s.status ≠ Status.ok.code → s.result = Result.empty) (hlegal : RecordLegal s.result)
    (hts : ∀ v, s.result.ts = some v → v < 2 ^ s.params.tsWidth) : Inv s :=
  { h with
    resultTsFits := hts
    statusLegal := hstatus
    failureEmpty := fun _ => hfail
    recordLegal := fun _ => hlegal
    frameReady := fun d hd => by rw [hidle] at hd; cases hd
    squitterReady := fun hp => by rw [hidle] at hp; cases hp }

/-- A command that ends with a legal record keeps the invariant. -/
theorem OperandsOk.inv_finish {s : State} (h : OperandsOk s) {r : Result} (hlegal : RecordLegal r)
    (hts : ∀ v, r.ts = some v → v < 2 ^ s.params.tsWidth) (w : BitVec 112) : Inv (finish r { s with w := w }) :=
  OperandsOk.inv_of_idle { h with } rfl (Status.code_le .ok) (absurd rfl) hlegal hts

/-- A failure keeps the invariant (60_exceptions.md R284). -/
theorem OperandsOk.inv_raise {s : State} (h : OperandsOk s) (e : Status) : Inv (raise e s) :=
  OperandsOk.inv_of_idle { h with } rfl e.code_le (fun _ => rfl) (.of_absent rfl) nofun

/-- A refused packet keeps the invariant (30_encoding.md R81). -/
theorem OperandsOk.inv_rejectPacket {s : State} (h : OperandsOk s) (e : Status) (b : Byte) : Inv (rejectPacket e b s) :=
  OperandsOk.inv_raise (s := { s with op := packetOp b }) { h with } e

/-- Accepting the operands of a well-formed command keeps them within their widths and the buffer canonical. -/
theorem OperandsOk.accepted {s : State} (h : OperandsOk s) {i : Instr} (hw : instrFsm i = .idle → i.wf s.params = true) :
    OperandsOk (accepted i s) := by
  cases i with
  | crc bytes | crcEnc bytes | csDec bytes => exact { h with bufCanonical := wf_latchBuf h.bufCanonical bytes }
  | altIsm | altIsq | altFt | altM => exact { h with }
  | cprNl lat => exact { h with latFits := hw rfl }
  | cprEnc odd nbits lat lon =>
    obtain ⟨hlat, hlon⟩ := Bool.and_eq_true_iff.mp (hw rfl)
    exact { h with latFits := hlat, lonFits := hlon }
  | parse ts bytes =>
    obtain ⟨hts, -⟩ := Bool.and_eq_true_iff.mp (hw rfl)
    exact { h with tsFits := of_decide_eq_true hts, bufCanonical := wf_latchBuf h.bufCanonical bytes }
  | _ => exact h

/-- A well-formed command, and a row that finds an entered record, keep the invariant and the parameters. -/
theorem Inv.exec {s t : State} {i : Instr} (hs : Inv s) (hw : instrFsm i = .idle → i.wf s.params = true)
    (hrow : instrFsm i ≠ .idle → Entered s.result) (h : exec i s = .next t) : Inv t ∧ t.params = s.params := by
  have hend := exec_ends i s
  have hok := hs.operandsOk.accepted hw
  rw [h] at hend
  cases hend with
  | ok r w legal ts =>
    refine ⟨hok.inv_finish (legal hrow) (fun v hv => ?_) w, accepted_params i s⟩
    rcases ts with hnone | hown | hfound
    · rw [hnone] at hv; cases hv
    · rw [hown] at hv; cases hv; exact hok.tsFits
    · rw [accepted_params]; exact hs.resultTsFits v (hfound ▸ hv)
  | failed e _ => exact ⟨hok.inv_raise e, accepted_params i s⟩

/-! ### The ways of a step -/

/-- What a reset leaves meets the invariant, whatever the block's legal parameters are (10_state.md R36). -/
theorem inv_resetBlock {p : Config.Params} (hp : p.legal = true) (later : List HostEvent) : Inv (resetBlock p later) := by
  obtain ⟨hts, -, -, hangle⟩ := legal_widths hp
  have hfits : Bits.fitsSigned p.angleWidth 0 = true := by
    simp only [Bits.fitsSigned, Bool.and_eq_true, decide_eq_true_eq]
    have hpos : (0 : Int) < 2 ^ (p.angleWidth - 1) := by positivity
    omega
  have hok : OperandsOk (resetBlock p later) := ⟨hp, Nat.two_pow_pos _, hfits, hfits, wf_reset⟩
  exact hok.inv_of_idle rfl (Nat.zero_le _) (absurd rfl) (.of_absent rfl) nofun

/-- The instruction at which a `PARSE` in progress stands: in `CHECK` the command itself, else the row of the FSM's state. -/
theorem pendingInstr_cases {s : State} {i : Instr} (h : pendingInstr s = some i) :
    (s.fsm = .check ∧ i = .parse s.ts (bufBytes s)) ∨ (s.fsm ≠ .check ∧ instrFsm i = s.fsm) := by
  unfold pendingInstr at h
  split at h
  · next hc => exact .inl ⟨hc, (Option.some.inj h).symm⟩
  · next hc =>
    refine .inr ⟨fun e => hc e, ?_⟩
    split at h
    · split at h
      · next hfsm => cases h; exact hfsm
      · cases h
    · cases h

/-- In `S_DF<d>` and in `S_ES_*` the record is an entered one. -/
theorem Inv.entered {s : State} (h : Inv s) (hidle : s.fsm ≠ .idle) (hcheck : s.fsm ≠ .check) : Entered s.result := by
  have squitter (hport : fsmPort s.fsm = .squitter) : Entered s.result := by
    obtain ⟨f, c, -, -, -, hr⟩ := h.squitterReady hport
    exact hr ▸ entered_squitterRecord _ _ _ _
  cases hfsm : s.fsm with
  | idle => exact absurd hfsm hidle
  | check => exact absurd hfsm hcheck
  | df d =>
    obtain ⟨fr, c, -, -, -, hr⟩ := h.frameReady d hfsm
    exact hr ▸ entered_enteredRecord _ _ _
  | esId | esPos | esVel | esOpaque => exact squitter (by rw [hfsm]; rfl)

/-- The operands that a `PARSE` in `CHECK` has latched are a well-formed command's. -/
theorem Inv.wf_latched {s : State} (h : Inv s) : (Instr.parse s.ts (bufBytes s)).wf s.params = true := by
  have hlen : (bufBytes s).length = s.len.toNat := memRange_length _ _
  exact Bool.and_eq_true_iff.mpr ⟨decide_eq_true h.tsFits, bufferWf_of_low hlen⟩

/-- An instruction at which a `PARSE` in progress stands keeps the invariant. -/
theorem Inv.exec_pending {s t : State} {i : Instr} (hs : Inv s) (hidle : s.fsm ≠ .idle) (hi : pendingInstr s = some i)
    (h : Machine.exec i s = .next t) : Inv t ∧ t.params = s.params := by
  rcases pendingInstr_cases hi with ⟨-, rfl⟩ | ⟨hcheck, hfsm⟩
  · exact hs.exec (fun _ => hs.wf_latched) (absurd rfl) h
  · exact hs.exec (fun hc => absurd (hfsm ▸ hc) hidle) (fun _ => hs.entered hidle hcheck) h

/-- Taking input from the host touches nothing the invariant speaks of. -/
theorem Inv.setHost {s : State} (h : Inv s) (later : List HostEvent) : Inv (setHost later s) := { h with }

end Sys2Proof.Machine

open Sys2Proof Sys2Proof.Machine

/-- Settles O13, by the ways a step can answer a next state: wait, reset, refuse a packet, run a packet's command, or go on
with the `PARSE` in progress. -/
theorem stepKeepsInv : Obligations.StepKeepsInv := by
  intro s t hs h
  rcases step_cases h with ⟨-, -, rfl⟩ | ⟨later, rfl, -⟩ | ⟨bytes, later, e, -, -, -, rfl⟩ |
    ⟨bytes, later, i, -, -, hdecode, hexec⟩ | ⟨i, hidle, -, hpending, hexec⟩
  · exact ⟨hs, rfl⟩
  · exact ⟨inv_resetBlock hs.paramsLegal later, rfl⟩
  · exact ⟨(hs.setHost later).operandsOk.inv_rejectPacket e _, rfl⟩
  · obtain ⟨hport, hwf⟩ := decodePacket_wf hs.paramsLegal hdecode
    exact (hs.setHost later).exec (fun _ => hwf) (absurd (instrFsm_of_port_packet hport)) hexec
  · exact hs.exec_pending hidle hpending hexec

/-- Settles O12: the default parameters meet the spec's constraints, and the reset state is what a reset event leaves. -/
theorem invAtReset : Obligations.InvAtReset :=
  inv_resetBlock (p := Config.params) (by decide) []

/-- Settles O11: the reset state's fields are those of the table of R36, and its record is the empty one. -/
theorem resetState : Obligations.ResetState :=
  ⟨reset_fsm, reset_status, present_empty, reset_result⟩
end

section
/-! PROOFS. `PARSE` by its buffer alone (44_parser.md R200, R201, R203): it fails alike from every state, or it runs the row of
its frame on the record that it has entered the row's state with. -/

namespace Sys2Proof.Machine

/-- `PARSE` of a frame of fitting length leaves what the frame's row leaves of the entered record, and in `W` the division. -/
theorem exec_parse_row {bytes : List Byte} {fr : Frame} {i : Instr} (hfr : Frame.ofBytes bytes = some fr)
    (hi : fr.instr = some i) (ts : Nat) (s : State) :
    exec (.parse ts bytes) s = .next (finish
      (rowRecord i s.params (enteredRecord ts fr.df (crcRead bytes.length (crcWork false bytes s.w))))
      { acceptP ts bytes s with w := crcWork false bytes s.w }) := by
  have hlen := ofBytes_length hfr
  have hbuf : bufBytes (acceptP ts bytes s) = bytes := latchBuf_bufBytes (by omega) s
  have hlatched : (acceptP ts bytes s).len.toNat = bytes.length := latchBuf_len_toNat (by omega) s
  have hw : (enterFrame fr (acceptP ts bytes s)).w = crcWork false bytes s.w := by
    rw [enterFrame_w, hbuf, acceptP_w]
  calc exec (.parse ts bytes) s
    _ = exec i (enterFrame fr (acceptP ts bytes s)) := execParse_row hfr hi ts s
    _ = .next (finish (rowRecord i s.params (enterFrame fr (acceptP ts bytes s)).result)
          { acceptP ts bytes s with w := (enterFrame fr (acceptP ts bytes s)).w }) :=
        exec_row (instrFsm_frame_ne_idle hi) _
    _ = _ := by rw [hw, enterFrame_result, hbuf, hlatched, acceptP_w, acceptP_ts]

/-- A buffer that `LEN` can hold makes `PARSE` fail in one way from every state, or holds a frame of fitting length. -/
theorem parse_cases {bytes : List Byte} (h15 : bytes.length ≤ 15) (ts : Nat) :
    (∃ e : Status, e ≠ .ok ∧ ∀ s, exec (.parse ts bytes) s = .next (raise e (acceptP ts bytes s))) ∨
      ∃ fr i, Frame.ofBytes bytes = some fr ∧ fr.instr = some i := by
  cases hfr : Frame.ofBytes bytes with
  | none =>
    have h7 : bytes.length ≠ 7 := fun h => by rw [ofBytes_short h] at hfr; cases hfr
    have h14 : bytes.length ≠ 14 := fun h => by rw [ofBytes_long h] at hfr; cases hfr
    exact .inl ⟨.badLength, by decide, execParse_badLength h15 h7 h14 ts⟩
  | some fr =>
    cases hok : fr.lengthOk with
    | false => exact .inl ⟨.lengthMismatch, by decide, execParse_mismatch hfr hok ts⟩
    | true =>
      obtain ⟨i, hi⟩ := (lengthOk_iff fr).mp hok
      exact .inr ⟨fr, i, rfl, hi⟩

/-- `CS.DEC` decodes a buffer of six bytes and refuses the other lengths that `LEN` can hold (43_callsign.md R192, R193). -/
theorem execCsDec_eq {bytes : List Byte} (h15 : bytes.length ≤ 15) (s : State) :
    execCsDec bytes s = .next
      (if bytes.length = 6 then
        finish { Result.empty with cs := some (callsign (Bits.bytesBits 48 bytes)) } (acceptB 9 bytes s)
      else raise .badLength (acceptB 9 bytes s)) := by
  have hlen : (acceptB 9 bytes s).len.toNat = bytes.length := latchBuf_len_toNat h15 s
  have hsix : (acceptB 9 bytes s).len = 6 ↔ bytes.length = 6 := by
    rw [← hlen]
    exact ⟨fun h => by rw [h]; rfl, fun h => BitVec.eq_of_toNat_eq h⟩
  unfold execCsDec
  dsimp only
  by_cases h6 : bytes.length = 6
  · have hbuf : bufBytes (acceptB 9 bytes s) = bytes := latchBuf_bufBytes (by omega) s
    rw [if_pos (hsix.mpr h6), if_pos h6, hbuf]
  · rw [if_neg (mt hsix.mp h6), if_neg h6]

end Sys2Proof.Machine
end

section
/-! PROOFS. Between packets (10_state.md R32, R33, 60_exceptions.md R301, 70_reset_and_hazards.md R310): the step waits for a
whole packet, a reset drops what has come of it, and what a whole packet leaves depends on nothing but the packet. -/

namespace Sys2Proof.Machine
open Sys2Proof.Claims

theorem step_idle {s : State} (h : s.fsm = .idle) : step s = stepIdle s := if_pos h

theorem step_busy {s : State} (h : s.fsm ≠ .idle) : step s = stepBusy s := if_neg h

/-- A reset event, in an unfinished packet or in the middle of a `PARSE`, resets the block. -/
theorem step_reset {s : State} {bytes : List Byte} {later : List HostEvent}
    (h : (s.fsm = .idle ∧ s.host = hostBytes bytes ++ .reset :: later ∧
        (bytes = [] ∨ bytes.length < packetLength s.params (bytes.headD 0))) ∨
      (s.fsm ≠ .idle ∧ s.host = .reset :: later)) : step s = .next (resetBlock s.params later) := by
  rcases h with ⟨hidle, hhost, hshort⟩ | ⟨hbusy, hhost⟩
  · rw [step_idle hidle, stepIdle, hhost, fetchPacket_aborted hshort]
  · rw [step_busy hbusy, stepBusy, hhost]

/-! ### The answer to a packet -/

/-- Two outcomes that present the same record with the same status. -/
def SameAnswer (o o' : Out) : Prop :=
  ∃ t t', o = .next t ∧ o' = .next t' ∧ t.result = t'.result ∧ t.status = t'.status

theorem sameAnswer_finish (r : Result) (s s' : State) : SameAnswer (.next (finish r s)) (.next (finish r s')) :=
  ⟨_, _, rfl, rfl, rfl, rfl⟩

theorem sameAnswer_raise (e : Status) (s s' : State) : SameAnswer (.next (raise e s)) (.next (raise e s')) :=
  ⟨_, _, rfl, rfl, rfl, rfl⟩

/-- `CRC` and `CRC.ENC` never see what `W` held (10_state.md R31). -/
theorem sameAnswer_crcCommand {bytes : List Byte} (h15 : bytes.length ≤ 15) (op : BitVec 4) (encode : Bool) (s s' : State) :
    SameAnswer (crcCommand op encode bytes s) (crcCommand op encode bytes s') := by
  by_cases hlen : bytes.length < 3 ∨ bytes.length = 15
  · rw [crcCommand_badLength h15 hlen, crcCommand_badLength h15 hlen]
    exact sameAnswer_raise _ _ _
  · rw [crcCommand_ok (by omega) (by omega), crcCommand_ok (by omega) (by omega),
      crcRead_congr (by omega) (by omega) encode s.w s'.w]
    exact sameAnswer_finish _ _ _

theorem sameAnswer_altFt (ac : BitVec 13) (s s' : State) : SameAnswer (exec (.altFt ac) s) (exec (.altFt ac) s') := by
  show SameAnswer (execAltFt ac s) (execAltFt ac s')
  simp only [execAltFt, acceptA_ac]
  cases altFt ac with
  | feet v => exact sameAnswer_finish _ _ _
  | unsupported => exact sameAnswer_raise _ _ _
  | invalid => exact sameAnswer_raise _ _ _

theorem sameAnswer_altM (ac : BitVec 13) (s s' : State) : SameAnswer (exec (.altM ac) s) (exec (.altM ac) s') := by
  show SameAnswer (execAltM ac s) (execAltM ac s')
  simp only [execAltM, acceptA_ac]
  cases altFt ac with
  | feet v => exact sameAnswer_finish _ _ _
  | unsupported => exact sameAnswer_raise _ _ _
  | invalid => exact sameAnswer_raise _ _ _

/-- `CPR.ENC` within the domain presents the two coordinates alone (42_cpr.md R178). -/
theorem exec_cprEnc_of_inDomain {odd : BitVec 1} {nbits : BitVec Config.nbitsW} {lat lon : Int} {s : State}
    (h : InDomain s.params.angleFrac lat) :
    exec (.cprEnc odd nbits lat lon) s = .next (finish
      { Result.empty with
        encLat := some (encLat s.params.angleFrac lat odd nbits)
        encLon := some (encLon s.params.angleFrac lat lon odd nbits) } (acceptC odd nbits lat lon s)) :=
  if_pos ((latOk_iff_inDomain _ _).mpr h)

/-- `CPR.ENC` beyond the domain fails with `BAD_OPERAND` (42_cpr.md R179). -/
theorem exec_cprEnc_of_not_inDomain {odd : BitVec 1} {nbits : BitVec Config.nbitsW} {lat lon : Int} {s : State}
    (h : ¬ InDomain s.params.angleFrac lat) :
    exec (.cprEnc odd nbits lat lon) s = .next (raise .badOperand (acceptC odd nbits lat lon s)) :=
  if_neg (mt (latOk_iff_inDomain _ _).mp h)

theorem sameAnswer_cprNl (lat : Int) {s s' : State} (hp : s.params = s'.params) :
    SameAnswer (exec (.cprNl lat) s) (exec (.cprNl lat) s') := by
  by_cases h : InDomain s'.params.angleFrac lat
  · rw [exec_cprNl_of_inDomain (hp ▸ h), exec_cprNl_of_inDomain h, hp]
    exact sameAnswer_finish _ _ _
  · rw [exec_cprNl_of_not_inDomain (hp ▸ h), exec_cprNl_of_not_inDomain h]
    exact sameAnswer_raise _ _ _

theorem sameAnswer_cprEnc (odd : BitVec 1) (nbits : BitVec Config.nbitsW) (lat lon : Int) {s s' : State}
    (hp : s.params = s'.params) : SameAnswer (exec (.cprEnc odd nbits lat lon) s) (exec (.cprEnc odd nbits lat lon) s') := by
  by_cases h : InDomain s'.params.angleFrac lat
  · rw [exec_cprEnc_of_inDomain (hp ▸ h), exec_cprEnc_of_inDomain h, hp]
    exact sameAnswer_finish _ _ _
  · rw [exec_cprEnc_of_not_inDomain (hp ▸ h), exec_cprEnc_of_not_inDomain h]
    exact sameAnswer_raise _ _ _

theorem sameAnswer_csDec {bytes : List Byte} (h15 : bytes.length ≤ 15) (s s' : State) :
    SameAnswer (exec (.csDec bytes) s) (exec (.csDec bytes) s') := by
  show SameAnswer (execCsDec bytes s) (execCsDec bytes s')
  rw [execCsDec_eq h15, execCsDec_eq h15]
  by_cases h6 : bytes.length = 6
  · rw [if_pos h6, if_pos h6]
    exact sameAnswer_finish _ _ _
  · rw [if_neg h6, if_neg h6]
    exact sameAnswer_raise _ _ _

theorem sameAnswer_parse {bytes : List Byte} (h15 : bytes.length ≤ 15) (ts : Nat) {s s' : State}
    (hp : s.params = s'.params) : SameAnswer (exec (.parse ts bytes) s) (exec (.parse ts bytes) s') := by
  rcases parse_cases h15 ts with ⟨e, -, h⟩ | ⟨fr, i, hfr, hi⟩
  · rw [h, h]
    exact sameAnswer_raise _ _ _
  · have hlen := ofBytes_length hfr
    rw [exec_parse_row hfr hi, exec_parse_row hfr hi, hp, crcRead_congr (by omega) (by omega) false s.w s'.w]
    exact sameAnswer_finish _ _ _

/-- What a decoded command answers is the same from every state of blocks with the same parameters (10_state.md R32). -/
theorem sameAnswer_exec {p : Config.Params} {bytes : List Byte} {i : Instr} (h : decodePacket p bytes = .ok i)
    {s s' : State} (hp : s.params = s'.params) : SameAnswer (exec i s) (exec i s') := by
  rcases decodePacket_cases h with ⟨buffer, hb, rfl | rfl | rfl⟩ | ⟨ac, rfl | rfl | rfl | rfl⟩ | ⟨_, -, rfl⟩ |
    ⟨odd, nbits, _, _, -, -, rfl⟩ | ⟨_, buffer, -, hb, rfl⟩
  · exact sameAnswer_crcCommand (of_decide_eq_true hb) 1 false s s'
  · exact sameAnswer_crcCommand (of_decide_eq_true hb) 2 true s s'
  · exact sameAnswer_csDec (of_decide_eq_true hb) s s'
  · exact sameAnswer_finish _ _ _
  · exact sameAnswer_finish _ _ _
  · exact sameAnswer_altFt ac s s'
  · exact sameAnswer_altM ac s s'
  · exact sameAnswer_cprNl _ hp
  · exact sameAnswer_cprEnc odd nbits _ _ hp
  · exact sameAnswer_parse (of_decide_eq_true hb) _ hp

/-- A whole packet, refused ones included, answers the same from both blocks. -/
theorem sameAnswer_runPacket {bytes : List Byte} (hne : bytes ≠ []) {s s' : State} (hp : s.params = s'.params)
    (hl : bytes.length = packetLength s.params (bytes.headD 0)) : SameAnswer (runPacket bytes s) (runPacket bytes s') := by
  have hl' : bytes.length = packetLength s'.params (bytes.headD 0) := hp ▸ hl
  rcases runPacket_cases hne s hl with ⟨i, hd, hr⟩ | ⟨hd, hr⟩ | ⟨hd, hr⟩
  · have hr' : runPacket bytes s' = exec i s' := by rw [runPacket, ← hp, hd]
    rw [hr, hr']
    exact sameAnswer_exec hd hp
  · have hr' : runPacket bytes s' = .next (rejectPacket .badOpcode (bytes.headD 0) s') := by rw [runPacket, ← hp, hd]
    rw [hr, hr']
    exact sameAnswer_raise _ _ _
  · have hr' : runPacket bytes s' = .next (rejectPacket .badOperand (bytes.headD 0) s') := by rw [runPacket, ← hp, hd]
    rw [hr, hr']
    exact sameAnswer_raise _ _ _

/-- A whole packet ends at `IDLE` and takes nothing more off the host's input. -/
theorem runPacket_next {bytes : List Byte} (hne : bytes ≠ []) {s t : State}
    (hl : bytes.length = packetLength s.params (bytes.headD 0)) (h : runPacket bytes s = .next t) :
    t.fsm = .idle ∧ t.host = s.host := by
  rcases runPacket_cases hne s hl with ⟨i, -, hr⟩ | ⟨-, hr⟩ | ⟨-, hr⟩ <;> rw [hr] at h
  · obtain ⟨t', ht, hidle, -, -, hhost, -⟩ := instructionsEnd i s
    cases ht.symm.trans h
    exact ⟨hidle, hhost⟩
  · cases h; exact ⟨rfl, rfl⟩
  · cases h; exact ⟨rfl, rfl⟩

end Sys2Proof.Machine

open Sys2Proof Sys2Proof.Machine Sys2Proof.Claims

/-- Settles O9: without a whole packet the fetch waits. -/
theorem stepWaitsForPacket : Obligations.StepWaitsForPacket := by
  intro s bytes hidle hhost hshort
  rw [step_idle hidle, stepIdle, hhost, fetchPacket_short hshort]

/-- Settles O10: in each case the step answers the state of a reset with the block's parameters. -/
theorem resetEventClears : Obligations.ResetEventClears := fun s _ later h =>
  ⟨resetBlock s.params later, step_reset h, rfl, rfl, present_empty, rfl, rfl⟩

/-- Settles O17: both steps run the packet, and every command answers by its operands and the parameters. -/
theorem resultDependsOnPacketOnly : Obligations.ResultDependsOnPacketOnly := by
  intro s s' bytes later later' hp hidle hidle' hhost hhost' hne hl
  have hl' : bytes.length = packetLength s'.params (bytes.headD 0) := hp ▸ hl
  have hstep := step_packet hidle hhost hne hl
  have hstep' := step_packet hidle' hhost' hne hl'
  obtain ⟨t, t', ht, ht', hresult, hstatus⟩ :=
    sameAnswer_runPacket hne (s := setHost later s) (s' := setHost later' s') hp hl
  obtain ⟨hend, hrest⟩ := runPacket_next hne (s := setHost later s) hl ht
  obtain ⟨hend', hrest'⟩ := runPacket_next hne (s := setHost later' s') hl' ht'
  exact ⟨t, t', hstep.trans ht, hstep'.trans ht', hresult, hstatus, fun f => by rw [hresult], hend, hend', hrest, hrest'⟩
end

section
/-! PROOFS. The frame of the buffer commands (10_state.md R21, R23, 40_crc.md R121, R127). -/

namespace Sys2Proof.Machine
open Sys2Proof.Claims

theorem latched_acceptB (op : BitVec 4) (bytes : List Byte) (s : State) : Latched op bytes s (acceptB op bytes s) :=
  ⟨rfl, rfl, latchBuf_memRead bytes s, rfl, rfl, rfl, rfl, rfl, rfl, rfl⟩

theorem latched_acceptP (ts : Nat) (bytes : List Byte) (s : State) : Latched 10 bytes s (acceptP ts bytes s) :=
  ⟨rfl, rfl, latchBuf_memRead bytes s, rfl, rfl, rfl, rfl, rfl, rfl, rfl⟩

/-- Ending with a record writes no operand register. -/
theorem latched_finish {op : BitVec 4} {bytes : List Byte} {s u : State} (h : Latched op bytes s u) (r : Result)
    (w : BitVec 112) : Latched op bytes s (finish r { u with w := w }) := { h with }

/-- A failure writes no operand register. -/
theorem latched_raise {op : BitVec 4} {bytes : List Byte} {s u : State} (h : Latched op bytes s u) (e : Status) :
    Latched op bytes s (raise e u) := { h with }

/-- What a command that divides leaves besides its record: the operands of its packet, a timestamp, and `W` as before or, where
the division ran, with 0 before the remainder. -/
def DividesOnly (op : BitVec 4) (bytes : List Byte) (ts : Nat) (s t : State) : Prop :=
  Latched op bytes s t ∧ t.ts = ts ∧ (t.status ≠ 0 → t.w = s.w) ∧
    (t.status = 0 → ∀ p, p + 24 < 8 * bytes.length → t.w.getMsbD p = false)

/-- A command that fails leaves `W` as it was. -/
theorem dividesOnly_raise {op : BitVec 4} {bytes : List Byte} {s u : State} (h : Latched op bytes s u) (hw : u.w = s.w)
    {e : Status} (he : e ≠ .ok) : DividesOnly op bytes u.ts s (raise e u) :=
  ⟨latched_raise h e, rfl, fun _ => hw, fun h0 => absurd h0 (Status.code_ne_zero he)⟩

/-- A command that has divided leaves 0 in `W` before the remainder (40_crc.md R121). -/
theorem dividesOnly_finish {op : BitVec 4} {bytes : List Byte} {s u : State} (h : Latched op bytes s u)
    (hl : bytes.length ≤ 14) (encode : Bool) (r : Result) :
    DividesOnly op bytes u.ts s (finish r { u with w := crcWork encode bytes s.w }) :=
  ⟨latched_finish h r _, rfl, absurd rfl, fun _ _ hp => crcWork_cleared hl encode s.w hp⟩

/-- `CRC` and `CRC.ENC` write their operands, the record and `W`. -/
theorem crcCommand_dividesOnly {bytes : List Byte} (h15 : bytes.length ≤ 15) (op : BitVec 4) (encode : Bool) (s : State) :
    ∃ t, crcCommand op encode bytes s = .next t ∧ DividesOnly op bytes s.ts s t := by
  have hlatched := latched_acceptB op bytes s
  by_cases hlen : bytes.length < 3 ∨ bytes.length = 15
  · exact ⟨_, crcCommand_badLength h15 hlen op encode s, dividesOnly_raise hlatched rfl (by decide)⟩
  · exact ⟨_, crcCommand_ok (by omega) (by omega) op encode s, dividesOnly_finish hlatched (by omega) encode _⟩

/-- `PARSE` writes its operands, the record and `W`. -/
theorem parse_dividesOnly {bytes : List Byte} (h15 : bytes.length ≤ 15) (ts : Nat) (s : State) :
    ∃ t, exec (.parse ts bytes) s = .next t ∧ DividesOnly 10 bytes ts s t := by
  have hlatched := latched_acceptP ts bytes s
  rcases parse_cases h15 ts with ⟨e, he, h⟩ | ⟨fr, i, hfr, hi⟩
  · exact ⟨_, h s, dividesOnly_raise hlatched rfl he⟩
  · have hlen := ofBytes_length hfr
    exact ⟨_, exec_parse_row hfr hi ts s, dividesOnly_finish hlatched (by omega) false _⟩

/-- `CS.DEC` writes its operands and the record. -/
theorem csDec_latched {bytes : List Byte} (h15 : bytes.length ≤ 15) (s : State) :
    ∃ t, exec (.csDec bytes) s = .next t ∧ Latched 9 bytes s t ∧ t.ts = s.ts ∧ t.w = s.w := by
  have hlatched := latched_acceptB 9 bytes s
  refine ⟨_, execCsDec_eq h15 s, ?_⟩
  split
  · exact ⟨latched_finish hlatched _ s.w, rfl, rfl⟩
  · exact ⟨latched_raise hlatched _, rfl, rfl⟩

end Sys2Proof.Machine

open Sys2Proof Sys2Proof.Machine Sys2Proof.Claims

/-- Settles O18, command by command: each ends on the state in which its operands were accepted. -/
theorem bufferCommandFrame : Obligations.BufferCommandFrame := fun _ ts s h15 =>
  ⟨crcCommand_dividesOnly h15 1 false s, crcCommand_dividesOnly h15 2 true s, csDec_latched h15 s,
    parse_dividesOnly h15 ts s⟩
end

section
/-! PROOFS. What `PARSE` reads off a buffer of fitting length: the frame and its row (44_parser.md R202, R203, R205), and the
variant (10_state.md R30). -/

namespace Sys2Proof.Machine
open Sys2Proof.Claims

/-! ### The frame and its row -/

/-- The field of a buffer's frame is the sum of the buffer's bits (00_scope.md R10). -/
theorem field_bytesBits {n : Nat} {bytes : List Byte} (hn : n = 8 * bytes.length) {p w : Nat} (h : p + w ≤ n) :
    Bits.field (Bits.bytesBits n bytes) p w = BitVec.ofNat w (bytesField bytes p w) := by
  subst hn
  rw [← Bits.field_bytesBits_toNat bytes h, BitVec.ofNat_toNat, BitVec.setWidth_eq]

/-- A field of `w` bits is below `2^w`. -/
theorem bytesField_lt (bytes : List Byte) {p w : Nat} (h : p + w ≤ 8 * bytes.length) : bytesField bytes p w < 2 ^ w := by
  rw [Bits.bytesField_eq_div_mod bytes h]
  exact Nat.mod_lt _ (Nat.two_pow_pos w)

/-- Every `df` of a short family or of none selects a row of a short frame (44_parser.md R203). -/
theorem shortInstr_of_fits {f : Short} (h : ¬ (16 ≤ (shortDf f).toNat ∧ (shortDf f).toNat ≤ 22))
    (h' : ¬ (24 ≤ (shortDf f).toNat ∧ (shortDf f).toNat ≤ 31)) : ∃ i, shortInstr f = some i := by
  unfold shortInstr
  have hlt := (shortDf f).isLt
  generalize (shortDf f).toNat = d at *
  interval_cases d <;> simp at h h' ⊢

/-- Every `df` of a long family or of none selects a row of a long frame (44_parser.md R203). -/
theorem longInstr_of_fits {f : Long} (h : (longDf f).toNat ∉ [0, 4, 5, 11]) : ∃ i, longInstr f = some i := by
  unfold longInstr
  have hlt := (longDf f).isLt
  generalize (longDf f).toNat = d at *
  interval_cases d <;> simp at h ⊢

/-- A buffer of fitting length holds a frame with its `df` and a row (44_parser.md R201 to R205). -/
theorem frame_of_lengthFits {bytes : List Byte} (h : LengthFits bytes.length (dfOf bytes)) :
    ∃ fr i, Frame.ofBytes bytes = some fr ∧ fr.instr = some i ∧ fr.df.toNat = dfOf bytes := by
  have hlen : 1 ≤ bytes.length := by rcases h with ⟨h7, -⟩ | ⟨h14, -⟩ <;> omega
  have htoNat : (BitVec.ofNat 5 (dfOf bytes)).toNat = dfOf bytes := Nat.mod_eq_of_lt (bytesField_lt bytes (by omega))
  rcases h with ⟨h7, hlong, hcommD⟩ | ⟨h14, hshort⟩
  · have hdf : (shortDf (Bits.bytesBits 56 bytes)).toNat = dfOf bytes := by
      rw [shortDf, field_bytesBits (by omega) (by omega), ← dfOf, htoNat]
    obtain ⟨i, hi⟩ := shortInstr_of_fits (f := Bits.bytesBits 56 bytes) (hdf ▸ hlong) (hdf ▸ hcommD)
    exact ⟨_, i, ofBytes_short h7, hi, hdf⟩
  · have hdf : (longDf (Bits.bytesBits 112 bytes)).toNat = dfOf bytes := by
      rw [longDf, field_bytesBits (by omega) (by omega), ← dfOf, htoNat]
    obtain ⟨i, hi⟩ := longInstr_of_fits (f := Bits.bytesBits 112 bytes) (hdf ▸ hshort)
    exact ⟨_, i, ofBytes_long h14, hi, hdf⟩

theorem ofBytes_eq_short {bytes : List Byte} {f : Short} (h : Frame.ofBytes bytes = some (.short f)) :
    bytes.length = 7 ∧ f = Bits.bytesBits 56 bytes := by
  rcases ofBytes_length h with h7 | h14
  · rw [ofBytes_short h7] at h; cases h; exact ⟨h7, rfl⟩
  · rw [ofBytes_long h14] at h; cases h

theorem ofBytes_eq_long {bytes : List Byte} {f : Long} (h : Frame.ofBytes bytes = some (.long f)) :
    bytes.length = 14 ∧ f = Bits.bytesBits 112 bytes := by
  rcases ofBytes_length h with h7 | h14
  · rw [ofBytes_short h7] at h; cases h
  · rw [ofBytes_long h14] at h; cases h; exact ⟨h14, rfl⟩

/-- A field of a buffer's short frame, at a place of a layout (30_encoding.md R105). -/
theorem get_short {bytes : List Byte} {f : Short} (hf : Frame.ofBytes bytes = some (.short f)) {w : Nat}
    (place : Config.Span w) (h : place.first + w ≤ 56) :
    place.get f = BitVec.ofNat w (bytesField bytes place.first w) := by
  obtain ⟨hlen, rfl⟩ := ofBytes_eq_short hf
  exact field_bytesBits (by omega) h

/-- A field of a buffer's long frame, at a place of a layout (30_encoding.md R105). -/
theorem get_long {bytes : List Byte} {f : Long} (hf : Frame.ofBytes bytes = some (.long f)) {w : Nat}
    (place : Config.Span w) (h : place.first + w ≤ 112) :
    place.get f = BitVec.ofNat w (bytesField bytes place.first w) := by
  obtain ⟨hlen, rfl⟩ := ofBytes_eq_long hf
  exact field_bytesBits (by omega) h

/-! ### The variant -/

/-- The variant of every `df` but 17 (10_state.md R30). -/
theorem kindOf_df {d : BitVec 5} (h : d ≠ 17) (tc : Nat) :
    (fsmKind (.df d)).code = BitVec.ofNat 5 (kindOf d.toNat tc) := by
  have h17 : d.toNat ≠ 17 := fun e => h (BitVec.eq_of_toNat_eq e)
  have hany : kindOf d.toNat tc = kindOf d.toNat 0 := by simp only [kindOf, if_neg h17]
  have table : ∀ d : BitVec 5, d ≠ 17 → (fsmKind (.df d)).code = BitVec.ofNat 5 (kindOf d.toNat 0) := by decide
  rw [hany, table d h]

/-- The variant of an extended squitter (10_state.md R30, 45_ext_squitter.md R251). -/
theorem kindOf_tc (tc : BitVec 5) : (fsmKind (esFsm (esClass tc))).code = BitVec.ofNat 5 (kindOf 17 tc.toNat) := by
  revert tc
  decide

theorem lastFsm_of_ne_df17 {i : Instr} (h : instrFsm i ≠ .df 17) (p : Config.Params) : lastFsm p i = instrFsm i := by
  cases i with
  | df17 f => exact absurd rfl h
  | _ => rfl

/-- The frames of `df` 17 select row `DF17`. -/
theorem instr_df17 {fr : Frame} {i : Instr} (hi : fr.instr = some i) (h : fr.df = 17) : ∃ f, fr = .long f ∧ i = .df17 f := by
  cases fr with
  | short f =>
    rw [Frame.df] at h
    simp [Frame.instr, shortInstr, h] at hi
  | long f =>
    rw [Frame.df] at h
    refine ⟨f, rfl, ?_⟩
    simpa [Frame.instr, longInstr, h, eq_comm] using hi

/-- The variant that the row of a buffer's frame reports is the table's (10_state.md R30). -/
theorem kindOf_row {p : Config.Params} (hp : p.legal = true) {bytes : List Byte} {fr : Frame} {i : Instr}
    (hfr : Frame.ofBytes bytes = some fr) (hi : fr.instr = some i) :
    (fsmKind (lastFsm p i)).code =
      BitVec.ofNat 5 (kindOf fr.df.toNat (bytesField bytes p.layout.df17.tc.first 5)) := by
  by_cases h17 : fr.df = 17
  · obtain ⟨f, rfl, rfl⟩ := instr_df17 hi h17
    obtain ⟨-, hplace, -⟩ := Config.Layout.consistent_position (legal_layout hp)
    have hlen := (ofBytes_eq_long hfr).1
    have htc : longTc p f = BitVec.ofNat 5 (bytesField bytes p.layout.df17.tc.first 5) :=
      get_long hfr _ (by omega)
    rw [h17, lastFsm, kindOf_tc, htc, BitVec.toNat_ofNat, Nat.mod_eq_of_lt (bytesField_lt bytes (by omega))]
    rfl
  · have hfsm := instrFsm_frame hi
    have hne : instrFsm i ≠ .df 17 := by rw [hfsm]; exact fun e => h17 (Fsm.df.inj e)
    rw [lastFsm_of_ne_df17 hne, hfsm, kindOf_df h17]

end Sys2Proof.Machine

open Sys2Proof Sys2Proof.Machine Sys2Proof.Claims

/-- Settles O42: the row of the frame reports the variant of the FSM's state in which it ends, and the table names that one. -/
theorem parseKindTable : Obligations.ParseKindTable := by
  intro ts bytes s hfits hp
  obtain ⟨fr, i, hfr, hi, hdf⟩ := frame_of_lengthFits hfits
  refine ⟨_, exec_parse_row hfr hi ts s, rfl, ?_⟩
  rw [← hdf, ← kindOf_row hp hfr hi]
  exact (rowLeaves (instrFsm_frame_ne_idle hi) _ _).kind
end

section
/-! PROOFS. The altitude of a decoded message (44_parser.md R224): the rows that read an altitude code, and that they say of it
what `ALT.FT` does. -/

namespace Sys2Proof.Machine
open Sys2Proof.Claims

/-- What a record says of an altitude code is what `ALT.FT` answers for it (44_parser.md R224). -/
theorem withAltitude_agrees (ac : BitVec 13) (r : Result) (s : State) :
    ∃ t, exec (.altFt ac) s = .next t ∧ (withAltitude ac r).ac = some ac ∧
      (withAltitude ac r).altFt = t.result.altFt ∧
      (withAltitude ac r).altSt = some (if t.status = 0 then 1 else if t.status = 3 then 2 else 3) := by
  have hexec : exec (.altFt ac) s = execAltFt ac s := rfl
  rcases withAltitude_cases ac r with ⟨v, h, e⟩ | ⟨h, e⟩ | ⟨h, e⟩ <;>
    exact ⟨_, by rw [hexec, execAltFt, acceptA_ac, h], by rw [e]; exact ⟨rfl, rfl, rfl⟩⟩

/-- The rows of the frames with an altitude code (30_encoding.md R89, R90, R92, R97). -/
theorem altitudeRow_cases {fr : Frame} {i : Instr} (hi : fr.instr = some i) (hd : fr.df.toNat ∈ [0, 4, 16, 20]) :
    (∃ f, fr = .short f ∧ i = .df0 f ∧ fr.df.toNat = 0) ∨ (∃ f, fr = .short f ∧ i = .df4 f ∧ fr.df.toNat = 4) ∨
    (∃ f, fr = .long f ∧ i = .df16 f ∧ fr.df.toNat = 16) ∨ (∃ f, fr = .long f ∧ i = .df20 f ∧ fr.df.toNat = 20) := by
  have hdf : fr.df.toNat = 0 ∨ fr.df.toNat = 4 ∨ fr.df.toNat = 16 ∨ fr.df.toNat = 20 := by simpa using hd
  cases fr with
  | short f =>
    simp only [Frame.instr, shortInstr] at hi
    rw [Frame.df] at hdf ⊢
    rcases hdf with h | h | h | h <;> rw [h] at hi <;> cases hi
    · exact .inl ⟨f, rfl, rfl, h⟩
    · exact .inr (.inl ⟨f, rfl, rfl, h⟩)
  | long f =>
    simp only [Frame.instr, longInstr] at hi
    rw [Frame.df] at hdf ⊢
    rcases hdf with h | h | h | h <;> rw [h] at hi <;> cases hi
    · exact .inr (.inr (.inl ⟨f, rfl, rfl, h⟩))
    · exact .inr (.inr (.inr ⟨f, rfl, rfl, h⟩))

/-- Those rows decode the altitude code at its place in `LAYOUT` (44_parser.md R207, R208, R211, R217). -/
theorem row_altitude {p : Config.Params} (hp : p.legal = true) {bytes : List Byte} {fr : Frame} {i : Instr}
    (hfr : Frame.ofBytes bytes = some fr) (hi : fr.instr = some i) (hd : fr.df.toNat ∈ [0, 4, 16, 20]) (r : Result) :
    ∃ r', recordCore (rowRecord i p r) =
      recordCore (withAltitude (BitVec.ofNat 13 (bytesField bytes (acFirst p.layout fr.df.toNat) 13)) r') := by
  obtain ⟨h0, hsurv, -, h16, -⟩ := Config.Layout.consistent_cases (legal_layout hp)
  obtain ⟨-, -, -, -, -, hac0⟩ := Config.LayoutDf0.consistent_inside h0
  obtain ⟨-, -, -, hcode⟩ := Config.LayoutSurveillance.consistent_places hsurv
  obtain ⟨-, -, -, -, hac16, -⟩ := Config.LayoutDf16.consistent_inside h16
  rcases altitudeRow_cases hi hd with ⟨f, rfl, rfl, h⟩ | ⟨f, rfl, rfl, h⟩ | ⟨f, rfl, rfl, h⟩ | ⟨f, rfl, rfl, h⟩ <;> rw [h]
  · have hplace : acFirst p.layout 0 = p.layout.df0.ac.first := rfl
    rw [hplace, ← get_short hfr p.layout.df0.ac (by omega)]
    exact ⟨_, rfl⟩
  · have hplace : acFirst p.layout 4 = p.layout.surveillance.code.first := rfl
    rw [hplace, ← get_short hfr p.layout.surveillance.code (by omega)]
    exact ⟨_, rfl⟩
  · have hplace : acFirst p.layout 16 = p.layout.df16.ac.first := rfl
    rw [hplace, ← get_long hfr p.layout.df16.ac (by omega)]
    exact ⟨_, recordCore_withAdvisory _ _ _⟩
  · have hplace : acFirst p.layout 20 = p.layout.surveillance.code.first := rfl
    rw [hplace, ← get_long hfr p.layout.surveillance.code (by omega)]
    exact ⟨_, rfl⟩

/-- Records with one core say the same of the altitude. -/
theorem altitude_of_core_eq {r r' : Result} (e : recordCore r = recordCore r') :
    r.ac = r'.ac ∧ r.altFt = r'.altFt ∧ r.altSt = r'.altSt :=
  ⟨show (recordCore r).ac = _ by rw [e]; rfl, show (recordCore r).altFt = _ by rw [e]; rfl,
    show (recordCore r).altSt = _ by rw [e]; rfl⟩

end Sys2Proof.Machine

open Sys2Proof Sys2Proof.Machine Sys2Proof.Claims

/-- Settles O46: the four rows decode the code at its place, and what they write for it is what `ALT.FT` answers. -/
theorem parseAltitude : Obligations.ParseAltitude := by
  intro ts bytes s hfits hd hp
  obtain ⟨fr, i, hfr, hi, hdf⟩ := frame_of_lengthFits hfits
  rw [← hdf] at hd ⊢
  obtain ⟨r, hcore⟩ := row_altitude hp hfr hi hd
    (enteredRecord ts fr.df (crcRead bytes.length (crcWork false bytes s.w)))
  obtain ⟨hac, hft, hst⟩ := altitude_of_core_eq hcore
  obtain ⟨t', ht', hac', hft', hst'⟩ := withAltitude_agrees
    (BitVec.ofNat 13 (bytesField bytes (acFirst s.params.layout fr.df.toNat) 13)) r s
  exact ⟨_, t', _, rfl, exec_parse_row hfr hi ts s, ht', rfl, hac.trans hac', hft.trans hft', hst.trans hst'⟩
end

section
/-! PROOFS. Concatenation and fields (00_scope.md R10): a field of a concatenation is a field of one of its parts, and fields
that lie side by side make one field. -/

namespace Sys2Proof.Bits

theorem field_append_left {m n : Nat} (x : BitVec m) (y : BitVec n) {p w : Nat} (h : p + w ≤ m) :
    field (x ++ y) p w = field x p w := by
  refine BitVec.eq_of_getMsbD_eq fun k hk => ?_
  rw [field_getMsbD _ _ _ _ (by omega) hk, field_getMsbD _ _ _ _ h hk, BitVec.getMsbD_append,
    if_neg (by omega)]

theorem field_append_right {m n : Nat} (x : BitVec m) (y : BitVec n) {p w : Nat} (h : p + w ≤ n) :
    field (x ++ y) (m + p) w = field y p w := by
  refine BitVec.eq_of_getMsbD_eq fun k hk => ?_
  rw [field_getMsbD _ _ _ _ (by omega) hk, field_getMsbD _ _ _ _ h hk, BitVec.getMsbD_append,
    if_pos (by omega), show m + p + k - m = p + k by omega]

/-- The whole of a bit string as a field of it. -/
@[simp] theorem field_zero_self {n : Nat} (x : BitVec n) : field x 0 n = x := by
  refine BitVec.eq_of_getMsbD_eq fun k hk => ?_
  rw [field_getMsbD _ _ _ _ (by omega) hk, Nat.zero_add]

/-- Two fields side by side are one field. -/
theorem field_append_field {n : Nat} (b : BitVec n) {p v w : Nat} (h : p + v + w ≤ n) :
    field b p v ++ field b (p + v) w = field b p (v + w) := by
  refine BitVec.eq_of_getMsbD_eq fun k hk => ?_
  rw [field_getMsbD _ _ _ _ (by omega) hk, BitVec.getMsbD_append]
  split
  · rw [field_getMsbD _ _ _ _ h (by omega)]
    congr 1
    omega
  · rw [field_getMsbD _ _ _ _ (by omega) (by omega)]

end Sys2Proof.Bits
end

section
/-! PROOFS. Packets (30_encoding.md R80 to R87): each format's decoder reads back what the encoder wrote, and what it reads
encodes to the bytes it read. -/

namespace Sys2Proof
open Bits

/-! ### Byte 0 -/

theorem packetOp_toNat (b : Byte) : (packetOp b).toNat = b.toNat / 16 := by
  rw [packetOp, field_toNat]
  exact Nat.mod_eq_of_lt (by have := b.isLt; omega)

theorem packetLow_toNat (b : Byte) : (packetLow b).toNat = b.toNat % 16 := by
  rw [packetLow, field_toNat]
  exact congrArg (· % 16) (Nat.div_one _)

/-- Byte 0 is made of its two nibbles (30_encoding.md R82). -/
theorem opByte_nibbles {b : Byte} {op low : Nat} (hop : (packetOp b).toNat = op) (hlow : (packetLow b).toNat = low) :
    opByte op low = b := by
  subst hop hlow
  rw [opByte, BitVec.ofNat_toNat, BitVec.ofNat_toNat, BitVec.setWidth_eq, BitVec.setWidth_eq, packetOp, packetLow]
  exact (field_append_field b (p := 0) (v := 4) (w := 4) (by omega)).trans (field_zero_self b)

/-- A length that `LEN` can hold comes back from the low nibble. -/
theorem packetLow_opByte_toNat (op : Nat) {low : Nat} (h : low ≤ 15) : (packetLow (opByte op low)).toNat = low := by
  rw [packetLow_opByte]
  exact Nat.mod_eq_of_lt (by omega)

/-! ### Bytes of a number -/

/-- The bytes of a number that fits them. -/
theorem bytesNat_natBytes_of_lt {n w v : Nat} (hw : 8 * n = w) (h : v < 2 ^ w) : bytesNat (natBytes n v) = v := by
  subst hw
  rw [bytesNat_natBytes]
  exact Nat.mod_eq_of_lt (by rwa [show 256 = 2 ^ 8 from rfl, ← pow_mul])

/-- The bytes of the integer of as many bytes are those bytes. -/
theorem natBytes_bytesNat_of_length {n : Nat} {bs : List Byte} (h : bs.length = n) : natBytes n (bytesNat bs) = bs := by
  subst h
  exact natBytes_bytesNat bs

/-- An angle that fits its width comes back from its bytes (30_encoding.md R86, R105). -/
theorem signed_angleBytes {p : Config.Params} (hp : p.legal = true) {x : Int} (h : fitsSigned p.angleWidth x = true) :
    signed p.angleWidth (bytesNat (natBytes p.angleBytes (unsigned p.angleWidth x))) = x := by
  obtain ⟨-, -, hangle, hroom⟩ := legal_widths hp
  rw [bytesNat_natBytes_of_lt hangle (unsigned_lt _ _), signed_unsigned (by omega) h]

/-- The bytes of the angle that bytes stand for are the bytes (30_encoding.md R86, R105). -/
theorem angleBytes_signed {p : Config.Params} (hp : p.legal = true) {bs : List Byte} (h : bs.length = p.angleBytes) :
    natBytes p.angleBytes (unsigned p.angleWidth (signed p.angleWidth (bytesNat bs))) = bs := by
  obtain ⟨-, -, hangle, -⟩ := legal_widths hp
  rw [unsigned_signed (bytesNat_lt_width h hangle), natBytes_bytesNat_of_length h]

/-! ### Decoding what was encoded -/

theorem formatB_encode (mk : List Byte → Instr) {bytes : List Byte} (op : Nat) (h : bufferWf bytes = true) :
    formatB mk (packetLow (opByte op bytes.length)) bytes = .ok (mk bytes) :=
  formatB_ok.mpr ⟨(packetLow_opByte_toNat op (of_decide_eq_true h)).symm, rfl⟩

theorem formatA_encode (mk : BitVec 13 → Instr) (op : Nat) (ac : BitVec 13) :
    formatA mk (packetLow (opByte op 0)) [(0 : BitVec 3) ++ field ac 0 5, field ac 5 8] = .ok (mk ac) := by
  have hreserved : field ((0 : BitVec 3) ++ field ac 0 5) 0 3 = 0 :=
    (field_append_left _ _ (by omega)).trans (field_zero_self _)
  have hhigh : field ((0 : BitVec 3) ++ field ac 0 5) 3 5 = field ac 0 5 :=
    (field_append_right _ _ (p := 0) (by omega)).trans (field_zero_self _)
  have hac : field ac 0 5 ++ field ac 5 8 = ac :=
    (field_append_field ac (p := 0) (by omega)).trans (field_zero_self ac)
  refine formatA_ok.mpr ⟨_, _, rfl, packetLow_opByte op 0, hreserved, congrArg mk ?_⟩
  exact hac.symm.trans (congrArg (· ++ field ac 5 8) hhigh.symm)

theorem formatN_encode {p : Config.Params} (hp : p.legal = true) (op : Nat) {lat : Int}
    (h : fitsSigned p.angleWidth lat = true) :
    formatN p (packetLow (opByte op 0)) (natBytes p.angleBytes (unsigned p.angleWidth lat)) = .ok (.cprNl lat) :=
  formatN_ok.mpr ⟨natBytes_length _ _, packetLow_opByte op 0, by rw [signed_angleBytes hp h]⟩

theorem formatC_encode {p : Config.Params} (hp : p.legal = true) (op : Nat) (odd : BitVec 1)
    (nbits : BitVec Config.nbitsW) {lat lon : Int} (hlat : fitsSigned p.angleWidth lat = true)
    (hlon : fitsSigned p.angleWidth lon = true) :
    formatC p (packetLow (opByte op 0)) ((odd ++ (0 : BitVec (7 - Config.nbitsW)) ++ nbits) ::
      (natBytes p.angleBytes (unsigned p.angleWidth lat) ++ natBytes p.angleBytes (unsigned p.angleWidth lon))) =
      .ok (.cprEnc odd nbits lat lon) := by
  have hodd : field (odd ++ (0 : BitVec 2) ++ nbits) 0 1 = odd :=
    ((field_append_left _ _ (by omega)).trans (field_append_left _ _ (by omega))).trans (field_zero_self odd)
  have hreserved : field (odd ++ (0 : BitVec 2) ++ nbits) 1 2 = 0 :=
    ((field_append_left _ _ (by omega)).trans (field_append_right _ _ (p := 0) (by omega))).trans (field_zero_self _)
  have hnbits : field (odd ++ (0 : BitVec 2) ++ nbits) 3 5 = nbits :=
    (field_append_right _ _ (p := 0) le_rfl).trans (field_zero_self nbits)
  refine formatC_ok.mpr ⟨_, _, rfl, ?_, packetLow_opByte op 0, hreserved, ?_⟩
  · rw [List.length_append, natBytes_length, natBytes_length]
    omega
  · rw [List.take_left' (natBytes_length _ _), List.drop_left' (natBytes_length _ _), signed_angleBytes hp hlat,
      signed_angleBytes hp hlon]
    exact congrArg₂ (Instr.cprEnc · · lat lon) hodd.symm hnbits.symm

theorem formatP_encode {p : Config.Params} (hp : p.legal = true) (op : Nat) {ts : Nat} {bytes : List Byte}
    (hts : ts < 2 ^ p.tsWidth) (h : bufferWf bytes = true) :
    formatP p (packetLow (opByte op bytes.length)) (natBytes p.tsBytes ts ++ bytes) = .ok (.parse ts bytes) := by
  obtain ⟨-, hwidth, -, -⟩ := legal_widths hp
  refine formatP_ok.mpr ⟨?_, ?_⟩
  · rw [List.length_append, natBytes_length, packetLow_opByte_toNat op (of_decide_eq_true h)]
  · rw [List.take_left' (natBytes_length _ _), List.drop_left' (natBytes_length _ _), bytesNat_natBytes_of_lt hwidth hts]

/-- The packet decoder reads the packet of a well-formed command as that command (30_encoding.md R80). -/
theorem decodePacket_encode {p : Config.Params} (hp : p.legal = true) {i : Instr} (hport : i.port = .packet)
    (hwf : i.wf p = true) : decodePacket p (encode p i) = .ok i := by
  cases i with
  | crc bytes | crcEnc bytes | csDec bytes =>
    rw [encode, encodeB, decodePacket, packetOp_opByte]
    exact formatB_encode _ _ hwf
  | altIsm ac | altIsq ac | altFt ac | altM ac => exact formatA_encode _ _ ac
  | cprNl lat => exact formatN_encode hp 7 hwf
  | cprEnc odd nbits lat lon =>
    obtain ⟨hlat, hlon⟩ := Bool.and_eq_true_iff.mp hwf
    exact formatC_encode hp 8 odd nbits hlat hlon
  | parse ts bytes =>
    obtain ⟨hts, hbytes⟩ := Bool.and_eq_true_iff.mp hwf
    rw [encode, decodePacket, packetOp_opByte]
    exact formatP_encode hp 10 (of_decide_eq_true hts) hbytes
  | _ => cases hport

/-! ### Encoding what was decoded -/

theorem encodeB_of_formatB {b : Byte} {op : Nat} (hop : (packetOp b).toNat = op) {body : List Byte}
    (hlen : body.length = (packetLow b).toNat) : encodeB op body = b :: body := by
  rw [encodeB, opByte_nibbles hop hlen.symm]

theorem encodeA_of_formatA {b b1 b2 : Byte} {op : Nat} (hop : (packetOp b).toNat = op) (hlow : packetLow b = 0)
    (hreserved : field b1 0 3 = 0) : encodeA op (field b1 3 5 ++ b2) = [b, b1, b2] := by
  have hhigh : field (field b1 3 5 ++ b2) 0 5 = field b1 3 5 :=
    (field_append_left _ _ (by omega)).trans (field_zero_self _)
  have hsecond : field (field b1 3 5 ++ b2) 5 8 = b2 :=
    (field_append_right _ _ (p := 0) (by omega)).trans (field_zero_self b2)
  have hfirst : (0 : BitVec 3) ++ field b1 3 5 = b1 := by
    rw [← hreserved]
    exact (field_append_field b1 (p := 0) (by omega)).trans (field_zero_self b1)
  rw [encodeA, hhigh, hsecond, hfirst, opByte_nibbles hop (by rw [hlow]; rfl)]

/-- Byte 1 of format C, put together again from `ODD`, the reserved bits and `NBITS` (30_encoding.md R87). -/
theorem oddNbits_of_formatC {b1 : Byte} (hreserved : field b1 1 2 = 0) :
    field b1 0 1 ++ (0 : BitVec 2) ++ field b1 3 5 = b1 := by
  rw [← hreserved]
  calc field b1 0 1 ++ field b1 1 2 ++ field b1 3 5
      = field b1 0 3 ++ field b1 3 5 := congrArg (· ++ field b1 3 5) (field_append_field b1 (p := 0) (by omega))
    _ = field b1 0 8 := field_append_field b1 (p := 0) (by omega)
    _ = b1 := field_zero_self b1

/-- What a packet decodes to encodes to that very packet (30_encoding.md R80 to R87). -/
theorem encode_decodePacket {p : Config.Params} (hp : p.legal = true) {bytes : List Byte} {i : Instr}
    (h : decodePacket p bytes = .ok i) : encode p i = bytes := by
  cases bytes with
  | nil => cases h
  | cons b body =>
    simp only [decodePacket] at h
    split at h
    case h_1 hop | h_2 hop | h_9 hop =>
      obtain ⟨hlen, rfl⟩ := formatB_ok.mp h
      exact encodeB_of_formatB hop hlen
    case h_3 hop | h_4 hop | h_5 hop | h_6 hop =>
      obtain ⟨b1, b2, rfl, hlow, hreserved, rfl⟩ := formatA_ok.mp h
      exact encodeA_of_formatA hop hlow hreserved
    case h_7 hop =>
      obtain ⟨hlen, hlow, rfl⟩ := formatN_ok.mp h
      rw [encode, angleBytes_signed hp hlen, opByte_nibbles hop (by rw [hlow]; rfl)]
    case h_8 hop =>
      obtain ⟨b1, angles, rfl, hlen, hlow, hreserved, rfl⟩ := formatC_ok.mp h
      have hlat : (angles.take p.angleBytes).length = p.angleBytes := by rw [List.length_take]; omega
      have hlon : (angles.drop p.angleBytes).length = p.angleBytes := by rw [List.length_drop]; omega
      rw [encode, angleBytes_signed hp hlat, angleBytes_signed hp hlon, List.take_append_drop,
        opByte_nibbles hop (by rw [hlow]; rfl)]
      exact congrArg (b :: · :: angles) (oddNbits_of_formatC hreserved)
    case h_10 hop =>
      obtain ⟨hlen, rfl⟩ := formatP_ok.mp h
      have htime : (body.take p.tsBytes).length = p.tsBytes := by rw [List.length_take]; omega
      have hbuffer : (body.drop p.tsBytes).length = (packetLow b).toNat := by rw [List.length_drop]; omega
      rw [encode, natBytes_bytesNat_of_length htime, List.take_append_drop, opByte_nibbles hop hbuffer.symm]
    case h_11 => cases h

end Sys2Proof
end

section
/-! PROOFS. Frame rows and type-code rows (30_encoding.md R88, R115): a well-formed row is the one that its frame selects, and
what a frame selects is well formed. -/

namespace Sys2Proof
open Bits Machine

/-! ### Frames of bytes -/

/-- The bytes of a frame are read back as that frame. -/
theorem ofBytes_bytes (fr : Frame) : Frame.ofBytes fr.bytes = some fr := by
  cases fr with
  | short f =>
    have hf : bytesBits 56 (shortBytes f) = f := bytesBits_natBytes f rfl
    exact (ofBytes_short (natBytes_length 7 _)).trans (congrArg (fun g => some (Frame.short g)) hf)
  | long f =>
    have hf : bytesBits 112 (longBytes f) = f := bytesBits_natBytes f rfl
    exact (ofBytes_long (natBytes_length 14 _)).trans (congrArg (fun g => some (Frame.long g)) hf)

/-- The frame that bytes make has those bytes. -/
theorem bytes_of_ofBytes {bytes : List Byte} {fr : Frame} (h : Frame.ofBytes bytes = some fr) : fr.bytes = bytes := by
  cases fr with
  | short f =>
    obtain ⟨hlen, rfl⟩ := ofBytes_eq_short h
    exact natBytes_bytesBits bytes hlen rfl
  | long f =>
    obtain ⟨hlen, rfl⟩ := ofBytes_eq_long h
    exact natBytes_bytesBits bytes hlen rfl

/-! ### Frame rows -/

/-- The row of a frame belongs to the frame port, is well formed, and encodes to the frame's bytes. -/
theorem frameInstr_wf {fr : Frame} {i : Instr} (h : fr.instr = some i) (p : Config.Params) :
    i.wf p = true ∧ i.port = .frame ∧ encode p i = fr.bytes := by
  cases fr with
  | short f =>
    simp only [Frame.instr, shortInstr] at h
    split at h <;> simp only [Option.some.injEq, reduceCtorEq] at h <;> subst h <;>
      exact ⟨beq_of_eq (BitVec.eq_of_toNat_eq ‹_›), rfl, rfl⟩
  | long f =>
    simp only [Frame.instr, longInstr] at h
    split at h <;> simp only [Option.some.injEq, reduceCtorEq] at h <;> subst h <;>
      exact ⟨beq_of_eq (BitVec.eq_of_toNat_eq ‹_›), rfl, rfl⟩

/-- A well-formed frame row is the row that its frame selects. -/
theorem frameInstr_of_wf {p : Config.Params} {i : Instr} (hport : i.port = .frame) (hwf : i.wf p = true) :
    ∃ fr : Frame, encode p i = fr.bytes ∧ fr.instr = some i := by
  cases i with
  | df0 f | df4 f | df5 f | df11 f =>
    refine ⟨.short f, rfl, ?_⟩
    rw [Frame.instr, shortInstr, eq_of_beq hwf]
    rfl
  | df16 f | df17 f | df18 f | df19 f | df20 f | df21 f | df22 f | df24 f | df25 f | df26 f | df27 f | df28 f | df29 f
  | df30 f | df31 f =>
    refine ⟨.long f, rfl, ?_⟩
    rw [Frame.instr, longInstr, eq_of_beq hwf]
    rfl
  | df1 fr | df2 fr | df3 fr | df6 fr | df7 fr | df8 fr | df9 fr | df10 fr | df12 fr | df13 fr | df14 fr | df15 fr
  | df23 fr =>
    refine ⟨fr, rfl, ?_⟩
    cases fr with
    | short f =>
      rw [Frame.instr, shortInstr, show shortDf f = _ from eq_of_beq hwf]
      rfl
    | long f =>
      rw [Frame.instr, longInstr, show longDf f = _ from eq_of_beq hwf]
      rfl
  | _ => cases hport

/-! ### Type-code rows -/

/-- What the extended-squitter decoder reads (30_encoding.md R115). -/
theorem decodeSquitter_ok {p : Config.Params} {bytes : List Byte} {i : Instr} :
    decodeSquitter p bytes = .ok i ↔
      ∃ f, Frame.ofBytes bytes = some (.long f) ∧ longDf f = 17 ∧ i = squitterInstr p f := by
  constructor
  · intro h
    unfold decodeSquitter at h
    split at h
    · next f hf =>
      split at h
      · next hdf => cases h; exact ⟨f, hf, hdf, rfl⟩
      · cases h
    · cases h
  · rintro ⟨f, hf, hdf, rfl⟩
    rw [decodeSquitter, hf]
    exact if_pos hdf

/-- The row that an extended squitter selects is well formed and encodes to the frame's bytes. -/
theorem squitterInstr_wf {f : Long} (hdf : longDf f = 17) (p : Config.Params) :
    (squitterInstr p f).wf p = true ∧ encode p (squitterInstr p f) = longBytes f := by
  have hwf {n : Nat} (htc : (longTc p f).toNat = n) : squitterWf p (BitVec.ofNat 5 n) f = true := by
    rw [squitterWf, hdf, ← htc, BitVec.ofNat_toNat, BitVec.setWidth_eq, beq_self_eq_true, beq_self_eq_true, Bool.and_self]
  unfold squitterInstr
  have hlt := (longTc p f).isLt
  generalize (longTc p f).toNat = n at hlt hwf
  interval_cases n <;> exact ⟨hwf rfl, rfl⟩

/-- A well-formed type-code row is the row that its frame selects. -/
theorem squitterInstr_of_wf {p : Config.Params} {i : Instr} (hport : i.port = .squitter) (hwf : i.wf p = true) :
    ∃ f, encode p i = longBytes f ∧ longDf f = 17 ∧ i = squitterInstr p f := by
  have hframe {f : Long} {tc : BitVec 5} (h : squitterWf p tc f = true) : longDf f = 17 ∧ longTc p f = tc := by
    obtain ⟨hdf, htc⟩ := Bool.and_eq_true_iff.mp h
    exact ⟨eq_of_beq hdf, eq_of_beq htc⟩
  cases i with
  | esTc0 f | esTc1 f | esTc2 f | esTc3 f | esTc4 f | esTc5 f | esTc6 f | esTc7 f | esTc8 f | esTc9 f | esTc10 f | esTc11 f
  | esTc12 f | esTc13 f | esTc14 f | esTc15 f | esTc16 f | esTc17 f | esTc18 f | esTc19 f | esTc20 f | esTc21 f | esTc22 f
  | esTc23 f | esTc24 f | esTc25 f | esTc26 f | esTc27 f | esTc28 f | esTc29 f | esTc30 f | esTc31 f =>
    obtain ⟨hdf, htc⟩ := hframe hwf
    refine ⟨f, rfl, hdf, ?_⟩
    rw [squitterInstr, htc]
    rfl
  | _ => cases hport

end Sys2Proof

open Sys2Proof Sys2Proof.Machine

/-- Settles O1, port by port: a command's packet by its format, a row by the frame that selects it. -/
theorem decodeEncodeRoundTrip : Obligations.DecodeEncodeRoundTrip := by
  intro p i hp hwf
  cases hport : i.port with
  | packet => exact decodePacket_encode hp hport hwf
  | frame =>
    obtain ⟨fr, hbytes, hi⟩ := frameInstr_of_wf hport hwf
    rw [hbytes]
    exact decodeFrame_ok.mpr ⟨fr, ofBytes_bytes fr, hi⟩
  | squitter =>
    obtain ⟨f, hbytes, hdf, hi⟩ := squitterInstr_of_wf hport hwf
    rw [hbytes]
    exact decodeSquitter_ok.mpr ⟨f, ofBytes_bytes (.long f), hdf, hi⟩

/-- Settles O2, port by port: what each decoder reads, it reads from bytes that the encoder gives back. -/
theorem encodeDecodeRoundTrip : Obligations.EncodeDecodeRoundTrip := by
  intro p port bytes i hp h
  cases port with
  | packet =>
    obtain ⟨hport, hwf⟩ := decodePacket_wf hp h
    exact ⟨hwf, hport, encode_decodePacket hp h⟩
  | frame =>
    obtain ⟨fr, hfr, hi⟩ := decodeFrame_ok.mp h
    obtain ⟨hwf, hport, hbytes⟩ := frameInstr_wf hi p
    exact ⟨hwf, hport, hbytes.trans (bytes_of_ofBytes hfr)⟩
  | squitter =>
    obtain ⟨f, hf, hdf, rfl⟩ := decodeSquitter_ok.mp h
    obtain ⟨hwf, hbytes⟩ := squitterInstr_wf hdf p
    exact ⟨hwf, squitterInstr_port p f, hbytes.trans (bytes_of_ofBytes hf)⟩
end

section
/-! PROOFS. Packets from the host's input (30_encoding.md R81, R110, R313, R318): a packet that decodes is run, one with a
reserved opcode or a reserved bit ends with its failure. -/

namespace Sys2Proof
open Bits

/-- A reserved opcode is refused by byte 0 alone (30_encoding.md R81). -/
theorem decodePacket_badOpcode (p : Config.Params) {b : Byte} (h : b.toNat / 16 = 0 ∨ 11 ≤ b.toNat / 16) :
    packetLength p b = 1 ∧ decodePacket p [b] = .error .badOpcode := by
  have hlt := b.isLt
  have hop : (packetOp b).toNat ∈ [0, 11, 12, 13, 14, 15] := by
    rw [packetOp_toNat]
    simp only [List.mem_cons, List.not_mem_nil, or_false]
    omega
  rw [packetLength, decodePacket]
  generalize (packetOp b).toNat = op at hop
  simp only [List.mem_cons, List.not_mem_nil, or_false] at hop
  rcases hop with rfl | rfl | rfl | rfl | rfl | rfl <;> exact ⟨rfl, rfl⟩

/-- The bits of a field are clear exactly when its number is 0. -/
theorem field_eq_zero_iff {n : Nat} {b : BitVec n} {p w : Nat} :
    field b p w = 0 ↔ b.toNat / 2 ^ (n - p - w) % 2 ^ w = 0 := by
  rw [← field_toNat, BitVec.toNat_eq]
  rfl

theorem formatA_reserved (mk : BitVec 13 → Instr) {low : BitVec 4} {b1 b2 : Byte} (h : low ≠ 0 ∨ field b1 0 3 ≠ 0) :
    formatA mk low [b1, b2] = .error .reservedBits := if_neg (by tauto)

theorem formatN_reserved {p : Config.Params} {low : BitVec 4} {body : List Byte} (hlen : body.length = p.angleBytes)
    (h : low ≠ 0) : formatN p low body = .error .reservedBits := (if_pos hlen).trans (if_neg h)

theorem formatC_reserved {p : Config.Params} {low : BitVec 4} {b1 : Byte} {angles : List Byte}
    (hlen : angles.length = 2 * p.angleBytes) (h : low ≠ 0 ∨ field b1 1 2 ≠ 0) :
    formatC p low (b1 :: angles) = .error .reservedBits := (if_pos hlen).trans (if_neg (by tauto))

/-- Where a packet of format A, N or C has a reserved bit set (30_encoding.md R85 to R87, R110). -/
def HasReservedBit (p : Config.Params) (b0 b1 : Byte) (rest : List Byte) : Prop :=
  (3 ≤ b0.toNat / 16 ∧ b0.toNat / 16 ≤ 6 ∧ rest.length = 1 ∧ (b0.toNat % 16 ≠ 0 ∨ b1.toNat / 32 ≠ 0)) ∨
    (b0.toNat / 16 = 7 ∧ rest.length + 1 = p.angleBytes ∧ b0.toNat % 16 ≠ 0) ∨
    (b0.toNat / 16 = 8 ∧ rest.length = 2 * p.angleBytes ∧ (b0.toNat % 16 ≠ 0 ∨ b1.toNat / 32 % 4 ≠ 0))

/-- A whole packet with a reserved bit set is refused for it (30_encoding.md R110). -/
theorem decodePacket_reservedBits {p : Config.Params} {b0 b1 : Byte} {rest : List Byte}
    (h : HasReservedBit p b0 b1 rest) :
    (b0 :: b1 :: rest).length = packetLength p b0 ∧ decodePacket p (b0 :: b1 :: rest) = .error .reservedBits := by
  have hlow : b0.toNat % 16 ≠ 0 → packetLow b0 ≠ 0 := fun hne e => hne (by rw [← packetLow_toNat, e]; rfl)
  have hA : b1.toNat / 32 ≠ 0 → field b1 0 3 ≠ 0 := by
    rw [Ne, Ne, field_eq_zero_iff]
    have := b1.isLt
    omega
  have hC : b1.toNat / 32 % 4 ≠ 0 → field b1 1 2 ≠ 0 := mt field_eq_zero_iff.mp
  rw [packetLength, decodePacket]
  rw [HasReservedBit, ← packetOp_toNat] at h
  generalize (packetOp b0).toNat = op at h
  rcases h with ⟨h3, h6, hlen, hbit⟩ | ⟨rfl, hlen, hbit⟩ | ⟨rfl, hlen, hbit⟩
  · obtain ⟨b2, rfl⟩ := List.length_eq_one_iff.mp hlen
    have hop : op = 3 ∨ op = 4 ∨ op = 5 ∨ op = 6 := by omega
    rcases hop with rfl | rfl | rfl | rfl <;> exact ⟨rfl, formatA_reserved _ (hbit.imp hlow hA)⟩
  · exact ⟨by simp only [List.length_cons]; omega, formatN_reserved hlen (hlow hbit)⟩
  · exact ⟨by simp only [List.length_cons]; omega, formatC_reserved hlen (hbit.imp hlow hC)⟩

end Sys2Proof

namespace Sys2Proof.Machine
open Sys2Proof.Claims

/-- What refusing a packet at `IDLE` leaves: `OP` written, the packet taken off the input, the record clear (60_exceptions.md
R284; log 5). -/
theorem rejectPacket_setHost (e : Status) (b : Byte) (later : List HostEvent) {s : State} (h : s.fsm = .idle) :
    rejectPacket e b (setHost later s) =
      { s with op := BitVec.ofNat 4 (b.toNat / 16), host := later, result := Result.empty, status := e.code } := by
  rw [← packetOp_toNat, BitVec.ofNat_toNat, BitVec.setWidth_eq, rejectPacket, raise, ← h]
  rfl

end Sys2Proof.Machine

open Sys2Proof Sys2Proof.Machine Sys2Proof.Claims

/-- Settles O5: byte 0 is the whole packet, and the packet decoder refuses it for its opcode. -/
theorem reservedOpcodeRefused : Obligations.ReservedOpcodeRefused := by
  intro s b later hidle hhost hop
  obtain ⟨hlen, hdecode⟩ := decodePacket_badOpcode s.params hop
  have hstep := step_packet hidle (bytes := [b]) hhost (by simp) hlen.symm
  rw [hstep, runPacket, setHost_params, hdecode]
  exact congrArg _ (rejectPacket_setHost .badOpcode b later hidle)

/-- Settles O6: the packet is whole, and its format refuses it for the reserved bit. -/
theorem reservedBitsRefused : Obligations.ReservedBitsRefused := by
  intro s b0 b1 rest later hidle hhost hbit
  obtain ⟨hlen, hdecode⟩ := decodePacket_reservedBits hbit
  have hstep := step_packet hidle hhost (by simp) hlen
  rw [hstep, runPacket, setHost_params, hdecode]
  exact congrArg _ (rejectPacket_setHost .badOperand b0 later hidle)

/-- Settles O3 by running the decoder of each word's port on its bytes. -/
theorem specWordsDecode : Obligations.SpecWordsDecode := by
  unfold Obligations.SpecWordsDecode
  decide +kernel

/-- Settles O7: a packet that decodes is whole, so the fetch takes it and its instruction is run. -/
theorem stepRunsPacket : Obligations.StepRunsPacket := by
  intro s bytes later i hidle hhost hdecode
  obtain ⟨hne, hlen⟩ := decodePacket_length hdecode
  have hdecode' : decodePacket (setHost later s).params bytes = .ok i := hdecode
  rw [step_packet hidle hhost hne hlen, runPacket, hdecode']
end

section
/-! PROOFS. The model's operations on bits against the spec's formulas: a field is the sum of its bits (00_scope.md R10), the
digits of a squawk (44_parser.md R225), and the altitude code (41_altitude.md R144 to R150). -/

namespace Sys2Proof.Bits
open Sys2Proof.Claims

/-- The field that the model reads of a frame is the sum of 00_scope.md R10. -/
theorem fieldOf_eq_field {n : Nat} (f : BitVec n) {p w : Nat} (h : p + w ≤ n) : fieldOf f p w = field f p w := by
  have hsum : ∑ k ∈ Finset.range w, (f.getMsbD (p + k)).toNat * 2 ^ (w - 1 - k) = (field f p w).toNat := by
    rw [field_toNat, ← sum_testBit_msb]
    refine Finset.sum_congr rfl fun k hk => ?_
    rw [Finset.mem_range] at hk
    rw [Nat.testBit_div_two_pow, BitVec.getMsbD, decide_eq_true (by omega), Bool.true_and, BitVec.getLsbD]
    congr 3
    omega
  rw [fieldOf, hsum, BitVec.ofNat_toNat, BitVec.setWidth_eq]

/-- One bit as a bit string. -/
theorem bit_eq_ofBool {n : Nat} (c : BitVec n) (i : Nat) : bit c i = BitVec.ofBool (c.getLsbD i) := by
  ext k hk
  obtain rfl : k = 0 := by omega
  simp [bit]

end Sys2Proof.Bits

namespace Sys2Proof.Machine
open Sys2Proof.Bits Sys2Proof.Claims

/-! ### The squawk -/

/-- An octal digit from its three bits (44_parser.md R225). -/
theorem digit_toNat (a b c : Bool) :
    (BitVec.ofBool a ++ BitVec.ofBool b ++ BitVec.ofBool c).toNat = bitsNat [a, b, c] := by
  revert a b c
  decide

/-- A concatenation as a number: the high part shifted up, plus the low part. -/
theorem append_toNat {m n : Nat} (x : BitVec m) (y : BitVec n) : (x ++ y).toNat = x.toNat * 2 ^ n + y.toNat := by
  rw [BitVec.toNat_append, ← Nat.shiftLeft_add_eq_or_of_lt y.isLt, Nat.shiftLeft_eq]

/-- `Squawk(id)` is the number of its four octal digits (44_parser.md R225). -/
theorem squawkOf_eq (l : Config.LayoutIdentity) (c : BitVec 13) : squawkOf l c = BitVec.ofNat 12 (squawkNat l c) := by
  have hsum : squawkNat l c = (squawkOf l c).toNat := by
    simp only [squawkNat, squawkOf, bit_eq_ofBool]
    rw [append_toNat, append_toNat, append_toNat, digit_toNat, digit_toNat, digit_toNat, digit_toNat]
    ring
  rw [hsum, BitVec.ofNat_toNat, BitVec.setWidth_eq]

/-! ### The altitude code -/

/-- A mask of one bit tests that bit. -/
theorem and_twoPow_ne_zero {n : Nat} (x : BitVec n) {i : Nat} (hi : i < n) :
    (x &&& BitVec.twoPow n i != 0) = x.getLsbD i := by
  rw [BitVec.and_twoPow]
  cases x.getLsbD i with
  | false => simp
  | true =>
    rw [if_pos rfl, bne_iff_ne]
    exact fun e => absurd (congrArg (·.getLsbD i) e) (by simp [hi])

theorem isMetric_eq (ac : BitVec 13) : isMetric ac = ac.getLsbD 6 := and_twoPow_ne_zero ac (i := 6) (by decide)

theorem isSimple_eq (ac : BitVec 13) : isSimple ac = ac.getLsbD 4 := and_twoPow_ne_zero ac (i := 4) (by decide)

/-- `DeGray` of eight bits: each bit is the parity of the bits from the top down to it (41_altitude.md R146). -/
theorem deGray_eight (a b c d e f g h : Bool) :
    (deGray ((BitVec.ofBool a ++ BitVec.ofBool b ++ BitVec.ofBool c ++ BitVec.ofBool d ++ BitVec.ofBool e ++
      BitVec.ofBool f ++ BitVec.ofBool g ++ BitVec.ofBool h).setWidth 16)).toNat = grayValue [a, b, c, d, e, f, g, h] := by
  revert a b c d e f g h
  decide

/-- The 500s value is the value of its Gray code (41_altitude.md R145, R146). -/
theorem n500_eq (ac : BitVec 13) : n500 ac = gillham500 ac := by
  simp only [n500, g500, bit_eq_ofBool, deGray_eight, gillham500]

/-- The 100s value is the value of its Gray code (41_altitude.md R146). -/
theorem v100_eq (ac : BitVec 13) : v100 ac = grayValue [ac.getLsbD 12, ac.getLsbD 10, ac.getLsbD 8] := by
  have table : ∀ a b c : Bool,
      (deGray ((BitVec.ofBool a ++ BitVec.ofBool b ++ BitVec.ofBool c).setWidth 16)).toNat = grayValue [a, b, c] := by decide
  simp only [v100, g100, bit_eq_ofBool, table]

/-- The closed-up number of a simple-format code has the code's bits but the metric and the Q-bit (41_altitude.md R144). -/
theorem simpleNumber_toNat (ac : BitVec 13) :
    (simpleNumber ac).toNat = bitsNat [ac.getLsbD 12, ac.getLsbD 11, ac.getLsbD 10, ac.getLsbD 9, ac.getLsbD 8,
      ac.getLsbD 7, ac.getLsbD 5, ac.getLsbD 3, ac.getLsbD 2, ac.getLsbD 1, ac.getLsbD 0] := by
  have hbits : simpleNumber ac = (bit ac 12 ++ bit ac 11 ++ bit ac 10 ++ bit ac 9 ++ bit ac 8 ++ bit ac 7 ++ bit ac 5 ++
      bit ac 3 ++ bit ac 2 ++ bit ac 1 ++ bit ac 0).setWidth 13 := by
    refine BitVec.eq_of_getLsbD_eq fun k hk => ?_
    simp only [simpleNumber, BitVec.getLsbD_setWidth, BitVec.getLsbD_append, bit, BitVec.getLsbD_extractLsb']
    interval_cases k <;> simp
  rw [hbits, BitVec.toNat_setWidth_of_le (by decide)]
  simp only [bit_eq_ofBool, append_toNat, BitVec.toNat_ofBool, bitsNat, List.foldl]
  omega

/-- The 100s value by the table of R149 (41_altitude.md R147, R148). -/
theorem gillhamUnits_eq (ac : BitVec 13) :
    gillhamUnits (ac.getLsbD 12) (ac.getLsbD 10) (ac.getLsbD 8) (decide (gillham500 ac % 2 = 1)) =
      if v100 ac = 0 ∨ v100 ac = 5 ∨ v100 ac = 6 then none else some (units100 ac) := by
  rw [units100, v100_eq, n500_eq]
  generalize ac.getLsbD 12 = c1, ac.getLsbD 10 = c2, ac.getLsbD 8 = c4
  by_cases hodd : gillham500 ac % 2 = 1
  · simp only [hodd, decide_true, if_true]
    revert c1 c2 c4
    decide
  · simp only [hodd, decide_false, if_false]
    revert c1 c2 c4
    decide

/-- What decoding gives, as the formula of R150 does: the feet or the failure. -/
def Altitude.outcome : Altitude → Except Status Int
  | .feet v => .ok v
  | .unsupported => .error .unsupportedEncoding
  | .invalid => .error .invalidEncoding

/-- The model's altitude is that of the formulas of R144 to R150. -/
theorem specAlt_eq_outcome (ac : BitVec 13) : specAlt ac = (altFt ac).outcome := by
  rw [specAlt, altFt, isMetric_eq, isSimple_eq, gillhamFt, gillhamUnits_eq, simpleFt, simpleNumber_toNat, n500_eq]
  cases ac.getLsbD 6 with
  | true => rfl
  | false =>
    cases ac.getLsbD 4 with
    | true => rfl
    | false => by_cases h : v100 ac = 0 ∨ v100 ac = 5 ∨ v100 ac = 6 <;> simp [h, Altitude.outcome]

/-- What a row writes for its altitude code is what those formulas give (44_parser.md R224). -/
theorem withAltitude_eq_withAlt (ac : BitVec 13) (r : Result) : withAltitude ac r = withAlt ac r := by
  rw [withAltitude, withAlt, specAlt_eq_outcome]
  cases altFt ac <;> rfl

end Sys2Proof.Machine
end

section
/-! PROOFS. The rows at the default parameters (30_encoding.md R89 to R103): the record that each row leaves is that of its
table. -/

namespace Sys2Proof.Machine
open Sys2Proof.Bits Sys2Proof.Claims

/-- At the defaults the bits of `id` have the names of R103 (44_parser.md R225). -/
theorem squawkOf_default (c : BitVec 13) : squawkOf Config.layout.identity c = tableSquawk c := squawkOf_eq _ c

/-! ### The rows -/

section
variable (sf : Short) (f : Long) {s : State} {c : BitVec 24}

theorem execDf0_reads_table (hp : s.params = Config.params) (h : s.result.crc = some c) :
    execDf0 sf s = .next (ended s (tableDf0 sf c s.result)) := by
  rw [execDf0, hp, tableDf0, ← withAltitude_eq_withAlt]
  simp (disch := decide) only [fieldOf_eq_field, ← h]
  rfl

theorem execDf4_reads_table (hp : s.params = Config.params) (h : s.result.crc = some c) :
    execDf4 sf s = .next (ended s (tableDf4 sf c s.result)) := by
  rw [execDf4, hp, tableDf4, ← withAltitude_eq_withAlt, tableSurveillance]
  simp (disch := decide) only [fieldOf_eq_field, ← h]
  rfl

theorem execDf5_reads_table (hp : s.params = Config.params) (h : s.result.crc = some c) :
    execDf5 sf s = .next (ended s (tableDf5 sf c s.result)) := by
  rw [execDf5, hp, tableDf5, tableIdentity, ← squawkOf_default, tableSurveillance]
  simp (disch := decide) only [fieldOf_eq_field, ← h]
  rfl

theorem execDf11_reads_table (hp : s.params = Config.params) : execDf11 sf s = .next (ended s (tableDf11 sf s.result)) := by
  rw [execDf11, hp, tableDf11]
  simp (disch := decide) only [fieldOf_eq_field]
  rfl

theorem execDf16_reads_table (hp : s.params = Config.params) (h : s.result.crc = some c) :
    execDf16 f s = .next (ended s (tableDf16 f c s.result)) := by
  rw [execDf16, hp, tableDf16, ← withAltitude_eq_withAlt]
  simp (disch := decide) only [fieldOf_eq_field, ← h]
  rfl

theorem execDf19_reads_table (hp : s.params = Config.params) : execDf19 f s = .next (ended s (tableDf19 f s.result)) := by
  rw [execDf19, hp, tableDf19]
  simp (disch := decide) only [fieldOf_eq_field]
  by_cases haf : field f 5 3 = 0
  · have haf' : Config.params.layout.df19.af.get f = 0 := haf
    rw [if_pos haf, if_pos haf', haf']
    rfl
  · have haf' : Config.params.layout.df19.af.get f ≠ 0 := haf
    rw [if_neg haf, if_neg haf']
    rfl

theorem execDf20_reads_table (hp : s.params = Config.params) (h : s.result.crc = some c) :
    execDf20 f s = .next (ended s (tableDf20 f c s.result)) := by
  rw [execDf20, hp, tableDf20, ← withAltitude_eq_withAlt, tableCommB, tableSurveillance]
  simp (disch := decide) only [fieldOf_eq_field, ← h]
  rfl

theorem execDf21_reads_table (hp : s.params = Config.params) (h : s.result.crc = some c) :
    execDf21 f s = .next (ended s (tableDf21 f c s.result)) := by
  rw [execDf21, hp, tableDf21, tableIdentity, ← squawkOf_default, tableCommB, tableSurveillance]
  simp (disch := decide) only [fieldOf_eq_field, ← h]
  rfl

theorem commD_reads_table (hp : s.params = Config.params) (h : s.result.crc = some c) :
    commD f s = .next (ended s (tableCommD f c s.result)) := by
  rw [commD, hp, tableCommD]
  simp (disch := decide) only [fieldOf_eq_field, ← h]
  rfl

theorem esPosition_reads_table (hp : s.params = Config.params) :
    esPosition f s = .next (ended s (tablePosition f s.result)) := by
  rw [esPosition, hp, tablePosition]
  simp (disch := decide) only [fieldOf_eq_field]
  rfl

theorem esVelocity_reads_table (hp : s.params = Config.params) :
    esVelocity f s = .next (ended s (tableVelocity f s.result)) := by
  rw [esVelocity, hp, tableVelocity, withClimb]
  simp (disch := decide) only [fieldOf_eq_field]
  have hvalid : Config.params.climbValidSt.contains (Config.params.layout.velocity.st.get f) = true ↔
      field f 37 3 = 1 ∨ field f 37 3 = 3 := by
    rw [List.contains_iff_mem]
    exact List.mem_cons.trans (or_congr_right List.mem_singleton)
  by_cases hst : field f 37 3 = 1 ∨ field f 37 3 = 3
  · rw [if_pos (hvalid.mpr hst), if_pos hst, if_pos hst]
    rfl
  · rw [if_neg (mt hvalid.mp hst), if_neg hst, if_neg hst]
    rfl

theorem esOther_reads_table (hp : s.params = Config.params) :
    esOther f s = .next (ended s { s.result with kind := some 9, me := some (fieldOf f 32 56) }) := by
  rw [esOther, hp, fieldOf_eq_field f (by decide)]
  rfl

/-- The rows of the type codes keep the address and the type code that `S_DF17` has written (44_parser.md R214). -/
theorem rowRecord_squitter_keeps {i : Instr} (h : i.port = .squitter) (p : Config.Params) (r : Result) :
    (rowRecord i p r).aa = r.aa ∧ (rowRecord i p r).tc = r.tc := by
  cases i with
  | esTc19 f =>
    have hrow : ∃ r', rowRecord (.esTc19 f) p r = withClimb p f r' ∧ r'.aa = r.aa ∧ r'.tc = r.tc := ⟨_, rfl, rfl, rfl⟩
    obtain ⟨r', hr', haa, htc⟩ := hrow
    rw [hr', withClimb]
    split <;> exact ⟨haa, htc⟩
  | esTc0 f | esTc1 f | esTc2 f | esTc3 f | esTc4 f | esTc5 f | esTc6 f | esTc7 f | esTc8 f | esTc9 f | esTc10 f | esTc11 f
  | esTc12 f | esTc13 f | esTc14 f | esTc15 f | esTc16 f | esTc17 f | esTc18 f | esTc20 f | esTc21 f | esTc22 f | esTc23 f
  | esTc24 f | esTc25 f | esTc26 f | esTc27 f | esTc28 f | esTc29 f | esTc30 f | esTc31 f => exact ⟨rfl, rfl⟩
  | _ => cases h

/-- Row `DF17` at the defaults: whatever the row of the type code adds, the address and the type code stay. -/
theorem exec_df17_reads_table (hp : s.params = Config.params) :
    ∃ t, exec (.df17 f) s = .next t ∧ t.result.aa = some (fieldOf f 8 24) ∧ t.result.tc = some (fieldOf f 32 5) := by
  obtain ⟨haa, htc⟩ := rowRecord_squitter_keeps (squitterInstr_port s.params f) s.params (df17Record f s.params s.result)
  refine ⟨_, exec_df17 f s, ?_, ?_⟩
  · rw [finish_result, haa, hp, fieldOf_eq_field f (by decide)]
    rfl
  · rw [finish_result, htc, hp, fieldOf_eq_field f (by decide)]
    rfl

end

/-! ### The lists of rows -/

theorem exec_commD {f : Long} {i : Instr}
    (h : i ∈ [Instr.df24 f, .df25 f, .df26 f, .df27 f, .df28 f, .df29 f, .df30 f, .df31 f]) (s : State) :
    exec i s = commD f s := by
  fin_cases h <;> rfl

theorem exec_esPosition {f : Long} {i : Instr}
    (h : i ∈ [Instr.esTc9 f, .esTc10 f, .esTc11 f, .esTc12 f, .esTc13 f, .esTc14 f, .esTc15 f, .esTc16 f, .esTc17 f,
      .esTc18 f]) (s : State) : exec i s = esPosition f s := by
  fin_cases h <;> rfl

theorem exec_esOther {f : Long} {i : Instr}
    (h : i ∈ [Instr.esTc0 f, .esTc5 f, .esTc6 f, .esTc7 f, .esTc8 f, .esTc20 f, .esTc21 f, .esTc22 f, .esTc23 f, .esTc24 f,
      .esTc25 f, .esTc26 f, .esTc27 f, .esTc28 f, .esTc29 f, .esTc30 f, .esTc31 f]) (s : State) :
    exec i s = esOther f s := by
  fin_cases h <;> rfl

end Sys2Proof.Machine

open Sys2Proof Sys2Proof.Machine Sys2Proof.Claims

/-- Settles O60, row by row: at the defaults every place of the layout is that of its table, and the row's own operations are the
table's formulas. -/
theorem defaultRowsReadTables : Obligations.DefaultRowsReadTables := by
  refine ⟨rfl, by decide, by decide, fun sf f s d c a tc hp => ⟨fun hentered => ?_, fun _ => ?_⟩⟩
  · have hcrc : s.result.crc = some c := by rw [hentered]; rfl
    exact ⟨execDf0_reads_table sf hp hcrc, execDf4_reads_table sf hp hcrc, execDf5_reads_table sf hp hcrc, execDf11_reads_table sf hp,
      execDf16_reads_table f hp hcrc, fun _ => exec_df17_reads_table f hp, execDf19_reads_table f hp, execDf20_reads_table f hp hcrc,
      execDf21_reads_table f hp hcrc, fun i hi => (exec_commD hi s).trans (commD_reads_table f hp hcrc)⟩
  · exact ⟨fun i hi => (exec_esPosition hi s).trans (esPosition_reads_table f hp), esVelocity_reads_table f hp,
      fun i hi => (exec_esOther hi s).trans (esOther_reads_table f hp)⟩
end

section
/-! PROOFS. Which lengths the buffer commands refuse (60_exceptions.md R281): each ends in one failure or with a record. -/

namespace Sys2Proof.Machine
open Sys2Proof.Claims

/-- An instruction that raises a status fails with its code. -/
theorem failsWith_iff_of_raise {i : Instr} {s u : State} {e : Status} (h : exec i s = .next (raise e u)) (code : BitVec 4) :
    FailsWith i s code ↔ code = e.code := by
  constructor
  · rintro ⟨t, ht, hstatus, -⟩
    cases h.symm.trans ht
    exact hstatus.symm
  · rintro rfl
    exact ⟨_, h, raise_status e u, raise_fsm e u, raise_present e u⟩

/-- An instruction that ends with a record does not fail. -/
theorem not_failsWith_of_finish {i : Instr} {s u : State} {r : Result} (h : exec i s = .next (finish r u)) {code : BitVec 4}
    (hcode : code ≠ 0) : ¬ FailsWith i s code := by
  rintro ⟨t, ht, hstatus, -⟩
  cases h.symm.trans ht
  exact hcode hstatus.symm

/-- `CRC` and `CRC.ENC` refuse the lengths outside 3 to 14 and no other (40_crc.md R126). -/
theorem failsWith_badLength_of_crcCommand {i : Instr} {op : BitVec 4} {encode : Bool} {bytes : List Byte} {s : State}
    (h15 : bytes.length ≤ 15) (hi : exec i s = crcCommand op encode bytes s) :
    FailsWith i s 1 ↔ bytes.length < 3 ∨ bytes.length = 15 := by
  by_cases hlen : bytes.length < 3 ∨ bytes.length = 15
  · exact iff_of_true ((failsWith_iff_of_raise (hi.trans (crcCommand_badLength h15 hlen op encode s)) 1).mpr rfl) hlen
  · exact iff_of_false (not_failsWith_of_finish (hi.trans (crcCommand_ok (by omega) (by omega) op encode s)) (by decide)) hlen

/-- `CS.DEC` refuses every length but 6 (43_callsign.md R193). -/
theorem failsWith_badLength_csDec {bytes : List Byte} (h15 : bytes.length ≤ 15) (s : State) :
    FailsWith (.csDec bytes) s 1 ↔ bytes.length ≠ 6 := by
  have hexec : exec (.csDec bytes) s = _ := execCsDec_eq h15 s
  by_cases h6 : bytes.length = 6
  · rw [if_pos h6] at hexec
    exact iff_of_false (not_failsWith_of_finish hexec (by decide)) (not_not_intro h6)
  · rw [if_neg h6] at hexec
    exact iff_of_true ((failsWith_iff_of_raise hexec 1).mpr rfl) h6

/-- `PARSE` refuses with `BAD_LENGTH` the lengths that are no frame's; a frame whose `df` implies the other length is refused
with another code (44_parser.md R201, R203). -/
theorem failsWith_badLength_parse {bytes : List Byte} (h15 : bytes.length ≤ 15) (ts : Nat) (s : State) :
    FailsWith (.parse ts bytes) s 1 ↔ bytes.length ≠ 7 ∧ bytes.length ≠ 14 := by
  have hexec : exec (.parse ts bytes) s = execParse ts bytes s := rfl
  by_cases hlen : bytes.length ≠ 7 ∧ bytes.length ≠ 14
  · obtain ⟨h7, h14⟩ := hlen
    exact iff_of_true ((failsWith_iff_of_raise (hexec.trans (execParse_badLength h15 h7 h14 ts s)) 1).mpr rfl) ⟨h7, h14⟩
  · refine iff_of_false ?_ hlen
    obtain ⟨fr, hfr⟩ : ∃ fr, Frame.ofBytes bytes = some fr := by
      by_cases h7 : bytes.length = 7
      · exact ⟨_, ofBytes_short h7⟩
      · exact ⟨_, ofBytes_long (by omega)⟩
    cases hok : fr.lengthOk with
    | false =>
      rw [failsWith_iff_of_raise (hexec.trans (execParse_mismatch hfr hok ts s))]
      decide
    | true =>
      obtain ⟨i, hi⟩ := (lengthOk_iff fr).mp hok
      exact not_failsWith_of_finish (exec_parse_row hfr hi ts s) (by decide)

end Sys2Proof.Machine

open Sys2Proof Sys2Proof.Machine Sys2Proof.Claims

/-- Settles O19, command by command. -/
theorem badLengthRefused : Obligations.BadLengthRefused := fun _ ts s h15 =>
  ⟨failsWith_badLength_of_crcCommand (op := 1) (encode := false) h15 rfl,
    failsWith_badLength_of_crcCommand (op := 2) (encode := true) h15 rfl,
    failsWith_badLength_csDec h15 s, failsWith_badLength_parse h15 ts s⟩
end

section
/-! PROOFS. The polynomials of 40_crc.md R120 and R123: bits read from the most significant on, the generator, and the buffers
that the laws of R124 compare. -/

namespace Sys2Proof.Machine
open Sys2Proof.Claims Polynomial

/-! ### Bits as a polynomial -/

/-- The bits at positions `0` to `n-1` as a polynomial over GF(2): position `p` is the coefficient of `x^(n-1-p)` (40_crc.md
R123). -/
noncomputable def msbPoly (n : Nat) (f : Nat → Bool) : (ZMod 2)[X] :=
  ∑ p ∈ Finset.range n, if f p then X ^ (n - 1 - p) else 0

theorem bytesPoly_eq_msbPoly (bytes : List Byte) : bytesPoly bytes = msbPoly (8 * bytes.length) (byteBit bytes) := rfl

theorem bitsPoly_eq_msbPoly {n : Nat} (b : BitVec n) : bitsPoly b = msbPoly n b.getMsbD := by
  rw [bitsPoly, ← Finset.sum_range_reflect]
  refine Finset.sum_congr rfl fun p hp => ?_
  rw [BitVec.getMsbD, decide_eq_true (Finset.mem_range.mp hp), Bool.true_and]

theorem msbPoly_congr {n : Nat} {f g : Nat → Bool} (h : ∀ p < n, f p = g p) : msbPoly n f = msbPoly n g :=
  Finset.sum_congr rfl fun p hp => by rw [h p (Finset.mem_range.mp hp)]

theorem msbPoly_eq_zero {n : Nat} {f : Nat → Bool} (h : ∀ p < n, f p = false) : msbPoly n f = 0 :=
  (msbPoly_congr h).trans Finset.sum_const_zero

/-- Side by side: the first bits stand above the others. -/
theorem msbPoly_add (m n : Nat) (f : Nat → Bool) :
    msbPoly (m + n) f = X ^ n * msbPoly m f + msbPoly n fun k => f (m + k) := by
  unfold msbPoly
  rw [Finset.sum_range_add, Finset.mul_sum]
  congr 1 <;> refine Finset.sum_congr rfl fun p hp => ?_ <;> rw [Finset.mem_range] at hp
  · rw [mul_ite, mul_zero, ← pow_add, show n + (m - 1 - p) = m + n - 1 - p by omega]
  · rw [show m + n - 1 - (m + p) = n - 1 - p by omega]

/-- Bits that are 0 before and after `n` positions are those `n` bits, shifted up by what stands after them. -/
theorem msbPoly_window {i n : Nat} (j : Nat) {f : Nat → Bool} (h : ∀ p, ¬ (i ≤ p ∧ p < i + n) → f p = false) :
    msbPoly (i + n + j) f = X ^ j * msbPoly n fun k => f (i + k) := by
  have hbefore : msbPoly i f = 0 := msbPoly_eq_zero fun p hp => h p (by omega)
  have hafter : (msbPoly j fun k => f (i + n + k)) = 0 := msbPoly_eq_zero fun k _ => h _ (by omega)
  rw [msbPoly_add, msbPoly_add, hbefore, hafter, mul_zero, zero_add, add_zero]

/-- Over GF(2) the XOR of bits is the sum of polynomials. -/
theorem msbPoly_xor (n : Nat) (f g : Nat → Bool) : (msbPoly n fun p => f p ^^ g p) = msbPoly n f + msbPoly n g := by
  unfold msbPoly
  rw [← Finset.sum_add_distrib]
  refine Finset.sum_congr rfl fun p _ => ?_
  cases hf : f p <;> cases hg : g p <;> simp [hf, hg, CharTwo.add_self_eq_zero]

/-- One set bit is a power of `x`. -/
theorem msbPoly_single {n p : Nat} (hp : p < n) : (msbPoly n fun k => decide (k = p)) = X ^ (n - 1 - p) := by
  simp [msbPoly, Finset.sum_ite_eq', hp]

theorem bitsPoly_coeff {n : Nat} (b : BitVec n) (k : Nat) : (bitsPoly b).coeff k = if b.getLsbD k then 1 else 0 := by
  have hterm : ∀ j, (if b.getLsbD j then (X : (ZMod 2)[X]) ^ j else 0).coeff k =
      if k = j then (if b.getLsbD k then 1 else 0) else 0 := by
    intro j
    by_cases hkj : k = j
    · subst hkj
      split <;> simp
    · split <;> simp [coeff_X_pow, hkj]
  simp only [bitsPoly, finsetSum_coeff, hterm, Finset.sum_ite_eq, Finset.mem_range]
  by_cases hk : k < n
  · rw [if_pos hk]
  · rw [if_neg hk, BitVec.getLsbD_of_ge b k (by omega)]
    rfl

theorem degree_bitsPoly_lt {n : Nat} (b : BitVec n) : (bitsPoly b).degree < n := by
  rw [degree_lt_iff_coeff_zero]
  intro k hk
  rw [bitsPoly_coeff, BitVec.getLsbD_of_ge b k hk]
  rfl

theorem bitsPoly_injective {n : Nat} : Function.Injective (bitsPoly : BitVec n → (ZMod 2)[X]) := by
  intro b c h
  refine BitVec.eq_of_getLsbD_eq fun k _ => ?_
  have hcoeff := congrArg (coeff · k) h
  simp only [bitsPoly_coeff] at hcoeff
  cases hb : b.getLsbD k <;> cases hc : c.getLsbD k <;> simp_all

theorem bitsPoly_xor {n : Nat} (b c : BitVec n) : bitsPoly (b ^^^ c) = bitsPoly b + bitsPoly c := by
  simp only [bitsPoly_eq_msbPoly, ← msbPoly_xor]
  exact msbPoly_congr fun p _ => BitVec.getMsbD_xor

@[simp] theorem bitsPoly_zero (n : Nat) : bitsPoly (0 : BitVec n) = 0 := by simp [bitsPoly]

/-! ### The generator -/

/-- The exponents that 40_crc.md R120 lists are the set bits of the constant `GEN`. -/
theorem genPoly_eq_bitsPoly : genPoly = bitsPoly Config.gen := by
  have hbits : (Finset.range 25).filter (fun k => Config.gen.getLsbD k) =
      [24, 23, 22, 21, 20, 19, 18, 17, 16, 15, 14, 13, 12, 10, 3, 0].toFinset := by decide
  rw [bitsPoly, ← Finset.sum_filter, hbits, List.sum_toFinset _ (by decide), genPoly]

/-- `GEN` is `x^24` and a rest of lower degree. -/
theorem genPoly_eq_X_pow_add : genPoly = X ^ 24 + bitsPoly (Config.gen.setWidth 24) := by
  rw [genPoly_eq_bitsPoly, bitsPoly, Finset.sum_range_succ, add_comm]
  refine congrArg₂ (· + ·) (if_pos rfl) (Finset.sum_congr rfl fun k hk => ?_)
  rw [BitVec.getLsbD_setWidth, decide_eq_true (Finset.mem_range.mp hk), Bool.true_and]

theorem genPoly_monic : genPoly.Monic := by
  rw [genPoly_eq_X_pow_add]
  exact monic_X_pow_add (degree_bitsPoly_lt _)

theorem degree_genPoly : genPoly.degree = 24 := by
  rw [genPoly_eq_X_pow_add, degree_add_eq_left_of_degree_lt] <;> rw [degree_X_pow]
  · rfl
  · exact degree_bitsPoly_lt _

/-- 24 bits are their own remainder. -/
@[simp] theorem bitsPoly_modByMonic (c : BitVec 24) : bitsPoly c %ₘ genPoly = bitsPoly c := by
  rw [modByMonic_eq_self_iff genPoly_monic, degree_genPoly]
  exact degree_bitsPoly_lt c

/-- A multiple of the generator leaves the remainder. -/
theorem add_mul_genPoly_modByMonic (f q : (ZMod 2)[X]) : (f + q * genPoly) %ₘ genPoly = f %ₘ genPoly := by
  rw [add_modByMonic, mul_self_modByMonic genPoly_monic, add_zero]

/-! ### Buffers -/

theorem byteBit_eq_getMsbD (bytes : List Byte) (p : Nat) : byteBit bytes p = (bytes.getD (p / 8) 0).getMsbD (p % 8) := by
  rw [byteBit, BitVec.getMsbD, decide_eq_true (Nat.mod_lt p (by decide)), Bool.true_and]

theorem byteBit_append_left {xs : List Byte} (ys : List Byte) {p : Nat} (hp : p < 8 * xs.length) :
    byteBit (xs ++ ys) p = byteBit xs p := by
  rw [byteBit, List.getD_append _ _ _ _ (by omega), byteBit]

theorem byteBit_append_right (xs ys : List Byte) (p : Nat) : byteBit (xs ++ ys) (8 * xs.length + p) = byteBit ys p := by
  rw [byteBit, List.getD_append_right _ _ _ _ (by omega), Nat.mul_add_mod, Nat.mul_add_div (by decide),
    Nat.add_sub_cancel_left, byteBit]

theorem bytesPoly_append (xs ys : List Byte) :
    bytesPoly (xs ++ ys) = X ^ (8 * ys.length) * bytesPoly xs + bytesPoly ys := by
  simp only [bytesPoly_eq_msbPoly]
  rw [List.length_append, Nat.mul_add, msbPoly_add, msbPoly_congr fun p hp => byteBit_append_left ys hp,
    msbPoly_congr fun p _ => byteBit_append_right xs ys p]

theorem byteBit_replicate_zero (n p : Nat) : byteBit (List.replicate n 0) p = false := by
  rw [byteBit, List.getD_eq_getElem?_getD, List.getElem?_replicate]
  split <;> exact BitVec.getLsbD_zero

theorem bytesPoly_replicate_zero (n : Nat) : bytesPoly (List.replicate n 0) = 0 :=
  msbPoly_eq_zero fun p _ => byteBit_replicate_zero n p

theorem tailBytes_getD (v : BitVec 24) {q : Nat} (hq : q < 3) : (tailBytes v).getD q 0 = Bits.field v (8 * q) 8 := by
  interval_cases q <;> exact Bits.fieldOf_eq_field v (by decide)

theorem byteBit_tailBytes (v : BitVec 24) {p : Nat} (hp : p < 24) : byteBit (tailBytes v) p = v.getMsbD p := by
  rw [byteBit_eq_getMsbD, tailBytes_getD v (by omega), Bits.field_getMsbD _ _ _ _ (by omega) (by omega), Nat.div_add_mod]

/-- A trailing field is read as the value that it holds. -/
theorem bytesPoly_tailBytes (v : BitVec 24) : bytesPoly (tailBytes v) = bitsPoly v := by
  rw [bytesPoly_eq_msbPoly, bitsPoly_eq_msbPoly]
  exact msbPoly_congr fun p hp => byteBit_tailBytes v hp

theorem byteBit_zipWith_xor {x y : List Byte} (h : x.length = y.length) (p : Nat) :
    byteBit (List.zipWith (· ^^^ ·) x y) p = (byteBit x p ^^ byteBit y p) := by
  unfold byteBit
  rw [← BitVec.getLsbD_xor]
  congr 1
  by_cases hp : p / 8 < x.length
  · simp [hp, h ▸ hp]
  · simp [hp, h ▸ hp]

theorem bytesPoly_zipWith_xor {x y : List Byte} (h : x.length = y.length) :
    bytesPoly (List.zipWith (· ^^^ ·) x y) = bytesPoly x + bytesPoly y := by
  have hlen : (List.zipWith (· ^^^ ·) x y).length = x.length := by simp [h]
  simp only [bytesPoly_eq_msbPoly]
  rw [hlen, ← h, ← msbPoly_xor, msbPoly_congr fun p _ => byteBit_zipWith_xor h p]

theorem flipAt_length (bytes : List Byte) (p : Nat) : (flipAt bytes p).length = bytes.length := List.length_set

theorem oneBit_getMsbD : ∀ r < 8, ∀ k < 8, ((0x80 : Byte) >>> r).getMsbD k = decide (k = r) := by decide

theorem byteBit_flipAt {bytes : List Byte} {p : Nat} (hp : p < 8 * bytes.length) (q : Nat) :
    byteBit (flipAt bytes p) q = (byteBit bytes q ^^ decide (q = p)) := by
  rw [byteBit_eq_getMsbD, byteBit_eq_getMsbD, flipAt]
  by_cases hbyte : q / 8 = p / 8
  · have hflipped : (bytes.set (p / 8) (bytes.getD (p / 8) 0 ^^^ (0x80 : Byte) >>> (p % 8))).getD (q / 8) 0 =
        bytes.getD (q / 8) 0 ^^^ (0x80 : Byte) >>> (p % 8) := by
      rw [hbyte, List.getD_eq_getElem?_getD, List.getElem?_set_self (by omega)]
      rfl
    have hbit : q % 8 = p % 8 ↔ q = p := by omega
    rw [hflipped, BitVec.getMsbD_xor, oneBit_getMsbD _ (by omega) _ (by omega), decide_eq_decide.mpr hbit]
  · have hother : q ≠ p := fun h => hbyte (by rw [h])
    rw [List.getD_eq_getElem?_getD, List.getElem?_set_ne (Ne.symm hbyte), ← List.getD_eq_getElem?_getD,
      decide_eq_false hother, Bool.xor_false]

theorem bytesPoly_flipAt {bytes : List Byte} {p : Nat} (hp : p < 8 * bytes.length) :
    bytesPoly (flipAt bytes p) = bytesPoly bytes + X ^ (8 * bytes.length - 1 - p) := by
  simp only [bytesPoly_eq_msbPoly]
  rw [flipAt_length, msbPoly_congr fun q _ => byteBit_flipAt hp q, msbPoly_xor, msbPoly_single hp]

end Sys2Proof.Machine
end

section
/-! PROOFS. The remainder law and its consequences (40_crc.md R122 to R124): each step of the division keeps the remainder of
the working copy's polynomial by the generator, so what `CRC` and `CRC.ENC` give is fixed by that remainder. -/

namespace Sys2Proof.Machine
open Sys2Proof.Claims Polynomial

/-! ### The division -/

/-- The generator with its top bit at position `i` of `i + 25 + j` positions. -/
theorem msbPoly_genAt {i j : Nat} (h : i + 25 + j ≤ 112) : msbPoly (i + 25 + j) (genAt i).getMsbD = X ^ j * genPoly := by
  have houtside : ∀ p, ¬ (i ≤ p ∧ p < i + 25) → (genAt i).getMsbD p = false := fun p hp => by
    rw [genAt_getMsbD (by omega), decide_eq_false (by omega), Bool.false_and]
  have hinside : ∀ k < 25, (genAt i).getMsbD (i + k) = Config.gen.getMsbD k := fun k hk => by
    rw [genAt_getMsbD (by omega), decide_eq_true (by omega), BitVec.getMsbD, decide_eq_true hk, Nat.add_sub_cancel_left]
  rw [msbPoly_window j houtside, msbPoly_congr hinside, genPoly_eq_bitsPoly, bitsPoly_eq_msbPoly]

/-- One step adds a multiple of the generator or nothing (40_crc.md R123). -/
theorem msbPoly_wStep_modByMonic {i L : Nat} (hi : i + 24 < L) (hL : L ≤ 112) (w : BitVec 112) :
    msbPoly L (wStep w i).getMsbD %ₘ genPoly = msbPoly L w.getMsbD %ₘ genPoly := by
  obtain ⟨j, rfl⟩ : ∃ j, L = i + 25 + j := ⟨L - (i + 25), by omega⟩
  unfold wStep
  split
  · rw [msbPoly_congr fun p _ => BitVec.getMsbD_xor, msbPoly_xor, msbPoly_genAt hL, add_mul_genPoly_modByMonic]
  · rfl

theorem msbPoly_wLoop_modByMonic {m L : Nat} (hm : m + 24 ≤ L) (hL : L ≤ 112) (w : BitVec 112) :
    msbPoly L (wLoop m w).getMsbD %ₘ genPoly = msbPoly L w.getMsbD %ₘ genPoly := by
  induction m with
  | zero => rfl
  | succ m ih => rw [wLoop_succ, msbPoly_wStep_modByMonic (by omega) hL, ih (by omega)]

/-- After the division the positions before the remainder are 0, so what is left is the value that is read (40_crc.md R121). -/
theorem bitsPoly_crcRead {bytes : List Byte} (h3 : 3 ≤ bytes.length) (h14 : bytes.length ≤ 14) (w : BitVec 112) :
    bitsPoly (crcRead bytes.length (crcWork false bytes w)) = msbPoly (8 * bytes.length) (crcWork false bytes w).getMsbD := by
  obtain ⟨m, hm⟩ : ∃ m, 8 * bytes.length = m + 24 := ⟨8 * bytes.length - 24, by omega⟩
  have hcleared : msbPoly m (crcWork false bytes w).getMsbD = 0 :=
    msbPoly_eq_zero fun p hp => crcWork_cleared h14 false w (by omega)
  rw [hm, msbPoly_add, hcleared, mul_zero, zero_add, bitsPoly_eq_msbPoly]
  refine msbPoly_congr fun k hk => ?_
  rw [crcRead, Bits.field_getMsbD _ _ _ _ (by omega) hk, hm, Nat.add_sub_cancel]

theorem wLoad_getMsbD_byteBit {bytes : List Byte} (h14 : bytes.length ≤ 14) (w : BitVec 112) {p : Nat}
    (hp : p < 8 * bytes.length) : (wLoad bytes w).getMsbD p = byteBit bytes p := by
  rw [wLoad_getMsbD h14 w (by omega), if_pos hp, Bits.bytesNat_testBit bytes hp]

/-- The value that is read is the remainder of the buffer's polynomial (40_crc.md R123). -/
theorem bitsPoly_crcRead_eq_modByMonic {bytes : List Byte} (h3 : 3 ≤ bytes.length) (h14 : bytes.length ≤ 14)
    (w : BitVec 112) :
    bitsPoly (crcRead bytes.length (crcWork false bytes w)) = bytesPoly bytes %ₘ genPoly := by
  calc bitsPoly (crcRead bytes.length (crcWork false bytes w))
    _ = bitsPoly (crcRead bytes.length (crcWork false bytes w)) %ₘ genPoly := (bitsPoly_modByMonic _).symm
    _ = msbPoly (8 * bytes.length) (wLoop (8 * bytes.length - 24) (wLoad bytes w)).getMsbD %ₘ genPoly := by
        rw [bitsPoly_crcRead h3 h14]
        rfl
    _ = msbPoly (8 * bytes.length) (wLoad bytes w).getMsbD %ₘ genPoly := msbPoly_wLoop_modByMonic (by omega) (by omega) _
    _ = bytesPoly bytes %ₘ genPoly := by
        rw [msbPoly_congr fun p hp => wLoad_getMsbD_byteBit h14 w hp, bytesPoly_eq_msbPoly]

/-! ### The answers of the two commands -/

/-- What either command presents, from every state: the value that the division leaves, whatever `W` held. -/
theorem crcCommand_presents_iff {bytes : List Byte} (h3 : 3 ≤ bytes.length) (h14 : bytes.length ≤ 14) (op : BitVec 4)
    (encode : Bool) (c : BitVec 24) :
    (∀ s, ∃ t, crcCommand op encode bytes s = .next t ∧ t.status = 0 ∧ t.result = { Result.empty with crc := some c }) ↔
      crcRead bytes.length (crcWork encode bytes 0) = c := by
  simp only [crcCommand_ok h3 h14]
  constructor
  · intro h
    obtain ⟨t, ht, -, hresult⟩ := h State.reset
    cases ht
    rw [crcRead_congr h3 h14 encode 0 State.reset.w]
    exact Option.some.inj (congrArg Result.crc hresult)
  · intro h s
    exact ⟨_, rfl, rfl, by rw [finish_result, crcRead_congr h3 h14 encode s.w 0, h]⟩

theorem crcGives_iff_crcRead {bytes : List Byte} (h3 : 3 ≤ bytes.length) (h14 : bytes.length ≤ 14) (c : BitVec 24) :
    CrcGives bytes c ↔ crcRead bytes.length (crcWork false bytes 0) = c := crcCommand_presents_iff h3 h14 1 false c

theorem crcEncGives_iff_crcRead {bytes : List Byte} (h3 : 3 ≤ bytes.length) (h14 : bytes.length ≤ 14) (c : BitVec 24) :
    CrcEncGives bytes c ↔ crcRead bytes.length (crcWork true bytes 0) = c := crcCommand_presents_iff h3 h14 2 true c

/-- `CRC` gives the remainder of the buffer's polynomial and nothing else (40_crc.md R123). -/
theorem crcGives_iff {bytes : List Byte} (h3 : 3 ≤ bytes.length) (h14 : bytes.length ≤ 14) (c : BitVec 24) :
    CrcGives bytes c ↔ bitsPoly c = bytesPoly bytes %ₘ genPoly := by
  rw [crcGives_iff_crcRead h3 h14, ← bitsPoly_crcRead_eq_modByMonic h3 h14 0, bitsPoly_injective.eq_iff, eq_comm]

theorem exists_crcGives {bytes : List Byte} (h3 : 3 ≤ bytes.length) (h14 : bytes.length ≤ 14) : ∃ c, CrcGives bytes c :=
  ⟨_, (crcGives_iff_crcRead h3 h14 _).mpr rfl⟩

/-! ### The trailing field -/

/-- With the tail zeroed the working copy holds the bits of the buffer whose last three bytes are 0 (40_crc.md R122). -/
theorem wZeroTail_wLoad_getMsbD {body tail : List Byte} (hbody : body.length ≤ 11) (htail : tail.length = 3) (w : BitVec 112)
    {p : Nat} (hp : p < 8 * (body.length + 3)) :
    (wZeroTail (body.length + 3) (wLoad (body ++ tail) w)).getMsbD p = byteBit (body ++ List.replicate 3 0) p := by
  have hlen : (body ++ tail).length = body.length + 3 := by simp [htail]
  rw [wZeroTail_getMsbD (by omega) (by omega) _ (by omega), wLoad_getMsbD_byteBit (by omega) w (by omega)]
  by_cases hin : p < 8 * body.length
  · rw [byteBit_append_left _ hin, byteBit_append_left _ hin, decide_eq_false (by omega), Bool.not_false, Bool.and_true]
  · obtain ⟨k, rfl⟩ : ∃ k, p = 8 * body.length + k := ⟨p - 8 * body.length, by omega⟩
    rw [byteBit_append_right _ (List.replicate 3 0), byteBit_replicate_zero, decide_eq_true (by omega), Bool.not_true,
      Bool.and_false]

/-- `CRC.ENC` divides what `CRC` divides of the buffer with its last three bytes zero (40_crc.md R122). -/
theorem crcRead_encode {body tail : List Byte} (hbody : body.length ≤ 11) (htail : tail.length = 3) (w : BitVec 112) :
    crcRead (body ++ tail).length (crcWork true (body ++ tail) w) =
      crcRead (body ++ List.replicate 3 0).length (crcWork false (body ++ List.replicate 3 0) w) := by
  have hlen : (body ++ tail).length = body.length + 3 := by simp [htail]
  have hlen0 : (body ++ List.replicate 3 (0 : Byte)).length = body.length + 3 := by simp
  refine BitVec.eq_of_getMsbD_eq fun k hk => ?_
  rw [crcRead, crcRead, Bits.field_getMsbD _ _ _ _ (by omega) hk, Bits.field_getMsbD _ _ _ _ (by omega) hk, crcWork, crcWork,
    hlen, hlen0]
  refine wLoop_congr (L := 8 * (body.length + 3)) (by omega) (by omega) (fun p hp => ?_) _ (by omega)
  exact (wZeroTail_wLoad_getMsbD hbody htail w hp).trans (wLoad_getMsbD_byteBit (by omega) w (by omega)).symm

/-- `CRC.ENC` gives the remainder of the buffer with its last three bytes zero, and nothing else (40_crc.md R122). -/
theorem crcEncGives_iff {body tail : List Byte} (hbody : body.length ≤ 11) (htail : tail.length = 3) (c : BitVec 24) :
    CrcEncGives (body ++ tail) c ↔ bitsPoly c = bytesPoly (body ++ List.replicate 3 0) %ₘ genPoly := by
  have hlen : (body ++ tail).length = body.length + 3 := by simp [htail]
  have hlen0 : (body ++ List.replicate 3 (0 : Byte)).length = body.length + 3 := by simp
  rw [crcEncGives_iff_crcRead (by omega) (by omega), crcRead_encode hbody htail,
    ← bitsPoly_crcRead_eq_modByMonic (by omega) (by omega) 0, bitsPoly_injective.eq_iff, eq_comm]

/-- The parity of a body, which `CRC.ENC` gives whatever stands in the last three bytes. -/
theorem exists_parity {body : List Byte} (hbody : body.length ≤ 11) :
    ∃ parity : BitVec 24, bitsPoly parity = bytesPoly (body ++ List.replicate 3 0) %ₘ genPoly ∧
      ∀ tail : List Byte, tail.length = 3 → CrcEncGives (body ++ tail) parity := by
  have hlen : (body ++ List.replicate 3 (0 : Byte)).length = body.length + 3 := by simp
  obtain ⟨parity, hparity⟩ := exists_crcGives (bytes := body ++ List.replicate 3 0) (by omega) (by omega)
  rw [crcGives_iff (by omega) (by omega)] at hparity
  exact ⟨parity, hparity, fun tail htail => (crcEncGives_iff hbody htail parity).mpr hparity⟩

/-- With a trailing field `v` the CRC is the parity of the body XOR `v` (40_crc.md R124 (b)). -/
theorem crcGives_tailBytes_iff {body : List Byte} (hbody : body.length ≤ 11) {parity : BitVec 24}
    (hparity : bitsPoly parity = bytesPoly (body ++ List.replicate 3 0) %ₘ genPoly) (v c : BitVec 24) :
    CrcGives (body ++ tailBytes v) c ↔ c = parity ^^^ v := by
  have hlen : (body ++ tailBytes v).length = body.length + 3 := List.length_append
  have hsplit : bytesPoly (body ++ tailBytes v) = bytesPoly (body ++ List.replicate 3 0) + bitsPoly v := by
    rw [bytesPoly_append, bytesPoly_append, bytesPoly_replicate_zero, bytesPoly_tailBytes, add_zero]
    rfl
  rw [crcGives_iff (by omega) (by omega), hsplit, add_modByMonic, bitsPoly_modByMonic, ← hparity, ← bitsPoly_xor,
    bitsPoly_injective.eq_iff]

end Sys2Proof.Machine

open Sys2Proof Sys2Proof.Machine Sys2Proof.Claims

/-- Settles O20: the bit loop is the division of R123. -/
theorem crcIsPolynomialRemainder : Obligations.CrcIsPolynomialRemainder := by
  intro bytes h3 h14
  obtain ⟨c, hc⟩ := exists_crcGives h3 h14
  exact ⟨c, hc, (crcGives_iff h3 h14 c).mp hc⟩

/-- Settles O21: the value is the parity of the body, and as a trailing field it cancels itself. -/
theorem crcEncIgnoresTail : Obligations.CrcEncIgnoresTail := by
  intro body a b d hbody
  obtain ⟨c, hc, henc⟩ := exists_parity hbody
  refine ⟨c, henc [a, b, d] rfl, hc, ?_, ?_⟩
  · exact (crcGives_tailBytes_iff hbody hc c 0).mpr BitVec.xor_self.symm
  · rintro rfl
    rw [List.nil_append, bytesPoly_replicate_zero, Polynomial.zero_modByMonic] at hc
    exact bitsPoly_injective (hc.trans (bitsPoly_zero 24).symm)

/-- Settles O22: the polynomial of the XOR is the sum of the polynomials, and so is its remainder. -/
theorem crcIsLinear : Obligations.CrcIsLinear := by
  intro x y c d hxy h3 h14 hx hy
  have hlen : (List.zipWith (· ^^^ ·) x y).length = x.length := by simp [hxy]
  rw [crcGives_iff (by omega) (by omega)] at hx hy ⊢
  rw [bytesPoly_zipWith_xor hxy, Polynomial.add_modByMonic, bitsPoly_xor, hx, hy]

/-- Settles O23: with a trailing field `v` the CRC is `p` XOR `v`, from which the other clauses follow. -/
theorem crcRecoversAddress : Obligations.CrcRecoversAddress := by
  intro body hbody
  obtain ⟨p, hp, henc⟩ := exists_parity hbody
  have hfield := crcGives_tailBytes_iff hbody hp
  refine ⟨p, fun v a => ⟨henc _ rfl, (hfield v _).mpr rfl, ?_, ?_⟩⟩
  · rw [hfield, eq_comm]
    exact BitVec.xor_eq_zero_iff.trans eq_comm
  · rw [hfield, ← BitVec.xor_assoc, BitVec.xor_self, BitVec.zero_xor]

/-- Settles O24: the syndrome is the CRC of the buffer in which only that bit is set. -/
theorem crcSyndromeOfOneBit : Obligations.CrcSyndromeOfOneBit := by
  intro n p h3 h14 hp
  have hlen : (flipAt (List.replicate n 0) p).length = n := by rw [flipAt_length, List.length_replicate]
  obtain ⟨d, hd⟩ := exists_crcGives (bytes := flipAt (List.replicate n 0) p) (by omega) (by omega)
  rw [crcGives_iff (by omega) (by omega), bytesPoly_flipAt (by rwa [List.length_replicate]), bytesPoly_replicate_zero,
    zero_add, List.length_replicate] at hd
  refine ⟨d, hd, ?_⟩
  rintro bytes c rfl hc
  have hflip := flipAt_length bytes p
  rw [crcGives_iff (by omega) (by omega)] at hc ⊢
  rw [bytesPoly_flipAt hp, Polynomial.add_modByMonic, bitsPoly_xor, hc, hd]
end

section
/-! PROOFS. The altitude commands (41_altitude.md R141 to R152): `ALT.FT` and `ALT.M` answer one decoding of the code, and
what that decoding gives, by the bits of the code and the table of R149. -/

namespace Sys2Proof.Machine
open Sys2Proof.Claims

/-- What a command leaves for a decoded altitude: its record of the feet, or the failure (41_altitude.md R150, R151). -/
def Altitude.answer (record : Int → Result) (s : State) : Altitude → State
  | .feet v => finish (record v) s
  | .unsupported => raise .unsupportedEncoding s
  | .invalid => raise .invalidEncoding s

theorem exec_altFt (ac : BitVec 13) (s : State) :
    exec (.altFt ac) s = .next ((altFt ac).answer (fun v => { Result.empty with altFt := some (BitVec.ofInt 18 v) })
      (acceptA 5 ac s)) := by
  have hexec : exec (.altFt ac) s = execAltFt ac s := rfl
  rw [hexec, execAltFt, acceptA_ac]
  cases altFt ac <;> rfl

theorem exec_altM (ac : BitVec 13) (s : State) :
    exec (.altM ac) s = .next ((altFt ac).answer (fun v => { Result.empty with altMNum := some (BitVec.ofInt 27 (381 * v)) })
      (acceptA 6 ac s)) := by
  have hexec : exec (.altM ac) s = execAltM ac s := rfl
  rw [hexec, execAltM, acceptA_ac]
  cases altFt ac <;> rfl

/-- A predicate's flag is the bit that it tests. -/
theorem flagBit_eq_ofBool (b : Bool) : flagBit b = BitVec.ofBool b := by cases b <;> rfl

/-- The record's 18 bits hold a decoded altitude (41_altitude.md R153). -/
theorem altFt_toInt {ac : BitVec 13} {v : Int} (h : altFt ac = .feet v) : (BitVec.ofInt 18 v).toInt = v := by
  have hv := altFt_range h
  exact BitVec.toInt_ofInt_eq_self (by decide) (by omega) (by omega)

/-- The record's 27 bits hold its metric numerator (41_altitude.md R152). -/
theorem altM_toInt {ac : BitVec 13} {v : Int} (h : altFt ac = .feet v) : (BitVec.ofInt 27 (381 * v)).toInt = 381 * v := by
  have hv := altFt_range h
  exact BitVec.toInt_ofInt_eq_self (by decide) (by omega) (by omega)

/-- `ALT.FT` gives the feet that decoding gives, and no others. -/
theorem feetOf_iff {ac : BitVec 13} {v : Int} : FeetOf ac v ↔ altFt ac = .feet v := by
  constructor
  · intro h
    obtain ⟨t, x, hexec, -, hresult, hx⟩ := h State.reset
    rw [exec_altFt] at hexec
    injection hexec with ht
    have hfield : t.result.altFt = some x := by rw [hresult]
    rw [← ht] at hfield
    cases hac : altFt ac with
    | feet u =>
      rw [hac] at hfield
      injection hfield with hu
      rw [← hx, ← hu, altFt_toInt hac]
    | unsupported => rw [hac] at hfield; cases hfield
    | invalid => rw [hac] at hfield; cases hfield
  · intro h s
    exact ⟨_, _, exec_altFt ac s, by rw [h]; rfl, by rw [h]; rfl, altFt_toInt h⟩

/-! ### The bits of a code that decodes -/

/-- The number of 100-ft units above the 500-ft count, by the table of 41_altitude.md R149. -/
def unitsOf (ac : BitVec 13) : Option Int :=
  gillhamUnits (ac.getLsbD 12) (ac.getLsbD 10) (ac.getLsbD 8) (decide (gillham500 ac % 2 = 1))

/-- A code that decodes is not metric, and with the Q-bit it is a simple one (41_altitude.md R143, R144). -/
theorem altFt_simple_cases {ac : BitVec 13} {v : Int} (h : altFt ac = .feet v) (hq : ac.getLsbD 4 = true) :
    ac.getLsbD 6 = false ∧ v = simpleFt ac := by
  rw [altFt, isMetric_eq, isSimple_eq, hq] at h
  cases hm : ac.getLsbD 6 with
  | true => rw [hm] at h; cases h
  | false =>
    rw [hm] at h
    injection h with h
    exact ⟨rfl, h.symm⟩

/-- Without the Q-bit it is a Gillham code (41_altitude.md R143, R149). -/
theorem altFt_gillham_cases {ac : BitVec 13} {v : Int} (h : altFt ac = .feet v) (hq : ac.getLsbD 4 = false) :
    ac.getLsbD 6 = false ∧ ∃ u, unitsOf ac = some u ∧ v = 100 * (5 * (gillham500 ac : Int) + u) - 1300 := by
  have hspec : specAlt ac = .ok v := by rw [specAlt_eq_outcome, h]; rfl
  rw [specAlt, hq] at hspec
  cases hm : ac.getLsbD 6 with
  | true => rw [hm] at hspec; cases hspec
  | false =>
    rw [hm, ← unitsOf] at hspec
    cases hu : unitsOf ac with
    | none => rw [hu] at hspec; cases hspec
    | some u =>
      rw [hu] at hspec
      injection hspec with hv
      exact ⟨rfl, u, rfl, hv.symm⟩

/-- A simple altitude is a multiple of 25 (41_altitude.md R144). -/
theorem simpleFt_range (ac : BitVec 13) : -1000 ≤ simpleFt ac ∧ simpleFt ac ≤ 50175 ∧ simpleFt ac % 25 = 0 := by
  have hn := simpleNumber_lt ac
  unfold simpleFt
  omega

end Sys2Proof.Machine

open Sys2Proof Sys2Proof.Machine Sys2Proof.Claims

/-- Settles O25: each predicate is a test of one bit. -/
theorem altPredicates : Obligations.AltPredicates := by
  intro ac s
  rw [← isMetric_eq, ← isSimple_eq, ← flagBit_eq_ofBool, ← flagBit_eq_ofBool]
  exact ⟨rfl, rfl⟩

/-- Settles O26: the model's decoding is that of the formulas, case by case. -/
theorem altFtDecodes : Obligations.AltFtDecodes := by
  intro ac s
  rw [exec_altFt, specAlt_eq_outcome]
  cases altFt ac with
  | feet v => rfl
  | unsupported => rfl
  | invalid => rfl

/-- Settles O27: both commands answer one decoding, and neither field wraps. -/
theorem altMetresExact : Obligations.AltMetresExact := by
  intro ac s
  refine ⟨_, _, exec_altFt ac s, exec_altM ac s, ?_⟩
  cases h : altFt ac with
  | feet v =>
    refine ⟨rfl, fun x hx => ⟨_, rfl, ?_⟩, nofun⟩
    obtain rfl : BitVec.ofInt 18 v = x := Option.some.inj hx
    rw [altM_toInt h, altFt_toInt h]
  | unsupported => exact ⟨rfl, nofun, fun _ => rfl⟩
  | invalid => exact ⟨rfl, nofun, fun _ => rfl⟩

/-- Settles O28: the ranges of the two formats from the bits of a code that decodes; the ends by decoding them. -/
theorem altitudeRanges : Obligations.AltitudeRanges := by
  refine ⟨fun ac v h => ?_, feetOf_iff.mpr (by decide), feetOf_iff.mpr (by decide), feetOf_iff.mpr (by decide),
    feetOf_iff.mpr (by decide)⟩
  rw [feetOf_iff] at h
  cases hq : ac.getLsbD 4 with
  | true =>
    obtain ⟨hm, rfl⟩ := altFt_simple_cases h hq
    exact ⟨hm, fun _ => simpleFt_range ac, nofun⟩
  | false =>
    obtain ⟨hm, u, -, hv⟩ := altFt_gillham_cases h hq
    obtain ⟨hlo, hhi⟩ := altFt_range h
    exact ⟨hm, nofun, fun _ => ⟨hlo, hhi, by omega⟩⟩
end

section
/-! PROOFS. The Gillham codes as a Gray code (41_altitude.md R146, R149, R153): in a Gray code of any width successive values
lie one bit apart, and in the table of the 100-ft units the end of one 500-ft band has the pattern that begins the next. -/

namespace Sys2Proof.Claims

/-- Of the places, two bit functions differ at `k`, where it is one of them, and at no other. -/
def DifferOnlyAt (places : List Nat) (f g : Nat → Bool) (k : Nat) : Prop := ∀ i ∈ places, g i = xor (f i) (decide (i = k))

/-- Bit functions that agree at the places differ at most elsewhere. -/
theorem differOnlyAt_of_agree {places : List Nat} {f g : Nat → Bool} {k : Nat} (h : ∀ i ∈ places, g i = f i)
    (hk : k ∉ places) : DifferOnlyAt places f g k := by
  intro i hi
  rw [h i hi, decide_eq_false (fun e : i = k => hk (e ▸ hi)), Bool.xor_false]

/-! ### Gray codes of any width -/

/-- The value of the rest of a Gray code, below bits of parity `p` (41_altitude.md R146). -/
def grayBelow (p : Bool) : List Bool → Nat
  | [] => 0
  | b :: l => (xor p b).toNat * 2 ^ l.length + grayBelow (xor p b) l

theorem grayValue_eq_grayBelow (l : List Bool) : grayValue l = grayBelow false l := by
  have fold : ∀ (l : List Bool) (a : Nat) (p : Bool),
      (l.foldl (fun (a : Nat × Bool) b => (2 * a.1 + (xor a.2 b).toNat, xor a.2 b)) (a, p)).1 =
        a * 2 ^ l.length + grayBelow p l := by
    intro l
    induction l with
    | nil => intro a p; simp [grayBelow]
    | cons b l ih =>
      intro a p
      rw [List.foldl_cons, ih, grayBelow, List.length_cons, pow_succ]
      ring
  rw [grayValue, fold, Nat.zero_mul, Nat.zero_add]

theorem grayBelow_lt (p : Bool) (l : List Bool) : grayBelow p l < 2 ^ l.length := by
  induction l generalizing p with
  | nil => exact Nat.one_pos
  | cons b l ih =>
    have hl := ih (xor p b)
    have hb := Bool.toNat_le (xor p b)
    rw [grayBelow, List.length_cons, pow_succ]
    nlinarith

/-- Below the other parity every bit of the value is inverted: the Gray code is reflected. -/
theorem grayBelow_reflected (l : List Bool) : grayBelow false l + grayBelow true l + 1 = 2 ^ l.length := by
  induction l with
  | nil => rfl
  | cons b l ih =>
    rw [grayBelow, grayBelow, List.length_cons, pow_succ]
    cases b <;> simp <;> omega

/-- The first bit and the rest of a code can be read off its value. -/
theorem grayBelow_cons_div_mod (p b : Bool) (l : List Bool) :
    grayBelow p (b :: l) / 2 ^ l.length = (xor p b).toNat ∧
      grayBelow p (b :: l) % 2 ^ l.length = grayBelow (xor p b) l := by
  have hl := grayBelow_lt (xor p b) l
  rw [grayBelow, Nat.mul_comm]
  exact ⟨by rw [Nat.mul_add_div (by positivity), Nat.div_eq_of_lt hl, Nat.add_zero],
    by rw [Nat.mul_add_mod, Nat.mod_eq_of_lt hl]⟩

/-- Codes of one value are equal. -/
theorem grayBelow_inj {p : Bool} {l m : List Bool} (hlen : l.length = m.length)
    (h : grayBelow p l = grayBelow p m) : l = m := by
  induction l generalizing p m with
  | nil => exact (List.length_eq_zero_iff.mp hlen.symm).symm
  | cons b l ih =>
    cases m with
    | nil => cases hlen
    | cons c m =>
      have htail : l.length = m.length := Nat.succ.inj hlen
      obtain ⟨hb, hl⟩ := grayBelow_cons_div_mod p b l
      obtain ⟨hc, hm⟩ := grayBelow_cons_div_mod p c m
      rw [h, htail] at hb hl
      have hbit : ∀ p b c : Bool, (xor p b).toNat = (xor p c).toNat → b = c := by decide
      obtain rfl := hbit p b c (hb.symm.trans hc)
      rw [ih htail (hl.symm.trans hm)]

/-- Counting on by one, a code whose first bit changes keeps all the others. -/
theorem grayBelow_succ_flipped {q : Bool} {l m : List Bool} (hlen : m.length = l.length)
    (h : (!q).toNat * 2 ^ l.length + grayBelow (!q) m = q.toNat * 2 ^ l.length + grayBelow q l + 1) : m = l := by
  have hl := grayBelow_lt q l
  have hm := grayBelow_lt (!q) m
  have hreflected := grayBelow_reflected m
  rw [hlen] at hm hreflected
  cases q with
  | false => exact grayBelow_inj hlen (p := false) (by simp at h; omega)
  | true => simp at h; omega

/-- Codes of successive values differ in exactly one bit. -/
theorem grayBelow_succ {places : List Nat} (hnodup : places.Nodup) {f g : Nat → Bool} {p : Bool}
    (h : grayBelow p (places.map g) = grayBelow p (places.map f) + 1) : ∃ k ∈ places, DifferOnlyAt places f g k := by
  induction places generalizing p with
  | nil => cases h
  | cons i rest ih =>
    obtain ⟨hi, hrest⟩ := List.nodup_cons.mp hnodup
    rw [List.map_cons, List.map_cons, grayBelow, grayBelow, List.length_map, List.length_map] at h
    by_cases hfg : g i = f i
    · rw [hfg] at h
      obtain ⟨k, hk, hother⟩ := ih hrest (p := xor p (f i)) (by omega)
      refine ⟨k, List.mem_cons_of_mem _ hk, List.forall_mem_cons.mpr ⟨?_, hother⟩⟩
      rw [hfg, decide_eq_false (fun e : i = k => hi (e ▸ hk)), Bool.xor_false]
    · have hg : g i = !f i := Bool.eq_not_of_ne hfg
      rw [hg, Bool.xor_not] at h
      have hbits : ∀ j ∈ rest, g j = f j :=
        List.map_inj_left.mp (grayBelow_succ_flipped (by simp) (by rwa [List.length_map]))
      refine ⟨i, List.mem_cons_self, List.forall_mem_cons.mpr ⟨?_, differOnlyAt_of_agree hbits hi⟩⟩
      rw [hg, decide_eq_true rfl, Bool.xor_true]

/-! ### The table of the 100-ft units -/

/-- The places of `C1 C2 C4` in a code (41_altitude.md R145). -/
def places100 : List Nat := [12, 10, 8]

theorem forall_mem_places100 {P : Nat → Prop} : (∀ i ∈ places100, P i) ↔ P 12 ∧ P 10 ∧ P 8 := by simp [places100]

/-- The units run from one to five (41_altitude.md R149). -/
theorem gillhamUnits_range {c1 c2 c4 odd : Bool} {u : Int} (h : gillhamUnits c1 c2 c4 odd = some u) : 1 ≤ u ∧ u ≤ 5 := by
  have table : ∀ c1 c2 c4 odd, ∀ u ∈ gillhamUnits c1 c2 c4 odd, 1 ≤ u ∧ u ≤ 5 := by decide
  exact table c1 c2 c4 odd u h

/-- In odd bands the units run the other way (41_altitude.md R148). -/
theorem gillhamUnits_not (c1 c2 c4 odd : Bool) :
    gillhamUnits c1 c2 c4 (!odd) = (gillhamUnits c1 c2 c4 odd).map (6 - ·) := by
  revert c1 c2 c4 odd
  decide

/-- Within one band the units determine the pattern. -/
theorem gillhamUnits_inj {c1 c2 c4 d1 d2 d4 odd : Bool} {u : Int} (hc : gillhamUnits c1 c2 c4 odd = some u)
    (hd : gillhamUnits d1 d2 d4 odd = some u) : d1 = c1 ∧ d2 = c2 ∧ d4 = c4 := by
  have table : ∀ c1 c2 c4 d1 d2 d4 odd, ∀ u ∈ gillhamUnits c1 c2 c4 odd, u ∈ gillhamUnits d1 d2 d4 odd →
      d1 = c1 ∧ d2 = c2 ∧ d4 = c4 := by decide
  exact table c1 c2 c4 d1 d2 d4 odd u hc hd

/-- Within one band patterns of successive units differ in exactly one bit. -/
theorem gillhamUnits_succ {c1 c2 c4 d1 d2 d4 odd : Bool} {u : Int} (hc : gillhamUnits c1 c2 c4 odd = some u)
    (hd : gillhamUnits d1 d2 d4 odd = some (u + 1)) :
    ∃ k ∈ places100, d1 = xor c1 (decide (12 = k)) ∧ d2 = xor c2 (decide (10 = k)) ∧ d4 = xor c4 (decide (8 = k)) := by
  have table : ∀ c1 c2 c4 d1 d2 d4 odd, ∀ u ∈ gillhamUnits c1 c2 c4 odd, u + 1 ∈ gillhamUnits d1 d2 d4 odd →
      ∃ k ∈ places100, d1 = xor c1 (decide (12 = k)) ∧ d2 = xor c2 (decide (10 = k)) ∧ d4 = xor c4 (decide (8 = k)) := by
    decide
  exact table c1 c2 c4 d1 d2 d4 odd u hc hd

end Sys2Proof.Claims

namespace Sys2Proof.Machine
open Sys2Proof.Claims

/-! ### The two groups of a code -/

/-- The places of `D2 D4 A1 A2 A4 B1 B2 B4` in a code (41_altitude.md R145). -/
def places500 : List Nat := [2, 0, 11, 9, 7, 5, 3, 1]

theorem gillham500_eq_grayBelow (ac : BitVec 13) : gillham500 ac = grayBelow false (places500.map ac.getLsbD) :=
  grayValue_eq_grayBelow _

/-- The 500-ft count determines its group. -/
theorem agree500 {a b : BitVec 13} (h : gillham500 b = gillham500 a) : ∀ i ∈ places500, b.getLsbD i = a.getLsbD i := by
  rw [gillham500_eq_grayBelow, gillham500_eq_grayBelow] at h
  exact List.map_inj_left.mp (grayBelow_inj rfl h)

/-- Groups of successive 500-ft counts differ in exactly one bit. -/
theorem exists_differOnlyAt500 {a b : BitVec 13} (h : gillham500 b = gillham500 a + 1) :
    ∃ k ∈ places500, DifferOnlyAt places500 a.getLsbD b.getLsbD k := by
  rw [gillham500_eq_grayBelow, gillham500_eq_grayBelow] at h
  exact grayBelow_succ (by decide) h

/-- Within one band the units determine their group. -/
theorem agree100 {a b : BitVec 13} {u : Int} (hodd : gillham500 b % 2 = gillham500 a % 2) (ha : unitsOf a = some u)
    (hb : unitsOf b = some u) : ∀ i ∈ places100, b.getLsbD i = a.getLsbD i := by
  rw [unitsOf, hodd] at hb
  exact forall_mem_places100.mpr (gillhamUnits_inj ha hb)

/-- From one band to the next the group of five units is that of one unit (41_altitude.md R148). -/
theorem agree100_next_band {a b : BitVec 13} (hband : gillham500 b = gillham500 a + 1) (ha : unitsOf a = some 5)
    (hb : unitsOf b = some 1) : ∀ i ∈ places100, b.getLsbD i = a.getLsbD i := by
  have hparity : decide (gillham500 b % 2 = 1) = !decide (gillham500 a % 2 = 1) := by
    rw [hband, ← decide_not, decide_eq_decide]
    omega
  rw [unitsOf, hparity, gillhamUnits_not] at hb
  have hb5 : gillhamUnits (b.getLsbD 12) (b.getLsbD 10) (b.getLsbD 8) (decide (gillham500 a % 2 = 1)) = some 5 := by
    obtain ⟨u, hu, hu1⟩ := Option.map_eq_some_iff.mp hb
    rw [hu, show u = 5 by omega]
  exact forall_mem_places100.mpr (gillhamUnits_inj ha hb5)

/-- Within one band groups of successive units differ in exactly one bit. -/
theorem exists_differOnlyAt100 {a b : BitVec 13} {u : Int} (hodd : gillham500 b % 2 = gillham500 a % 2)
    (ha : unitsOf a = some u) (hb : unitsOf b = some (u + 1)) :
    ∃ k ∈ places100, DifferOnlyAt places100 a.getLsbD b.getLsbD k := by
  rw [unitsOf, hodd] at hb
  obtain ⟨k, hk, hbits⟩ := gillhamUnits_succ ha hb
  exact ⟨k, hk, forall_mem_places100.mpr hbits⟩

/-! ### The whole code -/

/-- The places of the two groups, the metric bit and the Q-bit are those of a whole code. -/
theorem place_cases {i : Nat} (hi : i < 13) : i ∈ places500 ∨ i ∈ places100 ∨ i ∈ [6, 4] := by
  revert i
  decide

theorem mem_places500_only {k : Nat} (hk : k ∈ places500) : k < 13 ∧ k ∉ places100 ∧ k ∉ [6, 4] := by
  revert k
  decide

theorem mem_places100_only {k : Nat} (hk : k ∈ places100) : k < 13 ∧ k ∉ places500 ∧ k ∉ [6, 4] := by
  revert k
  decide

/-- Codes with both groups and both flags alike are equal. -/
theorem code_ext {a b : BitVec 13} (h500 : ∀ i ∈ places500, b.getLsbD i = a.getLsbD i)
    (h100 : ∀ i ∈ places100, b.getLsbD i = a.getLsbD i) (hflags : ∀ i ∈ [6, 4], b.getLsbD i = a.getLsbD i) : a = b := by
  refine BitVec.eq_of_getLsbD_eq fun i hi => ?_
  rcases place_cases hi with h | h | h
  · exact (h500 i h).symm
  · exact (h100 i h).symm
  · exact (hflags i h).symm

/-- Codes that differ at one place only are one bit apart. -/
theorem code_eq_flip {a b : BitVec 13} {k : Nat} (h500 : DifferOnlyAt places500 a.getLsbD b.getLsbD k)
    (h100 : DifferOnlyAt places100 a.getLsbD b.getLsbD k) (hflags : DifferOnlyAt [6, 4] a.getLsbD b.getLsbD k) :
    b = a ^^^ (1#13 <<< k) := by
  refine BitVec.eq_of_getLsbD_eq fun i hi => ?_
  have hbit : (a ^^^ (1#13 <<< k)).getLsbD i = xor (a.getLsbD i) (decide (i = k)) := by
    rw [BitVec.getLsbD_xor, ← BitVec.twoPow_eq, BitVec.getLsbD_twoPow]
    grind
  rw [hbit]
  rcases place_cases hi with h | h | h
  · exact h500 i h
  · exact h100 i h
  · exact hflags i h

end Sys2Proof.Machine

open Sys2Proof Sys2Proof.Machine Sys2Proof.Claims

/-- Settles O30: equal altitudes have equal counts and units; 100 ft more is one unit more in the same band, or the first unit
of the next band after the last of this one. -/
theorem gillhamIsGrayCode : Obligations.GillhamIsGrayCode := by
  intro a b v v' hqa hqb ha hb
  rw [feetOf_iff] at ha hb
  obtain ⟨hma, u, hu, rfl⟩ := altFt_gillham_cases ha hqa
  obtain ⟨hmb, u', hu', rfl⟩ := altFt_gillham_cases hb hqb
  have hrange := gillhamUnits_range hu
  have hrange' := gillhamUnits_range hu'
  have hflags : ∀ i ∈ [6, 4], b.getLsbD i = a.getLsbD i :=
    List.forall_mem_cons.mpr ⟨hmb.trans hma.symm, List.forall_mem_singleton.mpr (hqb.trans hqa.symm)⟩
  constructor
  · intro hv
    obtain ⟨hband, rfl⟩ : gillham500 b = gillham500 a ∧ u' = u := by omega
    exact code_ext (agree500 hband) (agree100 (by rw [hband]) hu hu') hflags
  · intro hv
    have hstep : (gillham500 b = gillham500 a ∧ u' = u + 1) ∨ (gillham500 b = gillham500 a + 1 ∧ u = 5 ∧ u' = 1) := by omega
    rcases hstep with ⟨hband, rfl⟩ | ⟨hband, rfl, rfl⟩
    · obtain ⟨k, hk, h100⟩ := exists_differOnlyAt100 (by rw [hband]) hu hu'
      obtain ⟨hcode, hother, hflag⟩ := mem_places100_only hk
      exact ⟨k, hcode, code_eq_flip (differOnlyAt_of_agree (agree500 hband) hother) h100 (differOnlyAt_of_agree hflags hflag)⟩
    · obtain ⟨k, hk, h500⟩ := exists_differOnlyAt500 hband
      obtain ⟨hcode, hother, hflag⟩ := mem_places500_only hk
      exact ⟨k, hcode, code_eq_flip h500 (differOnlyAt_of_agree (agree100_next_band hband hu hu') hother)
        (differOnlyAt_of_agree hflags hflag)⟩
end

section
/-! PROOFS. How many codes each interpretation takes (41_altitude.md R143, R150, 60_exceptions.md R285): the `STATUS` of
`ALT.FT` depends on the metric bit, the Q-bit and `C1 C2 C4`, which all lie above the four low bits of the code. -/

namespace Sys2Proof.Machine
open Sys2Proof.Claims

/-- What decoding a code ends with, from the five bits that decide it. -/
def outcomeStatus (m q c1 c2 c4 : Bool) : Status :=
  if m then .unsupportedEncoding
  else if q then .ok
  else if (gillhamUnits c1 c2 c4 false).isSome then .ok
  else .invalidEncoding

/-- Whether a Gillham code is valid does not depend on its band (41_altitude.md R147). -/
theorem gillhamUnits_isSome (c1 c2 c4 odd : Bool) :
    (gillhamUnits c1 c2 c4 odd).isSome = (gillhamUnits c1 c2 c4 false).isSome := by
  cases odd with
  | false => rfl
  | true => rw [← Bool.not_false, gillhamUnits_not, Option.isSome_map]

/-- `ALT.FT` ends with that status, from every state. -/
theorem exec_altFt_status (ac : BitVec 13) (s : State) : ∃ t, exec (.altFt ac) s = .next t ∧
    t.status = (outcomeStatus (ac.getLsbD 6) (ac.getLsbD 4) (ac.getLsbD 12) (ac.getLsbD 10) (ac.getLsbD 8)).code := by
  refine ⟨_, altFtDecodes ac s, ?_⟩
  rw [specAlt, ← unitsOf, outcomeStatus, ← gillhamUnits_isSome _ _ _ (decide (gillham500 ac % 2 = 1)), ← unitsOf]
  cases ac.getLsbD 6 with
  | true => rfl
  | false =>
    cases ac.getLsbD 4 with
    | true => rfl
    | false => cases unitsOf ac <;> rfl

/-- Does a code, given without its four low bits, end with status `e` and have `q` as its Q-bit? -/
def endsHigh (e : BitVec 4) (q : Bool) (n : Nat) : Bool :=
  (outcomeStatus (n.testBit 2) (n.testBit 0) (n.testBit 8) (n.testBit 6) (n.testBit 4)).code == e && n.testBit 0 == q

/-- A count over the numbers below a multiple of `k`, by a property of the quotient by `k`. -/
theorem countP_range_div {k : Nat} (hk : 0 < k) (m : Nat) (P : Nat → Bool) :
    (List.range (k * m)).countP (fun n => P (n / k)) = k * (List.range m).countP P := by
  induction m with
  | zero => rfl
  | succ m ih =>
    have hblock : (List.range k).countP ((fun n => P (n / k)) ∘ (k * m + ·)) = k * [m].countP P := by
      have hdiv : ∀ j ∈ List.range k, ((fun n => P (n / k)) ∘ (k * m + ·)) j = P m := fun j hj => by
        rw [Function.comp_apply, Nat.mul_add_div hk, Nat.div_eq_of_lt (List.mem_range.mp hj), Nat.add_zero]
      rw [List.countP_congr (q := fun _ => P m) fun j hj => by rw [hdiv j hj]]
      cases h : P m <;> simp [h]
    rw [Nat.mul_succ, List.range_add, List.countP_append, List.countP_map, ih, hblock, List.range_succ,
      List.countP_append, Nat.mul_add]

end Sys2Proof.Machine

open Sys2Proof Sys2Proof.Machine Sys2Proof.Claims

/-- Settles O29: the four low bits do not matter, so each count is sixteen times one over the 512 values of the others. -/
theorem altitudeCodeCounts : Obligations.AltitudeCodeCounts := by
  unfold Obligations.AltitudeCodeCounts
  intro ends
  have hcount : ∀ e q, (List.range 8192).countP (ends e q) = 16 * (List.range 512).countP (endsHigh e q) := fun e q => by
    rw [← countP_range_div (by decide)]
    refine List.countP_congr fun n _ => ?_
    obtain ⟨t, hexec, hstatus⟩ := exec_altFt_status (BitVec.ofNat 13 n) State.reset
    have hbit : ∀ i, i + 4 < 13 → (BitVec.ofNat 13 n).getLsbD (i + 4) = (n / 16).testBit i := fun i hi => by
      rw [BitVec.getLsbD_ofNat, decide_eq_true hi, Bool.true_and, show 16 = 2 ^ 4 from rfl, Nat.testBit_div_two_pow]
    simp only [ends, hexec, hstatus, endsHigh]
    rw [hbit 0 (by decide), hbit 2 (by decide), hbit 4 (by decide), hbit 6 (by decide), hbit 8 (by decide)]
  simp only [hcount]
  decide +kernel
end

section
/-! PROOFS. `CPR.NL` at the default `ANGLE_FRAC` (42_cpr.md R173, R174, R175): the spec's table of thresholds, what the count
is at each threshold, and how it falls with the latitude. -/

namespace Sys2Proof.Machine
open Sys2Proof.Claims

/-- The model's thresholds at the default scale are the spec's table (42_cpr.md R173). -/
theorem zoneTable_22 : zoneTable 22 = tqTable := by decide +kernel

/-- The zone count never rises with the latitude: what a latitude does not pass, no smaller one passes (42_cpr.md R174). -/
theorem zoneCount_antitone (f : ℕ) {a b : ℕ} (h : a ≤ b) : zoneCount f b ≤ zoneCount f a := by
  obtain ⟨hpos, -, -, hlargest⟩ := zoneCount_largest f a
  obtain ⟨-, -, hb | ⟨q, hq, hbq⟩, -⟩ := zoneCount_largest f b
  · rwa [hb]
  · exact hlargest _ q hq (h.trans hbq)

/-- A zone count is unique: of two, each is one of the numbers the other is the largest of (42_cpr.md R173). -/
theorem isZoneCount_unique {table : List (ℕ × ℕ)} {a m n : ℕ} (hm : IsZoneCount table a m) (hn : IsZoneCount table a n) :
    m = n := by
  have hle : ∀ {m n}, IsZoneCount table a m → IsZoneCount table a n → m ≤ n := by
    rintro m n ⟨-, -, rfl | ⟨q, hq, haq⟩, -⟩ ⟨hpos, -, -, hlargest⟩
    · exact hpos
    · exact hlargest m q hq haq
  exact le_antisymm (hle hm hn) (hle hn hm)

/-- At its own threshold a zone is still counted, and no greater one is. -/
theorem zoneCount_threshold : ∀ e ∈ tqTable, e.2 ≤ 90 * 2 ^ 22 ∧ zoneCount 22 e.2 = e.1 := by decide +kernel

/-- Beyond 87 degrees no threshold is left, so one zone remains (42_cpr.md R174). -/
theorem zoneCount_beyond_87 {a : ℕ} (h : 364904448 < a) : zoneCount 22 a = 1 := by
  obtain ⟨-, -, hone | ⟨q, hq, haq⟩, -⟩ := zoneCount_largest 22 a
  · exact hone
  · have hlast : ∀ e ∈ tqTable, e.2 ≤ 364904448 := by decide
    rw [zoneTable_22] at hq
    exact absurd (hlast _ hq) (not_le.mpr (h.trans_le haq))

/-- In the domain `CPR.NL` gives the model's count and no other number: six bits tell the numbers up to 59 apart
(42_cpr.md R175). -/
theorem nlGives_iff {lat : ℤ} (h : InDomain 22 lat) {n : ℕ} (hn : n ≤ 59) :
    NlGives lat n ↔ zoneCount 22 lat.natAbs = n := by
  constructor
  · intro hgives
    obtain ⟨t, hexec, -, hresult⟩ := hgives State.reset rfl
    obtain rfl := Host.Outcome.next.inj ((exec_cprNl_of_inDomain (s := State.reset) h).symm.trans hexec)
    have hnl : BitVec.ofNat 6 (zoneCount 22 lat.natAbs) = BitVec.ofNat 6 n :=
      Option.some.inj (congrArg Result.nl hresult)
    have hcount : zoneCount 22 lat.natAbs ≤ 59 := (zoneCount_largest 22 lat.natAbs).2.1
    have hnat := congrArg BitVec.toNat hnl
    rwa [BitVec.toNat_ofNat, BitVec.toNat_ofNat, Nat.mod_eq_of_lt (by omega), Nat.mod_eq_of_lt (by omega)] at hnat
  · rintro rfl s hs
    refine ⟨_, exec_cprNl_of_inDomain (hs.symm ▸ h), rfl, ?_⟩
    rw [hs]
    rfl

end Sys2Proof.Machine

open Sys2Proof Sys2Proof.Machine Sys2Proof.Claims

/-- Settles O31: the scale of the default block has the spec's table, and the command presents what the model counts by it. -/
theorem cprNlCountsZones : Obligations.CprNlCountsZones := by
  refine ⟨zoneTable_22, by decide, by decide, fun lat s hs hin => ⟨nlOf 22 lat, ?_, ?_⟩⟩
  · rw [← zoneTable_22]
    exact isZoneCount_nlOf 22 lat
  · rw [← hs] at hin ⊢
    exact exec_cprNl_of_inDomain hin

/-- Settles O33: the count falls with the latitude, each zone is met at its threshold and the single one at the pole. -/
theorem cprNlProperties : Obligations.CprNlProperties := by
  refine ⟨fun lat lat' n n' hin hin' hn hn' h h' hle => ?_, fun n hn hn' => ?_, ?_, fun lat hlat => ?_,
    fun lat hin hlat => ?_⟩
  · rw [nlGives_iff hin hn] at h
    rw [nlGives_iff hin' hn'] at h'
    subst h h'
    exact zoneCount_antitone 22 hle
  · obtain rfl | hn2 := hn.eq_or_lt
    · have hpole : InDomain 22 (90 * 2 ^ 22 : ℕ) := le_rfl
      exact ⟨_, hpole, (nlGives_iff hpole hn').mpr (zoneCount_beyond_87 (by decide))⟩
    · obtain ⟨e, he, rfl⟩ := List.mem_map.mp (mem_zoneTable22 hn2 hn')
      obtain ⟨hin, hcount⟩ := zoneCount_threshold e he
      exact ⟨(e.2 : ℕ), hin, (nlGives_iff (lat := (e.2 : ℕ)) hin hn').mpr hcount⟩
  · exact (nlGives_iff (by decide : (0 : ℤ).natAbs ≤ 90 * 2 ^ 22) le_rfl).mpr (by decide +kernel)
  · have hin : InDomain 22 lat := hlat.trans_le (by decide)
    rw [nlGives_iff hin (by decide), hlat]
    exact (zoneCount_threshold (2, 364904448) (by decide)).2
  · exact (nlGives_iff hin (by decide)).mpr (zoneCount_beyond_87 hlat)

/-- Settles O32, by the count of each register value. -/
theorem cprNlCorners : Obligations.CprNlCorners := by
  have hgives : ∀ (lat : ℤ) (n : ℕ), lat.natAbs ≤ 90 * 2 ^ 22 → n ≤ 59 → zoneCount 22 lat.natAbs = n → NlGives lat n :=
    fun lat n hin hn => (nlGives_iff hin hn).mpr
  refine ⟨?_, ?_, ?_, ?_, ?_, ?_, ?_, ?_, ?_, ?_⟩ <;> exact hgives _ _ (by decide) (by decide) (by decide +kernel)
end

section
/-! PROOFS. `CPR.NL` as the real-number formula (42_cpr.md R172): the formula counts the zones that the angle is within, and so
do the thresholds `T(n)` of R173. -/

namespace Sys2Proof.Machine
open Sys2Proof.Claims

/-- On half a turn the cosine falls, so an arc cosine and an angle compare as the numbers do, turned round. -/
theorem arccos_le_iff {a y : ℝ} (ha : -1 ≤ a) (ha' : a ≤ 1) (hy : 0 ≤ y) (hy' : y ≤ Real.pi) :
    Real.arccos a ≤ y ↔ Real.cos y ≤ a := by
  have h := Real.strictAntiOn_arccos.le_iff_ge ⟨ha, ha'⟩ ⟨Real.neg_one_le_cos y, Real.cos_le_one y⟩
  rwa [Real.arccos_cos hy hy'] at h

theorem le_arccos_iff {a y : ℝ} (ha : -1 ≤ a) (ha' : a ≤ 1) (hy : 0 ≤ y) (hy' : y ≤ Real.pi) :
    y ≤ Real.arccos a ↔ a ≤ Real.cos y := by
  have h := Real.strictAntiOn_arccos.le_iff_ge ⟨Real.neg_one_le_cos y, Real.cos_le_one y⟩ ⟨ha, ha'⟩
  rwa [Real.arccos_cos hy hy'] at h

/-- At the latitude `x` there are at least `n` zones: the formula of 42_cpr.md R172 solved for the cosines, with neither
division nor arc cosine. -/
def HasZones (n : ℕ) (x : ℝ) : Prop :=
  1 - Real.cos (Real.pi / 30) ≤ Real.cos (Real.pi * |x| / 180) ^ 2 * (1 - Real.cos (2 * Real.pi / n))

theorem cos_pi_div_thirty_lt_one : Real.cos (Real.pi / 30) < 1 := by
  have hpi := Real.pi_pos
  have h := Real.cos_lt_cos_of_nonneg_of_le_pi le_rfl (by linarith) (by positivity : 0 < Real.pi / 30)
  rwa [Real.cos_zero] at h

/-- The angle of one of `n` zones lies between that of one of sixty and half a turn. -/
theorem zoneWidth_range {n : ℕ} (hn : 2 ≤ n) (hn' : n ≤ 59) :
    Real.pi / 30 ≤ 2 * Real.pi / n ∧ 2 * Real.pi / n ≤ Real.pi := by
  have hpi := Real.pi_pos
  have h2 : (2 : ℝ) ≤ n := by exact_mod_cast hn
  have h59 : (n : ℝ) ≤ 59 := by exact_mod_cast hn'
  constructor
  · rw [div_le_div_iff₀ (by norm_num) (by linarith)]
    nlinarith
  · rw [div_le_iff₀ (by linarith)]
    nlinarith

theorem cos_zoneWidth_le {n : ℕ} (hn : 2 ≤ n) (hn' : n ≤ 59) :
    Real.cos (2 * Real.pi / n) ≤ Real.cos (Real.pi / 30) := by
  obtain ⟨hlow, hhigh⟩ := zoneWidth_range hn hn'
  exact Real.cos_le_cos_of_nonneg_of_le_pi (by positivity) hhigh hlow

/-- The latitudes up to `T(n)` are those with at least `n` zones (42_cpr.md R172, R173). -/
theorem le_zoneAngle_iff {n : ℕ} (hn : 2 ≤ n) (hn' : n ≤ 59) {x : ℝ} (hx : |x| ≤ 90) :
    |x| ≤ zoneAngle n ↔ HasZones n x := by
  have hpi := Real.pi_pos
  have hk := cos_pi_div_thirty_lt_one
  have hw := cos_zoneWidth_le hn hn'
  have hθ : 0 ≤ Real.pi * |x| / 180 := by positivity
  have hθ' : Real.pi * |x| / 180 ≤ Real.pi / 2 := by nlinarith
  have hcos : 0 ≤ Real.cos (Real.pi * |x| / 180) := Real.cos_nonneg_of_neg_pi_div_two_le_of_le (by linarith) hθ'
  have hwpos : 0 < 1 - Real.cos (2 * Real.pi / n) := by linarith
  have hratio : (1 - Real.cos (Real.pi / 30)) / (1 - Real.cos (2 * Real.pi / n)) ≤ 1 :=
    (div_le_one hwpos).mpr (by linarith)
  rw [HasZones, ← div_le_iff₀ hwpos, zoneAngle]
  generalize (1 - Real.cos (Real.pi / 30)) / (1 - Real.cos (2 * Real.pi / n)) = r at hratio
  calc |x| ≤ 180 / Real.pi * Real.arccos √r
      ↔ Real.pi * |x| / 180 ≤ Real.arccos √r := by
        rw [div_mul_eq_mul_div, le_div_iff₀ hpi, div_le_iff₀ (by norm_num), mul_comm |x|, mul_comm 180]
    _ ↔ √r ≤ Real.cos (Real.pi * |x| / 180) :=
        le_arccos_iff (by linarith [Real.sqrt_nonneg r]) (Real.sqrt_le_one.mpr hratio) hθ (by linarith)
    _ ↔ r ≤ Real.cos (Real.pi * |x| / 180) ^ 2 := Real.sqrt_le_left hcos

/-- `realNl` is at least `n` exactly if there are `n` zones: its not-a-number branches are the latitudes that have no two, and
its clamps leave the numbers from 2 to 59 alone (42_cpr.md R172). -/
theorem le_realNl_iff {n : ℕ} (hn : 2 ≤ n) (hn' : n ≤ 59) (x : ℝ) : n ≤ realNl x ↔ HasZones n x := by
  have hpi := Real.pi_pos
  obtain ⟨hlow, hhigh⟩ := zoneWidth_range hn hn'
  have hk : 0 < 1 - Real.cos (Real.pi / 30) := by linarith [cos_pi_div_thirty_lt_one]
  have hw : 1 - Real.cos (2 * Real.pi / n) ≤ 2 := by linarith [Real.neg_one_le_cos (2 * Real.pi / n)]
  have hc : 0 ≤ Real.cos (Real.pi * |x| / 180) ^ 2 := sq_nonneg _
  rw [HasZones, realNl]
  generalize Real.cos (Real.pi * |x| / 180) ^ 2 = c at hc
  generalize 1 - Real.cos (Real.pi / 30) = k at hk
  by_cases hpole : c = 0
  · rw [if_pos hpole, hpole, zero_mul]
    exact iff_of_false (by omega) (not_le.mpr hk)
  have hcpos : 0 < c := lt_of_le_of_ne hc (Ne.symm hpole)
  rw [if_neg hpole]
  by_cases hnan : 1 - k / c < -1
  · have h2 : 2 * c < k := (lt_div_iff₀ hcpos).mp (by linarith)
    rw [if_pos hnan]
    exact iff_of_false (by omega) (not_le.mpr (by nlinarith))
  · have ha : 1 - k / c < 1 := by linarith [div_pos hk hcpos]
    have hnpos : (0 : ℝ) < n := by exact_mod_cast (by omega : 0 < n)
    rw [if_neg hnan]
    calc n ≤ min 59 (max 1 ⌊2 * Real.pi / Real.arccos (1 - k / c)⌋₊)
        ↔ n ≤ ⌊2 * Real.pi / Real.arccos (1 - k / c)⌋₊ := by omega
      _ ↔ (n : ℝ) ≤ 2 * Real.pi / Real.arccos (1 - k / c) := Nat.le_floor_iff' (by omega)
      _ ↔ Real.arccos (1 - k / c) ≤ 2 * Real.pi / n := by
        rw [le_div_iff₀ (Real.arccos_pos.mpr ha), le_div_iff₀ hnpos, mul_comm]
      _ ↔ Real.cos (2 * Real.pi / n) ≤ 1 - k / c :=
        arccos_le_iff (not_lt.mp hnan) ha.le (by positivity) hhigh
      _ ↔ k / c ≤ 1 - Real.cos (2 * Real.pi / n) := le_sub_comm
      _ ↔ k ≤ c * (1 - Real.cos (2 * Real.pi / n)) := div_le_iff₀' hcpos

/-- The real formula gives a number from 1 to 59 (42_cpr.md R172). -/
theorem realNl_range (x : ℝ) : 1 ≤ realNl x ∧ realNl x ≤ 59 := by
  rw [realNl]
  split_ifs <;> omega

/-- The real formula is the model's count, for every number of fraction bits (42_cpr.md R172, R173). -/
theorem realNl_eq_nlOf {f : ℕ} {lat : ℤ} (h : InDomain f lat) : realNl (lat / 2 ^ f) = nlOf f lat := by
  have h2f : (0 : ℝ) < 2 ^ f := by positivity
  have habs : |(lat : ℝ) / 2 ^ f| = lat.natAbs / 2 ^ f := by
    rw [abs_div, abs_of_pos h2f, Nat.cast_natAbs, Int.cast_abs]
  have h90 : |(lat : ℝ) / 2 ^ f| ≤ 90 := by
    rw [habs, div_le_iff₀ h2f]
    exact_mod_cast h
  have hsame : ∀ n, 2 ≤ n → n ≤ 59 → (n ≤ realNl (lat / 2 ^ f) ↔ n ≤ nlOf f lat) := fun n hn hn' => by
    rw [le_realNl_iff hn hn', ← le_zoneAngle_iff hn hn' h90, habs, div_le_iff₀ h2f]
    exact (le_zoneCount_iff hn hn' h).symm
  obtain ⟨hreal1, hreal59⟩ := realNl_range (lat / 2 ^ f)
  obtain ⟨hcount1, hcount59, -⟩ := isZoneCount_nlOf f lat
  have hle := hsame (realNl (lat / 2 ^ f))
  have hge := hsame (nlOf f lat)
  omega

end Sys2Proof.Machine

open Sys2Proof.Machine

/-- Settles O34: the formula and the command count the same zones. -/
theorem cprNlIsRealFormula : Obligations.CprNlIsRealFormula := by
  intro lat s hin
  rw [realNl_eq_nlOf hin]
  exact exec_cprNl_of_inDomain hin
end

section
/-! PROOFS. The latitude domain of the two commands (42_cpr.md R179). -/

open Sys2Proof.Machine

/-- Settles O35: in the domain both commands present a record, beyond it both raise `BAD_OPERAND`. -/
theorem latitudeDomain : Obligations.LatitudeDomain := by
  refine fun lat lon odd nbits s => ⟨fun hin => ⟨?_, ?_⟩, fun hout => ⟨?_, ?_⟩⟩
  · exact not_failsWith_of_finish (exec_cprNl_of_inDomain hin) (by decide)
  · exact not_failsWith_of_finish (exec_cprEnc_of_inDomain hin) (by decide)
  · exact exec_cprNl_of_not_inDomain hout
  · exact exec_cprEnc_of_not_inDomain hout
end

section
/-! PROOFS. `CPR.ENC` (42_cpr.md R176, R177, R178, R181): the integer form of the coordinate is the rational one, and it depends
on its value only modulo the whole circle. -/

namespace Sys2Proof.Machine
open Sys2Proof.Claims

/-- The coordinate by the fraction of the zone that lies behind the value (42_cpr.md R177). -/
theorem coord_eq_fract (v : ℚ) {zw : ℚ} (hzw : zw ≠ 0) (b : ℕ) :
    coord v zw b = (⌊1 / 2 + 2 ^ b * Int.fract (v / zw)⌋ % 2 ^ b).toNat := by
  rw [coord, sub_div, mul_div_cancel_left₀ _ hzw, Int.self_sub_floor]

/-- The integer form of the coordinate is the rational one, for a value that is `num / period` zones (42_cpr.md R177,
R178). -/
theorem coord_eq_cprCoord {v zw : ℚ} {num : ℤ} {period : ℕ} (hperiod : 0 < period) (hzw : zw ≠ 0)
    (hv : v / zw = num / period) (b : ℕ) : coord v zw b = cprCoord num period b := by
  have hp : (period : ℚ) ≠ 0 := by exact_mod_cast hperiod.ne'
  obtain ⟨r, hr⟩ := Int.eq_ofNat_of_zero_le (Int.emod_nonneg num (by omega : (period : ℤ) ≠ 0))
  have hfract : 1 / 2 + 2 ^ b * (((r : ℤ) : ℚ) / period) = ((2 ^ (b + 1) * r + period : ℕ) : ℚ) / (2 * period : ℕ) := by
    push_cast
    field_simp
    ring
  rw [coord_eq_fract v hzw, hv, Int.fract_div_intCast_eq_div_intCast_mod, cprCoord, hr, hfract,
    Rat.floor_natCast_div_natCast, Int.toNat_natCast]
  exact_mod_cast Int.toNat_natCast _

/-- A coordinate lies below `2^NBITS` (42_cpr.md R178). -/
theorem cprCoord_lt (num : ℤ) (period b : ℕ) : cprCoord num period b < 2 ^ b := Nat.mod_lt _ (Nat.two_pow_pos b)

theorem ofNat_cprCoord_lt (num : ℤ) (period b : ℕ) : (BitVec.ofNat 32 (cprCoord num period b)).toNat < 2 ^ b := by
  rw [BitVec.toNat_ofNat]
  exact (Nat.mod_le _ _).trans_lt (cprCoord_lt num period b)

/-- `m` times a value that has gone round whole periods gives the same coordinate (42_cpr.md R181). -/
theorem cprCoord_mul_congr {x y : ℤ} {period : ℕ} (h : x % period = y % period) (m : ℤ) (b : ℕ) :
    cprCoord (x * m) period b = cprCoord (y * m) period b := by
  rw [cprCoord, cprCoord, Int.ModEq.mul_right m h]

/-- The latitude's coordinate is that of the zone height `90 / (15 - i)` (42_cpr.md R176, R178). -/
theorem encLat_eq (f : ℕ) (lat : ℤ) (odd : BitVec 1) (nbits : BitVec Config.nbitsW) :
    encLat f lat odd nbits = BitVec.ofNat 32 (coord (degrees f lat) (90 / (15 - (odd.toNat : ℚ))) nbits.toNat) := by
  have hodd : odd.toNat ≤ 15 := by omega
  have hzones : (15 : ℚ) - odd.toNat ≠ 0 := by
    have : (odd.toNat : ℚ) < 2 := by exact_mod_cast odd.isLt
    linarith
  rw [encLat, ← coord_eq_cprCoord (v := degrees f lat) (zw := 90 / (15 - (odd.toNat : ℚ)))]
  · exact Nat.mul_pos (by decide) (Nat.two_pow_pos f)
  · exact div_ne_zero (by decide) hzones
  · rw [degrees, oneDegree, oddOffset, Config.nz]
    push_cast [Nat.cast_sub hodd]
    field_simp

/-- The longitude's coordinate is that of the zone width `360 / max(1, NL - i)` (42_cpr.md R176, R178). -/
theorem encLon_eq (f : ℕ) (lat lon : ℤ) (odd : BitVec 1) (nbits : BitVec Config.nbitsW) :
    encLon f lat lon odd nbits = BitVec.ofNat 32
      (coord (degrees f lon) (360 / ((max 1 (nlOf f lat - odd.toNat) : ℕ) : ℚ)) nbits.toNat) := by
  have hzones : ((max 1 (nlOf f lat - odd.toNat) : ℕ) : ℚ) ≠ 0 := by
    exact_mod_cast (by omega : max 1 (nlOf f lat - odd.toNat) ≠ 0)
  rw [encLon, lonZones, oddOffset,
    ← coord_eq_cprCoord (v := degrees f lon) (zw := 360 / ((max 1 (nlOf f lat - odd.toNat) : ℕ) : ℚ))]
  · exact Nat.mul_pos (by decide) (Nat.two_pow_pos f)
  · exact div_ne_zero (by decide) hzones
  · rw [degrees, oneDegree]
    generalize max 1 (nlOf f lat - odd.toNat) = m at hzones
    push_cast
    field_simp

/-- The longitude's coordinate takes the latitude by its zone count alone, and the longitude modulo a turn (42_cpr.md R178,
R181). -/
theorem encLon_congr {f : ℕ} {lat lat' lon lon' : ℤ} (hnl : nlOf f lat = nlOf f lat')
    (hlon : lon % (360 * 2 ^ f) = lon' % (360 * 2 ^ f)) (odd : BitVec 1) (nbits : BitVec Config.nbitsW) :
    encLon f lat lon odd nbits = encLon f lat' lon' odd nbits := by
  have hturn : ((360 * oneDegree f : ℕ) : ℤ) = 360 * 2 ^ f := by
    exact_mod_cast rfl
  rw [encLon, encLon, lonZones, lonZones, hnl]
  exact congrArg _ (cprCoord_mul_congr (by rwa [hturn]) _ _)

end Sys2Proof.Machine

open Sys2Proof.Machine

/-- Settles O36: each coordinate's integer form is the rational formula, for the one zone count there is. -/
theorem cprEncIsRationalFormula : Obligations.CprEncIsRationalFormula := by
  intro odd nbits lat lon s n hin hn
  rw [isZoneCount_unique hn (isZoneCount_nlOf _ _), ← encLat_eq, ← encLon_eq]
  exact exec_cprEnc_of_inDomain hin

/-- Settles O37: both coordinates are remainders by `2^NBITS`, and equal zone counts and angles give equal ones. -/
theorem cprEncLaws : Obligations.CprEncLaws := by
  intro odd nbits lat lat' lon lon' n s hin hin' hn hn' hlon
  have hnl : nlOf s.params.angleFrac lat = nlOf s.params.angleFrac lat' :=
    (isZoneCount_unique (isZoneCount_nlOf _ _) hn).trans (isZoneCount_unique hn' (isZoneCount_nlOf _ _))
  have hexec' := exec_cprEnc_of_inDomain (odd := odd) (nbits := nbits) (lon := lon') hin'
  rw [← encLon_congr hnl hlon] at hexec'
  exact ⟨_, _, _, _, _, exec_cprEnc_of_inDomain hin, hexec', rfl, rfl, ofNat_cprCoord_lt _ _ _, ofNat_cprCoord_lt _ _ _⟩
end

section
/-! PROOFS. The callsign (43_callsign.md R190 to R192): a six-bit index lies in one byte or across two, and the eight indices,
which the table does not confuse, are the whole payload. -/

namespace Sys2Proof.Bits
open Sys2Proof.Claims

/-- A field within one byte of a byte sequence is a field of that byte. -/
theorem field_bytesBits_byte (bytes : List Byte) {k q w : Nat} (hk : k < bytes.length) (hw : q + w ≤ 8) :
    field (bytesBits (8 * bytes.length) bytes) (8 * k + q) w = field (bytes.getD k 0) q w := by
  refine BitVec.eq_of_getMsbD_eq fun j hj => ?_
  have hdiv : (8 * k + q + j) / 8 = k := by omega
  have hmod : (8 * k + q + j) % 8 = q + j := by omega
  rw [field_getMsbD _ _ _ _ (by omega) hj, field_getMsbD _ _ _ _ hw hj, bytesBits_getMsbD bytes (by omega), byteBit, hdiv,
    hmod, BitVec.getMsbD, decide_eq_true (by omega), Bool.true_and]

/-- The top `w` bits of a bit string, as a number of its width. -/
theorem setWidth_field_top {n w : Nat} (b : BitVec n) (hw : w ≤ n) : (field b 0 w).setWidth n = b >>> (n - w) := by
  refine BitVec.eq_of_getLsbD_eq fun i _ => ?_
  rw [BitVec.getLsbD_setWidth, field, BitVec.getLsbD_extractLsb', BitVec.getLsbD_ushiftRight]
  by_cases hi : i < w
  · simp [hi, Nat.lt_of_lt_of_le hi hw]
  · simp [hi, BitVec.getLsbD_of_ge b (n - w + i) (by omega)]

/-- The low `w` bits of a bit string, as a number of its width. -/
theorem setWidth_field_low {n w : Nat} (b : BitVec n) (hw : w ≤ n) :
    (field b (n - w) w).setWidth n = b &&& BitVec.ofNat n (2 ^ w - 1) := by
  refine BitVec.eq_of_toNat_eq ?_
  have hpow : 2 ^ w ≤ 2 ^ n := Nat.pow_le_pow_right (by decide) hw
  have hmask : (2 ^ w - 1) % 2 ^ n = 2 ^ w - 1 := Nat.mod_eq_of_lt (by have := Nat.two_pow_pos w; omega)
  have hlow : b.toNat % 2 ^ w < 2 ^ n := (Nat.mod_lt _ (Nat.two_pow_pos w)).trans_le hpow
  rw [BitVec.toNat_setWidth, field_toNat, show n - (n - w) - w = 0 by omega, pow_zero, Nat.div_one, Nat.mod_eq_of_lt hlow,
    BitVec.toNat_and, BitVec.toNat_ofNat, hmask, Nat.and_two_pow_sub_one_eq_mod]

/-- A concatenation as a number of any width. -/
theorem setWidth_append_eq_or {v w : Nat} (x : BitVec v) (y : BitVec w) (n : Nat) :
    (x ++ y).setWidth n = x.setWidth n <<< w ||| y.setWidth n := by
  refine BitVec.eq_of_getLsbD_eq fun i hi => ?_
  rw [BitVec.getLsbD_setWidth, BitVec.getLsbD_append, BitVec.getLsbD_or, BitVec.getLsbD_shiftLeft, BitVec.getLsbD_setWidth,
    BitVec.getLsbD_setWidth]
  split
  · next hlow => simp [hlow]
  · next htop => simp [htop, hi, show i - w < n by omega, BitVec.getLsbD_of_ge y i (by omega)]

/-- The field across the end of a byte: the byte's low `v` bits before the next byte's top `w` (00_scope.md R10). -/
theorem setWidth_field_straddle (bytes : List Byte) {k v w : Nat} (hk : k + 1 < bytes.length) (hv : v ≤ 8) (hw : w ≤ 8) :
    (field (bytesBits (8 * bytes.length) bytes) (8 * k + (8 - v)) (v + w)).setWidth 8 =
      (bytes.getD k 0 &&& BitVec.ofNat 8 (2 ^ v - 1)) <<< w ||| bytes.getD (k + 1) 0 >>> (8 - w) := by
  have hnext : 8 * k + (8 - v) + v = 8 * (k + 1) + 0 := by omega
  rw [← field_append_field _ (by omega), hnext, field_bytesBits_byte bytes (by omega) (by omega),
    field_bytesBits_byte bytes hk (by omega), setWidth_append_eq_or, setWidth_field_low _ hv, setWidth_field_top _ hw]

/-- A bit string is told by its fields of `w` bits. -/
theorem eq_of_fields_eq {n w : Nat} {p q : BitVec n} (hw : 0 < w) (hn : w ∣ n)
    (h : ∀ i, w * i < n → field p (w * i) w = field q (w * i) w) : p = q := by
  refine BitVec.eq_of_getMsbD_eq fun k hk => ?_
  obtain ⟨m, rfl⟩ := hn
  have hi : k / w < m := Nat.div_lt_of_lt_mul hk
  have hend : w * (k / w) + w ≤ w * m := Nat.mul_le_mul_left w hi
  have hbit := congrArg (fun f => f.getMsbD (k % w)) (h (k / w) (by omega))
  rwa [field_getMsbD _ _ _ _ hend (Nat.mod_lt k hw), field_getMsbD _ _ _ _ hend (Nat.mod_lt k hw), Nat.div_add_mod] at hbit

/-- A byte sequence is told by its bit string. -/
theorem eq_of_bytesBits_eq {n : Nat} {x y : List Byte} (hx : x.length = n) (hy : y.length = n)
    (h : bytesBits (8 * n) x = bytesBits (8 * n) y) : x = y := by
  rw [← natBytes_bytesBits x hx rfl, h, natBytes_bytesBits y hy rfl]

end Sys2Proof.Bits

namespace Sys2Proof.Machine
open Sys2Proof.Bits Sys2Proof.Claims

/-! ### The table -/

/-- The table lists the codes that R190 computes. -/
theorem charCode_eq_asciiOf (k : BitVec 6) : charCode k = asciiOf (k.setWidth 8) := by
  revert k
  decide

/-- A code's low six bits are its index, so that the table lists no code twice. -/
theorem setWidth_charCode (k : BitVec 6) : (charCode k).setWidth 6 = k := by
  revert k
  decide

theorem charCode_injective : Function.Injective charCode := Function.LeftInverse.injective setWidth_charCode

/-! ### The characters of six bytes -/

section
variable {bytes : List Byte} {i k : Nat}

/-- An index that is the top of byte `k` (43_callsign.md R191). -/
theorem csChar_bytesBits_top (h : bytes.length = 6) (hk : k < 6) (hi : 6 * i = 8 * k) :
    csChar (bytesBits 48 bytes) i = asciiOf (bytes.getD k 0 >>> 2) := by
  have hfield := field_bytesBits_byte bytes (k := k) (q := 0) (w := 6) (by omega) (by decide)
  rw [h] at hfield
  rw [csChar, hi, charCode_eq_asciiOf]
  exact congrArg asciiOf ((congrArg _ hfield).trans (setWidth_field_top _ (by decide)))

/-- An index that is the low end of byte `k` (43_callsign.md R191). -/
theorem csChar_bytesBits_low (h : bytes.length = 6) (hk : k < 6) (hi : 6 * i = 8 * k + 2) :
    csChar (bytesBits 48 bytes) i = asciiOf (bytes.getD k 0 &&& 63) := by
  have hfield := field_bytesBits_byte bytes (k := k) (q := 2) (w := 6) (by omega) (by decide)
  rw [h] at hfield
  rw [csChar, hi, charCode_eq_asciiOf]
  exact congrArg asciiOf ((congrArg _ hfield).trans (setWidth_field_low _ (by decide)))

/-- An index of the low `v` bits of byte `k` and the top `w` of the next (43_callsign.md R191). -/
theorem csChar_bytesBits_straddle (h : bytes.length = 6) (hk : k + 1 < 6) {v w : Nat} (hvw : v + w = 6)
    (hi : 6 * i = 8 * k + (8 - v)) :
    csChar (bytesBits 48 bytes) i =
      asciiOf ((bytes.getD k 0 &&& BitVec.ofNat 8 (2 ^ v - 1)) <<< w ||| bytes.getD (k + 1) 0 >>> (8 - w)) := by
  have hfield := setWidth_field_straddle bytes (k := k) (v := v) (w := w) (by omega) (by omega) (by omega)
  rw [h, hvw] at hfield
  rw [csChar, hi, charCode_eq_asciiOf]
  exact congrArg asciiOf hfield

end

/-- The eight characters of six bytes, byte by byte: each three bytes hold four (43_callsign.md R191, R192). -/
theorem callsign_bytesBits (p0 p1 p2 p3 p4 p5 : Byte) :
    callsign (bytesBits 48 [p0, p1, p2, p3, p4, p5]) =
      ⟨asciiOf (p0 >>> 2), asciiOf ((p0 &&& 3) <<< 4 ||| p1 >>> 4), asciiOf ((p1 &&& 15) <<< 2 ||| p2 >>> 6),
        asciiOf (p2 &&& 63), asciiOf (p3 >>> 2), asciiOf ((p3 &&& 3) <<< 4 ||| p4 >>> 4),
        asciiOf ((p4 &&& 15) <<< 2 ||| p5 >>> 6), asciiOf (p5 &&& 63)⟩ := by
  rw [callsign, Callsign.mk.injEq]
  refine ⟨?_, ?_, ?_, ?_, ?_, ?_, ?_, ?_⟩
  · exact csChar_bytesBits_top (k := 0) rfl (by decide) rfl
  · exact csChar_bytesBits_straddle (k := 0) (v := 2) (w := 4) rfl (by decide) rfl rfl
  · exact csChar_bytesBits_straddle (k := 1) (v := 4) (w := 2) rfl (by decide) rfl rfl
  · exact csChar_bytesBits_low (k := 2) rfl (by decide) rfl
  · exact csChar_bytesBits_top (k := 3) rfl (by decide) rfl
  · exact csChar_bytesBits_straddle (k := 3) (v := 2) (w := 4) rfl (by decide) rfl rfl
  · exact csChar_bytesBits_straddle (k := 4) (v := 4) (w := 2) rfl (by decide) rfl rfl
  · exact csChar_bytesBits_low (k := 5) rfl (by decide) rfl

/-! ### The payload of eight characters -/

/-- No two payloads have the same characters. -/
theorem callsign_injective : Function.Injective callsign := by
  intro p q h
  rw [callsign, callsign, Callsign.mk.injEq] at h
  obtain ⟨h0, h1, h2, h3, h4, h5, h6, h7⟩ := h
  have hchar : ∀ i < 8, csChar p i = csChar q i := by
    intro i hi
    interval_cases i <;> assumption
  exact eq_of_fields_eq (by decide) (by decide) fun i hi => charCode_injective (hchar i (by omega))

/-! ### The command -/

/-- `CS.DEC` of six bytes presents their callsign and no other field (43_callsign.md R192). -/
theorem exec_csDec {bytes : List Byte} (h : bytes.length = 6) (s : State) :
    exec (.csDec bytes) s =
      .next (finish { Result.empty with cs := some (callsign (bytesBits 48 bytes)) } (acceptB 9 bytes s)) := by
  calc exec (.csDec bytes) s
    _ = execCsDec bytes s := rfl
    _ = _ := by rw [execCsDec_eq (by omega), if_pos h]

end Sys2Proof.Machine

open Sys2Proof.Bits Sys2Proof.Machine

/-- Settles O38: the command presents the callsign of the payload, whose characters lie in the bytes as R191 says. -/
theorem csDecCharacters : Obligations.CsDecCharacters := by
  intro p0 p1 p2 p3 p4 p5 s
  rw [← callsign_bytesBits]
  exact ⟨_, exec_csDec rfl s, rfl, rfl, rfl⟩

/-- Settles O39: the table, the fields and the bytes can each be read back, so the record determines the payload. -/
theorem csDecInjective : Obligations.CsDecInjective := by
  intro x y s t u hx hy ht hu hresult
  cases (exec_csDec hx s).symm.trans ht
  cases (exec_csDec hy s).symm.trans hu
  have hcs : callsign (bytesBits 48 x) = callsign (bytesBits 48 y) :=
    Option.some.inj (congrArg Result.cs hresult)
  exact eq_of_bytesBits_eq hx hy (callsign_injective hcs)
end

section
/-! PROOFS. In the middle of a `PARSE` (44_parser.md R200, R205, 45_ext_squitter.md R251; logs 6 and 14): the step runs the
instruction that FSM and `BUF` select. -/

namespace Sys2Proof.Machine

/-- The state in which a row runs reads `BUF` as the row's port does. -/
theorem fsmPort_instrFsm (i : Instr) : fsmPort (instrFsm i) = i.port := by cases i <;> rfl

/-- In the state of a row whose bytes `BUF` holds, that row is the pending instruction. -/
theorem pendingInstr_of_decode {s : State} {i : Instr} (hport : i.port ≠ .packet) (hfsm : s.fsm = instrFsm i)
    (hdecode : decode s.params i.port (bufBytes s) = .ok i) : pendingInstr s = some i := by
  rw [← fsmPort_instrFsm, ← hfsm] at hdecode hport
  unfold pendingInstr
  split
  · next hcheck => exact absurd (congrArg fsmPort hcheck) hport
  · rw [hdecode]
    exact if_pos hfsm.symm

/-- A busy step without a reset runs the pending instruction. -/
theorem step_pending {s : State} {i : Instr} (hbusy : s.fsm ≠ .idle) (hreset : s.host.head? ≠ some .reset)
    (hi : pendingInstr s = some i) : step s = exec i s := by
  rw [step_busy hbusy, stepBusy]
  split
  · next later hhost => exact absurd (by rw [hhost]; rfl) hreset
  · rw [hi]

end Sys2Proof.Machine

open Sys2Proof Sys2Proof.Machine

/-- Settles O8: the FSM's state names the port at which the row is decoded, and in `CHECK` the latched operands are the
command's. -/
theorem stepRunsPendingRow : Obligations.StepRunsPendingRow := by
  refine ⟨fun s i hport hfsm hdecode hreset => ?_, fun s hcheck hreset => ?_⟩
  · have hbusy : s.fsm ≠ .idle := fun h => hport (by rw [← fsmPort_instrFsm, ← hfsm, h]; rfl)
    exact step_pending hbusy hreset (pendingInstr_of_decode hport hfsm hdecode)
  · exact step_pending (by rw [hcheck]; nofun) hreset (by rw [pendingInstr, hcheck])
end

section
/-! PROOFS. The frame rows at the places of a legal layout (44_parser.md R206 to R221, R224, R225): the record that each row
leaves of the one it is entered with. -/

namespace Sys2Proof.Machine
open Sys2Proof.Claims

/-- A field of a frame at a place that lies inside it, as the model reads it (30_encoding.md R105). -/
theorem fieldAt_eq_get {n w : Nat} (f : BitVec n) {place : Config.Span w} (h : place.first + w ≤ n) :
    fieldAt f place = place.get f := Bits.fieldOf_eq_field f h

/-- The rows without a format (44_parser.md R221). -/
theorem exec_unassigned {fr : Frame} {i : Instr}
    (h : i ∈ [Instr.df1 fr, .df2 fr, .df3 fr, .df6 fr, .df7 fr, .df8 fr, .df9 fr, .df10 fr, .df12 fr, .df13 fr, .df14 fr,
      .df15 fr, .df23 fr]) (s : State) : exec i s = classifyOnly .unassigned s := by
  fin_cases h <;> rfl

/-- A state that only classifies adds its variant to the record (44_parser.md R215, R219, R221). -/
theorem classifyOnly_eq {s : State} {r : Result} (h : s.result = r) (k : Kind) :
    classifyOnly k s = .next (ended s { r with kind := some k.code }) := by
  subst h
  rfl

end Sys2Proof.Machine

open Sys2Proof Sys2Proof.Machine Sys2Proof.Claims

/-- Settles O51: the fifteen rows are one operation, with three variants. -/
theorem rowsClassifyOnly : Obligations.RowsClassifyOnly := fun _ _ s _ _ hentered =>
  ⟨classifyOnly_eq hentered .df18, classifyOnly_eq hentered .df22,
    fun _ hi => (exec_unassigned hi s).trans (classifyOnly_eq hentered .unassigned)⟩

/-- Settles O47: every place lies in the frame, and the altitude is that of the formulas. -/
theorem rowDf0 : Obligations.RowDf0 := by
  intro f s c hp hentered
  obtain ⟨h0, -⟩ := Config.Layout.consistent_cases (legal_layout hp)
  obtain ⟨hvs, hcc, hx0, hri, hx1, hac⟩ := Config.LayoutDf0.consistent_inside h0
  have hexec : exec (.df0 f) s = execDf0 f s := rfl
  rw [hexec, execDf0, withAltitude_eq_withAlt, hentered]
  simp (disch := omega) only [fieldAt_eq_get]
  rfl

/-- Settles O48: DF 4 decodes its code as an altitude, DF 5 as an identity. -/
theorem rowsDf4Df5 : Obligations.RowsDf4Df5 := by
  intro f s c hp
  obtain ⟨-, hsurv, -⟩ := Config.Layout.consistent_cases (legal_layout hp)
  obtain ⟨hfs, hdr, hum, hcode⟩ := Config.LayoutSurveillance.consistent_places hsurv
  have hexec4 : exec (.df4 f) s = execDf4 f s := rfl
  have hexec5 : exec (.df5 f) s = execDf5 f s := rfl
  simp (disch := omega) only [fieldAt_eq_get]
  refine ⟨fun hentered => ?_, fun hentered => ?_⟩
  · rw [hexec4, execDf4, withAltitude_eq_withAlt, hentered]
    rfl
  · rw [hexec5, execDf5, withIdentity, squawkOf_eq, hentered]
    rfl

/-- Settles O49: the code and the address at their two places. -/
theorem rowDf11 : Obligations.RowDf11 := by
  intro f s c hp hentered
  obtain ⟨-, -, h11, -⟩ := Config.Layout.consistent_cases (legal_layout hp)
  obtain ⟨hca, haa⟩ := Config.LayoutDf11.consistent_places h11
  have hexec : exec (.df11 f) s = execDf11 f s := rfl
  rw [hexec, execDf11, hentered]
  simp (disch := omega) only [fieldAt_eq_get]
  rfl

/-- Settles O50: the advisory and its threat fields are added under the same two conditions. -/
theorem rowDf16 : Obligations.RowDf16 := by
  intro f s c hp hentered
  obtain ⟨-, -, -, h16, hadv, -⟩ := Config.Layout.consistent_cases (legal_layout hp)
  obtain ⟨hvs, hx0, hri, hx1, hac, hmv⟩ := Config.LayoutDf16.consistent_inside h16
  obtain ⟨hhead, hara, hrac, hrat, hmti, htti, htid, htida, htidr, htidb⟩ :=
    Config.LayoutAdvisory.consistent_places hadv
  have hexec : exec (.df16 f) s = execDf16 f s := rfl
  rw [hexec, execDf16, withAltitude_eq_withAlt, withAdvisory, withThreat, hentered]
  simp (disch := omega) only [fieldAt_eq_get]
  rfl

/-- Settles O52, by the value of `af`. -/
theorem rowDf19 : Obligations.RowDf19 := by
  intro f s c hp hentered
  obtain ⟨-, -, -, -, -, -, h19, -⟩ := Config.Layout.consistent_cases (legal_layout hp)
  obtain ⟨hafPlace, haa, hme, hpi⟩ := Config.LayoutDf19.consistent_places h19
  rw [exec_df19, df19Record, hentered]
  simp (disch := omega) only [fieldAt_eq_get]
  by_cases haf : s.params.layout.df19.af.get f = 0
  · rw [if_pos haf, if_pos haf, haf]
    rfl
  · rw [if_neg haf, if_neg haf]
    rfl

/-- Settles O53: the rows of DF 4 and DF 5 in a long frame, with the message field. -/
theorem rowsDf20Df21 : Obligations.RowsDf20Df21 := by
  intro f s c hp
  obtain ⟨-, hsurv, -, -, -, -, -, hcommB, -⟩ := Config.Layout.consistent_cases (legal_layout hp)
  obtain ⟨hfs, hdr, hum, hcode⟩ := Config.LayoutSurveillance.consistent_places hsurv
  obtain ⟨hmb, hbds⟩ := Config.LayoutCommB.consistent_places hcommB
  have hexec20 : exec (.df20 f) s = execDf20 f s := rfl
  have hexec21 : exec (.df21 f) s = execDf21 f s := rfl
  simp (disch := omega) only [fieldAt_eq_get]
  refine ⟨fun hentered => ?_, fun hentered => ?_⟩
  · rw [hexec20, execDf20, withAltitude_eq_withAlt, hentered]
    rfl
  · rw [hexec21, execDf21, withIdentity, squawkOf_eq, hentered]
    rfl

/-- Settles O54: the eight rows are one operation. -/
theorem rowsCommD : Obligations.RowsCommD := by
  intro f s d c hp hentered i hi
  obtain ⟨-, -, -, -, -, -, -, -, hcommD, -⟩ := Config.Layout.consistent_cases (legal_layout hp)
  obtain ⟨hx0, hke, hnd, hmd⟩ := Config.LayoutCommD.consistent_places hcommD
  rw [exec_commD hi, commD, hentered]
  simp (disch := omega) only [fieldAt_eq_get]
  rfl
end

section
/-! PROOFS. `PARSE` and its frame (44_parser.md R200 to R206, R222): which frames it refuses, the state in which it enters the
frame's row, and what the record holds of every frame when the row has ended. -/

namespace Sys2Proof.Machine
open Sys2Proof.Claims

/-! ### The length check -/

/-- The `df` of the frame that a buffer holds (44_parser.md R202). -/
theorem df_of_ofBytes {bytes : List Byte} {fr : Frame} (h : Frame.ofBytes bytes = some fr) :
    fr.df = BitVec.ofNat 5 (dfOf bytes) := by
  cases fr with
  | short f =>
    obtain ⟨hlen, rfl⟩ := ofBytes_eq_short h
    exact field_bytesBits (by omega) (by omega)
  | long f =>
    obtain ⟨hlen, rfl⟩ := ofBytes_eq_long h
    exact field_bytesBits (by omega) (by omega)

theorem df_toNat_of_ofBytes {bytes : List Byte} {fr : Frame} (h : Frame.ofBytes bytes = some fr) :
    fr.df.toNat = dfOf bytes := by
  have hlen := ofBytes_length h
  rw [df_of_ofBytes h]
  exact Nat.mod_eq_of_lt (bytesField_lt bytes (by omega))

/-- The formats that a short frame cannot have (44_parser.md R203). -/
theorem lengthOk_short (f : Short) : (Frame.short f).lengthOk = false ↔
    (16 ≤ (shortDf f).toNat ∧ (shortDf f).toNat ≤ 22) ∨ (24 ≤ (shortDf f).toNat ∧ (shortDf f).toNat ≤ 31) := by
  simp only [Frame.lengthOk, Frame.df]
  obtain ⟨n, hn, hd⟩ := five_bits (shortDf f)
  rw [hd]
  clear hd
  interval_cases n <;> simp [family]

/-- The formats that a long frame cannot have (44_parser.md R203). -/
theorem lengthOk_long (f : Long) : (Frame.long f).lengthOk = false ↔ (longDf f).toNat ∈ [0, 4, 5, 11] := by
  simp only [Frame.lengthOk, Frame.df]
  obtain ⟨n, hn, hd⟩ := five_bits (longDf f)
  rw [hd]
  clear hd
  interval_cases n <;> simp [family]

/-- `PARSE` fails with `LENGTH_MISMATCH` exactly for a frame whose length is not the one its `df` implies. -/
theorem failsWith_lengthMismatch_iff {bytes : List Byte} (h15 : bytes.length ≤ 15) (ts : Nat) (s : State) :
    FailsWith (.parse ts bytes) s 2 ↔ ∃ fr, Frame.ofBytes bytes = some fr ∧ fr.lengthOk = false := by
  have hexec : exec (.parse ts bytes) s = execParse ts bytes s := rfl
  cases hfr : Frame.ofBytes bytes with
  | none =>
    have h7 : bytes.length ≠ 7 := fun h => by rw [ofBytes_short h] at hfr; cases hfr
    have h14 : bytes.length ≠ 14 := fun h => by rw [ofBytes_long h] at hfr; cases hfr
    rw [failsWith_iff_of_raise (hexec.trans (execParse_badLength h15 h7 h14 ts s))]
    exact iff_of_false (by decide) nofun
  | some fr =>
    cases hok : fr.lengthOk with
    | false =>
      have hfails := (failsWith_iff_of_raise (hexec.trans (execParse_mismatch hfr hok ts s)) 2).mpr rfl
      exact iff_of_true hfails ⟨fr, rfl, hok⟩
    | true =>
      obtain ⟨i, hi⟩ := (lengthOk_iff fr).mp hok
      refine iff_of_false (not_failsWith_of_finish (exec_parse_row hfr hi ts s) (by decide)) ?_
      rintro ⟨_, ⟨⟩, hbad⟩
      cases hok.symm.trans hbad

/-! ### The state in which the row is entered -/

/-- What a division leaves as the remainder, whatever `W` held, is what `CRC` gives (40_crc.md R121, 44_parser.md R204). -/
theorem crcGives_crcRead {bytes : List Byte} (h3 : 3 ≤ bytes.length) (h14 : bytes.length ≤ 14) (w : BitVec 112) :
    CrcGives bytes (crcRead bytes.length (crcWork false bytes w)) :=
  (crcGives_iff_crcRead h3 h14 _).mpr (crcRead_congr h3 h14 false 0 w)

/-- The record with which `PARSE` enters the row of a frame: `ts`, `df` and the remainder of the whole buffer (44_parser.md R200,
R204, R222). -/
theorem enterFrame_acceptP_result {bytes : List Byte} {fr : Frame} (hfr : Frame.ofBytes bytes = some fr) (ts : Nat)
    (s : State) :
    (enterFrame fr (acceptP ts bytes s)).result =
      enteredRecord ts (BitVec.ofNat 5 (dfOf bytes)) (crcRead bytes.length (crcWork false bytes s.w)) := by
  have hlen := ofBytes_length hfr
  have hbuf : bufBytes (acceptP ts bytes s) = bytes := latchBuf_bufBytes (by omega) s
  have hlatched : (acceptP ts bytes s).len.toNat = bytes.length := latchBuf_len_toNat (by omega) s
  rw [enterFrame_result, hbuf, hlatched, acceptP_w, acceptP_ts, df_of_ofBytes hfr]

/-- Entering a row writes no operand register. -/
theorem latched_enterFrame {op : BitVec 4} {bytes : List Byte} {s u : State} (h : Latched op bytes s u) (fr : Frame) :
    Latched op bytes s (enterFrame fr u) := { h with }

/-! ### What the record holds of every frame -/

/-- The fields of a record that `PARSE` presents of every frame, and the address; all others absent. -/
def recordHead (r : Result) : Result :=
  { Result.empty with ts := r.ts, df := r.df, crc := r.crc, aa := r.aa, ap := r.ap }

theorem recordHead_withAltitude (ac : BitVec 13) (r : Result) : recordHead (withAltitude ac r) = recordHead r := by
  rcases withAltitude_cases ac r with ⟨v, -, e⟩ | ⟨-, e⟩ | ⟨-, e⟩ <;> rw [e] <;> rfl

theorem recordHead_withAdvisory (l : Config.LayoutAdvisory) (f : Long) (r : Result) :
    recordHead (withAdvisory l f r) = recordHead r := by
  unfold withAdvisory withThreat
  split
  · split <;> rfl
  · rfl

theorem recordHead_withClimb (p : Config.Params) (f : Long) (r : Result) :
    recordHead (withClimb p f r) = recordHead r := by
  unfold withClimb
  split <;> rfl

/-- The rows of the type codes leave the head of the record as they find it (45_ext_squitter.md R252 to R257). -/
theorem recordHead_squitterRow (p : Config.Params) (f : Long) (q : Config.Params) (r : Result) :
    recordHead (rowRecord (squitterInstr p f) q r) = recordHead r := by
  unfold squitterInstr
  split
  case h_20 => exact recordHead_withClimb _ _ _
  all_goals rfl

/-- The address that a row writes, `c` being the remainder (44_parser.md R206): none for a row without the rule. -/
def rowAddress (p : Config.Params) (c : BitVec 24) : Instr → Option (BitVec 24)
  | .df0 _ | .df4 _ | .df5 _ | .df16 _ | .df20 _ | .df21 _ => some c
  | .df24 _ | .df25 _ | .df26 _ | .df27 _ | .df28 _ | .df29 _ | .df30 _ | .df31 _ => some c
  | .df11 f => some (p.layout.df11.aa.get f)
  | .df17 f => some (p.layout.df17.aa.get f)
  | .df19 f => if p.layout.df19.af.get f = 0 then some (p.layout.df19.aa.get f) else none
  | _ => none

/-- Every row keeps `ts`, `df` and `crc` of the record that `PARSE` enters it with, and writes one value to `aa` and `ap`
(44_parser.md R204, R206, R222). -/
theorem recordHead_rowRecord {i : Instr} (h : instrFsm i ≠ .idle) (p : Config.Params) (ts : Nat) (d : BitVec 5)
    (c : BitVec 24) :
    recordHead (rowRecord i p (enteredRecord ts d c)) =
      { enteredRecord ts d c with aa := rowAddress p c i, ap := rowAddress p c i } := by
  cases i with
  | crc | crcEnc | altIsm | altIsq | altFt | altM | cprNl | cprEnc | csDec | parse => exact absurd rfl h
  | df0 f | df4 f | df20 f => exact recordHead_withAltitude _ _
  | df16 f => exact (recordHead_withAdvisory _ _ _).trans (recordHead_withAltitude _ _)
  | df17 f =>
    rw [rowRecord_df17]
    exact recordHead_squitterRow _ _ _ _
  | df19 f =>
    rw [rowRecord_df19, df19Record, rowAddress]
    split <;> rfl
  | esTc19 f => exact recordHead_withClimb _ _ _
  | _ => rfl

/-- The same of a whole `PARSE`, with the remainder that `CRC` gives. -/
theorem exec_parse_head {bytes : List Byte} {fr : Frame} {i : Instr} (hfr : Frame.ofBytes bytes = some fr)
    (hi : fr.instr = some i) (ts : Nat) (s : State) :
    ∃ t c, exec (.parse ts bytes) s = .next t ∧ t.status = 0 ∧ t.fsm = .idle ∧ CrcGives bytes c ∧
      t.result.ts = some ts ∧ t.result.df = some (BitVec.ofNat 5 (dfOf bytes)) ∧ t.result.crc = some c ∧
      t.result.aa = rowAddress s.params c i ∧ t.result.ap = rowAddress s.params c i := by
  have hlen := ofBytes_length hfr
  have hhead := recordHead_rowRecord (instrFsm_frame_ne_idle hi) s.params ts fr.df
    (crcRead bytes.length (crcWork false bytes s.w))
  rw [← df_of_ofBytes hfr]
  exact ⟨_, _, exec_parse_row hfr hi ts s, rfl, rfl, crcGives_crcRead (by omega) (by omega) s.w, congrArg Result.ts hhead,
    congrArg Result.df hhead, congrArg Result.crc hhead, congrArg Result.aa hhead, congrArg Result.ap hhead⟩

/-! ### The address by format -/

/-- The row of a buffer's frame writes the address that R206 names for its `df`. -/
theorem rowAddress_eq_table {p : Config.Params} (hp : p.legal = true) {bytes : List Byte} {i : Instr} {d : BitVec 5}
    (hfsm : instrFsm i = .df d) (hbytes : encode p i = bytes) (c : BitVec 24) :
    rowAddress p c i =
      if d.toNat ∈ [0, 4, 5, 16, 20, 21, 24, 25, 26, 27, 28, 29, 30, 31] then some c
      else if d.toNat = 11 ∨ d.toNat = 17 ∨ (d.toNat = 19 ∧ bytesField bytes p.layout.df19.af.first 3 = 0) then
        some (BitVec.ofNat 24 (bytesField bytes 8 24))
      else none := by
  have hlayout := legal_layout hp
  cases i with
  | df11 f =>
    obtain ⟨-, -, h11, -⟩ := Config.Layout.consistent_cases hlayout
    obtain ⟨-, haa⟩ := Config.LayoutDf11.consistent_places h11
    have hfr : Frame.ofBytes bytes = some (.short f) := hbytes ▸ ofBytes_bytes (.short f)
    cases hfsm
    rw [rowAddress, get_short hfr _ (by omega), haa]
    rfl
  | df17 f =>
    obtain ⟨haa, -⟩ := Config.Layout.consistent_position hlayout
    have hfr : Frame.ofBytes bytes = some (.long f) := hbytes ▸ ofBytes_bytes (.long f)
    cases hfsm
    rw [rowAddress, get_long hfr _ (by omega), haa]
    rfl
  | df19 f =>
    obtain ⟨-, -, -, -, -, -, h19, -⟩ := Config.Layout.consistent_cases hlayout
    obtain ⟨haf, haa, -, -⟩ := Config.LayoutDf19.consistent_places h19
    have hfr : Frame.ofBytes bytes = some (.long f) := hbytes ▸ ofBytes_bytes (.long f)
    have hlen := (ofBytes_eq_long hfr).1
    have hzero : p.layout.df19.af.get f = 0 ↔ bytesField bytes p.layout.df19.af.first 3 = 0 := by
      rw [get_long hfr _ (by omega), BitVec.toNat_eq, BitVec.toNat_ofNat,
        Nat.mod_eq_of_lt (bytesField_lt bytes (by omega))]
      rfl
    cases hfsm
    rw [rowAddress, get_long hfr p.layout.df19.aa (by omega), haa]
    by_cases h0 : bytesField bytes p.layout.df19.af.first 3 = 0
    · rw [if_pos (hzero.mpr h0)]
      simp [h0]
    · rw [if_neg (mt hzero.mp h0)]
      simp [h0]
  | _ => cases hfsm <;> rfl

end Sys2Proof.Machine

open Sys2Proof Sys2Proof.Machine Sys2Proof.Claims

/-- Settles O40: the length check by the length of the buffer and the `df` of its frame. -/
theorem lengthMismatchRefused : Obligations.LengthMismatchRefused := by
  intro ts bytes s h15
  rw [failsWith_lengthMismatch_iff h15]
  constructor
  · rintro ⟨fr, hfr, hbad⟩
    have hdf := df_toNat_of_ofBytes hfr
    cases fr with
    | short f => exact .inr ⟨(ofBytes_eq_short hfr).1, hdf ▸ (lengthOk_short f).mp hbad⟩
    | long f => exact .inl ⟨(ofBytes_eq_long hfr).1, hdf ▸ (lengthOk_long f).mp hbad⟩
  · rintro (⟨h14, hd⟩ | ⟨h7, hd⟩)
    · have hfr := ofBytes_long h14
      exact ⟨_, hfr, (lengthOk_long _).mpr ((df_toNat_of_ofBytes hfr).symm ▸ hd)⟩
    · have hfr := ofBytes_short h7
      exact ⟨_, hfr, (lengthOk_short _).mpr ((df_toNat_of_ofBytes hfr).symm ▸ hd)⟩

/-- Settles O41: the row of the frame keeps the three fields that `PARSE` has entered it with. -/
theorem parseCommonFields : Obligations.ParseCommonFields := by
  intro ts bytes s hfits
  obtain ⟨fr, i, hfr, hi, -⟩ := frame_of_lengthFits hfits
  obtain ⟨t, c, hexec, hstatus, hidle, hcrc, htsField, hdfField, hcrcField, -, -⟩ := exec_parse_head hfr hi ts s
  exact ⟨t, c, hexec, hstatus, hidle, hcrc, htsField, hdfField, hcrcField⟩

/-- Settles O43 with the state in which `PARSE` enters the row. -/
theorem parseRunsRow : Obligations.ParseRunsRow := by
  intro ts bytes s i hdecode
  obtain ⟨fr, hfr, hi⟩ := decodeFrame_ok.mp hdecode
  have hlen := ofBytes_length hfr
  have hfsm := instrFsm_frame hi
  refine ⟨enterFrame fr (acceptP ts bytes s), _, crcGives_crcRead (by omega) (by omega) s.w, execParse_row hfr hi ts s,
    latched_enterFrame (latched_acceptP ts bytes s) fr, ?_, latchBuf_bufBytes (by omega) s, ?_, ?_,
    enterFrame_acceptP_result hfr ts s⟩
  · rw [enterFrame_ts, acceptP_ts]
  · rw [enterFrame_fsm, hfsm]
  · rw [hfsm, df_of_ofBytes hfr]

/-- Settles O44: the type code's row is run on the state that `S_DF17` has written, and it leaves the address and the type code
there. -/
theorem rowDf17 : Obligations.RowDf17 := by
  intro f s hdf hp
  obtain ⟨haa, htc, -⟩ := Config.Layout.consistent_position (legal_layout hp)
  rw [fieldAt_eq_get f (by omega), fieldAt_eq_get f (by omega)]
  obtain ⟨hwf, -⟩ := squitterInstr_wf hdf s.params
  have hhead := recordHead_squitterRow s.params f s.params (df17Record f s.params s.result)
  obtain ⟨-, htcKept⟩ := rowRecord_squitter_keeps (squitterInstr_port s.params f) s.params
    (df17Record f s.params s.result)
  refine ⟨squitterInstr s.params f, _, decodeSquitter_ok.mpr ⟨f, ofBytes_bytes (.long f), hdf, rfl⟩, hwf, ?_,
    exec_df17 f s, rfl, congrArg Result.aa hhead, congrArg Result.ap hhead, htcKept⟩
  rw [instrFsm_squitter]
  exact execDf17_eq f s

/-- Settles O45: every row writes one value to both fields, and by the frame's `df` it is the remainder, bytes 1 to 3 or
none. -/
theorem addressRule : Obligations.AddressRule := by
  intro ts bytes s hfits hp
  obtain ⟨fr, i, hfr, hi, hdf⟩ := frame_of_lengthFits hfits
  obtain ⟨t, c, hexec, hstatus, -, -, -, -, hcrc, haa, hap⟩ := exec_parse_head hfr hi ts s
  obtain ⟨-, -, hbytes⟩ := frameInstr_wf hi s.params
  refine ⟨t, hexec, hstatus, hap.trans haa.symm, ?_⟩
  rw [haa, hcrc, ← hdf]
  exact rowAddress_eq_table hp (instrFsm_frame hi) (hbytes.trans (bytes_of_ofBytes hfr)) c
end

section
/-! PROOFS. The type-code rows at the places of a legal layout (45_ext_squitter.md R252 to R257): the record that each row
leaves of the one it is entered with. -/

namespace Sys2Proof.Bits

/-- A field of a field is a field of the whole, its place moved on by that of the outer one (00_scope.md R10). -/
theorem field_field {n : Nat} (b : BitVec n) {p v q w : Nat} (hout : p + v ≤ n) (hin : q + w ≤ v) :
    field (field b p v) q w = field b (p + q) w := by
  refine BitVec.eq_of_getMsbD_eq fun k hk => ?_
  rw [field_getMsbD _ _ _ _ hin hk, field_getMsbD _ _ _ _ hout (by omega), field_getMsbD _ _ _ _ (by omega) hk, Nat.add_assoc]

end Sys2Proof.Bits

namespace Sys2Proof.Machine
open Sys2Proof.Claims

/-- The rows of an identification (45_ext_squitter.md R252). -/
theorem exec_esIdent {f : Long} {i : Instr} (h : i ∈ [Instr.esTc1 f, .esTc2 f, .esTc3 f, .esTc4 f]) (s : State) :
    exec i s = esIdent f s := by
  fin_cases h <;> rfl

/-- A character of a payload inside a frame is six bits of the frame through the table (43_callsign.md R190, R191). -/
theorem csChar_field {f : Long} {p i : Nat} (hp : p + 48 ≤ 112) (hi : i < 8) :
    csChar (Bits.field f p 48) i = asciiOf ((fieldOf f (p + 6 * i) 6).setWidth 8) := by
  rw [csChar, Bits.field_field f hp (by omega), charCode_eq_asciiOf, Bits.fieldOf_eq_field f (by omega)]

/-- `S_ES_VEL` derives the number `ClimbRate` itself: it fits the field (45_ext_squitter.md R255, R258). -/
theorem climbRate_toInt (sign : BitVec 1) (vr : BitVec 9) :
    (BitVec.ofInt 16 (climbRate sign vr)).toInt = climbRate sign vr := by
  have hrange := climbRate_range sign vr
  exact BitVec.toInt_ofInt_eq_self (by decide) (by omega) (by omega)

/-- The two derived fields under the one condition on the subtype (45_ext_squitter.md R255). -/
theorem withClimb_eq (p : Config.Params) (f : Long) (r : Result) :
    withClimb p f r =
      { r with
        climb :=
          if p.layout.velocity.st.get f ∈ p.climbValidSt then
            some (BitVec.ofInt 16 (climbRate (p.layout.velocity.vrSign.get f) (p.layout.velocity.vr.get f)))
          else none
        climbSt := some (if p.layout.velocity.st.get f ∈ p.climbValidSt then climbOk else climbUnsupported) } := by
  rw [withClimb]
  by_cases hst : p.layout.velocity.st.get f ∈ p.climbValidSt
  · rw [if_pos (List.contains_iff_mem.mpr hst), if_pos hst, if_pos hst]
  · rw [if_neg (mt List.contains_iff_mem.mp hst), if_neg hst, if_neg hst]

end Sys2Proof.Machine

open Sys2Proof Sys2Proof.Machine Sys2Proof.Claims

/-- Settles O55: the payload starts at position 40, and its characters follow six bits apart. -/
theorem rowsIdentification : Obligations.RowsIdentification := by
  intro f s c a tc hp hentered i hi
  obtain ⟨-, -, -, -, -, -, -, -, -, hplace, -⟩ := Config.Layout.consistent_cases (legal_layout hp)
  have hchars : callsign (s.params.layout.callsign.get f) =
      ⟨asciiOf ((fieldOf f 40 6).setWidth 8), asciiOf ((fieldOf f 46 6).setWidth 8),
        asciiOf ((fieldOf f 52 6).setWidth 8), asciiOf ((fieldOf f 58 6).setWidth 8),
        asciiOf ((fieldOf f 64 6).setWidth 8), asciiOf ((fieldOf f 70 6).setWidth 8),
        asciiOf ((fieldOf f 76 6).setWidth 8), asciiOf ((fieldOf f 82 6).setWidth 8)⟩ := by
    rw [callsign, Config.Span.get, hplace]
    simp (disch := decide) only [csChar_field]
  rw [exec_esIdent hi, esIdent, hchars, hentered]
  rfl

/-- Settles O56: the ten rows are one operation. -/
theorem rowsPosition : Obligations.RowsPosition := by
  intro f s c a tc hp hentered i hi
  obtain ⟨-, -, hss, hnicsb, halt, ht, hcprOdd, hlatCpr, hlonCpr⟩ :=
    Config.Layout.consistent_position (legal_layout hp)
  rw [exec_esPosition hi, esPosition, hentered]
  simp (disch := omega) only [fieldAt_eq_get]
  rfl

/-- Settles O57: the climb rate is the number that the row derives, which sixteen bits hold. -/
theorem rowVelocity : Obligations.RowVelocity := by
  intro f s c a tc hp hentered
  obtain ⟨-, -, -, -, -, -, -, -, -, -, -, hvel, -⟩ := Config.Layout.consistent_cases (legal_layout hp)
  obtain ⟨hst, hic, hifr, hnac, hweSign, hwe, hnsSign, hns, hvrSrc, hvrSign, hvr, hdifSign, hdif⟩ :=
    Config.LayoutVelocity.consistent_inside hvel
  have hexec : exec (.esTc19 f) s = esVelocity f s := rfl
  simp (disch := omega) only [fieldAt_eq_get]
  refine ⟨_, climbRate_toInt _ _, ?_⟩
  rw [hexec, esVelocity, withClimb_eq, hentered]
  rfl

/-- Settles O58: the seventeen rows are one operation, and the payload starts at byte 4. -/
theorem rowsOpaque : Obligations.RowsOpaque := by
  intro f s c a tc hp hentered i hi
  obtain ⟨-, -, -, -, -, -, -, -, -, -, -, -, hme⟩ := Config.Layout.consistent_cases (legal_layout hp)
  rw [exec_esOther hi, esOther, hentered, fieldAt_eq_get f (by omega)]
  rfl
end

section
/-! PROOFS. The failures of each command (60_exceptions.md R303), and that no step of the invariant faults (R284,
70_reset_and_hazards.md R317): a whole packet is run or refused, and in the middle of a `PARSE` the frame in `BUF` selects the
row that the FSM's state waits for. -/

namespace Sys2Proof.Machine
open Sys2Proof.Claims

/-! ### The statuses of the commands -/

/-- An outcome that is a next state, with its status among the given ones. -/
def EndsIn (codes : List (BitVec 4)) (o : Out) : Prop := ∃ t, o = .next t ∧ t.status ∈ codes

theorem endsIn_finish (codes : List (BitVec 4)) (r : Result) (s : State) : EndsIn (0 :: codes) (.next (finish r s)) :=
  ⟨_, rfl, List.mem_cons_self⟩

theorem endsIn_raise {codes : List (BitVec 4)} {e : Status} (h : e.code ∈ codes) (s : State) :
    EndsIn codes (.next (raise e s)) :=
  ⟨_, rfl, h⟩

/-- `CRC` and `CRC.ENC` fail with `BAD_LENGTH` only (40_crc.md R126). -/
theorem endsIn_crcCommand (op : BitVec 4) (encode : Bool) (bytes : List Byte) (s : State) :
    EndsIn [0, 1] (crcCommand op encode bytes s) := by
  unfold crcCommand
  dsimp only
  split
  · exact endsIn_raise (by decide) _
  · exact endsIn_finish _ _ _

/-- `ALT.FT` and `ALT.M` fail as the decoding of the code does (41_altitude.md R150). -/
theorem endsIn_answer (record : Int → Result) (s : State) (a : Altitude) : EndsIn [0, 3, 4] (.next (a.answer record s)) := by
  cases a with
  | feet v => exact endsIn_finish _ _ _
  | unsupported => exact endsIn_raise (by decide) _
  | invalid => exact endsIn_raise (by decide) _

/-- `CPR.NL` fails with `BAD_OPERAND` only (42_cpr.md R179). -/
theorem endsIn_cprNl (lat : Int) (s : State) : EndsIn [0, 6] (exec (.cprNl lat) s) := by
  by_cases h : InDomain s.params.angleFrac lat
  · rw [exec_cprNl_of_inDomain h]
    exact endsIn_finish _ _ _
  · rw [exec_cprNl_of_not_inDomain h]
    exact endsIn_raise (by decide) _

/-- `CPR.ENC` fails with `BAD_OPERAND` only (42_cpr.md R179). -/
theorem endsIn_cprEnc (odd : BitVec 1) (nbits : BitVec Config.nbitsW) (lat lon : Int) (s : State) :
    EndsIn [0, 6] (exec (.cprEnc odd nbits lat lon) s) := by
  by_cases h : InDomain s.params.angleFrac lat
  · rw [exec_cprEnc_of_inDomain h]
    exact endsIn_finish _ _ _
  · rw [exec_cprEnc_of_not_inDomain h]
    exact endsIn_raise (by decide) _

/-- `CS.DEC` fails with `BAD_LENGTH` only (43_callsign.md R193). -/
theorem endsIn_csDec (bytes : List Byte) (s : State) : EndsIn [0, 1] (execCsDec bytes s) := by
  unfold execCsDec
  dsimp only
  split
  · exact endsIn_finish _ _ _
  · exact endsIn_raise (by decide) _

/-- A row does not fail (44_parser.md R200). -/
theorem endsIn_row (codes : List (BitVec 4)) {i : Instr} (h : instrFsm i ≠ .idle) (s : State) :
    EndsIn (0 :: codes) (exec i s) := by
  rw [exec_row h]
  exact endsIn_finish _ _ _

/-- `PARSE` fails on the length of its buffer or on that of the frame's format only (44_parser.md R201, R203). -/
theorem endsIn_parseLatched (s : State) : EndsIn [0, 1, 2] (parseLatched s) := by
  rcases parseLatched_cases s with h | h | ⟨fr, i, -, hi, h⟩ <;> rw [h]
  · exact endsIn_raise (by decide) _
  · exact endsIn_raise (by decide) _
  · exact endsIn_row _ (instrFsm_frame_ne_idle hi) _

/-- Every instruction ends with one of the statuses that the table gives it. -/
theorem exec_endsIn_statuses (i : Instr) (s : State) : EndsIn (statuses i) (exec i s) := by
  cases i with
  | crc bytes => exact endsIn_crcCommand 1 false bytes s
  | crcEnc bytes => exact endsIn_crcCommand 2 true bytes s
  | altIsm ac => exact endsIn_finish [] _ _
  | altIsq ac => exact endsIn_finish [] _ _
  | altFt ac => rw [exec_altFt]; exact endsIn_answer _ _ _
  | altM ac => rw [exec_altM]; exact endsIn_answer _ _ _
  | cprNl lat => exact endsIn_cprNl lat s
  | cprEnc odd nbits lat lon => exact endsIn_cprEnc odd nbits lat lon s
  | csDec bytes => exact endsIn_csDec bytes s
  | parse ts bytes => exact endsIn_parseLatched (acceptP ts bytes s)
  | _ => exact endsIn_row [] (by simp [instrFsm]) s

/-! ### Progress -/

/-- A whole packet, refused ones included, leads to a next state (60_exceptions.md R284). -/
theorem exists_runPacket_next {bytes : List Byte} (hne : bytes ≠ []) {s : State}
    (hl : bytes.length = packetLength s.params (bytes.headD 0)) : ∃ t, runPacket bytes s = .next t := by
  rcases runPacket_cases hne s hl with ⟨i, -, hr⟩ | ⟨-, hr⟩ | ⟨-, hr⟩ <;> rw [hr]
  · obtain ⟨t, ht, -⟩ := instructionsEnd i s
    exact ⟨t, ht⟩
  · exact ⟨_, rfl⟩
  · exact ⟨_, rfl⟩

/-- From `IDLE` every state, not only one of the invariant, has a next one. -/
theorem exists_stepIdle_next (s : State) : ∃ t, stepIdle s = .next t := by
  unfold stepIdle
  cases hfetch : fetchPacket s.params s.host with
  | waiting => exact ⟨_, rfl⟩
  | aborted later => exact ⟨_, rfl⟩
  | packet bytes later =>
    obtain ⟨hne, hl, -⟩ := fetchPacket_packet hfetch
    exact exists_runPacket_next hne hl

/-- The row that a state's bytes decode to at the port of its FSM is pending, if it is a row of that FSM state. -/
theorem pendingInstr_of_decode_fsmPort {s : State} {i : Instr} (hport : fsmPort s.fsm ≠ .packet) (hfsm : instrFsm i = s.fsm)
    (hdecode : decode s.params (fsmPort s.fsm) (bufBytes s) = .ok i) : pendingInstr s = some i := by
  rw [← hfsm, fsmPort_instrFsm] at hport hdecode
  exact pendingInstr_of_decode hport hfsm.symm hdecode

/-- In `S_DF<d>` the frame in `BUF` selects the row of that state (44_parser.md R205). -/
theorem FrameReady.exists_pendingInstr {s : State} {d : BitVec 5} (h : FrameReady d s) (hfsm : s.fsm = .df d) :
    ∃ i, pendingInstr s = some i := by
  obtain ⟨fr, c, hfr, hd, hok, -⟩ := h
  obtain ⟨i, hi⟩ := (lengthOk_iff fr).mp hok
  refine ⟨i, pendingInstr_of_decode_fsmPort (by rw [hfsm]; nofun) (by rw [instrFsm_frame hi, hd, hfsm]) ?_⟩
  rw [hfsm]
  exact decodeFrame_ok.mpr ⟨fr, hfr, hi⟩

/-- In `S_ES_*` the extended squitter in `BUF` selects a row of that state (45_ext_squitter.md R251). -/
theorem SquitterReady.exists_pendingInstr {s : State} (h : SquitterReady s) (hport : fsmPort s.fsm = .squitter) :
    ∃ i, pendingInstr s = some i := by
  obtain ⟨f, c, hf, hdf, hfsm, -⟩ := h
  refine ⟨_, pendingInstr_of_decode_fsmPort (by rw [hport]; nofun) ((instrFsm_squitter s.params f).trans hfsm.symm) ?_⟩
  rw [hport]
  exact decodeSquitter_ok.mpr ⟨f, hf, hdf, rfl⟩

/-- Under the invariant a `PARSE` in progress has an instruction to run. -/
theorem Inv.exists_pendingInstr {s : State} (h : Inv s) (hbusy : s.fsm ≠ .idle) : ∃ i, pendingInstr s = some i := by
  cases hfsm : s.fsm with
  | idle => exact absurd hfsm hbusy
  | check => exact ⟨.parse s.ts (bufBytes s), by rw [pendingInstr, hfsm]⟩
  | df d => exact (h.frameReady d hfsm).exists_pendingInstr hfsm
  | esId | esPos | esVel | esOpaque =>
    have hport : fsmPort s.fsm = .squitter := by rw [hfsm]; rfl
    exact (h.squitterReady hport).exists_pendingInstr hport

/-- A busy step with a pending instruction resets the block or runs that instruction. -/
theorem exists_step_next_of_pending {s : State} {i : Instr} (hbusy : s.fsm ≠ .idle) (hi : pendingInstr s = some i) :
    ∃ t, step s = .next t := by
  by_cases hreset : s.host.head? = some .reset
  · obtain ⟨later, hhost⟩ := List.head?_eq_some_iff.mp hreset
    exact ⟨_, step_reset (bytes := []) (.inr ⟨hbusy, hhost⟩)⟩
  · obtain ⟨t, ht, -⟩ := instructionsEnd i s
    exact ⟨t, (step_pending hbusy hreset hi).trans ht⟩

end Sys2Proof.Machine

open Sys2Proof.Machine

/-- Settles O16: each command's own failures, and none in a row. -/
theorem statusesOfCommands : Obligations.StatusesOfCommands := by
  intro i s t h
  obtain ⟨u, hu, hstatus⟩ := exec_endsIn_statuses i s
  cases h.symm.trans hu
  exact hstatus

/-- Settles O14: at `IDLE` by the ways a fetch can end, in a `PARSE` by the instruction that the invariant makes pending. -/
theorem stepAlwaysNext : Obligations.StepAlwaysNext := by
  intro s hs
  by_cases hidle : s.fsm = .idle
  · rw [step_idle hidle]
    exact exists_stepIdle_next s
  · obtain ⟨i, hi⟩ := hs.exists_pendingInstr hidle
    exact exists_step_next_of_pending hidle hi
end
